-- ==== Sys2Proof/Word.lean ====
section
/-! DEFINITION. Word types of the DA-2460-M: bytes, 32-bit and 64-bit words, beats (R28), nodes (Table 5.11),
instruction words (R131), and the names of units, clusters, regions and shuttles (R9, R10). -/
namespace Sys2Proof

abbrev Byte := BitVec 8
abbrev Word32 := BitVec 32
abbrev Word64 := BitVec 64
/-- A count of beats: 48 bits, wrapping (R31). -/
abbrev Beat := BitVec 48
/-- Site [19:16], W, X, Y, Z (Table 5.11). -/
abbrev Node := BitVec 20
/-- An instruction word of 128 bits (R131). -/
abbrev InstrWord := BitVec 128

/-- The dies as the TAP, the thermal limits and Table 1.1 name them. -/
inductive Die where
  | d0 | d1 | f
  deriving DecidableEq, Repr

/-- Instructions of a TAP instruction register (R568). -/
inductive TapIr where
  | bypass | idcode | sample | extest | clamp | highz
  deriving DecidableEq, Repr

/-- A pin that a boundary register covers (R568): strap bit i, RESET_N, ALERT_N, a pin of the TAP, a command or address pin of
the LPDDR5X. -/
inductive Pin where
  | strap (i : Fin 22) | resetN | alertN | tap (k : Nat) | lpddr (k : Nat)
  deriving DecidableEq, Repr

/-- A unit by its logical number (R9). -/
structure UnitId where
  die : Fin 2
  num : Fin 160
  deriving DecidableEq, Repr

/-- A cluster of a compute die (R10). -/
structure ClusterId where
  die : Fin 2
  num : Fin 20
  deriving DecidableEq, Repr

/-- Shuttle SHk of a cluster (R15). -/
structure ShuttleId where
  cluster : ClusterId
  k : Fin 8
  deriving DecidableEq, Repr

/-- die × 256 + logical unit: the coding of events (R504) and of the address and register maps. -/
def UnitId.key (u : UnitId) : Nat := 256 * u.die.val + u.num.val

/-- 20 d + c: the instance number of the CLU_ and SHT_ blocks (Table 12.1). -/
def ClusterId.key (c : ClusterId) : Nat := 20 * c.die.val + c.num.val

def ShuttleId.key (h : ShuttleId) : Nat := 8 * h.cluster.key + h.k.val

/-- Cluster Cn holds logical units 8n to 8n + 7 (R10). -/
def UnitId.cluster (u : UnitId) : ClusterId :=
  ⟨u.die, ⟨u.num.val / 8, by have := u.num.isLt; omega⟩⟩

/-- The place of a unit within its cluster. -/
def UnitId.slot (u : UnitId) : Fin 8 := ⟨u.num.val % 8, by omega⟩

/-- Unit 8n + i of a cluster (R10). -/
def ClusterId.unit (c : ClusterId) (i : Fin 8) : UnitId :=
  ⟨c.die, ⟨8 * c.num.val + i.val, by have := c.num.isLt; have := i.isLt; omega⟩⟩

/-- Region Qm of a die holds clusters C(5m) to C(5m + 4) (R10); 4 d + m over the module. -/
def ClusterId.region (c : ClusterId) : Fin 8 :=
  ⟨4 * c.die.val + c.num.val / 5, by have := c.die.isLt; have := c.num.isLt; omega⟩

def UnitId.region (u : UnitId) : Fin 8 := u.cluster.region

/-- Every unit of the module, D0.U0 to D1.U159 (R9). -/
def allUnits : List UnitId :=
  (List.finRange 2).flatMap fun d => (List.finRange 160).map fun n => ⟨d, n⟩

/-- Every cluster of the module. -/
def allClusters : List ClusterId :=
  (List.finRange 2).flatMap fun d => (List.finRange 20).map fun n => ⟨d, n⟩

end Sys2Proof
end

