-- ==== Sys2Proof/Syntax.lean ====
section
/-! DEFINITION. The commands of the module: one constructor of Instr for each row of spec/opcode_table.json, with the
payloads of Tables 11.4 to 11.10, the packet header of Table 7.9, the frame of Table 7.3 and the HX header of Table 9.5. -/
namespace Sys2Proof

/-! ## Command datagrams (Table 11.2) -/

/-- What an Ethernet frame brings to its port (R478, R479): the port, the destination MAC address, how many 802.1Q tags
it has, and whether the IP packet in it is a fragment. -/
structure EthIn where
  port : Fin 8
  mac : BitVec 48
  tags : Nat
  fragment : Bool
  deriving DecidableEq, Repr

/-- A UDP datagram in a frame: its destination IP address, an IPv4 one in the form ::ffff:a.b.c.d, and destination UDP port. -/
structure NetIn extends EthIn where
  dst : BitVec 128
  udp : BitVec 16
  deriving DecidableEq, Repr

/-- The header of a request as it arrives, with what R483 and R486 use of the datagram that carried it.
`len` is LEN of the header; `udpLen` is the UDP length of R484's check 4. -/
structure Hdr where
  net : NetIn
  srcAddr : BitVec 128
  srcUdp : BitVec 16
  rev : BitVec 4
  tag : Word32
  seq : Word32
  len : BitVec 16
  udpLen : Nat
  hostid : BitVec 16
  chain : BitVec 16
  lbv : Bool
  nchk : Bool
  cfirst : Bool
  clast : Bool
  node : Node
  lbeat : Beat
  deriving DecidableEq, Repr

/-- The port that a request came in by. -/
abbrev Hdr.port (h : Hdr) : Fin 8 := h.net.port

/-- LAUNCH of Table 11.7. -/
structure LaunchReq where
  umask : BitVec 320
  entry : BitVec 12
  replay : Bool
  canon : Bool
  args : List Word64
  deriving DecidableEq, Repr

/-- LOAD_PROGRAM of Table 11.7. -/
structure LoadReq where
  umask : BitVec 320
  first : BitVec 16
  words : List InstrWord
  deriving DecidableEq, Repr

/-- The write form of SET_ROUTE (Table 11.8): 64 entries of 16 bits in the order of R322, redirects FROM, TO (R448). -/
structure RouteReq where
  bank : Fin 2
  entries : List (BitVec 16)
  redirects : List (Node × Node)
  deriving DecidableEq, Repr

/-- SET_HEDDLE with ACTION install (Table 11.8). -/
structure HeddleReq where
  hid : BitVec 8
  inp : BitVec 4
  outp : BitVec 4
  start : Beat
  len : BitVec 16
  period : BitVec 24
  count : BitVec 16
  deriving DecidableEq, Repr

/-- The payload of COLLECTIVE (Table 11.9) apart from OP, which the row gives. `counts` is absent when CNT is 0;
for A2A it holds p send counts and then p receive counts. -/
structure CollReq where
  axis : Fin 4
  redMax : Bool
  accum : Bool
  close : BitVec 2
  opid : BitVec 16
  sfmt : BitVec 4
  wfmt : BitVec 4
  dfmt : BitVec 4
  root : BitVec 4
  hidUp : BitVec 8
  hidDown : BitVec 8
  src : Word64
  dst : Word64
  total : BitVec 48
  counts : Option (List (BitVec 38))
  step : BitVec 48
  srec : Word64
  bset : Word64
  sem : Option (UnitId × Fin 16)
  deriving DecidableEq, Repr

/-- OP of a COLLECTIVE (Table 11.9). -/
inductive CollOp where
  | rs | ag | ar | bc | a2a
  deriving DecidableEq, Repr

/-- A peer-table entry of HX_CONFIG section 3 (Table 11.10). -/
structure PeerEntry where
  index : BitVec 6
  member : Bool
  node : Node
  addrA : List (BitVec 128)
  addrB : List (BitVec 128)
  keyHash : BitVec 256
  deriving DecidableEq, Repr

/-- HX_CONFIG section 1 (Table 11.10). -/
structure HxGeneral where
  job : BitVec 16
  nshard : BitVec 16
  sbuf : Word64
  sbufSize : Word64
  rbuf : Word64
  rbufSize : Word64
  deriving DecidableEq, Repr

/-- A segment of FW_STAGE or FW_RECOVER (R544). -/
structure FwSegment where
  offset : Word32
  total : Word32
  bytes : List Byte
  deriving DecidableEq, Repr

/-- The opcodes of Table 11.4 with their payloads; `collReserved` has no row of its own: UNDECODED_REQUEST forms it. A
host row of the table carries one of these; a held command of a chain (R490) is kept as one. -/
inductive HostOp where
  | ping
  | regRead (offs : List (BitVec 24))
  | regWrite (entries : List (BitVec 24 × Word32))
  | snapshot
  | memRead (addr : Word64) (c : Word32)
  | memWrite (addr : Word64) (vset : Bool) (version : BitVec 7) (data : List Byte)
  | evtRead (net : BitVec 8) (first : Word32)
  | jnlRead (first : Word32)
  | loadProgram (p : LoadReq)
  | launch (p : LaunchReq)
  | halt (umask : BitVec 320)
  | unitRetire (die : BitVec 8) (unit : BitVec 8)
  | setRouteWrite (p : RouteReq)
  | setRouteSwitch (bank : Fin 2)
  | setHeddleInstall (p : HeddleReq)
  | setHeddleRemove (hid : BitVec 8)
  | cmapRead
  | collective (op : CollOp) (p : CollReq)
  | collReserved (len : Nat) (sfmt wfmt dfmt : BitVec 4)  -- a COLLECTIVE whose OP is outside Table 8.2 (R357)
  | stepResolve (step : BitVec 48) (action : BitVec 8)
  | digest (step : BitVec 48)
  | checkpoint (step : BitVec 48) (id : BitVec 16)
  | restore (id : BitVec 16)
  | refill (buddy : Node) (rid : BitVec 16) (resume : Bool) (sets : List Word64)
  | evacuate (node : Node)
  | pressAcquire (activity : BitVec 8) (ports : BitVec 10) (seconds : Word32)
  | pressRelease (lease : Word32)
  | hxGeneral (p : HxGeneral)
  | hxShards (first : BitVec 16) (recs : List Word64)
  | hxPeers (peers : List PeerEntry)
  | hxMember (mask : Word64)
  | hxCommit
  | hxOuter (o : BitVec 48) (opid0 : BitVec 16)
  | hxApply (o : BitVec 48) (step : BitVec 48) (sem : Option (UnitId × Fin 16))
  | hxFetch (idx : BitVec 8)
  | hxResume (cause : BitVec 8)
  | hxRekey
  | ripRead (first : BitVec 16) (n : BitVec 16)
  | attest (nonce : BitVec 256)
  | fwStage (p : FwSegment)
  | fwCommit (image : BitVec 8) (advance : Bool) (version : Word32)
  | fwRecover (p : FwSegment)
  deriving DecidableEq, Repr

/-! ## Fabric packets and frames -/

/-- A fabric packet: the header of Table 7.9 field by field, the multicast mask of R337 and the payload.
`addr` is bytes 12-19, `vers` byte 24 and `ext` bytes 25-31; COLL and RECOV packets read their own fields there. -/
structure Packet where
  ver : BitVec 4
  typ : BitVec 4
  cls : BitVec 2
  epoch : Bool
  mc : Bool
  det : Bool
  dst : Node
  src : Node
  heddle : BitVec 8
  slice : BitVec 8
  addr : Word64
  tag : Word32
  vers : BitVec 8
  ext : BitVec 56
  mask : Word64
  payload : List Byte
  deriving DecidableEq, Repr

/-- A link-control message (R302). The spec gives none of them a layout. -/
inductive LinkMsg where
  | identity (strap : BitVec 22) (tag : BitVec 8)   -- R311
  | lanes (left : BitVec 4)                         -- R307
  | retrain (lane : Fin 4)                          -- R471
  | retrainAnswer (lane : Fin 4) (accepted : Bool)  -- R471
  deriving DecidableEq, Repr

/-- A digest list as it comes in (R288): its step and its sender. -/
structure ListHead where
  step : BitVec 48
  src : Node
  deriving DecidableEq, Repr

/-- What HELLO_REPLY carries beside the store's identity (R461): its revision, and the TAG that its WACK echoes. -/
structure StoreHello where
  rev : BitVec 16
  tag : Word32
  deriving DecidableEq, Repr

/-- SEALED (R464) as it comes in through a storage port. -/
structure StoreSealed where
  id : BitVec 16
  tag : Word32
  port : Fin 2
  deriving DecidableEq, Repr

/-- A packet whose header comes in on a virtual channel of a port. -/
structure Arrival where
  vc : Fin 16
  pkt : Packet
  deriving DecidableEq, Repr

/-- A link frame (Table 7.3). `crcOk` and `fecOk` are the receiver's findings of R303; `begins` gives the bytes, header, mask and
payload, of each packet whose header begins in the body, the first at word FPO and each other at the next 8-byte boundary. -/
structure Frame where
  fseq : BitVec 12
  aseq : BitVec 12
  ak : BitVec 2
  ftype : BitVec 2
  fpo : BitVec 5
  cvc : BitVec 4
  ccnt : BitVec 11
  csh : Bool
  fvc : BitVec 4
  fsh : Bool
  begins : List Nat
  crcOk : Bool
  fecOk : Bool
  corrected : List (Fin 4 × Nat)  -- symbols that FEC has corrected on each lane since the last frame (R307)
  elastic : Bool                  -- the elastic buffer is above half full (R301)
  ctl : Option LinkMsg            -- the message of a link-control frame
  deriving DecidableEq, Repr

/-- What training a port finds (R310, R311). -/
structure TrainResult where
  signal : Bool
  lanes : BitVec 4
  mode200 : Bool
  peerStrap : BitVec 22
  peerTag : BitVec 8
  delayNs : Nat
  deriving DecidableEq, Repr

/-- A received HX packet of VER 1 (Table 9.5): the datagram and the UDP port it came from, its header fields, the payload
that its ciphertext hides, its tag (R409). -/
structure HxPkt where
  eth : NetIn
  srcUdp : BitVec 16
  resent : Bool
  job : BitVec 16
  src : Node
  dst : Node
  seq : BitVec 48
  kepoch : Word32
  pctr : Word32
  tstamp : Beat
  ostep : Word32
  kind : BitVec 8
  midx : BitVec 6
  offset : BitVec 48
  payload : List Byte
  tag : BitVec 128
  deriving DecidableEq, Repr

/-- The network that an HX packet came in by: 0 for A, 1 for B. -/
abbrev HxPkt.net (p : HxPkt) : Fin 2 := ⟨p.eth.port.val / 4, by have := p.eth.port.isLt; omega⟩

/-- The payload of an ACK (Table 9.6). -/
structure HxAck where
  cum : BitVec 48
  win : BitVec 48
  ets : Beat
  hold : Word32
  ranges : List (BitVec 48 × BitVec 48)
  deriving DecidableEq, Repr

/-- A fragment of a KEYX message (Table 9.8). -/
structure KeyxMsg where
  frag : Byte
  nfrag : Byte
  epoch : Word32
  mlen : Word32
  bytes : List Byte
  deriving DecidableEq, Repr

/-- Where an upset bit pattern stands (R207, R212): a DRAM word or a unit-memory word by its module byte address divided
by 8, or half h of instruction word idx of a unit's store. -/
inductive WordLoc where
  | dram (w : Nat)
  | sram (w : Nat)
  | store (unit : Nat) (idx : Nat) (half : Nat)
  deriving DecidableEq, Repr

/-- Flipped bits of one stored word: [63:0] data, [71:64] the tag byte or poison bit, [86:72] check bits (R217). -/
structure Upset where
  loc : WordLoc
  flips : BitVec 87
  deriving DecidableEq, Repr

/-- One ripening measurement (Table 10.6): class, instance, and the value of its monitor as F32, which R472 compares
with the first-day value. -/
structure RipMeasure where
  cls : BitVec 8
  inst : BitVec 16
  value : Word32
  deriving DecidableEq, Repr

/-- A party that can be armed (R34): a unit, the collective engine for an OPID, a heddle window by HID, or SNAPSHOT. -/
inductive Party where
  | unit (u : UnitId)
  | coll (opid : BitVec 16)
  | heddle (hid : BitVec 8)
  deriving DecidableEq, Repr

/-- A dropped lane's reason (R307). -/
inductive LaneCause where
  | signal | symbols | announced
  deriving DecidableEq, Repr

/-- The rails of Table 14.2, in its order. -/
inductive Rail where
  | hk | vbus | vddF | vddD0 | vddD1 | vddmD0 | vddmD1 | vddioF | vddEth | vdd1 | vdd2h | vdd2l | vddq | opt1v2 | opt3v3
  deriving DecidableEq, Repr

/-- Whether the image region of a flash device reads without error (R532). -/
structure ImageVerdict where
  readOk : Bool
  deriving DecidableEq, Repr

/-- Whether the certificate copies of flash devices 0 and 1 read without error (R539). -/
structure CertRead where
  a : Bool
  b : Bool
  deriving DecidableEq, Repr

/-! ## The commands -/

/-- One constructor for each row of spec/opcode_table.json, in the table's order. -/
inductive Instr where
  -- beats, launches, units (01, 04, 10)
  | pllLockLoss (refClock : Bool)
  | beatBoundary
  | beatSkewCheck (upset : Option (Fin 8 × Beat))
  | launchAtBeat
  | launchLate (p : Party)
  | armingDone
  | unitRetirement (u : UnitId)
  | ueLimitReached (u : UnitId)
  | spareReplacementDone (c : ClusterId)
  | spareBad (c : ClusterId)
  | topBeatLoRead
  | fabEpochInRead (b : Fin 2)
  | topSeedWrite (h : Hdr) (lo hi : Word32)
  | counterWrite (h : Hdr) (off : BitVec 24) (v : Word32)
  | registerWrite (h : Hdr) (off : BitVec 24) (v : Word32)
  -- scalar class (Table 4.4)
  | nop (u : UnitId)
  | li (u : UnitId)
  | add (u : UnitId)
  | addi (u : UnitId)
  | sub (u : UnitId)
  | mul (u : UnitId)
  | and (u : UnitId)
  | or (u : UnitId)
  | xor (u : UnitId)
  | shl (u : UnitId)
  | shr (u : UnitId)
  | sra (u : UnitId)
  | slt (u : UnitId)
  | sltu (u : UnitId)
  | sld (u : UnitId)
  | sst (u : UnitId)
  | jmp (u : UnitId)
  | beqz (u : UnitId)
  | bnez (u : UnitId)
  | dbnz (u : UnitId)
  | call (u : UnitId)
  | ret (u : UnitId)
  | gets (u : UnitId)
  | flags (u : UnitId)
  | whset (u : UnitId)
  | whld (u : UnitId)
  | endInstr (u : UnitId)
  | programEnd (u : UnitId)
  | ifetchEcc (u : UnitId)
  -- matrix class (Table 4.6)
  | mx (u : UnitId)
  | mxQueueJoin (u : UnitId)
  | mxStart (u : UnitId) (group : Fin 7)
  | mxComplete (u : UnitId) (group : Fin 7)
  -- vector class (Table 4.8)
  | vld (u : UnitId)
  | vst (u : UnitId)
  | vbcast (u : UnitId)
  | vadd (u : UnitId)
  | vsub (u : UnitId)
  | vmul (u : UnitId)
  | vfma (u : UnitId)
  | vmax (u : UnitId)
  | vmin (u : UnitId)
  | vabs (u : UnitId)
  | vneg (u : UnitId)
  | vand (u : UnitId)
  | vor (u : UnitId)
  | vxor (u : UnitId)
  | vshl (u : UnitId)
  | vshr (u : UnitId)
  | vcmp (u : UnitId)
  | vsel (u : UnitId)
  | vrsum (u : UnitId)
  | vrmax (u : UnitId)
  | vrmin (u : UnitId)
  | vdrop (u : UnitId)
  | acombine (u : UnitId)
  | cvt (u : UnitId)
  | vcvt (u : UnitId)
  | exp2 (u : UnitId)
  | log2 (u : UnitId)
  | rcp (u : UnitId)
  | rsqrt (u : UnitId)
  | sqrt (u : UnitId)
  | sinpi (u : UnitId)
  | cospi (u : UnitId)
  | tanh (u : UnitId)
  | sigmoid (u : UnitId)
  | erf (u : UnitId)
  | rownormL (u : UnitId)
  | rownormR (u : UnitId)
  | rowsmax (u : UnitId)
  | rowrecompL (u : UnitId)
  | rowrecompR (u : UnitId)
  | rowrecompS (u : UnitId)
  -- shuttle issue and synchronisation
  | shissue (u : UnitId)
  | shissueWaitEnd (u : UnitId)
  | bwait (u : UnitId)
  | bwaitComplete (u : UnitId)
  | barrier (u : UnitId)
  | barTimeout (u : UnitId)
  | semwait (u : UnitId)
  | semwaitWake (u : UnitId)
  | semsig (u : UnitId)
  | semsigArrival (src : UnitId) (tgt : Fin 8)
  | fence (u : UnitId)
  | fenceComplete (u : UnitId)
  | semset (u : UnitId)
  | unitFaultClear (h : Hdr) (u : UnitId)
  | unitMxStatusWrite (h : Hdr) (u : UnitId) (v : Word32)
  | unitOwnWrite (h : Hdr) (u : UnitId) (n : Fin 8) (v : Word32)
  | ownerChangeEffect (u : UnitId) (bank : Fin 32)
  -- shuttles
  | shuttleChainStart (sh : ShuttleId)
  | copyDescriptor (sh : ShuttleId)
  | ownDescriptor (sh : ShuttleId)
  | fillDescriptor (sh : ShuttleId)
  | chainComplete (sh : ShuttleId)
  -- memory
  | memChannelFail (ch : Fin 192)
  | dramPatrolVisit (ch : Fin 192) (struck : List Upset)
  | sramPatrol (u : UnitId) (struck : List Upset)
  | sramPatrolForce (u : UnitId) (bank : Fin 32)
  | memCfgWrite (h : Hdr) (v : Word32)
  | shtNfClear (h : Hdr) (c : ClusterId) (v : Word32)
  -- training state
  | flagPhaseBegin (opid : BitVec 16)
  | gradFlagDone (opid : BitVec 16)
  | updateFlagDone (opid : BitVec 16)
  | commitResume
  | bobbinClaim (opid : BitVec 16)
  | bobbinClaimRetry (opid : BitVec 16)
  | bobbinStall (opid : BitVec 16)
  | shardDigestDone
  | digestListReceive (head : ListHead) (digests : List (BitVec 128))
  -- fabric
  | laneDrop (port : Fin 10) (lane : Fin 4) (cause : LaneCause)
  | laneRestripeDone (port : Fin 10)
  | portDown (port : Fin 10) (cause : BitVec 4)
  | portSilentTimeout (port : Fin 10)
  | portTrain (port : Fin 10) (r : TrainResult)
  | portTrainRetry (port : Fin 10) (r : Option TrainResult)
  | frameReceive (port : Fin 10) (f : Frame)
  | retryTimeout (port : Fin 10)
  | packetRoute (port : Fin 11) (p : Arrival)
  | remoteWriteReceive (p : Packet)
  | wackReceive (p : Packet)
  | wnakReceive (p : Packet)
  | e2eTimeout (sh : ShuttleId) (tag : Word32)
  | setRouteWrite (h : Hdr) (p : RouteReq)
  | setRouteSwitch (h : Hdr) (bank : Fin 2)
  | setHeddleInstall (h : Hdr) (p : HeddleReq)
  | setHeddleRemove (h : Hdr) (hid : BitVec 8)
  | heddleWindowOpen (hid : BitVec 8)
  | heddleWindowClose (hid : BitVec 8)
  | cmapIntervalClose
  | cmapRead (h : Hdr)
  | fabPortCtlWrite (h : Hdr) (port : Fin 10) (v : Word32)
  | fabTorusSizeWrite (h : Hdr) (v : Word32)
  | fabSliceSizeWrite (h : Hdr) (v : Word32)
  | fabSlicePosWrite (h : Hdr) (v : Word32)
  | fabStandinWrite (h : Hdr) (v : Word32)
  -- collectives
  | collectiveRs (h : Hdr) (p : CollReq)
  | collectiveAg (h : Hdr) (p : CollReq)
  | collectiveAr (h : Hdr) (p : CollReq)
  | collectiveBc (h : Hdr) (p : CollReq)
  | collectiveA2a (h : Hdr) (p : CollReq)
  | collectiveStart (opid : BitVec 16)
  | collRsData (p : Packet)
  | collAgData (p : Packet)
  | collBcData (p : Packet)
  | collA2aData (p : Packet)
  | collFlag (p : Packet)
  | collRind (p : Packet)
  | collAbort (p : Packet)
  | collWackReceive (p : Packet)
  | collResendTimeout (opid : BitVec 16) (tag : Word32)
  | collectiveComplete (opid : BitVec 16)
  | colRindCtlWrite (h : Hdr) (reg : Fin 3) (lo hi : Word32)
  | colStepAddrWrite (h : Hdr) (lo hi : Word32)
  -- the exchange between sites
  | hxConfigGeneral (h : Hdr) (p : HxGeneral)
  | hxConfigShards (h : Hdr) (first : BitVec 16) (recs : List Word64)
  | hxConfigPeers (h : Hdr) (peers : List PeerEntry)
  | hxConfigMember (h : Hdr) (mask : Word64)
  | hxConfigCommit (h : Hdr)
  | hxOuter (h : Hdr) (o : BitVec 48) (opid0 : BitVec 16)
  | hxBoundaryDone
  | hxMerge
  | hxImage (peer : BitVec 6) (o : BitVec 48)
  | hxDigest (peer : BitVec 6) (o : BitVec 48) (mask : Word64) (digests : List (BitVec 128))
  | hxApply (h : Hdr) (o : BitVec 48) (step : BitVec 48) (sem : Option (UnitId × Fin 16))
  | hxApplyDone
  | hxFetch (h : Hdr) (idx : BitVec 8)
  | hxResume (h : Hdr) (cause : BitVec 8)
  | hxRekey (h : Hdr)
  | hxCfgWrite (h : Hdr) (v : Word32)
  | hxDataReceive (p : HxPkt)
  | hxAckReceive (p : HxPkt) (a : HxAck)
  | hxAckTimer (peer : BitVec 6) (net : Fin 2)
  | hxRtoExpire (peer : BitVec 6) (net : Fin 2)
  | hxProbeTimer (peer : BitVec 6) (net : Fin 2)
  | hxProbeReceive (p : HxPkt)
  | hxEchoReceive (p : HxPkt) (ets : Beat) (hold : Word32)
  | hxPathDown (peer : BitVec 6) (net : Fin 2)
  | hxPeerLost (peer : BitVec 6)
  | hxDropped (peer : BitVec 6)
  | keyxOffer (peer : BitVec 6) (m : KeyxMsg)
  | keyxReply (peer : BitVec 6) (m : KeyxMsg)
  | keyxConfirm (peer : BitVec 6) (m : KeyxMsg)
  | keyxDone (peer : BitVec 6) (m : KeyxMsg)
  | keyxAbort (peer : BitVec 6) (m : KeyxMsg)
  | keyxResend (peer : BitVec 6)
  | keyRollStart (peer : BitVec 6)
  | hxKeyStall (peer : BitVec 6)
  | keyStallEnd (peer : BitVec 6)
  | keyRetire (peer : BitVec 6)
  | join (peer : BitVec 6) (j : BitVec 48)
  | joinReply (peer : BitVec 6) (accepted : Bool) (bstep : BitVec 48)
  | fetch (peer : BitVec 6)
  | state (peer : BitVec 6) (shard : BitVec 8) (astep : BitVec 48) (bytes : List Byte)
  | momentum (peer : BitVec 6) (shard : BitVec 8) (bytes : List Byte)
  | imageFwd (peer : BitVec 6) (midx : BitVec 6) (o : BitVec 48) (shard : BitVec 8) (bytes : List Byte)
  | hxJoined
  -- failure paths, checkpoints, ripening
  | stepResolveGradClear (h : Hdr) (step : BitVec 48)
  | stepResolveSkipGrad (h : Hdr) (step : BitVec 48)
  | stepResolveCommit (h : Hdr) (step : BitVec 48)
  | stepResolveSkipUpdate (h : Hdr) (step : BitVec 48)
  | memReload (line : Word64)
  | lineRead (p : Packet)
  | lineData (p : Packet)
  | recovNak (p : Packet)
  | refill (h : Hdr) (buddy : Node) (rid : BitVec 16) (resume : Bool) (sets : List Word64)
  | segData (p : Packet)
  | segDone (p : Packet)
  | segRead (p : Packet)
  | refillDone
  | evacuate (h : Hdr) (node : Node)
  | evacuated
  | helloReply (port : Fin 2) (storeId : Word64) (rev : StoreHello)
  | checkpoint (h : Hdr) (step : BitVec 48) (id : BitVec 16)
  | sealed (id : StoreSealed)
  | ckpSealTimeout
  | restore (h : Hdr) (id : BitVec 16)
  | ckpDue
  | digest (h : Hdr) (step : BitVec 48)
  | pressAcquire (h : Hdr) (activity : BitVec 8) (ports : BitVec 10) (seconds : Word32)
  | pressRelease (h : Hdr) (lease : Word32)
  | pressExpired (lease : Word32)
  | laneRetrainRequest (port : Fin 10) (lane : Fin 4)
  | ripeningUpdate (measures : List RipMeasure)
  | ripRead (h : Hdr) (first : BitVec 16) (n : BitVec 16)
  -- host commands
  | ping (h : Hdr)
  | regRead (h : Hdr) (offs : List (BitVec 24))
  | regWrite (h : Hdr) (entries : List (BitVec 24 × Word32))
  | snapshot (h : Hdr)
  | memRead (h : Hdr) (addr : Word64) (c : Word32)
  | memWrite (h : Hdr) (addr : Word64) (vset : Bool) (version : BitVec 7) (data : List Byte)
  | evtRead (h : Hdr) (net : BitVec 8) (first : Word32)
  | jnlRead (h : Hdr) (first : Word32)
  | loadProgram (h : Hdr) (p : LoadReq)
  | launch (h : Hdr) (p : LaunchReq)
  | halt (h : Hdr) (umask : BitVec 320)
  | unitRetire (h : Hdr) (die : BitVec 8) (unit : BitVec 8)
  | chainCommandRelease (chain : BitVec 16)
  | chainHoldTimeout (chain : BitVec 16)
  | neighbourSolicitation (port : EthIn) (target : BitVec 128)
  | arpRequest (port : EthIn) (target : Word32)
  | echoRequest (port : EthIn) (v6 : Bool) (dst : BitVec 128) (data : List Byte)
  | ethPortNegotiate (port : Fin 8) (mode : BitVec 4)
  | topCmdUdpWrite (h : Hdr) (v : Word32)
  | topEthCfgWrite (h : Hdr) (v : Word32)
  | topAlertClear (h : Hdr) (v : Word32)
  | paritySweep (struck : List (BitVec 24 × Word32))
  | attest (h : Hdr) (nonce : BitVec 256)
  | quoteSigned (nonce : BitVec 256)
  | fwStage (h : Hdr) (p : FwSegment)
  | fwStageDone (v : ImageVerdict) (readback : Bool)
  | fwStageAbandon
  | fwCommit (h : Hdr) (image : BitVec 8) (advance : Bool) (version : Word32)
  | fwRecover (h : Hdr) (p : FwSegment) (v : ImageVerdict)
  -- start-up, power, pins
  | inputSwitchClose (mv : BitVec 32)
  | railSequenceDone (good : Bool)
  | resetRelease (strap : BitVec 22)
  | sramClearDone
  | bootVerify (va vb : ImageVerdict) (certs : CertRead)
  | memTrainingDone (failed : Option (Fin 192))
  | dramZeroDone
  | ready (mv ma : Word32)
  | secondImageVerify (v : ImageVerdict)
  | inputUndervoltage (mv : Word32)
  | inputOvervoltage (mv : Word32)
  | pwrInput (mv : Word32)
  | resetNAssert (ns : Nat)
  | railFault (rail : Rail) (ovp : Bool)
  | inputOc (ma : Word32)
  | throttleUpdate (mv ma : Word32) (need : Fin 64) (temp : BitVec 12) (die : Die)
  | pwrCapWrite (h : Hdr) (v : Word32)
  | dieHot (die : Die)
  | boardHot
  | coolantWarm (inlet outlet : BitVec 16)
  | coolantFault (inlet outlet : BitVec 16)
  | hkLinkLoss
  | scanInstruction (die : Die) (ir : TapIr)
  | laserLow (fibre : Fin 10) (power : BitVec 16)
  | laserHigh (fibre : Fin 10) (power : BitVec 16)
  | recovWack (p : Packet)
  | recovResendTimeout (tag : Word32)
  | collWnak (p : Packet)
  | ethernetPortDown (port : Fin 8)
  | undecodedRequest (port : NetIn) (srcAddr : BitVec 128) (srcUdp : BitVec 16) (udpLen : Nat) (bytes : List Byte)
  | laneRetrainDone (port : Fin 10) (lane : Fin 4)
  | laneRetrainRetry (port : Fin 10) (lane : Fin 4)
  | resetNRelease
  | rootPllLockTimeout (refClock : Bool)
  | ckpInterval
  deriving DecidableEq, Repr

end Sys2Proof
end

