-- ==== Sys2Proof/Decode.lean ====
section
/-! DEFINITION. The command that a table word spells. No row of the opcode table gives bits: commands reach this block as
datagrams, packets and events with their fields, not as words. -/
namespace Sys2Proof

/-- The rows that give bits: none. -/
def tableRowsWithBits : List (Nat × Nat × Nat × Instr) := []

/-- The command of the first row with this number of bits whose pattern the word matches under its mask. -/
def matchRow (nbits w : Nat) : List (Nat × Nat × Nat × Instr) → Option Instr
  | [] => none
  | (n, mask, pat, i) :: t => if n = nbits ∧ w &&& mask = pat then some i else matchRow nbits w t

/-- DESIGN CHOICE, log entry 27. -/
def decodeTableWord (nbits w : Nat) : Option Instr := matchRow nbits w tableRowsWithBits

end Sys2Proof
end

