-- ==== Sys2Proof/Config.lean ====
section
/-! DEFINITION. What an implementation fixes and the spec leaves open: free values, as constants with no body. A statement
about one of them holds whatever its value is. -/
namespace Sys2Proof

/-- The n-th free value a run takes (R177, R218): any bits. DESIGN CHOICE, log entry 15. -/
opaque Config.freeBits : Nat → Word64

/-- Results of the special functions that R156 bounds but does not fix: for each, which of the candidates within the
bound of Table 4.12 the hardware returns for an input. DESIGN CHOICE, log entry 14. -/
opaque Config.pick : Nat → Word32 → Nat

/-- The X8 code of a block whose exponent E, with 127 added, exceeds every finite scale's code (R65 states none).
DESIGN CHOICE, log entry 90. -/
opaque Config.wideScale : Int → Byte

/-- SHA-256 (FIPS 180-4) of a byte string: named by the spec, not given by it. DESIGN CHOICE, log entry 20. -/
opaque Config.sha256 : List Byte → BitVec 256

/-- HMAC-SHA-256 of a key and a message (R422). DESIGN CHOICE, log entry 20. -/
opaque Config.hmac : BitVec 256 → List Byte → BitVec 256

/-- Byte i of HKDF-SHA-256 (RFC 5869) of input keying material, salt and info (R424, R538). DESIGN CHOICE, log entry 20. -/
opaque Config.hkdf : List Byte → List Byte → List Byte → Nat → Byte

/-- ML-KEM-1024 (FIPS 203): byte i of the encapsulation key of a seed, byte i of the ciphertext that encapsulation under a
key makes from 32 random bytes, its shared secret, and the secret that the seed's private key finds in a ciphertext.
DESIGN CHOICE, log entry 20. -/
opaque Config.kemKey : List Byte → Nat → Byte
opaque Config.kemCipher : List Byte → List Byte → Nat → Byte
opaque Config.kemShared : List Byte → List Byte → BitVec 256
opaque Config.kemOpen : List Byte → List Byte → BitVec 256

/-- SLH-DSA-SHA2 (FIPS 205, pure form, empty context): byte i of the public key of a 48-byte secret, byte i of its signature
of a message, and whether a signature of a message verifies under a key, for parameter set 128f or 256s.
DESIGN CHOICE, log entry 20. -/
opaque Config.slhKey : List Byte → Nat → Byte
opaque Config.slhSign : List Byte → List Byte → Nat → Byte
opaque Config.slhVerify128f : List Byte → List Byte → List Byte → Bool
opaque Config.slhVerify256s : List Byte → List Byte → List Byte → Bool

/-- AES-256-GCM: byte i of the key stream of a key and nonce, and the tag of additional data and ciphertext (R409).
DESIGN CHOICE, log entry 20. -/
opaque Config.gcmStream : BitVec 256 → BitVec 96 → Nat → Byte
opaque Config.gcmTag : BitVec 256 → BitVec 96 → List Byte → List Byte → BitVec 128

/-- What both flash devices hold as shipped: the factory image and its commit record (R574), the identity certificate
(R539); and how many bytes the first sector has beyond an image header. DESIGN CHOICE, log entry 35. -/
opaque Config.factoryImage : List Byte
opaque Config.factoryRecord : List Byte
opaque Config.factoryCert : List Byte
opaque Config.sectorRest : Nat

/-- Byte i of a frame body that the spec gives no contents: an idle frame's, what pads a packet's last frame, a link-control
message by a number of its own. DESIGN CHOICE, log entry 44. -/
opaque Config.idleByte : Nat → Byte
opaque Config.linkByte : Nat → Nat → Byte

/-- The boundary scan (R568) beyond what the spec gives: the 8-bit code of an instruction other than BYPASS, the pins that the
cells of a die's boundary register cover, in shift order, and the level of a pin that the module's state does not hold, as the
n-th free value. DESIGN CHOICE, log entry 103. -/
opaque Config.tapCode : TapIr → BitVec 8
opaque Config.boundary : Die → List Pin
opaque Config.pinLevel : Nat → Pin → Bool

/-- The unit-state summary of PING (Table 11.4), from the numbers of ARMED, RUNNING and FAULTED units.
DESIGN CHOICE, log entry 19. -/
opaque Config.unitSummary : Nat → Nat → Nat → BitVec 16

/-- The code that an event carries for an outcome of a collective: 0 completion, 1 to 5 the rows of Table 8.6. The spec
names the outcomes and gives no numbers. DESIGN CHOICE, log entry 19. -/
opaque Config.outcomeCode : Nat → BitVec 16

/-- What an export header record (Table 6.6) says of a tensor of the job by its index: TENSOR_ID, RANK, the bytes of DIM0 to
DIM5, and FLAT_LO of this module's shard. The host knows them; no field of the module's state holds them.
DESIGN CHOICE, log entry 23. -/
opaque Config.tensorId : BitVec 16 → Word64
opaque Config.tensorRank : BitVec 16 → BitVec 8
opaque Config.tensorDims : BitVec 16 → BitVec 864
opaque Config.tensorLo : BitVec 16 → BitVec 48

end Sys2Proof
end

