-- ==== Sys2Proof/Machine/Num.lean ====
section
/-! DEFINITION. Numbers: the exact values that the formats of Table 2.1 stand for, and their rounding (02, R47-R84).
A finite value is sign, magnitude m and exponent e: ±m × 2^e, so that sums and products are exact; quotients and roots
carry a sticky last bit below every bit that a rounding of the module keeps. -/
namespace Sys2Proof.Machine

/-- A floating-point value before rounding. A zero has m = 0 and keeps its sign (R52). -/
inductive Val where
  | nan
  | inf (neg : Bool)
  | fin (neg : Bool) (m : Nat) (e : Int)
  deriving DecidableEq, Repr

/-- Parameters of a floating-point format (Tables 2.2, 2.3): mantissa bits, exponent bits, bias, largest finite magnitude
code, infinity code (0 for none), canonical NaN code. -/
structure FFmt where
  p : Nat
  q : Nat
  bias : Nat
  maxCode : Nat
  infCode : Nat
  nanCode : Nat
  deriving DecidableEq, Repr

def fmtF32 : FFmt := ⟨23, 8, 127, 0x7F7FFFFF, 0x7F800000, 0x7FC00000⟩
def fmtF16 : FFmt := ⟨10, 5, 15, 0x7BFF, 0x7C00, 0x7E00⟩
def fmtB16 : FFmt := ⟨7, 8, 127, 0x7F7F, 0x7F80, 0x7FC0⟩
def fmtF8V : FFmt := ⟨3, 4, 7, 0x7D, 0x7E, 0x7F⟩
def fmtF8G : FFmt := ⟨2, 5, 15, 0x7B, 0x7C, 0x7E⟩
def fmtF6A : FFmt := ⟨2, 3, 3, 0x1F, 0, 0⟩
def fmtF6B : FFmt := ⟨3, 2, 1, 0x1F, 0, 0⟩
def fmtF4 : FFmt := ⟨1, 2, 1, 0x7, 0, 0⟩

/-- The value of a code (R48, R50). -/
def FFmt.decode (f : FFmt) (code : Nat) : Val :=
  let mag := code % 2 ^ (f.p + f.q)
  let neg := (code / 2 ^ (f.p + f.q)) % 2 == 1
  if f.infCode ≠ 0 ∧ mag = f.infCode then .inf neg
  else if f.infCode ≠ 0 ∧ f.infCode < mag then .nan
  else
    let be := mag / 2 ^ f.p
    let m := mag % 2 ^ f.p
    if be = 0 then .fin neg m (1 - (f.bias : Int) - f.p)
    else .fin neg (2 ^ f.p + m) ((be : Int) - f.bias - f.p)

/-- m × 2^e in units of the format's spacing at its magnitude: the magnitude code below, the part of a unit left over, and
the bits of that part. -/
def FFmt.floorCode (f : FFmt) (m : Nat) (e : Int) : Nat × Nat × Nat :=
  if m = 0 then (0, 0, 0)
  else
    let emin : Int := 1 - (f.bias : Int)
    let top : Int := (Nat.log2 m : Int) + e
    let ex : Int := max top emin
    let unit : Int := ex - f.p
    let k : Int := unit - e
    let sh := k.toNat
    let whole := if k ≤ 0 then m * 2 ^ (-k).toNat else m / 2 ^ sh
    let rest := if k ≤ 0 then 0 else m % 2 ^ sh
    ((ex - emin).toNat * 2 ^ f.p + whole, rest, sh)

/-- Round-to-nearest-even of a magnitude to a magnitude code (R70); a code above maxCode is out of range (R71). -/
def FFmt.nearest (f : FFmt) (m : Nat) (e : Int) : Nat :=
  let (c, rest, sh) := f.floorCode m e
  if 2 ^ sh < 2 * rest ∨ (2 ^ sh = 2 * rest ∧ sh ≠ 0 ∧ c % 2 = 1) then c + 1 else c

/-- The stochastic rounding of R72 with draw r. -/
def FFmt.stochastic (f : FFmt) (m : Nat) (e : Int) (r : Nat) : Nat :=
  let (c, rest, sh) := f.floorCode m e
  if 2 ^ 16 ≤ r + 2 ^ 16 * rest / 2 ^ sh then c + 1 else c

def FFmt.signBit (f : FFmt) (neg : Bool) : Nat := if neg then 2 ^ (f.p + f.q) else 0

/-- Overflow becomes an infinity of its sign (R71, R76). -/
def FFmt.pack (f : FFmt) (neg : Bool) (c : Nat) : Nat :=
  f.signBit neg + (if f.maxCode < c then f.infCode else c)

/-- Round a value to a format by round-to-nearest-even; a NaN becomes the canonical NaN (R50, R76). -/
def FFmt.round (f : FFmt) : Val → Nat
  | .nan => f.nanCode
  | .inf neg => f.signBit neg + f.infCode
  | .fin neg m e => f.pack neg (f.nearest m e)

def FFmt.roundStochastic (f : FFmt) (r : Nat) : Val → Nat
  | .nan => f.nanCode
  | .inf neg => f.signBit neg + f.infCode
  | .fin neg m e => f.pack neg (f.stochastic m e r)

/-! ## Exact arithmetic (R76, IEEE 754 signs of zero under R52) -/

def Val.isNan : Val → Bool
  | .nan => true
  | _ => false

def Val.finite : Val → Bool
  | .fin .. => true
  | _ => false

def Val.isZero : Val → Bool
  | .fin _ m _ => m == 0
  | _ => false

def Val.isNeg : Val → Bool
  | .nan => false
  | .inf n => n
  | .fin n _ _ => n

def Val.negate : Val → Val
  | .nan => .nan
  | .inf n => .inf (!n)
  | .fin n m e => .fin (!n) m e

def Val.abs : Val → Val
  | .nan => .nan
  | .inf _ => .inf false
  | .fin _ m e => .fin false m e

def Val.zero : Val := .fin false 0 0
def Val.one : Val := .fin false 1 0

def Val.ofInt (i : Int) : Val := .fin (i < 0) i.natAbs 0

/-- Multiply by 2^n. -/
def Val.scale (n : Int) : Val → Val
  | .fin s m e => .fin s m (e + n)
  | v => v

/-- The signed magnitude of a finite value in units of 2^e0, for e0 no more than its exponent. -/
def signedAt (neg : Bool) (m : Nat) (e e0 : Int) : Int :=
  let a : Int := (m * 2 ^ (e - e0).toNat : Nat)
  if neg then -a else a

def Val.add : Val → Val → Val
  | .nan, _ => .nan
  | _, .nan => .nan
  | .inf a, .inf b => if a = b then .inf a else .nan
  | .inf a, _ => .inf a
  | _, .inf b => .inf b
  | .fin sa ma ea, .fin sb mb eb =>
    if ma = 0 ∧ mb = 0 then .fin (sa && sb) 0 0
    else if ma = 0 then .fin sb mb eb
    else if mb = 0 then .fin sa ma ea
    else
      let e0 := min ea eb
      let s := signedAt sa ma ea e0 + signedAt sb mb eb e0
      .fin (s < 0) s.natAbs e0

def Val.sub (a b : Val) : Val := a.add b.negate

def Val.mul : Val → Val → Val
  | .nan, _ => .nan
  | _, .nan => .nan
  | .inf a, .inf b => .inf (a ^^ b)
  | .inf a, .fin b m _ => if m = 0 then .nan else .inf (a ^^ b)
  | .fin a m _, .inf b => if m = 0 then .nan else .inf (a ^^ b)
  | .fin sa ma ea, .fin sb mb eb => .fin (sa ^^ sb) (ma * mb) (ea + eb)

/-- Quotient with a sticky last bit (R76 for the invalid cases). -/
def Val.div : Val → Val → Val
  | .nan, _ => .nan
  | _, .nan => .nan
  | .inf _, .inf _ => .nan
  | .inf a, .fin b _ _ => .inf (a ^^ b)
  | .fin a _ _, .inf b => .fin (a ^^ b) 0 0
  | .fin sa ma ea, .fin sb mb eb =>
    if mb = 0 then (if ma = 0 then .nan else .inf (sa ^^ sb))
    else if ma = 0 then .fin (sa ^^ sb) 0 0
    else
      let k := 96 + Nat.log2 mb
      let n := ma * 2 ^ k
      .fin (sa ^^ sb) (2 * (n / mb) + (if n % mb = 0 then 0 else 1)) (ea - eb - k - 1)

/-- Integer square root by bits: the largest r with r² ≤ n that is below 2^(k + 1) above the bits in `r`. -/
def isqrtBits (n : Nat) : Nat → Nat → Nat
  | 0, r => if (r + 1) * (r + 1) ≤ n then r + 1 else r
  | k + 1, r =>
    let r' := r + 2 ^ (k + 1)
    isqrtBits n k (if r' * r' ≤ n then r' else r)

def isqrt (n : Nat) : Nat := isqrtBits n (Nat.log2 n / 2 + 1) 0

/-- Square root with a sticky last bit. A negative operand is invalid; SQRT(−0) = −0 (Table 4.12). -/
def Val.sqrt : Val → Val
  | .nan => .nan
  | .inf neg => if neg then .nan else .inf false
  | .fin neg m e =>
    if m = 0 then .fin neg 0 0
    else if neg then .nan
    else
      let k := 128 + (e % 2).toNat
      let n := m * 2 ^ k
      let r := isqrt n
      .fin false (2 * r + (if r * r = n then 0 else 1)) ((e - k) / 2 - 1)

/-- Reciprocal square root with a sticky last bit; RSQRT(±0) = ±∞ (Table 4.12). -/
def Val.rsqrt : Val → Val
  | .nan => .nan
  | .inf neg => if neg then .nan else .fin false 0 0
  | .fin neg m e =>
    if m = 0 then .inf neg
    else if neg then .nan
    else
      let odd := (e % 2).toNat
      let m' := m * 2 ^ odd
      let k := 128 + Nat.log2 m'
      let r := isqrt (2 ^ (2 * k) / m')
      .fin false (2 * r + (if r * r * m' = 2 ^ (2 * k) then 0 else 1)) (-((e - odd) / 2) - k - 1)

/-- Comparison of finite or infinite values: less than, with +0 and −0 equal. NaN is never less. -/
def Val.lt : Val → Val → Bool
  | .nan, _ => false
  | _, .nan => false
  | .inf a, .inf b => a && !b
  | .inf a, _ => a
  | _, .inf b => !b
  | .fin sa ma ea, .fin sb mb eb =>
    let e0 := min ea eb
    decide (signedAt sa ma ea e0 < signedAt sb mb eb e0)

def Val.eq : Val → Val → Bool
  | .nan, _ => false
  | _, .nan => false
  | .inf a, .inf b => a == b
  | .inf _, _ => false
  | _, .inf _ => false
  | .fin sa ma ea, .fin sb mb eb =>
    let e0 := min ea eb
    decide (signedAt sa ma ea e0 = signedAt sb mb eb e0)

/-- VMAX (R148): the canonical NaN when either is a NaN; of +0 and −0, +0. -/
def Val.max (a b : Val) : Val :=
  if a.isNan || b.isNan then .nan
  else if a.isZero && b.isZero then .fin (a.isNeg && b.isNeg) 0 0
  else if a.lt b then b else a

/-- VMIN (R148); of +0 and −0, −0. -/
def Val.min (a b : Val) : Val :=
  if a.isNan || b.isNan then .nan
  else if a.isZero && b.isZero then .fin (a.isNeg || b.isNeg) 0 0
  else if b.lt a then b else a

/-- Round to an integer by round-to-nearest-even (R59). -/
def roundInt (neg : Bool) (m : Nat) (e : Int) : Int :=
  let k := (-e).toNat
  let a := if 0 ≤ e then m * 2 ^ e.toNat
    else
      let d := m / 2 ^ k
      let r := m % 2 ^ k
      if 2 ^ k < 2 * r ∨ (2 ^ k = 2 * r ∧ d % 2 = 1) then d + 1 else d
  if neg then -(a : Int) else a

/-! ## F32 operations, each rounded once (R147) -/

def f32 (w : Word32) : Val := fmtF32.decode w.toNat
def toF32 (v : Val) : Word32 := BitVec.ofNat 32 (fmtF32.round v)
def b16 (h : BitVec 16) : Val := fmtB16.decode h.toNat
def toB16 (v : Val) : BitVec 16 := BitVec.ofNat 16 (fmtB16.round v)

def f32Add (a b : Word32) : Word32 := toF32 ((f32 a).add (f32 b))
def f32Sub (a b : Word32) : Word32 := toF32 ((f32 a).sub (f32 b))
def f32Mul (a b : Word32) : Word32 := toF32 ((f32 a).mul (f32 b))
def f32Div (a b : Word32) : Word32 := toF32 ((f32 a).div (f32 b))
def f32Fma (a b c : Word32) : Word32 := toF32 (((f32 a).mul (f32 b)).add (f32 c))
def f32Max (a b : Word32) : Word32 := toF32 ((f32 a).max (f32 b))
def f32Neg (a : Word32) : Word32 := toF32 (f32 a).negate

/-- An infinity or a NaN, which sets a non-finite flag (R77). -/
def f32Special (w : Word32) : Bool := !(f32 w).finite

/-! ## F32K (R53-R55, R111) -/

/-- v and its error term e. -/
structure F32K where
  v : Word32
  e : Word32
  deriving DecidableEq, Repr

/-- The number that an F32K word stands for (R53, R54). -/
def F32K.val (a : F32K) : Val :=
  let v := f32 a.v
  let e := f32 a.e
  if !v.finite then v else if v.isZero && e.isZero then v else v.add e

/-- A normalised F32K (R54). -/
def F32K.ofVal (x : Val) : F32K :=
  let v := toF32 x
  if !(f32 v).finite || (f32 v).isZero then ⟨v, 0⟩ else ⟨v, toF32 (x.sub (f32 v))⟩

def F32K.ofWord (w : Word64) : F32K := ⟨w.extractLsb' 0 32, w.extractLsb' 32 32⟩
def F32K.toWord (a : F32K) : Word64 := a.e ++ a.v

/-- add_k of R111. A first sum that overflows or is a NaN stands, with e = +0 (R54). A word whose v and e are zeros stands
for v (R53), so that e adds nothing and a sum of zeros keeps its sign (R52, R113). DESIGN CHOICE, log entry 90. -/
def F32K.addVal (a : F32K) (p : Val) : F32K :=
  let exact := (f32 a.v).add p
  let s := toF32 exact
  if !(f32 s).finite then ⟨s, 0⟩
  else
    let t := exact.sub (f32 s)
    let e := toF32 ((f32 a.e).add t)
    let v := if (f32 e).isZero then s else toF32 ((f32 s).add (f32 e))
    let r := toF32 ((f32 e).sub ((f32 v).sub (f32 s)))
    if !(f32 v).finite || (f32 v).isZero then ⟨v, 0⟩ else ⟨v, r⟩

/-- F32K plus F32K adds b.v and then b.e (R111); a word of zeros is b.v alone (R54), so that a sum of zeros keeps its sign.
DESIGN CHOICE, log entry 90. -/
def F32K.add (a b : F32K) : F32K :=
  let s := a.addVal (f32 b.v)
  if !(f32 b.v).finite || ((f32 b.v).isZero && (f32 b.e).isZero) then s else s.addVal (f32 b.e)

/-! ## Block scales (R60-R62) -/

/-- The scale 2^(c − 127) of an X8 code from 0x01 to 0xFE, as an exponent. -/
def x8Exp (c : Byte) : Int := (c.toNat : Int) - 127

/-! ## Draws (R73) -/

def drawRound (a b : Word64) : Nat → Word64
  | 0 => a
  | n + 1 =>
    let a1 := a + b * 0xD1B54A32D192ED03
    let a2 := (a1 ^^^ (a1 >>> 29)) * 0xBF58476D1CE4E5B9
    let a3 := a2 ^^^ (a2 >>> 32)
    drawRound a3 (b + 0x9E3779B97F4A7C15) n

def draw64 (seed : Word64) (step : Word32) (stream purpose : BitVec 16) (index : Word64) : Word64 :=
  drawRound (seed ^^^ (step.zeroExtend 64 <<< 32) ^^^ (stream.zeroExtend 64 <<< 16) ^^^ purpose.zeroExtend 64) index 4

def draw16 (seed : Word64) (step : Word32) (stream purpose : BitVec 16) (pos : Word64) : BitVec 16 :=
  let w := draw64 seed step stream purpose (pos >>> 2)
  (w >>> (16 * (pos.toNat % 4))).extractLsb' 0 16

end Sys2Proof.Machine
end

