-- ==== Sys2Proof/Machine/State.lean ====
section
/-! DEFINITION. The state of the module, as plain data. Sparse tables are lists of (key, value) sorted by key in which a
key that is not listed holds the table's default value (Ops.lean reads and writes them); every register with a
reset value in the spec is read through such a default. -/
namespace Sys2Proof.Machine

/-- A sparse table: keys rising, no entry equal to the table's default. -/
abbrev Tab (α : Type) := List (Nat × α)

/-! ## Start-up, beat, non-volatile stores (01, 13, 14) -/

/-- The phase of Table 13.1 that is running; `done` after phase 9, in the recovery state, or once start-up has ended
in the fault state. `dead` is R554's end with only 3V3_HK up. -/
inductive Phase where
  | input | rails | clock | clear | verify | train | zero | eth | done | dead
  deriving DecidableEq, Repr

/-- TOP_STATE.STATE (Table 12.4). -/
inductive ModState where
  | boot | ready | fault | recovery
  deriving DecidableEq, Repr

structure Boot where
  phase : Phase
  state : ModState
  cause : BitVec 8            -- TOP_STATE.CAUSE
  switchClosed : Bool         -- R549
  rails : BitVec 15           -- rail i of Table 14.2, in the order of Rail, is up
  railRetried : Bool          -- R554
  resetN : Bool               -- level of RESET_N
  strap : BitVec 22           -- TOP_STRAP (R316)
  strapErr : Bool
  trainFault : Bool           -- memory training failed; phase 9 still to come (R528)
  regionBeats : List Beat     -- the re-timing points' copies, region 4 d + m: those of its units, shuttles, controllers (R19)
  fabBeats : List Beat        -- copies on F (R29): ports 0 to 10, the collective engine, the HX engine, the checkpoint engine
  deriving DecidableEq, Repr

/-- A ripening record (Table 10.7) with its last samples, newest first (R474). -/
structure RipRecord where
  cls : BitVec 8
  inst : BitVec 16
  alert : Bool
  partialMark : Bool
  samples : List (Nat × Word32)
  baseline : Word32
  slope : Word32
  eol : Word32
  low : Word32
  hours : Word32
  deriving DecidableEq, Repr

/-- The housekeeping controller's non-volatile store. -/
structure NonVol where
  speed : BitVec 2            -- MEM_CFG.SPEED (R210)
  onBeats : Nat               -- power-on time in beats, as it stood at the beat `onSince` of this start (RIP_HOURS)
  onSince : Beat
  ripDay : Nat                -- days of power-on time at the last ripening update (R473)
  rip : List RipRecord
  deriving DecidableEq, Repr

/-- The two flash devices (Table 13.3): images, commit records, copies of the identity certificate. -/
structure Flash where
  imageA : List Byte
  imageB : List Byte
  recA : List Byte
  recB : List Byte
  certA : List Byte
  certB : List Byte
  deriving DecidableEq, Repr

structure Otp where
  svnFuses : Nat              -- fuses blown, 0 to 64 (R534)
  vendorHash : BitVec 256     -- the hash of VENDOR_PK (R537)
  idSeed : BitVec 256         -- the identity seed (R538)
  macBase : BitVec 48
  deriving DecidableEq, Repr

/-! ## Units (03, 04) -/

structure Sem where
  count : BitVec 16
  err : Bool
  ovf : Bool
  deriving DecidableEq, Repr

inductive UStat where
  | idle | armed | running | faulted
  deriving DecidableEq, Repr

/-- A pending arming (R133, R134). `beat` is absent for a LAUNCH without a launch beat. -/
structure Arming where
  beat : Option Beat
  reached : Bool              -- ARMING_DONE has passed (R37)
  reachedAt : Beat            -- the beat at which it passed
  late : Bool                 -- its beat has come while the unit was busy (R39)
  entry : BitVec 12
  replay : Bool
  canon : Bool
  args : List Word64
  deriving DecidableEq, Repr

/-- An issued matrix instruction: its index, its word, SCALEGP's value, its copy of the whey register (R181). -/
structure MxOp where
  pc : BitVec 12
  word : InstrWord
  scale : Word64
  whey : BitVec 128
  deriving DecidableEq, Repr

/-- An open canonical reduction (R121) as the instructions that have started leave it: leaf counts of the stack entries, top
first. `closing` while its end-flag instruction runs. -/
structure Canon where
  dst : Nat
  slots : Nat
  fmtc : BitVec 4
  base : Nat
  depth : Nat
  leaves : Nat
  stack : List Nat
  closing : Bool
  deriving DecidableEq, Repr

/-- A running matrix instruction (R575): the steps made of its fill and its lines; the slot that takes a stack entry (absent:
the destination tile takes the result); the stack slots it merges, top first; the reduction as it stood before; and the
bytes read so far: stationary rows, their scales, the lines of the streaming image, its scale lines, the lines of Q. -/
structure MxRun where
  op : MxOp
  step : Nat
  out : Option Nat
  merged : List Nat
  prev : Option Canon
  stat : List (List Byte)
  sscale : List (List Byte)
  aimg : List (List Byte)
  ascale : List (List Byte)
  qimg : List (List Byte)
  deriving DecidableEq, Repr

/-- An open ACOMBINE combination (R126, R127). -/
structure Comb where
  next : Nat
  fmt : BitVec 4
  dst : Nat
  slots : Nat
  base : Nat
  depth : Nat
  stack : List Nat
  deriving DecidableEq, Repr

/-- Why a running unit issues nothing at present. -/
inductive Wait where
  | none
  | slot                               -- a busy accumulator slot (R108)
  | mx (op : MxOp)                     -- a matrix instruction at issue (R86)
  | shissue                            -- the 33rd shuttle operation (R159)
  | bwait (b : Beat)
  | barrier (bid : Fin 4) (since : Beat)
  | semwait (sem : Fin 16) (count : BitVec 16)
  | fence (mask : BitVec 4)
  | ended (event : Bool)               -- END or HALT until its work is complete (R136, R497)
  deriving DecidableEq, Repr

structure UnitState where
  status : UStat
  arming : Option Arming
  canon : Bool
  replay : Bool
  launchBeat : Beat
  pc : BitVec 12
  gp : Tab Word64
  vreg : Tab Word32                    -- key 128 r + lane
  wh : Tab (BitVec 128)
  calls : List (BitVec 12)             -- top first
  sems : Tab Sem
  semOvf : Bool
  lateWait : Bool
  invalid : Bool
  intOvf : Bool
  nonfinite : Bool
  shOut : Nat
  wait : Wait
  faultValid : Bool
  faultCause : BitVec 7
  faultPc : BitVec 12
  stopPc : BitVec 12
  faultBeat : Beat
  endBeat : Beat
  mxStatus : Word32
  mxPartial : Bool
  owners : Tab (BitVec 4)              -- owner code of each scratch bank
  ownReq : List (Nat × Nat × BitVec 4) -- requested changes: bank, requester (shuttle k, or 8 for the host), code
  ownLast : Word32                     -- UNIT_OWN_LAST
  mxQueue : List MxOp                  -- queued, oldest first
  mxRun : List MxRun
  mxPre : List MxRun                   -- chained instructions that load their first chunk while they are queued (R100, R575)
  canons : List Canon
  combs : List Comb                    -- open combinations (R127)
  ifetchAt : List (BitVec 12)          -- indices of IFETCH_ECC faults (R443)
  ifetchTwice : Bool
  ueTimes : List Beat                  -- beats of uncorrectable errors, newest first (R443)
  unissued : Bool                      -- launched without a beat, and nothing has issued yet (Table 4.5)
  program : Bool                       -- a program has been launched and its work is not complete
  retireAsked : Bool                   -- UNIT_RETIRE has named the unit (R443)
  deriving DecidableEq, Repr

/-! ## Clusters and shuttles (04, 05) -/

/-- A SEMSIG on its way (R165). -/
structure Sig where
  src : Fin 8
  tgt : Fin 8
  sem : Fin 16
  count : BitVec 16
  deriving DecidableEq, Repr

/-- An open episode of a barrier (R161): the mask its first member fixed, the members it still goes on with, those that
have arrived. -/
structure Episode where
  mask : BitVec 8
  need : BitVec 8
  arrived : BitVec 8
  deriving DecidableEq, Repr

structure Cluster where
  barriers : Tab (Option Episode)
  sigs : List Sig                      -- oldest first
  spareUsed : Bool
  spareBad : Bool
  sparePos : Fin 8
  replacing : Option (Fin 8)           -- a replacement in progress (R41)
  deriving DecidableEq, Repr

/-- A chain as SHISSUE hands it over (R158, R185). -/
structure Chain where
  issuer : Fin 8
  desc : Word64                        -- GDESC: the unit-local address of the first descriptor
  sem : Fin 16
  tgt : Fin 8
  replay : Bool
  deriving DecidableEq, Repr

/-- A remote WRITE that has no answer yet (R327). -/
structure RemoteWrite where
  tag : Word32
  pkt : Packet
  resends : Nat
  sentAt : Beat
  deriving DecidableEq, Repr

/-- A running chain: the descriptor to run next, descriptors run, whether the last has completed, and what the present
descriptor still waits for: owner changes of banks of a unit, or answers to remote writes. -/
structure Run where
  chain : Chain
  addr : Word64
  count : Nat
  finished : Bool
  ownWait : List (Fin 8 × Nat)
  unsent : List Packet
  unanswered : List RemoteWrite
  written : Nat
  endsChain : Bool
  next : Word32
  failing : Option Nat                 -- cause met while remote writes of the descriptor are unanswered
  deriving DecidableEq, Repr

structure Shuttle where
  queue : List Chain                   -- oldest first
  run : Option Run
  err : Word32                         -- SHT_ERRk
  nf : Bool                            -- its bit of SHT_NF
  deriving DecidableEq, Repr

/-! ## Memory controllers (05) -/

structure MemCtl where
  speedNow : BitVec 2
  passes : BitVec 16
  visit : Tab Nat                      -- granules that the patrol has visited on each channel since reset
  sramVisit : Tab Nat                  -- next word of each unit's patrol
  ueTimes : Tab (List Beat)            -- per channel, newest first (R216)
  deriving DecidableEq, Repr

/-! ## Fabric (07) -/

inductive PState where
  | down | training | up | restriping
  deriving DecidableEq, Repr

/-- A packet in the router: the multicast it is a copy of, whether it is a circuit packet (R342), the port it came in on (10
for an injection), the channel whose buffers its frames fill there with its number on that channel, and whether it has crossed the
wrap link of that port's axis (R321). -/
structure QPkt where
  pkt : Packet
  mc : Option Nat
  circ : Bool
  inp : Nat
  rx : Option (Nat × Nat)
  crossed : Bool
  deriving DecidableEq, Repr

/-- Copies of a multicast that are not yet finished here (R332), and those that have not yet left their buffer (R306). -/
structure Copies where
  id : Nat
  unfinished : Nat
  unsent : Nat
  deriving DecidableEq, Repr

/-- A data frame in the retry buffer (R304): its number, channel, buffer, packet, which 240 bytes of the packet it carries,
whether the packet ends in it, resends. -/
structure HeldFrame where
  fseq : BitVec 12
  vc : Nat
  shared : Bool
  qp : QPkt
  idx : Nat
  last : Bool
  resends : Nat
  deriving DecidableEq, Repr

/-- A frame that stands in an input buffer (R306): its channel, whether the buffer is one of the shared pool, and the
packets of the channel, by their number, that it carries bytes of and that have not left. -/
structure RxFrame where
  vc : Nat
  shared : Bool
  users : List Nat
  deriving DecidableEq, Repr

structure Port where
  state : PState
  mode200 : Bool
  lanes : BitVec 4
  cause : BitVec 4
  peer : BitVec 20
  peerTag : BitVec 8
  cameUp : Bool                        -- it has been UP since start-up
  held : List HeldFrame                -- oldest first
  nextSeq : BitVec 12
  expected : BitVec 12                 -- next FSEQ expected
  nakSent : Bool
  lastRx : Beat
  lastAck : Beat
  credits : Tab Nat                    -- reserved credits used, per channel
  sharedUsed : Nat
  waiting : List QPkt                  -- packets of which no frame has been sent, oldest first
  used : List Nat                      -- frames sent of classes 1 to 3 in this weighted round (R320)
  circ : Nat                           -- circuit frames that CONTROL has not yet had its share of (R343)
  rxBuf : List RxFrame                 -- frame buffers in use (R306), oldest first
  rxBegun : Tab Nat                    -- per channel: packets that have begun in the frames received
  rxLeft : Tab Nat                     -- per channel: bytes of the last of them that have still to arrive
  rxRouted : Tab Nat                   -- per channel: packets whose header has been routed
  rxGone : List (Nat × Nat)            -- channel and number of packets that have left before their last frame came
  creditDue : List (Nat × Bool)        -- credits to return (R306): channel, shared pool
  sinceIdle : Nat                      -- frames sent since the last idle frame (R301)
  corrected : List (Beat × Fin 4 × Nat) -- symbols that FEC has corrected on a lane within the last 1 ms, newest first (R307)
  downSince : Beat                     -- the port is DOWN since this beat (R310)
  restripeTo : BitVec 4
  retrain : Option (Fin 4)             -- the lane whose retrain both modules have accepted (R308, R471)
  asked : Tab (Option Beat)            -- per lane: when this end last asked to retrain it (R471)
  deriving DecidableEq, Repr

structure Heddle where
  hid : BitVec 8
  inp : BitVec 4
  outp : BitVec 4
  start : Beat
  len : BitVec 16
  period : BitVec 24
  count : BitVec 16
  opened : Nat                         -- windows opened so far
  isOpen : Bool
  deriving DecidableEq, Repr

/-- The congestion-map fields of one record (R346, Tables 7.15, 7.16): `cells` by 16 × (4 × port + class) + field, where
fields 0-7 are the bins, 8 FRAMES, 9 CSTALL, 10 HBEATS, 11 PEAK, 12 LANES. -/
structure Cmap where
  start : Beat
  beats : Nat
  interval : Word32
  epochBits : BitVec 3
  node : Node
  slice : BitVec 8
  cells : Tab Nat
  deriving DecidableEq, Repr

structure Fabric where
  ports : Tab Port
  routes : Tab (BitVec 16)             -- 64 × bank + entry (R322); an unlisted entry is DROP
  redirects : List (Fin 2 × Node × Node)
  inj : Fin 2
  valid0 : Bool
  valid1 : Bool
  heddles : List Heddle
  cmapNow : Cmap
  cmapDone : Cmap
  nextTag : Word32
  mcast : List Copies
  nextMc : Nat
  inbox : List QPkt                    -- packets that wait at port 10 for delivery into the module, oldest first (R346)
  landed : List QPkt                   -- packets that port 10 has delivered and whose engine has still to take them
  localUsed : List Nat                 -- `used` and `circ` of port 10 (R320, R343)
  localCirc : Nat
  deriving DecidableEq, Repr

/-! ## Collectives (06, 08) -/

inductive CPhase where
  | armed | queued | claiming | running | flag | flagged
  deriving DecidableEq, Repr

/-- A COLL packet with no answer yet, and the modules whose answers are wanted (R339, R372). -/
structure CollSent where
  tag : Word32
  pkt : Packet
  want : List Node
  resends : Nat
  sentAt : Beat
  deriving DecidableEq, Repr

/-- The flag phase of R370: the axis and hop in progress, the value, the flags received by axis and hop. -/
structure FlagPhase where
  axis : Nat
  hop : Nat
  value : Bool
  own : Bool
  got : List (Nat × Nat × Bool)
  deriving DecidableEq, Repr

/-- An open collective (R356). `left` and `leftAg` count the reduce-scatter and the other data packets that it still has to
receive; `dst` is its destination once known; `slot` is its bobbin claim (R281). -/
structure Coll where
  op : CollOp
  req : CollReq
  counts : List Nat                    -- chunk of each position (A2A: p send then p receive counts)
  pos : Nat
  p : Nat
  launch : Option Beat
  order : Nat
  phase : CPhase
  left : Nat
  leftAg : Nat
  gotBytes : Tab Nat                   -- A2A: bytes received by source; 16 + source: 1 once its END has come
  sent : List CollSent
  answered : List (Node × Word32)
  held : List Packet                   -- answered and not yet applied, oldest first
  flag : Option FlagPhase
  dst : Nat
  slot : Option Nat
  claimSince : Beat
  retryAt : Beat
  stallSent : Bool
  late : Bool
  byHx : Bool
  nextTag : Word32                     -- its next packet serial, the TAG of Table 8.4
  deriving DecidableEq, Repr

/-- The rind being filled (R380): its step, the bytes of its image once END has come, its owner. -/
structure RindFill where
  step : BitVec 48
  bytes : BitVec 48
  owner : Node
  deriving DecidableEq, Repr

/-- The update-closing all-gather of a bobbin set that has failed before the decision of its step (R375): the set, the step, and
the collectives accepted up to then. -/
structure FailedSet where
  set : Word64
  step : BitVec 48
  upto : Nat
  deriving DecidableEq, Repr

/-- A gradient-closing collective that has failed before the decision of its step (R375): its place and the next one in
the order of acceptance, and the first word of the step record, which stands until the step has an outcome. -/
structure FailedGrad where
  order : Nat
  upto : Nat
  word : Word64
  deriving DecidableEq, Repr

structure ColState where
  opens : List Coll
  failedSets : List FailedSet
  failedGrad : Option FailedGrad
  aborted : List (BitVec 16)           -- OPIDs that ended by a failure: late packets are answered (R374)
  rind : Option RindFill
  nfEarly : Bool
  rindStale : Bool
  lastOpid : BitVec 16
  nextOrder : Nat
  lateCount : Word32                   -- the collective engine's late-launch counter (R39); no register shows it
  bsets : List Word64                  -- bobbin-set records named by update-closing all-gathers (R462)
  deriving DecidableEq, Repr

/-! ## The exchange (09) -/

/-- Round-trip state of a session on one network (R416), in nanoseconds, with R421's and R413's marks. -/
structure HxNet where
  srtt : Nat
  rttvar : Nat
  sampled : Bool
  backed : Option Nat                  -- the retransmit time while R417's back-off stands; else it is that of R416
  lastRx : Beat
  lastData : Beat
  path : Bool
  unacked : Nat                        -- DATA packets received and not yet acknowledged
  firstUnacked : Option Beat
  lastEts : Beat
  lastEtsAt : Beat
  count : Nat                          -- packets sent on this network (R410)
  pctr : Nat                           -- next packet counter of the sending key
  seen : List (Word32 × Word32)        -- anti-replay windows (R431): key epoch and counter
  deriving DecidableEq, Repr

/-- A DATA packet in the send buffer (R414): its header fields and plain payload; network and beat of its latest sending; network,
epoch and bytes (header, ciphertext, tag) of its first. -/
structure HxHeld where
  seq : BitVec 48
  kind : BitVec 8
  ostep : Word32
  midx : BitVec 6
  offset : BitVec 48
  bytes : List Byte
  net : Fin 2
  sentAt : Beat
  firstNet : Fin 2
  kepoch : Word32
  asSent : List Byte
  resends : Nat
  after : Nat                          -- packets sent later on the network and reported received (R418)
  fastAt : Option Beat                 -- the latest resend under R418
  deriving DecidableEq, Repr

/-- Keys of one epoch (R424). -/
structure Keys where
  epoch : Word32
  ir : BitVec 256
  ri : BitVec 256
  cf : BitVec 256
  since : Beat
  deriving DecidableEq, Repr

/-- A key setup in progress (R422): epoch, whether this module initiates, the last message sent and its bytes, resends made;
OFFER and REPLY; the initiator's private ML-KEM key, or none once the keys are derived; the responder's derived keys. -/
structure KeySetup where
  epoch : Word32
  initiator : Bool
  lastMsg : Nat                        -- 1 OFFER, 2 REPLY, 3 CONFIRM
  mine : List Byte
  resends : Nat
  sentAt : Beat
  offer : List Byte
  reply : List Byte
  secret : List Byte
  keys : Option Keys
  deriving DecidableEq, Repr

/-- An object that a peer has sent, apart from IMAGE objects: its header, and the bytes up to CUM (R412). -/
structure RxObject where
  kind : BitVec 8
  ostep : Word32
  midx : BitVec 6
  bytes : List Byte
  deriving DecidableEq, Repr

structure Session where
  nextSeq : BitVec 48
  window : BitVec 48                   -- last WIN received
  sendBuf : List HxHeld                -- oldest first
  queue : List HxHeld                  -- DATA that waits for room, WIN or keys
  cum : BitVec 48
  heldRx : List HxPkt
  netA : HxNet
  netB : HxNet
  lost : Bool
  lostKey : Bool
  ended : Bool
  keys : Option Keys
  oldKeys : Option Keys
  nextKeys : Option Keys
  setup : Option KeySetup
  firstNew : Option Beat               -- first authenticated packet under the present epoch (R429)
  firstSent : Option Beat              -- first packet sent under the present epoch (R430)
  stall : Option Beat
  listener : Option (BitVec 48)        -- R435: step from which the joiner is a member
  frags : List (Nat × KeyxMsg)         -- fragments of an incomplete KEYX message, by MSG (R425)
  peerKey : List Byte                  -- the identity key accepted at epoch 0 (R423)
  rekey : Bool                         -- HX_REKEY has asked for a new epoch (R432)
  begun : Tab Nat                      -- STATE, MOMENTUM and IMAGE_FWD objects that have begun to arrive, by KIND (R412)
  objects : List RxObject              -- oldest first: those whose row has not come
  deriving DecidableEq, Repr

/-- One open outer step (R386, R390, R392): its members, the shard that the boundary and the merge do next, whether the
differences of that shard stand in the work area, whether a collective on the replica axis is awaited. -/
structure OuterStep where
  o : BitVec 48
  opid0 : BitVec 16
  members : List (BitVec 6)
  next : Nat
  worked : Bool
  waitColl : Bool
  halted : Bool                        -- a pass has ended by a refusal, a failure or a poisoned line (R402, R403)
  failed : Bool                        -- its collective was refused or has failed: LATE until HX_OUTER again (R403)
  boundary : Bool                      -- the boundary is complete
  mergeNext : Nat
  merging : Bool                       -- the merge has begun (R434)
  merged : Bool
  digests : List (BitVec 128)
  isReady : Bool
  deriving DecidableEq, Repr

/-- Pending sections of HX_CONFIG (R500). -/
structure HxPending where
  general : Option HxGeneral
  shards : Tab Word64
  peers : List PeerEntry
  deriving DecidableEq, Repr

structure Joining where
  j : BitVec 48
  accepted : List (BitVec 6)
  refusedAt : BitVec 48
  source : Option (BitVec 6)
  astep : BitVec 48
  gotState : List Nat
  gotMomentum : List Nat
  deriving DecidableEq, Repr

structure Exchange where
  configured : Bool
  general : HxGeneral
  shards : List Word64
  peers : List PeerEntry
  pend : HxPending
  pauses : BitVec 7                    -- HX_PAUSE_SET
  inner : BitVec 16                    -- HX_STATUS.INNER
  boundaryAccepted : BitVec 48
  anyAccepted : Bool
  steps : List OuterStep               -- open outer steps, oldest first
  applying : Option (BitVec 48 × BitVec 48 × Option (UnitId × Fin 16) × Bool) -- o, s, SEM, writes done
  sessions : Tab Session
  dropped : List (BitVec 48 × BitVec 6)
  fetching : Option (BitVec 6)
  joining : Option Joining
  lateSince : Option Beat
  waitingFetch : List (BitVec 6)
  landing : List (BitVec 48 × BitVec 6 × Nat)            -- bytes of an IMAGE object written so far
  landed : List (BitVec 48 × BitVec 6)                   -- complete images in their landing slots
  forwarded : List (BitVec 48 × BitVec 6 × Nat)          -- shards of forwarded images written (R435)
  digestsRx : List (BitVec 48 × BitVec 6 × Word64 × List (BitVec 128))
  nonfinite : Bool                                       -- the HX engine's sticky flag (R77)
  deriving DecidableEq, Repr

/-! ## Checkpoints, refill, press (10) -/

/-- A RECOV packet with no answer yet (R453): `store` is the storage port (0 S0, 1 S1) it went out on. -/
structure RecovSend where
  tag : Word32
  pkt : Packet
  store : Option (Fin 2)
  resends : Nat
  sentAt : Beat
  deriving DecidableEq, Repr

/-- A stream of bytes sent in segments (R452, R455, R460, R462). `kind`: 1 a refill served, 2 an evacuation, 3 a checkpoint,
4 one segment sent again. `tag` is the packet that must be answered before the next is sent. -/
structure SegSender where
  kind : Nat
  rid : BitVec 16
  dst : Node
  bytes : List Byte
  seg : Nat
  off : Nat
  doneSent : Bool
  tag : Word32
  step : BitVec 48
  digests : List (BitVec 128)          -- refill: of the rind masters; checkpoint: of the export records
  deriving DecidableEq, Repr

/-- A stream being received. `kind`: 1 refill, 2 evacuation, 3 restore. -/
structure SegReceiver where
  kind : Nat
  rid : BitVec 16
  buddy : Node
  second : Option Node                 -- R455: the first stand-in, while segments are read from it
  seg : Nat
  bytes : List Byte                    -- bytes of the present segment
  image : List Byte                    -- bytes of the recorded segments
  asks : Nat
  sets : List Word64
  finished : Bool
  deriving DecidableEq, Repr

structure CkpRun where
  step : BitVec 48
  id : BitVec 16
  begun : Beat
  sealAt : Option Beat
  deriving DecidableEq, Repr

/-- A line being reloaded (R445): its granule, the step of its shard, and the LINE_READ. -/
structure Reload where
  line : Word64
  step : BitVec 48
  offset : BitVec 26
  deriving DecidableEq, Repr

structure Ckp where
  unverified : Bool
  store0 : Option Word64
  store1 : Option Word64
  lastId : BitVec 16
  lastStep : BitVec 48
  cost : Word32
  hasCost : Bool
  interval : Word32
  refillSeg : Word32
  run : Option CkpRun
  senders : List SegSender
  receivers : List SegReceiver
  unanswered : List RecovSend
  evacTo : Option Node                 -- EVACUATED_READY has been sent
  reloads : List Reload
  lastDone : Beat
  dueSent : Bool
  fails : List Beat                    -- the events of R466, newest first
  ownDigests : List (BitVec 48 × List (BitVec 128))
  rxDigests : List (BitVec 48 × Node × List (BitVec 128)) -- step, sender, digests; oldest first
  seals : List (BitVec 16 × List (BitVec 128)) -- the last two seals sent or received: identity, digests of the records (R464)
  restoredRecs : Option (BitVec 16 × List (BitVec 128)) -- the checkpoint restored last, and the digests of its records (R458)
  digesting : Option (BitVec 48)       -- step whose shards are being read (R287)
  restoredStep : BitVec 48
  deriving DecidableEq, Repr

structure Lease where
  num : Word32
  activity : BitVec 8
  ports : BitVec 10
  since : Beat
  seconds : Word32
  deriving DecidableEq, Repr

structure Press where
  leases : List Lease
  nextNum : Word32
  ripened : Bool                       -- a RIPEN lease was held at some time since the last ripening update (R473)
  found : List Nat                     -- keys of the values that PARITY has found to differ under the present or last lease (R468)
  deriving DecidableEq, Repr

/-! ## Host interface (11, 12) -/

/-- A source (R486): a HOSTID, or an IP address and UDP port. -/
inductive Source where
  | host (id : BitVec 16)
  | addr (ip : BitVec 128) (udp : BitVec 16)
  deriving DecidableEq, Repr

structure Resp where
  port : Fin 8
  vid : BitVec 12                      -- VLAN tag of its frame, 0 for none (R478)
  srcAddr : BitVec 128                 -- the address that the request was sent to
  fromUdp : BitVec 16                  -- the command port it leaves from (R480)
  dstAddr : BitVec 128
  dstUdp : BitVec 16
  rev : BitVec 4
  status : BitVec 8
  opcode : BitVec 16
  tag : Word32
  seq : Word32
  hostid : BitVec 16
  chain : BitVec 16
  detail : Word32
  rbeat : Beat
  payload : List Byte
  deriving DecidableEq, Repr

structure CacheEntry where
  src : Source
  tag : Word32
  seq : Word32
  resp : Resp
  deriving DecidableEq, Repr

/-- A command whose response has not been sent (R487): what it waits for is told by its opcode. -/
structure Outstanding where
  hdr : Hdr
  op : HostOp
  cut : Bool                           -- the chain that it came in has closed since (R490)
  deriving DecidableEq, Repr

/-- An open chain (R490): SEQ of its last completed command, and held commands with the beat of their arrival. -/
structure CmdChain where
  src : Source
  id : BitVec 16
  lastSeq : Word32
  busy : Bool                          -- its last command is still outstanding
  held : List (Hdr × HostOp × Beat)
  deriving DecidableEq, Repr

structure JEntry where
  beat : Beat
  port : Fin 8
  rev : BitVec 4
  opcode : BitVec 16
  hostid : BitVec 16
  seq : Word32
  src : BitVec 128
  deriving DecidableEq, Repr

structure Event where
  rev : BitVec 4                       -- TOP_EVT_CFG.REV (R482)
  code : BitVec 16
  sev : BitVec 8
  beat : Beat
  p : Word32
  q : BitVec 48
  c : BitVec 16
  x : BitVec 96
  esqA : Word32
  esqB : Word32
  deriving DecidableEq, Repr

structure HostIf where
  outstanding : List Outstanding
  cache : List CacheEntry              -- newest first
  chains : List CmdChain
  journal : List JEntry                -- newest first
  jnlHead : Word32
  events : List Event                  -- newest first
  esqA : Word32
  esqB : Word32
  alertPending : Bool
  eth : Tab (Option (Fin 4))           -- mode of each Ethernet port that is up (R477)
  ethTried : Tab (Option Beat)         -- when a port that is not up last failed to come up (R477)
  staged : List (Nat × Word32)         -- staging latches of the low words of two-word registers (R514)
  latches : List (Nat × Word32)        -- read latches (R32, R332, R514)
  readout : List Word32                -- values of the REG_READ in progress
  deriving DecidableEq, Repr

structure SnapCopy where
  beat : Beat
  seq : Word32
  copies : Tab Word32
  armed : List Beat                    -- launch beats of SNAPSHOTs that are armed (R33, R38)
  deriving DecidableEq, Repr

/-! ## Security and firmware (13) -/

structure Quote where
  nonce : BitVec 256
  body : List Byte
  isReady : Bool
  pos : Nat                            -- offset of the part to be returned next
  deriving DecidableEq, Repr

structure Staging where
  target : Fin 2                       -- 0 image A, 1 image B
  chain : BitVec 16
  src : Source
  total : Nat
  bytes : List Byte                    -- newest first
  whole : Bool                         -- CLAST has come (R545)
  cut : Bool                           -- the chain that brought it has closed (R490, R546)
  lease : Word32
  deriving DecidableEq, Repr

structure Sec where
  running : Fin 3                      -- 0 none, 1 A, 2 B
  verA : Word32
  verB : Word32
  quotes : List Quote                  -- newest first
  staging : Option Staging
  fallback : Option (Fin 2 × Nat)      -- failed image and check code (R533)
  cert : Option (List Byte)            -- the identity certificate in use (R539)
  secondDone : Bool
  deriving DecidableEq, Repr

/-! ## Power (14) -/

structure Power where
  vin : Word32
  iin : Word32
  watts : BitVec 12
  temp : BitVec 12
  level : Nat                          -- throttle level L
  thermalLevel : Nat
  capping : Bool
  thermal : Bool
  inlet : BitVec 16
  outlet : BitVec 16
  laser : Tab (BitVec 16)
  band : Nat                           -- input band of the last PWR_INPUT: 0 none, 1 low, 2 high
  warm : Bool
  laserBand : Tab Nat                  -- per fibre: 0 none, 1 low, 2 high
  tap : Tab TapIr                      -- the instruction in each die's instruction register (R568)
  boundary : Tab (List Bool)           -- what each die's boundary register has captured (R568)
  deriving DecidableEq, Repr

/-! ## What leaves the module -/

/-- The header of a frame (Table 7.3). -/
structure FrameHdr where
  fseq : BitVec 12
  aseq : BitVec 12
  ak : BitVec 2
  ftype : BitVec 2
  fpo : BitVec 5
  cvc : BitVec 4
  ccnt : BitVec 11
  csh : Bool
  fvc : BitVec 4
  fsh : Bool
  deriving DecidableEq, Repr

/-- The body of a frame: the k-th 240 bytes of a packet, nothing, or a link-control message. -/
inductive FrameBody where
  | data (p : Packet) (k : Nat)
  | idle
  | ctl (m : LinkMsg)
  deriving DecidableEq, Repr

/-- A UDP datagram of the exchange (R407): the entry it goes to, Ethernet port, VLAN tag (R478), IP version, addresses,
the don't-fragment bit, the one number of both UDP ports, bytes of the whole datagram with its IP and UDP headers, and
its UDP payload. -/
structure HxDatagram where
  peer : BitVec 6
  port : Fin 8
  vid : BitVec 12
  ipv4 : Bool
  src : BitVec 128
  dst : BitVec 128
  dontFragment : Bool
  udp : BitVec 16
  length : Nat
  bytes : List Byte
  deriving DecidableEq, Repr

/-- Where an event goes (R478, R503): Ethernet port, VLAN tag, IPv6 address, UDP port. -/
structure EventDst where
  port : Fin 8
  vid : BitVec 12
  addr : BitVec 128
  udp : BitVec 16
  deriving DecidableEq, Repr

/-- Datagrams, frames and messages that the module has sent. `vid` is the VLAN tag, 0 for none (R478). -/
inductive Sent where
  | resp (r : Resp)
  | event (dst : EventDst) (e : Event)
  | frame (port : Fin 10) (h : FrameHdr) (b : FrameBody)
  | hx (d : HxDatagram)
  | digestList (node : Node) (step : BitVec 48) (ds : List (BitVec 128))
  | ndAdvert (port : Fin 8) (vid : BitVec 12) (target : BitVec 128)
  | arpReply (port : Fin 8) (vid : BitVec 12) (target : Word32)
  | echoReply (port : Fin 8) (vid : BitVec 12) (dst : BitVec 128) (data : List Byte)
  deriving DecidableEq, Repr

/-- The whole module. `mem` is the module address space by byte (R208): DRAM, scratch and accumulator memories, each at
its module address; a byte that is not listed reads zero (R205, R215). -/
structure State where
  pending : List Instr
  boot : Boot
  beat : Beat
  nv : NonVol
  flash : Flash
  otp : Otp
  cfg : Tab Word32                     -- RW and WM registers by offset; unlisted: the reset value
  counters : Tab Word32                -- counters and drain counters by offset
  snap : SnapCopy
  struck : Tab Nat                     -- bits of a configuration register or entry that differ from what was written, by key (R517)
  units : Tab UnitState
  clusters : Tab Cluster
  shuttles : Tab Shuttle
  store : Tab InstrWord                -- 4096 × unit key + index
  images : Tab InstrWord               -- the words last loaded by LOAD_PROGRAM (R138), keyed as `store`
  mem : List Host.Cell
  lineTags : Tab Byte                  -- tag byte of each DRAM line: [0] POISON, [7:1] VERSION (Table 5.8)
  poison : Tab Bool                    -- poison bit of unit-memory words, by module address / 8
  storePoison : Tab Bool               -- of instruction-store half words: 8192 × unit key + 2 × index + half
  upsets : List Upset
  memc : MemCtl
  fab : Fabric
  col : ColState
  hx : Exchange
  ckp : Ckp
  press : Press
  host : HostIf
  sec : Sec
  pwr : Power
  sent : List Sent                     -- newest first
  free : Nat                           -- counts the free values taken (the model's own)
  deriving DecidableEq, Repr

/-- Reasons a command stops. -/
inductive Fault where
  /-- A host command or a shuttle reaches the engine-queue range 0x2000_0000_0000 of Table 5.4, whose contents no chapter
  gives: raised by MEM_READ, MEM_WRITE, the shuttle descriptors, REMOTE_WRITE_RECEIVE, the COLLECTIVE rows, and
  CHAIN_COMMAND_RELEASE with such a command held. Safe: the model stops where the module goes on. -/
  | engineQueue
  deriving DecidableEq, Repr

inductive Refusal where
  /-- Raised by exec's arms of commands that have no meaning in the model yet. Safe. -/
  | notModelled (mnemonic : String)
  deriving DecidableEq, Repr

/-! ## Reset values -/

/-- DESIGN CHOICE, log entry 33. -/
def Boot.reset : Boot :=
  { phase := .input, state := .boot, cause := 0, switchClosed := false, rails := 1, railRetried := false,
    resetN := true, strap := 0, strapErr := false, trainFault := false, regionBeats := List.replicate 8 0,
    fabBeats := List.replicate 14 0 }

/-- As shipped (R574): one factory image, equal commit records, one certificate. DESIGN CHOICE, log entry 35. -/
def Flash.reset : Flash :=
  { imageA := Config.factoryImage, imageB := Config.factoryImage, recA := Config.factoryRecord, recB := Config.factoryRecord,
    certA := Config.factoryCert, certB := Config.factoryCert }

def UnitState.reset : UnitState :=
  { status := .idle, arming := none, canon := false, replay := false, launchBeat := 0, pc := 0, gp := [], vreg := [],
    wh := [], calls := [], sems := [], semOvf := false, lateWait := false, invalid := false, intOvf := false,
    nonfinite := false, shOut := 0, wait := .none, faultValid := false, faultCause := 0, faultPc := 0, stopPc := 0,
    faultBeat := 0, endBeat := 0, mxStatus := 0, mxPartial := false, owners := [], ownReq := [], ownLast := 0,
    mxQueue := [], mxRun := [], mxPre := [], canons := [], combs := [], ifetchAt := [], ifetchTwice := false, ueTimes := [],
    unissued := false, program := false, retireAsked := false }

def Cluster.reset : Cluster :=
  { barriers := [], sigs := [], spareUsed := false, spareBad := false, sparePos := 0, replacing := none }

def Shuttle.reset : Shuttle := { queue := [], run := none, err := 0, nf := false }

def Port.reset : Port :=
  { state := .down, mode200 := false, lanes := 0, cause := 0, peer := 0, peerTag := 0, cameUp := false, held := [],
    nextSeq := 0, expected := 0, nakSent := false, lastRx := 0, lastAck := 0, credits := [], sharedUsed := 0,
    waiting := [], used := [0, 0, 0], circ := 63, rxBuf := [], rxBegun := [], rxLeft := [], rxRouted := [], rxGone := [],
    creditDue := [],
    sinceIdle := 0, corrected := [], downSince := 0, restripeTo := 0, retrain := none, asked := [] }

def Cmap.reset : Cmap :=
  { start := 0, beats := 0, interval := 0, epochBits := 0, node := 0, slice := 0, cells := [] }

def HxNet.reset : HxNet :=
  { srtt := 0, rttvar := 0, sampled := false, backed := none, lastRx := 0, lastData := 0, path := true,
    unacked := 0, firstUnacked := none, lastEts := 0, lastEtsAt := 0, count := 0, pctr := 0, seen := [] }

def Session.reset : Session :=
  { nextSeq := 0, window := 0, sendBuf := [], queue := [], cum := 0, heldRx := [], netA := .reset, netB := .reset,
    lost := false, lostKey := false, ended := false, keys := none, oldKeys := none, nextKeys := none, setup := none,
    firstNew := none, firstSent := none, stall := none, listener := none,
    frags := [], peerKey := [], rekey := false, begun := [], objects := [] }

def HxGeneral.none : Sys2Proof.HxGeneral :=
  { job := 0, nshard := 0, sbuf := 0, sbufSize := 0, rbuf := 0, rbufSize := 0 }

def Exchange.reset : Exchange :=
  { configured := false, general := HxGeneral.none, shards := [], peers := [], pend := ⟨none, [], []⟩, pauses := 0, inner := 0,
    boundaryAccepted := 0, anyAccepted := false, steps := [], applying := none, sessions := [], dropped := [],
    fetching := none, joining := none, lateSince := none, waitingFetch := [], landing := [], landed := [], forwarded := [],
    digestsRx := [], nonfinite := false }

def Ckp.reset : Ckp :=
  { unverified := false, store0 := none, store1 := none, lastId := 0, lastStep := 0, cost := 0, hasCost := false,
    interval := 1800000, refillSeg := 0, run := none, senders := [], receivers := [], unanswered := [], evacTo := none,
    reloads := [], lastDone := 0, dueSent := false, fails := [], ownDigests := [], rxDigests := [], digesting := none,
    seals := [], restoredRecs := none, restoredStep := 0 }

/-- The module as input power is applied: phase 1 of Table 13.1, every register at its reset value.
DESIGN CHOICE, log entry 33. -/
def State.reset : State :=
  { pending := [], boot := .reset, beat := 0, nv := ⟨0, 0, 0, 0, []⟩, flash := .reset, otp := ⟨0, Config.sha256 ((Config.factoryImage.drop 64).take 64), 0, 0⟩, cfg := [],
    counters := [], snap := ⟨0, 0, [], []⟩, struck := [], units := [], clusters := [], shuttles := [], store := [], images := [],
    mem := [], lineTags := [], poison := [], storePoison := [], upsets := [], memc := ⟨0, 0, [], [], []⟩,
    fab := { ports := [], routes := [], redirects := [], inj := 0, valid0 := false, valid1 := false, heddles := [],
             cmapNow := .reset, cmapDone := .reset, nextTag := 0, mcast := [], nextMc := 0, inbox := [], landed := [],
             localUsed := [0, 0, 0], localCirc := 63 },
    col := { opens := [], failedSets := [], failedGrad := none, aborted := [], rind := none, nfEarly := false, rindStale := false, lastOpid := 0, nextOrder := 0, lateCount := 0,
             bsets := [] },
    hx := .reset, ckp := .reset, press := ⟨[], 0, false, []⟩,
    host := { outstanding := [], cache := [], chains := [], journal := [], jnlHead := 0, events := [], esqA := 0,
              esqB := 0, alertPending := false, eth := [], ethTried := [], staged := [], latches := [], readout := [] },
    sec := { running := 0, verA := 0, verB := 0, quotes := [], staging := none, fallback := none, cert := none,
             secondDone := false },
    pwr := { vin := 0, iin := 0, watts := 0, temp := 0, level := 0, thermalLevel := 0, capping := false,
             thermal := false, inlet := 0, outlet := 0, laser := [], band := 0, warm := false, laserBand := [],
             tap := [], boundary := [] },
    sent := [], free := 0 }

end Sys2Proof.Machine
end

