-- ==== Sys2Proof/Machine/Ops.lean ====
section
/-! DEFINITION. The named operations over State: tables, registers, counters, events, units, and the module address space
with its check code, poison, versions and owner codes (01, 04, 05, 11, 12). -/
namespace Sys2Proof.Machine

/-- What a command answers. -/
abbrev Out := Host.Outcome State Fault Refusal

/-- Bits [hi:lo] of a word. -/
def fld {n : Nat} (w : BitVec n) (hi lo : Nat) : Nat := (w.toNat / 2 ^ lo) % 2 ^ (hi + 1 - lo)
def bitOf {n : Nat} (w : BitVec n) (i : Nat) : Bool := w.getLsbD i

/-! ## Tables -/

/-- The value of key k; the default d where it is not listed. -/
def tget {α : Type} (d : α) : Tab α → Nat → α
  | [], _ => d
  | (k, v) :: t, i => if i = k then v else tget d t i

/-- Remove key i. -/
def tdel {α : Type} (i : Nat) (t : Tab α) : Tab α := t.filter fun e => e.1 != i

/-- Insert or replace key i. -/
def tins {α : Type} (i : Nat) (x : α) : Tab α → Tab α
  | [] => [(i, x)]
  | (k, v) :: t => if i = k then (i, x) :: t else if i < k then (i, x) :: (k, v) :: t else (k, v) :: tins i x t

/-- Set key i to x, in the canonical form: an entry equal to the default is not listed. -/
def tput {α : Type} [DecidableEq α] (d : α) (i : Nat) (x : α) (t : Tab α) : Tab α :=
  if x = d then tdel i t else tins i x t

/-- Keys strictly rising from lo, and no entry equal to the default. -/
def twfFrom {α : Type} [DecidableEq α] (d : α) : Nat → Tab α → Bool
  | _, [] => true
  | lo, (k, v) :: t => decide (lo ≤ k) && !decide (v = d) && twfFrom d (k + 1) t

def twf {α : Type} [DecidableEq α] (d : α) (t : Tab α) : Bool := twfFrom d 0 t

/-- Drop the keys from lo to hi - 1. -/
def tclear {α : Type} (lo hi : Nat) (t : Tab α) : Tab α := t.filter fun e => !(decide (lo ≤ e.1) && decide (e.1 < hi))

/-- The list without the first element that p holds of. -/
def eraseFirst {α : Type} (p : α → Bool) : List α → List α
  | [] => []
  | a :: t => if p a then t else a :: eraseFirst p t

/-! ## Free values -/

/-- The next free value: nothing constrains its bits (Config.freeBits). DESIGN CHOICE, log entry 15. -/
def freeWord (s : State) : Word64 := Config.freeBits s.free

def useFree (s : State) : State := { s with free := s.free + 1 }

/-! ## Beats (R31, R35, R36) -/

/-- Beat a is later than beat b: their difference modulo 2^48, as a signed number, is positive (R31). -/
def later (a b : Beat) : Bool := decide (0 < (a - b).toInt)

/-- Beats from b to a, modulo 2^48. DEDUCED, log entry 7. -/
def beatsSince (a b : Beat) : Nat := (a - b).toNat

/-- The copy of the beat that the parties of a region take from its re-timing point (R19). -/
def State.regionBeat (s : State) (r : Fin 8) : Beat := s.boot.regionBeats.getD r.val s.beat
def State.unitBeat (s : State) (u : UnitId) : Beat := s.regionBeat u.region
def State.shuttleBeat (s : State) (h : ShuttleId) : Beat := s.regionBeat h.cluster.region
/-- Channel ch belongs to region ch / 24 (R18, R209). -/
def State.channelBeat (s : State) (ch : Nat) : Beat := s.boot.regionBeats.getD (ch / 24) s.beat
/-- Local copies on F (R29). -/
def State.portBeat (s : State) (q : Nat) : Beat := s.boot.fabBeats.getD q s.beat
def State.collBeat (s : State) : Beat := s.boot.fabBeats.getD 11 s.beat
def State.hxBeat (s : State) : Beat := s.boot.fabBeats.getD 12 s.beat
def State.ckpBeat (s : State) : Beat := s.boot.fabBeats.getD 13 s.beat

/-- Beats in a time of ms milliseconds; a beat is 256 ns (01). DEDUCED, log entry 7. -/
def beatsOfMs (ms : Nat) : Nat := (ms * 1000000 + 255) / 256
/-- DEDUCED, log entry 7. -/
def beatsOfUs (us : Nat) : Nat := (us * 1000 + 255) / 256

/-! ## Units, clusters, shuttles, ports -/

def State.unit (s : State) (u : UnitId) : UnitState := tget .reset s.units u.key
def State.setUnit (s : State) (u : UnitId) (x : UnitState) : State := { s with units := tput .reset u.key x s.units }
def State.modUnit (s : State) (u : UnitId) (f : UnitState → UnitState) : State := s.setUnit u (f (s.unit u))

def State.clu (s : State) (c : ClusterId) : Cluster := tget .reset s.clusters c.key
def State.setClu (s : State) (c : ClusterId) (x : Cluster) : State := { s with clusters := tput .reset c.key x s.clusters }
def State.modClu (s : State) (c : ClusterId) (f : Cluster → Cluster) : State := s.setClu c (f (s.clu c))

def State.sh (s : State) (h : ShuttleId) : Shuttle := tget .reset s.shuttles h.key
def State.setSh (s : State) (h : ShuttleId) (x : Shuttle) : State := { s with shuttles := tput .reset h.key x s.shuttles }
def State.modSh (s : State) (h : ShuttleId) (f : Shuttle → Shuttle) : State := s.setSh h (f (s.sh h))

def State.port (s : State) (p : Nat) : Port := tget .reset s.fab.ports p
def State.setPort (s : State) (p : Nat) (x : Port) : State :=
  { s with fab := { s.fab with ports := tput .reset p x s.fab.ports } }
def State.modPort (s : State) (p : Nat) (f : Port → Port) : State := s.setPort p (f (s.port p))

/-- GP0 to GP31: GP0 reads zero and a write of it is discarded (Table 4.1). -/
def UnitState.gpGet (x : UnitState) (r : Nat) : Word64 := if r = 0 then 0 else tget 0 x.gp r
def UnitState.gpSet (x : UnitState) (r : Nat) (v : Word64) : UnitState :=
  if r = 0 then x else { x with gp := tput 0 r v x.gp }

/-- Lane i of vector register r. -/
def UnitState.lane (x : UnitState) (r i : Nat) : Word32 := tget 0 x.vreg (128 * r + i)
def UnitState.setLane (x : UnitState) (r i : Nat) (v : Word32) : UnitState :=
  { x with vreg := tput 0 (128 * r + i) v x.vreg }

/-- Set all 128 lanes of vector register r from a function of the lane. -/
def UnitState.setVec (x : UnitState) (r : Nat) (f : Nat → Word32) : UnitState :=
  { x with vreg := (x.vreg.filter fun e => decide (e.1 < 128 * r)) ++
      ((List.range 128).filterMap fun i => let v := f i; if v = 0 then none else some (128 * r + i, v)) ++
      (x.vreg.filter fun e => decide (128 * r + 128 ≤ e.1)) }

def Sem.reset : Sem := ⟨0, false, false⟩
def UnitState.sem (x : UnitState) (k : Nat) : Sem := tget .reset x.sems k
def UnitState.setSem (x : UnitState) (k : Nat) (v : Sem) : UnitState := { x with sems := tput .reset k v x.sems }

/-- An addition to a semaphore: it stops at 65,535 and records the loss; `err` sets the error bit (R158, R164). -/
def UnitState.semAdd (x : UnitState) (k n : Nat) (err : Bool) : UnitState :=
  let m := x.sem k
  let sum := m.count.toNat + n
  if 65535 < sum then
    { x.setSem k ⟨65535, m.err || err, true⟩ with semOvf := true }
  else x.setSem k ⟨BitVec.ofNat 16 sum, m.err || err, m.ovf⟩

/-- Instruction word idx of a unit's instruction store. -/
def State.instr (s : State) (u : UnitId) (idx : Nat) : InstrWord := tget 0 s.store (4096 * u.key + idx)

/-! ## Registers and counters (12) -/

/-- Reset values of the RW and WM registers kept in `cfg` (Tables 12.2, 12.8 to 12.11). -/
def cfgReset (off : Nat) : Word32 :=
  if 0x100000 ≤ off ∧ off < 0x128000 ∧ off % 0x1000 = 0 then 0x00400000
  else if 0x020040 ≤ off ∧ off < 0x020068 then 3
  else match off with
    | 0x000024 => 2
    | 0x000028 => 47110
    | 0x000300 => 0x0008A800
    | 0x010004 => 0xC0180000
    | 0x010008 => 64
    | 0x020080 => 0x00100000
    | 0x020088 => 0x00080201
    | 0x02008C => 3906
    | 0x020090 => 3
    | 0x020094 => 3906
    | 0x030020 => 390625
    | 0x040000 => 0x40008000
    | 0x040008 => 1
    | 0x04000C => 0x3F666666
    | 0x040010 => 0x3F333333
    | 0x040014 => 47112
    | 0x040018 => 491
    | 0x04001C => 491
    | 0x040020 => 1000
    | 0x040024 => 100
    | 0x040028 => 2000
    | 0x04002C => 10000
    | 0x070000 => 1650
    | 0x080000 => 30
    | 0x4FF000 => 4
    | _ => 0

def State.cfgReg (s : State) (off : Nat) : Word32 :=
  match s.cfg.find? (fun e => e.1 == off) with
  | some e => e.2
  | none => cfgReset off

/-- Write a configuration register with its parity bit (R517); one at its reset value is not listed.
DESIGN CHOICE, log entry 25. -/
def State.setCfg (s : State) (off : Nat) (v : Word32) : State :=
  { s with cfg := if v = cfgReset off then tdel off s.cfg else tins off v s.cfg,
           struck := s.struck.filter (·.1 != off) }

/-- 64-bit register at off and off + 4 (R514). -/
def State.cfgReg64 (s : State) (off : Nat) : Word64 := s.cfgReg (off + 4) ++ s.cfgReg off

def State.counter (s : State) (off : Nat) : Word32 := tget 0 s.counters off
def State.setCounter (s : State) (off : Nat) (v : Word32) : State := { s with counters := tput 0 off v s.counters }

/-- Add n to a counter, which stops at 0xFFFF_FFFF (R513). -/
def State.bump (s : State) (off n : Nat) : State :=
  s.setCounter off (BitVec.ofNat 32 (min 0xFFFFFFFF ((s.counter off).toNat + n)))

/-- Add n to a drain counter, which wraps (R332). -/
def State.drain (s : State) (off n : Nat) : State := s.setCounter off (s.counter off + BitVec.ofNat 32 n)

/-- Offset of register r of a unit's instance, a cluster's CLU_ instance or SHT_ instance (Table 12.1). -/
def unitOff (u : UnitId) (r : Nat) : Nat := 0x400000 + u.key * 0x1000 + r
def cluOff (c : ClusterId) (r : Nat) : Nat := 0x100000 + c.key * 0x1000 + r
def shtOff (c : ClusterId) (r : Nat) : Nat := 0x200000 + c.key * 0x1000 + r

/-! ## Module state and events (R503 to R505) -/

def State.isReady (s : State) : Bool := s.boot.state == .ready
def State.isFault (s : State) : Bool := s.boot.state == .fault

def State.ethUp (s : State) (p : Nat) : Bool := (tget none s.host.eth p).isSome

/-- The lowest-numbered port of network n that is up. -/
def State.netPort (s : State) (n : Fin 2) : Option (Fin 8) :=
  (List.finRange 8).find? fun p => p.val / 4 == n.val && s.ethUp p.val

/-- TOP_EVT_DEST_A or _B is not all zero. -/
def State.evtDest (s : State) (n : Fin 2) : Bool :=
  (List.range 5).any fun i => s.cfgReg ((if n.val = 0 then 0x40 else 0x60) + 4 * i) != 0

/-- The VLAN tag with which the Ethernet ports send their frames; 0 is none (R478). -/
def State.vid (s : State) : BitVec 12 := (s.cfgReg 0x2C).extractLsb' 0 12

/-- TOP_EVT_DEST of a network: the IPv6 address and the UDP port. -/
def State.evtAddr (s : State) (n : Fin 2) : BitVec 128 :=
  let w := fun (i : Nat) => s.cfgReg ((if n.val = 0 then 0x40 else 0x60) + 4 * i)
  w 0 ++ w 1 ++ w 2 ++ w 3
def State.evtUdp (s : State) (n : Fin 2) : BitVec 16 := (s.cfgReg (if n.val = 0 then 0x50 else 0x70)).extractLsb' 0 16

def State.emit (s : State) (x : Sent) : State := { s with sent := x :: s.sent }

def emitEvent (e : Event) (n : Fin 2) (s : State) : State :=
  if s.evtDest n then
    match s.netPort n with
    | some p => s.emit (.event ⟨p, s.vid, s.evtAddr n, s.evtUdp n⟩ e)
    | none => s
  else s

/-- CKP_INTERVAL (R466): T = √(2 C M) in ms for a cost in ms, MTBF in s and n failures, between 10 s and 1,800 s. -/
def ckpInterval (cost mtbf n : Nat) : Nat :=
  if mtbf = 0 ∧ n = 0 then 1800000
  else
    let num := if mtbf = 0 then 604800 else if n = 0 then mtbf else mtbf * 604800
    let den := if mtbf = 0 then n else if n = 0 then 1 else 604800 + n * mtbf
    let r := isqrt (2000 * cost * num / den)
    let r := if (2 * r + 1) ^ 2 * den ≤ 4 * (2000 * cost * num) then r + 1 else r
    min 1800000 (max 10000 r)

/-- Power-on time in beats, over all starts, and in hours (RIP_HOURS). -/
def State.onTime (s : State) : Nat := s.nv.onBeats + beatsSince s.beat s.nv.onSince
def State.onHours (s : State) : Word32 := BitVec.ofNat 32 (s.onTime / 14062500000)

/-- Beats in 604,800 s. -/
def weekBeats : Nat := 2362500000000

/-- Drop the failures that have left the window and form CKP_INTERVAL again. -/
def State.newInterval (s : State) : State :=
  let fails := s.ckp.fails.filter fun b => decide (beatsSince s.beat b ≤ weekBeats)
  let cost := if s.ckp.hasCost then s.ckp.cost.toNat else 1000
  { s with ckp := { s.ckp with fails := fails,
                               interval := BitVec.ofNat 32 (ckpInterval cost (s.cfgReg 0x050028).toNat fails.length) } }

/-- Events that R466 counts. -/
def countedEvent (code : BitVec 16) : Bool :=
  code == 0x13 || code == 0x20 || code == 0x23 || code == 0x31 || code == 0x41

/-- Send an event twice, number it on each network, keep the newest 4,096, and set TOP_ALERT.PENDING for an ALERT event.
Before READY the module sends no event (R527). DEDUCED, log entry 36. -/
def sendEvent (code : BitVec 16) (sev : BitVec 8) (p : Word32) (q : BitVec 48) (c : BitVec 16) (x : BitVec 96)
    (s : State) : State :=
  if s.boot.state = .boot then s
  else
    let e : Event := ⟨(s.cfgReg 0x24).extractLsb' 0 4, code, sev, s.beat, p, q, c, x, s.host.esqA, s.host.esqB⟩
    let s := emitEvent e 1 (emitEvent e 0 s)
    let s := if countedEvent code then State.newInterval { s with ckp := { s.ckp with fails := s.beat :: s.ckp.fails } } else s
    { s with host := { s.host with
        events := (e :: s.host.events).take 4096, esqA := s.host.esqA + 1, esqB := s.host.esqB + 1,
        alertPending := s.host.alertPending || sev == 2 } }

/-- An address in bytes 20-27 of an event payload (X). -/
def xAddr (a : Nat) : BitVec 96 := BitVec.ofNat 96 (a * 2 ^ 32)

/-- A 32-bit item that comes first in X. -/
def xWord (w : Word32) : BitVec 96 := w ++ (0 : BitVec 64)

/-- The tray-alert output ALERT_N (R505, R554, R562): with the rails gone the housekeeping controller holds it. -/
def State.trayAlert (s : State) : Bool := s.host.alertPending || s.isFault || s.boot.phase == .dead

/-! ## The module address space (R208, Tables 5.4, 5.5) -/

inductive Region where
  | dram (g : Nat)
  | scratch (u : UnitId)
  | acc (u : UnitId)
  | setBits (u : UnitId)
  | clrBits (u : UnitId)
  | queues
  deriving DecidableEq, Repr

def dramWindow : Nat := 0x4000000000
def dramUsed : Nat := 0x2666665800
def unitBase : Nat := 0x100000000000
def unitWindow : Nat := 0x800000
/-- DESIGN CHOICE, log entry 8. -/
def queueBase : Nat := 0x200000000000

/-- The unit of a window number 256 d + u, where there is one. -/
def unitOfKey (k : Nat) : Option UnitId :=
  if h : k / 256 < 2 ∧ k % 256 < 160 then some ⟨⟨k / 256, h.1⟩, ⟨k % 256, h.2⟩⟩ else none

/-- The range that holds all n bytes from a (an empty span counts as its first byte). -/
def regionOf (a n : Nat) : Option Region :=
  let z := a + max n 1
  if a < 8 * dramWindow then
    if a % dramWindow + max n 1 ≤ dramUsed then some (.dram (a / dramWindow)) else none
  else if unitBase ≤ a ∧ a < unitBase + 512 * unitWindow then
    let o := (a - unitBase) % unitWindow
    let e := o + max n 1
    match unitOfKey ((a - unitBase) / unitWindow) with
    | none => none
    | some u =>
      if e ≤ 0x180000 then some (.scratch u)
      else if 0x200000 ≤ o ∧ e ≤ 0x280000 then some (.acc u)
      else if 0x400000 ≤ o ∧ e ≤ 0x580000 then some (.setBits u)
      else if 0x600000 ≤ o ∧ e ≤ 0x780000 then some (.clrBits u)
      else none
  else if queueBase ≤ a ∧ z ≤ queueBase + 0x100000000 then some .queues
  else none

/-- Module address of offset o of a unit's window; scratch is at o = 0, accumulator memory at 0x20_0000. -/
def unitAddr (u : UnitId) (o : Nat) : Nat := unitBase + u.key * unitWindow + o
def accAddr (u : UnitId) (o : Nat) : Nat := unitAddr u (0x200000 + o)

/-- The address at which an access to an alias range reads and writes (R203). -/
def plainAddr (r : Region) (a : Nat) : Nat :=
  match r with
  | .setBits _ => a - 0x400000
  | .clrBits _ => a - 0x600000
  | _ => a

/-- Module channel of a DRAM address (R209, R211). -/
def channelOf (a : Nat) : Nat := 24 * (a / dramWindow) + (a % dramWindow / 256) % 24

/-! ## Bytes -/

/-- One byte of the module address space; a byte that is not listed reads zero (R205, R215).
DESIGN CHOICE, log entry 34. -/
def State.readByte (s : State) (a : Nat) : Byte := tget 0 s.mem a

/-- Memory.wf of the model: addresses strictly rising, no listed zero byte. -/
abbrev Memory.wf (m : List Host.Cell) : Bool := twf (0 : Byte) m

def putBytes (m : List Host.Cell) (a : Nat) : List Byte → List Host.Cell
  | [] => m
  | b :: bs => putBytes (tput (0 : Byte) a b m) (a + 1) bs

/-- Bytes in memory from a, without the check code or any rule of access. -/
def State.rawWrite (s : State) (a : Nat) (bs : List Byte) : State := { s with mem := putBytes s.mem a bs }
def State.rawRead (s : State) (a n : Nat) : List Byte := (List.range n).map fun i => s.readByte (a + i)

/-- Little-endian number of a list of bytes (R7). -/
def leNat : List Byte → Nat
  | [] => 0
  | b :: bs => b.toNat + 256 * leNat bs

def leBytes : Nat → Nat → List Byte
  | 0, _ => []
  | n + 1, v => BitVec.ofNat 8 v :: leBytes n (v / 256)

/-- Most significant byte first (R6). -/
def beBytes (n v : Nat) : List Byte := (leBytes n v).reverse
def beNat (bs : List Byte) : Nat := leNat bs.reverse

def State.word64 (s : State) (a : Nat) : Word64 := BitVec.ofNat 64 (leNat (s.rawRead a 8))

/-! ## The check code (R217 to R222): settling stored upsets when a word is read -/

def popcount (x : Nat) : Nat → Nat
  | 0 => 0
  | n + 1 => x % 2 + popcount (x / 2) n

def State.flipsAt (s : State) (l : WordLoc) : BitVec 87 :=
  (s.upsets.filter fun e => e.loc == l).foldl (fun x e => x ^^^ e.flips) 0

def State.dropFlips (s : State) (l : WordLoc) : State := { s with upsets := s.upsets.filter fun e => e.loc != l }

/-- What the decoder makes of the flips of one word (R218): none, corrected, uncorrectable, or, from four flips on, one
of the three outcomes that R218 leaves open, taken from a free value. DESIGN CHOICE, log entry 16. -/
inductive Decoded where
  | sound
  | corrected
  | wrong
  | uncorrectable
  | unseen
  deriving DecidableEq, Repr

/-- DESIGN CHOICE, log entry 16. -/
def decodeFlips (n free : Nat) : Decoded :=
  if n = 0 then .sound
  else if n ≤ 2 then .corrected
  else if n = 3 then .uncorrectable
  else match free % 3 with
    | 0 => .uncorrectable
    | 1 => .wrong
    | _ => .unseen

/-- Result of settling one word: the state, the new value XOR the old value of its 64 data bits and tag byte, and whether
an error was corrected or found uncorrectable. -/
structure Settled where
  s : State
  change : BitVec 72
  ce : Bool
  ue : Bool

def settleWord (s : State) (l : WordLoc) : Settled :=
  let f := s.flipsAt l
  let n := popcount f.toNat 87
  match decodeFlips n (freeWord s).toNat with
  | .sound => ⟨s.dropFlips l, 0, false, false⟩
  | .corrected => ⟨s.dropFlips l, 0, true, false⟩
  | .uncorrectable => ⟨(if 3 < n then useFree s else s).dropFlips l, f.extractLsb' 0 72, false, true⟩
  | .wrong =>
    let t := useFree s
    ⟨(useFree t).dropFlips l, (freeWord t).zeroExtend 72 ||| (((freeWord (useFree t)).zeroExtend 72) <<< 64), true, false⟩
  | .unseen => ⟨(useFree s).dropFlips l, f.extractLsb' 0 72, false, false⟩

def xorWord (s : State) (a : Nat) (x : Word64) : State :=
  if x = 0 then s else s.rawWrite a (leBytes 8 ((s.word64 a) ^^^ x).toNat)

/-- Tag byte of a DRAM line: [0] POISON, [7:1] VERSION. -/
def State.tag (s : State) (line : Nat) : Byte := tget 0 s.lineTags line
def State.setTag (s : State) (line : Nat) (t : Byte) : State := { s with lineTags := tput 0 line t s.lineTags }
def State.linePoison (s : State) (line : Nat) : Bool := (s.tag line).getLsbD 0
def State.version (s : State) (line : Nat) : BitVec 7 := (s.tag line).extractLsb' 1 7
def State.setVersion (s : State) (line : Nat) (v : BitVec 7) : State :=
  s.setTag line (v ++ (s.tag line).extractLsb' 0 1)
def State.poisonLine (s : State) (line : Nat) : State := s.setTag line (s.tag line ||| 1)

/-- Poison bit of a scratch or accumulator word, by module address / 8. -/
def State.wordPoison (s : State) (w : Nat) : Bool := tget false s.poison w
def State.setWordPoison (s : State) (w : Nat) (b : Bool) : State := { s with poison := tput false w b s.poison }

/-- Settle words i, i + 1, … of the line at `line`. -/
def settleLineWords (line : Nat) : Nat → State → Bool → Bool → State × Bool × Bool
  | 0, s, ce, ue => (s, ce, ue)
  | n + 1, s, ce, ue =>
    let i := 7 - n
    let r := settleWord s (.dram (line / 8 + i))
    let s := xorWord r.s (line + 8 * i) (r.change.extractLsb' 0 64)
    let s := if i = 0 ∧ r.change.extractLsb' 64 8 ≠ 0 then s.setTag line (s.tag line ^^^ r.change.extractLsb' 64 8) else s
    settleLineWords line n s (ce || r.ce) (ue || r.ue)

/-- A read of the DRAM line at `line` (a multiple of 64): corrections are counted (R220); an uncorrectable error poisons
the line, is counted and sends MEM_POISON (R221); a poisoned line is delivered as it is (R222).
DESIGN CHOICE, log entry 17. -/
def touchLine (line : Nat) (s : State) : State :=
  if s.upsets.isEmpty || s.linePoison line then s
  else
    let (s, ce, ue) := settleLineWords line 8 s false false
    let s := if ce then s.bump (0x010400 + 4 * channelOf line) 1 else s
    if ue then
      let ch := channelOf line
      let s := { s with memc := { s.memc with ueTimes := tput [] ch (s.channelBeat ch :: tget [] s.memc.ueTimes ch) s.memc.ueTimes } }
      sendEvent 0x0020 1 0 0 0 (xAddr line) ((s.poisonLine line).bump (0x010800 + 4 * ch) 1)
    else s

/-- Count a corrected error of unit u's memories (R220). -/
def countCe (u : UnitId) (ce : Bool) (s : State) : State := if ce then s.bump (unitOff u 0x2C) 1 else s

/-- Count and date an uncorrectable error of unit u's memories (R221, R185). -/
def countUe (u : UnitId) (ue : Bool) (s : State) : State :=
  if ue then (s.bump (unitOff u 0x30) 1).modUnit u fun x => { x with ueTimes := s.unitBeat u :: x.ueTimes } else s

/-- A read of a scratch or accumulator word of unit u (R220, R221). -/
def touchWord (u : UnitId) (w : Nat) (s : State) : State :=
  if s.upsets.isEmpty || s.wordPoison w then s
  else
    let r := settleWord s (.sram w)
    let s := xorWord r.s (8 * w) (r.change.extractLsb' 0 64)
    let s := if r.change.getLsbD 64 then s.setWordPoison w true else s
    let s := countCe u r.ce s
    if r.ue then countUe u true (s.setWordPoison w true) else s

/-- Change half h of an instruction word by x. -/
def xorHalf (u : UnitId) (idx h : Nat) (x : Word64) (s : State) : State :=
  if x = 0 then s
  else { s with store := tput 0 (4096 * u.key + idx) (s.instr u idx ^^^ ((x.zeroExtend 128 : InstrWord) <<< (64 * h))) s.store }

/-- A read of half h of an instruction word (R207): settles its upsets and counts what it finds (R220, R221). -/
def touchHalf (u : UnitId) (idx h : Nat) (s : State) : State :=
  let k := 8192 * u.key + 2 * idx + h
  if s.upsets.isEmpty || tget false s.storePoison k then s
  else
    let r := settleWord s (.store u.key idx h)
    let s := countCe u r.ce (xorHalf u idx h (r.change.extractLsb' 0 64) r.s)
    if r.ue || r.change.getLsbD 64 then countUe u r.ue { s with storePoison := tput false k true s.storePoison } else s

/-- A read of both halves of an instruction word (R207). The Bool says that a half is poisoned or uncorrectable. -/
def touchInstr (u : UnitId) (idx : Nat) (s : State) : State × Bool :=
  let s := touchHalf u idx 1 (touchHalf u idx 0 s)
  (s, tget false s.storePoison (8192 * u.key + 2 * idx) || tget false s.storePoison (8192 * u.key + 2 * idx + 1))

/-- First and last multiples of k that a span of n ≥ 1 bytes from a touches, as a list of addresses. -/
def blocks (k a n : Nat) : List Nat :=
  if n = 0 then [] else (List.range ((a + n - 1) / k - a / k + 1)).map fun i => (a / k + i) * k

/-- A read of the n bytes from a, which lie in range r: settles and counts what it finds. -/
def touch (r : Region) (a n : Nat) (s : State) : State :=
  if s.upsets.isEmpty then s
  else match r with
    | .dram _ => (blocks 64 a n).foldl (fun s l => touchLine l s) s
    | .scratch u | .acc u | .setBits u | .clrBits u =>
      (blocks 8 (plainAddr r a) n).foldl (fun s w => touchWord u (w / 8) s) s
    | .queues => s

/-- Is the byte at a poisoned? -/
def State.poisoned (s : State) (r : Region) (a : Nat) : Bool :=
  match r with
  | .dram _ => s.linePoison (a / 64 * 64)
  | .queues => false
  | _ => s.wordPoison (plainAddr r a / 8)

/-- Does the span hold a poisoned byte? -/
def State.anyPoison (s : State) (r : Region) (a n : Nat) : Bool :=
  match r with
  | .dram _ => (blocks 64 a n).any s.linePoison
  | .queues => false
  | _ => (blocks 8 (plainAddr r a) n).any fun w => s.wordPoison (w / 8)

/-- Mark every word or line that the span touches as poisoned (R223). -/
def poisonSpan (r : Region) (a n : Nat) (s : State) : State :=
  match r with
  | .dram _ => (blocks 64 a n).foldl (fun s l => s.poisonLine l) s
  | .queues => s
  | _ => (blocks 8 (plainAddr r a) n).foldl (fun s w => s.setWordPoison (w / 8) true) s

/-- Poison and version of one DRAM line before a write of bytes a to a + n - 1 (R214, R224, R225): a whole line loses its
poison and its upsets, a partial write reads the line first. -/
def prepLine (a n : Nat) (ver : BitVec 7) (s : State) (line : Nat) : State :=
  if a ≤ line ∧ line + 64 ≤ a + n then
    let s := if s.upsets.isEmpty then s else (List.range 8).foldl (fun s i => s.dropFlips (.dram (line / 8 + i))) s
    s.setTag line (ver ++ (0 : BitVec 1))
  else (touchLine line s).setVersion line ver

def prepWord (u : UnitId) (a n : Nat) (s : State) (w : Nat) : State :=
  if a ≤ w ∧ w + 8 ≤ a + n then
    (if s.upsets.isEmpty then s else s.dropFlips (.sram (w / 8))).setWordPoison (w / 8) false
  else touchWord u (w / 8) s

/-- One alias write of a whole word (R203, R204): nothing on a poisoned word. DEDUCED, log entry 58. -/
def aliasWord (u : UnitId) (set : Bool) (s : State) (w : Nat) (v : Word64) : State :=
  let s := touchWord u (w / 8) s
  if s.wordPoison (w / 8) then s
  else
    let old := s.word64 w
    s.rawWrite w (leBytes 8 (if set then old ||| v else old &&& ~~~v).toNat)

def aliasWords (u : UnitId) (set : Bool) (w : Nat) : Nat → List Byte → State → State
  | 0, _, s => s
  | n + 1, bs, s =>
    aliasWords u set (w + 8) n (bs.drop 8) (aliasWord u set s w (BitVec.ofNat 64 (leNat (bs.take 8))))

def Region.isAlias : Region → Bool
  | .setBits _ | .clrBits _ => true
  | _ => false

/-- An alias write that finds an uncorrectable error or poison in one of its words (R204), after it has read them. -/
def aliasPoison (r : Region) (a n : Nat) (s : State) : State × Bool :=
  if r.isAlias then (let s := touch r a n s; (s, s.anyPoison r a n)) else (s, false)

/-- Write bytes at a, which lie in range r, with version ver on DRAM lines. -/
def writeSpan (r : Region) (a : Nat) (bs : List Byte) (ver : BitVec 7) (s : State) : State :=
  match r with
  | .dram _ => ((blocks 64 a bs.length).foldl (prepLine a bs.length ver) s).rawWrite a bs
  | .scratch u | .acc u => ((blocks 8 a bs.length).foldl (prepWord u a bs.length) s).rawWrite a bs
  | .setBits u => aliasWords u true (plainAddr r a) (bs.length / 8) bs s
  | .clrBits u => aliasWords u false (plainAddr r a) (bs.length / 8) bs s
  | .queues => s

/-- Write at a module address; outside the address space nothing is written. -/
def writeMem (a : Nat) (bs : List Byte) (ver : BitVec 7) (s : State) : State :=
  if bs.isEmpty then s
  else match regionOf a bs.length with
    | some r => writeSpan r a bs ver s
    | none => s

/-- A read by an engine or the host: the state after the read, the bytes, and whether any was poisoned. -/
def readMem (a n : Nat) (s : State) : State × List Byte × Bool :=
  match regionOf a n with
  | none => (s, List.replicate n 0, false)
  | some r =>
    let s := touch r a n s
    (s, s.rawRead (plainAddr r a) n, s.anyPoison r a n)

/-! ## Owner codes (R193 to R201) -/

inductive Master where
  | feed | vec | scalar
  | shuttle (h : ShuttleId)
  | engine | fabric | host
  deriving DecidableEq, Repr

def bankOf (a : Nat) : Nat := a / 8 % 32

/-- Owner code of a bank; UNIT after any reset (R193). -/
def UnitState.owner (x : UnitState) (bank : Nat) : BitVec 4 := tget 0 x.owners bank
def UnitState.setOwner (x : UnitState) (bank : Nat) (c : BitVec 4) : UnitState :=
  { x with owners := tput 0 bank c x.owners }

/-- Table 5.1. -/
def admits (u : UnitId) (code : BitVec 4) (m : Master) : Bool :=
  match m with
  | .feed | .scalar => code == 0
  | .vec => code == 0 || code == 1
  | .shuttle h => if h.cluster = u.cluster then code.toNat == 8 + h.k.val else code == 2
  | .engine | .fabric => code == 2
  | .host => true

/-- MASTER of UNIT_OWN_LAST (Table 5.3). -/
def masterCode (u : UnitId) : Master → Nat
  | .feed => 0
  | .vec => 1
  | .scalar => 2
  | .shuttle h => if h.cluster = u.cluster then 8 + h.k.val else 3
  | .engine => 4
  | .fabric => 5
  | .host => 0

/-- A refused access (R194, R196): counted, and recorded where UNIT_OWN_LAST holds nothing. -/
def refuse (u : UnitId) (acc : Bool) (index : Nat) (m : Master) (s : State) : State :=
  let s := s.bump (unitOff u 0x24) 1
  let x := s.unit u
  if x.ownLast.getLsbD 31 then s
  else s.setUnit u { x with
    ownLast := BitVec.ofNat 32 (2 ^ 31 + (if acc then 2 ^ 13 else 0) + 256 * index + masterCode u m) }

/-- The first bank of a scratch span that the owner codes do not open to a master (R194). -/
def refusedBank (s : State) (u : UnitId) (a n : Nat) (m : Master) : Option Nat :=
  let x := s.unit u
  ((blocks 8 a (min n 256)).map bankOf).find? fun b => !admits u (x.owner b) m

/-- Slots of a destination tile (Table 3.1, R104). -/
def tileSlots (group fmtc : Nat) : Nat :=
  (if group < 4 then 1 else if group < 6 then 2 else 4) * (if fmtc = 1 then 2 else 1)

/-- A canonical start that does not end in the same instruction needs a stack (R123). -/
def MxOp.opensStack (o : MxOp) : Bool := bitOf o.word 83 && bitOf o.word 82 && !bitOf o.word 81

/-- Slots of a unit's open canonical stacks (R122, R124): each holds `depth` groups of `slots` slots from `base`, from the
issue of its start. The stack of an open combination counts with them (R126 keeps it as R122 keeps its own). DEDUCED, log
entry 91. DEDUCED, log entry 91. -/
def UnitState.stackSlots (x : UnitState) : List Nat :=
  (x.canons.flatMap fun c => (List.range (c.depth * c.slots)).map (c.base + ·)) ++
  (x.combs.flatMap fun c => (List.range (c.depth * c.slots)).map (c.base + ·)) ++
  ((x.mxQueue.filter MxOp.opensStack).flatMap fun o =>
    (List.range ((fld o.word 75 73 + 1) * tileSlots (fld o.word 114 112) (fld o.word 101 98))).map (fld o.word 80 76 + ·))

/-- Slot of an accumulator-memory offset: 16 KiB each (R105). -/
def slotOf (off : Nat) : Nat := off / 16384

/-- The slot of an accumulator span that belongs to an open stack (R196). -/
def refusedSlot (s : State) (u : UnitId) (off n : Nat) : Option Nat :=
  ((blocks 16384 off n).map (· / 16384)).find? fun k => (s.unit u).stackSlots.contains k

/-- Check an access of n bytes at module address a by a master against owner codes and open stacks. The Bool says that it
is admitted; a refusal has been counted. -/
def openSpan (r : Region) (a n : Nat) (m : Master) (s : State) : State × Bool :=
  match r with
  | .scratch u | .setBits u | .clrBits u =>
    match refusedBank s u a n m with
    | some b => (refuse u false b m s, false)
    | none => (s, true)
  | .acc u =>
    match refusedSlot s u ((a - unitBase) % unitWindow - 0x200000) n with
    | some k => (refuse u true k m s, false)
    | none => (s, true)
  | _ => (s, true)

end Sys2Proof.Machine
end

