-- ==== Sys2Proof/Machine/Ethernet.lean ====
section
/-! DEFINITION. The Ethernet ports (R477 to R480): their modes, addresses, the frames and datagrams that they take, and what they answer
themselves. -/
namespace Sys2Proof.Machine

/-- Phase 9, READY, and the states in which the Ethernet ports stay up. -/
def ethRuns (s : State) : Bool := s.boot.phase == .eth || s.boot.phase == .done

/-- MODE_A or MODE_B of TOP_ETH_CFG for a port: 0 negotiates, n forces mode n - 1. -/
def forcedMode (s : State) (p : Fin 8) : Nat := if p.val < 4 then fld (s.cfgReg 0x2C) 31 28 else fld (s.cfgReg 0x2C) 27 24

def setEth (p : Fin 8) (m : Option (Fin 4)) (s : State) : State :=
  { s with host := { s.host with eth := tput none p.val m s.host.eth } }

/-- The modes that a port offers: the forced one, or all. -/
def ethOffers (s : State) (p : Fin 8) : BitVec 4 := if forcedMode s p = 0 then 0xF else (1 : BitVec 4) <<< (forcedMode s p - 1)

/-- The fastest of a set of modes, in the order of Table 11.1. DESIGN CHOICE, log entry 97. -/
def fastestMode (m : BitVec 4) : Option (Fin 4) := (List.finRange 4).find? fun k => m.getLsbD k.val

/-- Beats in 1 s. -/
def secondBeats : Nat := 3906250

/-- A try of a port that is not up, with the modes that the other end offers: the port comes up in the fastest mode that both ends
have, or tries again after 1 s. DESIGN CHOICE, log entry 97. -/
def ethNegotiate (p : Fin 8) (m : BitVec 4) (s : State) : State :=
  let due := match tget none s.host.ethTried p.val with
    | some b => s.isFault || decide (secondBeats ≤ beatsSince s.beat b)
    | none => true
  if ethRuns s && !s.ethUp p.val && due then
    match fastestMode (m &&& ethOffers s p) with
    | some k => setEth p (some k) { s with host := { s.host with ethTried := tput none p.val none s.host.ethTried } }
    | none => { s with host := { s.host with ethTried := tput none p.val (some s.beat) s.host.ethTried } }
  else s

def execEthPortNegotiate (port : Fin 8) (mode : BitVec 4) (s : State) : Out := .next (ethNegotiate port mode s)
def execEthernetPortDown (port : Fin 8) (s : State) : Out := .next (setEth port none s)

/-- The module takes datagrams: start-up has ended and the port is up (R527). DEDUCED, log entry 60. -/
def takesDatagrams (s : State) (p : Fin 8) : Bool := s.boot.phase == .done && s.boot.state != .boot && s.ethUp p.val

/-- MAC address of a port (R478), and its link-local address by modified EUI-64. -/
def macOf (s : State) (p : Fin 8) : BitVec 48 := s.otp.macBase + BitVec.ofNat 48 p.val
def linkLocal (s : State) (p : Fin 8) : BitVec 128 :=
  let m := macOf s p
  ((0xFE80 : BitVec 16) ++ (0 : BitVec 48)) ++ ((m.extractLsb' 24 24 ^^^ (0x020000 : BitVec 24)) ++ (0xFFFE : BitVec 16) ++ m.extractLsb' 0 24)

/-- TOP_IP of a port: its valid IPv6 addresses and IPv4 address. -/
def ipBase (p : Fin 8) : Nat := 0x100 + 0x40 * p.val
/-- DEDUCED, log entry 24. -/
def ipWord (s : State) (p : Fin 8) (k : Nat) : Word32 := s.cfgReg (ipBase p + 4 * k)
def ip6 (s : State) (p : Fin 8) (k : Nat) : BitVec 128 :=
  ipWord s p (4 * k) ++ ipWord s p (4 * k + 1) ++ ipWord s p (4 * k + 2) ++ ipWord s p (4 * k + 3)
def holds6 (s : State) (p : Fin 8) (a : BitVec 128) : Bool :=
  a == linkLocal s p || ([0, 1] : List Nat).any fun k => (ipWord s p 9).getLsbD k && a == ip6 s p k
def holds4 (s : State) (p : Fin 8) (a : Word32) : Bool := (ipWord s p 9).getLsbD 2 && a == ipWord s p 8

/-- The addresses of a port; an IPv4 one in the form ::ffff:a.b.c.d. -/
def ownAddr (s : State) (p : Fin 8) (a : BitVec 128) : Bool :=
  holds6 s p a || (a.extractLsb' 32 96 == 0xFFFF && holds4 s p (a.extractLsb' 0 32))

/-- The multicast MAC addresses that IPv6 neighbour discovery needs: that of all nodes, and the solicited-node one of each IPv6
address of the port. PRESUMED, log entry 98. -/
def discoveryMac (s : State) (p : Fin 8) (m : BitVec 48) : Bool :=
  let group := fun (a : BitVec 128) => m == (0x3333FF : BitVec 24) ++ a.extractLsb' 0 24
  m == 0x333300000001 || group (linkLocal s p) || ([0, 1] : List Nat).any fun k => (ipWord s p 9).getLsbD k && group (ip6 s p k)

/-- A frame that the port accepts (R478): for its MAC address or for neighbour discovery, with at most one tag; a
broadcast frame of ARP while the port holds a valid IPv4 address. -/
def takesFrame (s : State) (f : EthIn) (arp : Bool) : Bool :=
  takesDatagrams s f.port && decide (f.tags ≤ 1) &&
    (f.mac == macOf s f.port || discoveryMac s f.port f.mac || (arp && f.mac == 0xFFFFFFFFFFFF && (ipWord s f.port 9).getLsbD 2))

/-- TOP_CMD_UDP (R480). -/
def State.cmdUdp (s : State) : BitVec 16 := (s.cfgReg 0x28).extractLsb' 0 16

/-- A datagram that goes on to the command or the HX decoder: whole, for an address of its port, to that UDP port (R479). -/
def takesUdp (s : State) (n : NetIn) (udp : BitVec 16) : Bool :=
  takesFrame s n.toEthIn false && !n.fragment && ownAddr s n.port n.dst && n.udp == udp

def execNeighbourSolicitation (port : EthIn) (target : BitVec 128) (s : State) : Out :=
  .next (if takesFrame s port false && !port.fragment && holds6 s port.port target then s.emit (.ndAdvert port.port s.vid target)
    else s)

def execArpRequest (port : EthIn) (target : Word32) (s : State) : Out :=
  .next (if takesFrame s port true && holds4 s port.port target then s.emit (.arpReply port.port s.vid target) else s)

/-- An ICMP echo request carries its IPv4 destination in the form ::ffff:a.b.c.d. -/
def execEchoRequest (port : EthIn) (v6 : Bool) (dst : BitVec 128) (data : List Byte) (s : State) : Out :=
  let mine := if v6 then holds6 s port.port dst else dst.extractLsb' 32 96 == 0xFFFF && holds4 s port.port (dst.extractLsb' 0 32)
  .next (if takesFrame s port false && !port.fragment && mine then s.emit (.echoReply port.port s.vid dst data) else s)

end Sys2Proof.Machine
end

