-- ==== Sys2Proof/Machine/Wire.lean ====
section
/-! DEFINITION. The bytes on the wires, most significant byte first (R6): command headers, responses and events (Table 11.2),
torus packets and frames with their CRC-32 (Tables 7.3, 7.9), HX headers, nonces, ACK and KEYX payloads (Tables 9.5, 9.6, 9.8,
9.9). -/
namespace Sys2Proof.Machine

/-- Bit fields, given from the most significant as (width, value), as one number. -/
def packFields : List (Nat × Nat) → Nat
  | [] => 0
  | (w, v) :: t => v % 2 ^ w * 2 ^ (t.map Prod.fst).sum + packFields t

def bit (b : Bool) : Nat × Nat := (1, b.toNat)

/-! ## Commands, responses, events (Table 11.2, R482, R504) -/

/-- A command header. A field of a later revision is zero in an earlier one (R482). -/
def cmdHeader (rev : BitVec 4) (kind : Nat) (status : Byte) (code : BitVec 16) (tag seq : Word32) (len : Nat) (hostid chain : BitVec 16)
    (flags : Nat) (nodeOrDetail : Word32) (beat : Beat) : List Byte :=
  let from2 := fun (l : List Byte) => if 2 ≤ rev.toNat then l else List.replicate l.length 0
  let from3 := fun (l : List Byte) => if 3 ≤ rev.toNat then l else List.replicate l.length 0
  [rev ++ BitVec.ofNat 4 kind, status] ++ beBytes 2 code.toNat ++ beBytes 4 tag.toNat ++ beBytes 4 seq.toNat ++ beBytes 2 len ++
    from2 (beBytes 2 hostid.toNat ++ beBytes 2 chain.toNat ++ [BitVec.ofNat 8 flags, 0] ++ beBytes 4 nodeOrDetail.toNat) ++
    from3 (beBytes 6 beat.toNat) ++ [0, 0]

/-- The UDP payload of a request with its decoded header. -/
def requestBytes (h : Hdr) (code : BitVec 16) (pay : List Byte) : List Byte :=
  cmdHeader h.rev 1 0 code h.tag h.seq h.len.toNat h.hostid h.chain
    (packFields [(1, if 3 ≤ h.rev.toNat then h.lbv.toNat else 0), bit h.nchk, bit h.cfirst, bit h.clast, (4, 0)]) (h.node.zeroExtend 32) h.lbeat ++ pay

/-- The UDP payload of a response. -/
def Resp.bytes (r : Resp) : List Byte :=
  cmdHeader r.rev 2 r.status r.opcode r.tag r.seq r.payload.length r.hostid r.chain 0 r.detail r.rbeat ++ r.payload

/-- An event payload (R504). -/
def eventBytes (e : Event) : List Byte :=
  beBytes 6 e.beat.toNat ++ [e.sev, 0] ++ beBytes 4 e.p.toNat ++ beBytes 6 e.q.toNat ++ beBytes 2 e.c.toNat ++ beBytes 12 e.x.toNat

/-- The UDP payload of an event on a network. -/
def Event.bytes (e : Event) (net : Fin 2) : List Byte :=
  cmdHeader e.rev 3 0 e.code 0 (if net.val = 0 then e.esqA else e.esqB) 32 0 0 0 0 0 ++ eventBytes e

/-! ## Torus packets and frames -/

/-- A packet: header (Table 7.9), multicast mask, payload. -/
def packetBytes (p : Packet) : List Byte :=
  [p.ver ++ p.typ, BitVec.ofNat 8 (packFields [(2, p.cls.toNat), bit p.epoch, bit p.mc, bit p.det, (3, 0)])] ++ beBytes 3 p.dst.toNat ++
    beBytes 3 p.src.toNat ++ [p.heddle, p.slice] ++ beBytes 2 p.payload.length ++ beBytes 8 p.addr.toNat ++ beBytes 4 p.tag.toNat ++
    [p.vers] ++ beBytes 7 p.ext.toNat ++ (if p.mc then beBytes 8 p.mask.toNat else []) ++ p.payload

/-- The header word of a frame (Table 7.3). -/
def FrameHdr.word (h : FrameHdr) : Nat :=
  packFields [(12, h.fseq.toNat), (12, h.aseq.toNat), (2, h.ak.toNat), (2, h.ftype.toNat), (5, h.fpo.toNat), (4, h.cvc.toNat),
    (11, h.ccnt.toNat), bit h.csh, (4, h.fvc.toNat), bit h.fsh, (10, 0)]

/-- The IEEE 802.3 CRC-32. DESIGN CHOICE, log entry 44. -/
def crc32Step : Nat → Word32 → Word32
  | 0, c => c
  | n + 1, c => crc32Step n (if c.getLsbD 0 then (c >>> 1) ^^^ 0xEDB88320 else c >>> 1)

def crc32 (bs : List Byte) : Word32 :=
  ~~~ bs.foldl (fun c b => crc32Step 8 (c ^^^ b.zeroExtend 32)) 0xFFFFFFFF

def linkCode : LinkMsg → Nat
  | .identity w t => packFields [(2, 0), (22, w.toNat), (8, t.toNat)]
  | .lanes l => packFields [(2, 1), (22, 0), (8, l.toNat)]
  | .retrain l => packFields [(2, 2), (22, 0), (8, l.val)]
  | .retrainAnswer l b => packFields [(2, 3), (22, b.toNat), (8, l.val)]

/-- The 240 bytes of a frame's body. -/
def FrameBody.bytes (b : FrameBody) : List Byte :=
  match b with
  | .data p k =>
    let l := ((packetBytes p).drop (240 * k)).take 240
    l ++ (List.range (240 - l.length)).map Config.idleByte
  | .idle => (List.range 240).map Config.idleByte
  | .ctl m => (List.range 240).map (Config.linkByte (linkCode m))

/-- A frame: header, body, trailer (R302). -/
def frameBytes (h : FrameHdr) (b : FrameBody) : List Byte :=
  let l := beBytes 8 h.word ++ b.bytes
  l ++ beBytes 8 (crc32 l).toNat

/-! ## HX packets -/

/-- Network A, network B. -/
def otherNet (n : Fin 2) : Fin 2 := if n.val = 0 then 1 else 0

/-- The fields of an HX header (Table 9.5). TYPE is 1 DATA, 2 ACK, 3 PROBE, 4 ECHO, 5 KEYX. -/
structure HxHead where
  typ : Nat
  resent : Bool
  net : Fin 2
  job : BitVec 16
  src : Node
  dst : Node
  seq : BitVec 48
  kepoch : Word32
  pctr : Word32
  tstamp : Beat
  len : Nat
  ostep : Word32
  kind : BitVec 8
  midx : BitVec 6
  offset : BitVec 48
  deriving DecidableEq, Repr

/-- Byte 0; bytes 2 to 47. -/
def HxHead.byte0 (h : HxHead) : Byte := BitVec.ofNat 8 (packFields [(4, 1), (4, h.typ)])
def HxHead.tail (h : HxHead) : List Byte :=
  beBytes 2 h.job.toNat ++ beBytes 3 h.src.toNat ++ beBytes 3 h.dst.toNat ++ beBytes 6 h.seq.toNat ++ beBytes 4 h.kepoch.toNat ++
    beBytes 4 h.pctr.toNat ++ beBytes 6 h.tstamp.toNat ++ beBytes 2 (h.len % 2 ^ 14) ++ beBytes 4 h.ostep.toNat ++ [h.kind, h.midx.zeroExtend 8] ++
    beBytes 6 h.offset.toNat ++ [0, 0, 0, 0]

/-- The 48 bytes of the header. -/
def HxHead.bytes (h : HxHead) : List Byte :=
  h.byte0 :: BitVec.ofNat 8 (packFields [bit h.resent, (1, h.net.val), (6, 0)]) :: h.tail

/-- The additional authenticated data (R409). -/
def HxHead.aad (h : HxHead) : List Byte := h.byte0 :: h.tail

/-- The nonce (Table 9.9), of the network that the packet is sent on. -/
def HxHead.nonce (h : HxHead) : BitVec 96 :=
  BitVec.ofNat 96 (packFields [(32, h.kepoch.toNat), (8, h.net.val), (24, 0), (32, h.pctr.toNat)])

/-- Plain text to ciphertext and back under a key and nonce. -/
def gcmCrypt (k : BitVec 256) (n : BitVec 96) (bs : List Byte) : List Byte := bs.mapIdx fun i b => b ^^^ Config.gcmStream k n i

/-- The tag of a packet with its payload in plain (R409). -/
def HxHead.tag (h : HxHead) (k : BitVec 256) (plain : List Byte) : BitVec 128 :=
  Config.gcmTag k h.nonce h.aad (gcmCrypt k h.nonce plain)

/-- An encrypted packet: header, ciphertext, tag. -/
def HxHead.encrypted (h : HxHead) (k : BitVec 256) (plain : List Byte) : List Byte :=
  h.bytes ++ gcmCrypt k h.nonce plain ++ beBytes 16 (h.tag k plain).toNat

/-- RESENT set in byte 1 of a packet as first sent (Table 9.10). -/
def markResent : List Byte → List Byte
  | a :: b :: t => a :: (b ||| 0x80) :: t
  | l => l

/-- The payload of an ACK (Table 9.6). -/
def ackBytes (a : HxAck) : List Byte :=
  beBytes 6 a.cum.toNat ++ beBytes 6 a.win.toNat ++ beBytes 6 a.ets.toNat ++ beBytes 4 a.hold.toNat ++
    [BitVec.ofNat 8 a.ranges.length, 0] ++ a.ranges.flatMap fun r => beBytes 6 r.1.toNat ++ beBytes 6 r.2.toNat

/-- The payload of an ECHO: ETS and HOLD, as wide as in an ACK. DESIGN CHOICE, log entry 95. -/
def echoBytes (ets : Beat) (hold : Word32) : List Byte := beBytes 6 ets.toNat ++ beBytes 4 hold.toNat

/-- The payload of a KEYX packet (Table 9.8). -/
def keyxBytes (msg : Nat) (m : KeyxMsg) : List Byte :=
  [BitVec.ofNat 8 msg, m.frag, m.nfrag, 0] ++ beBytes 4 m.epoch.toNat ++ beBytes 4 m.mlen.toNat ++ m.bytes

/-- Fragments of a KEYX message, of at most n bytes each (R425). -/
def keyxFragments (epoch : Word32) (n : Nat) (bs : List Byte) : List KeyxMsg :=
  let l := if bs.isEmpty then [[]] else (List.range ((bs.length + n - 1) / n)).map fun k => (bs.drop (k * n)).take n
  l.mapIdx fun k b => ⟨BitVec.ofNat 8 k, BitVec.ofNat 8 l.length, epoch, BitVec.ofNat 32 bs.length, b⟩

/-! ## What has been sent, as bytes -/

/-- The UDP payload of a datagram, or the bytes of a frame; nothing for what other standards give the form of. -/
def Sent.bytes : Sent → List Byte
  | .resp r => r.bytes
  | .event d e => e.bytes ⟨d.port.val / 4, by have := d.port.isLt; omega⟩
  | .frame _ h b => frameBytes h b
  | .hx d => d.bytes
  | .digestList _ _ _ | .ndAdvert _ _ _ | .arpReply _ _ _ | .echoReply _ _ _ _ => []

end Sys2Proof.Machine
end

