-- ==== Sys2Proof/Machine/Identity.lean ====
section
/-! DEFINITION. The module's identity key and certificate (R538, R539), verifying a certificate (R540). -/
namespace Sys2Proof.Machine

/-- n bytes of a byte string from an offset; a number read there. -/
def part (bs : List Byte) (o n : Nat) : List Byte := (bs.drop o).take n
def partNat (bs : List Byte) (o n : Nat) : Nat := beNat (part bs o n)

def madeBytes (n : Nat) (f : Nat → Byte) : List Byte := (List.range n).map f

/-- SHA-256 as 32 bytes. -/
def sha256Bytes (bs : List Byte) : List Byte := beBytes 32 (Config.sha256 bs).toNat

/-- SK.seed, SK.prf and PK.seed from the identity seed (R538). -/
def idSecret (s : State) : List Byte :=
  madeBytes 48 (Config.hkdf (beBytes 32 s.otp.idSeed.toNat) []
    [0x44, 0x52, 0x55, 0x53, 0x59, 0x2D, 0x41, 0x47, 0x52, 0x41, 0x54, 0x48, 0x2D, 0x49, 0x44, 0x31])

def idKey (s : State) : List Byte := madeBytes 32 (Config.slhKey (idSecret s))
/-- SEC_ID_HASH. -/
def idHash (s : State) : BitVec 256 := Config.sha256 (idKey s)

/-- A signature of the module (17,088 bytes). -/
def idSign (s : State) (msg : List Byte) : List Byte := madeBytes 17088 (Config.slhSign (idSecret s) msg)

def certSize : Nat := 29920
def certKey (c : List Byte) : List Byte := part c 20 32

/-- The fixed fields of Table 13.5. -/
def certForm (c : List Byte) : Bool :=
  c.length == certSize && partNat c 0 4 == 0x44524943 && partNat c 4 2 == 1 && partNat c 6 2 == 128 && partNat c 16 2 == 0x2460 &&
    partNat c 19 1 == 1

/-- A certificate verifies (R540). -/
def certGood (s : State) (c : List Byte) : Bool :=
  let issuer := part c 64 64
  certForm c && Config.sha256 issuer == s.otp.vendorHash && Config.slhVerify256s issuer (part c 0 128) (c.drop 128)

/-- The first copy whose SUBJECT_PK is the derived key and which verifies (R539). -/
def chooseCert (r : CertRead) (s : State) : Option (List Byte) :=
  ((if r.a then [s.flash.certA] else []) ++ (if r.b then [s.flash.certB] else [])).find? fun c => certKey c == idKey s && certGood s c

/-- The certificate that the module sends: without a good one, the copy of device 0. DESIGN CHOICE, log entry 84. -/
def ownCert (s : State) : List Byte := s.sec.cert.getD s.flash.certA

/-- A peer's certificate: it verifies, and its key has the hash that the peer table holds (R423). -/
def peerCertGood (s : State) (e : PeerEntry) (c : List Byte) : Bool := certGood s c && Config.sha256 (certKey c) == e.keyHash

end Sys2Proof.Machine
end

