-- ==== Sys2Proof/Machine/Flags.lean ====
section
/-! DEFINITION. Sticky flags: non-finite (R77), integer overflow (R58), invalid (R59), late wait (R42), the shuttles' flags
(R263), and their places in UNIT_STATUS (Table 4.22). -/
namespace Sys2Proof.Machine

/-- What an operation finds for the sticky flags. -/
structure Flags where
  nf : Bool
  ovf : Bool
  inv : Bool
  deriving DecidableEq, Repr

def Flags.none : Flags := ⟨false, false, false⟩
def Flags.or (a b : Flags) : Flags := ⟨a.nf || b.nf, a.ovf || b.ovf, a.inv || b.inv⟩
def Flags.ofNf (b : Bool) : Flags := ⟨b, false, false⟩

/-- A unit's flags only ever become set by an operation. -/
def UnitState.flag (x : UnitState) (f : Flags) : UnitState :=
  { x with nonfinite := x.nonfinite || f.nf, intOvf := x.intOvf || f.ovf, invalid := x.invalid || f.inv }

def State.unitFlag (s : State) (u : UnitId) (f : Flags) : State := s.modUnit u (·.flag f)

/-- Non-finite flag of an F32 result or operand (R77). -/
def nfWords (ws : List Word32) : Flags := .ofNf (ws.any f32Special)
def nfVals (vs : List Val) : Flags := .ofNf (vs.any fun v => !v.finite)

/-- I32 arithmetic: the wrapped result, and whether it wrapped (R58). -/
def wrap32 (x : Int) : Word32 × Bool := (BitVec.ofInt 32 x, decide (x < -2147483648) || decide (2147483647 < x))

def ustatCode : UStat → Nat
  | .idle => 0 | .armed => 1 | .running => 2 | .faulted => 3

/-- The sticky flags in their places [11:7] of UNIT_STATUS. -/
def UnitState.flagBits (x : UnitState) : Nat :=
  x.semOvf.toNat * 2 ^ 11 + x.lateWait.toNat * 2 ^ 10 + x.invalid.toNat * 2 ^ 9 + x.intOvf.toNat * 2 ^ 8 +
    x.nonfinite.toNat * 2 ^ 7

/-- Index of the next instruction to issue: a BWAIT, BARRIER, SEMWAIT or FENCE that waits has issued. DEDUCED, log entry 2. -/
def UnitState.nextPc (x : UnitState) : BitVec 12 :=
  match x.wait with
  | .bwait _ | .barrier _ _ | .semwait _ _ | .fence _ => x.pc + 1
  | _ => x.pc

/-- UNIT_STATUS (Table 4.22). -/
def UnitState.statusWord (x : UnitState) : Word32 :=
  BitVec.ofNat 32 (ustatCode x.status * 2 ^ 29 + x.canon.toNat * 2 ^ 28 + x.replay.toNat * 2 ^ 27 + x.nextPc.toNat * 2 ^ 12 +
    x.flagBits + x.shOut)

/-- Clear the sticky flags whose bits [11:7] are set in a mask (UNIT_STATUS W1C; FLAGS, Table 4.4). -/
def UnitState.clearFlags (x : UnitState) (m : Nat) : UnitState :=
  { x with semOvf := x.semOvf && !m.testBit 11, lateWait := x.lateWait && !m.testBit 10,
           invalid := x.invalid && !m.testBit 9, intOvf := x.intOvf && !m.testBit 8,
           nonfinite := x.nonfinite && !m.testBit 7 }

/-- UNIT_FAULT (Table 4.23). -/
def UnitState.faultWord (x : UnitState) : Word32 :=
  BitVec.ofNat 32 (x.faultValid.toNat * 2 ^ 31 + x.faultCause.toNat * 2 ^ 24 + x.faultPc.toNat * 2 ^ 12 + x.stopPc.toNat)

/-- The sticky NONFINITE flags of SH0 to SH3 of a cluster, bit k for SHk. -/
def State.shtNf (s : State) (c : ClusterId) : Nat :=
  (s.sh ⟨c, 0⟩).nf.toNat + 2 * (s.sh ⟨c, 1⟩).nf.toNat + 4 * (s.sh ⟨c, 2⟩).nf.toNat + 8 * (s.sh ⟨c, 3⟩).nf.toNat

/-- Clear the shuttle flags whose bit [3:0] is set in a mask. -/
def State.clearShtNf (s : State) (c : ClusterId) (m : Nat) : State :=
  let one := fun (s : State) (k : Fin 8) => if m.testBit k.val then s.modSh ⟨c, k⟩ (fun h => { h with nf := false }) else s
  one (one (one (one s 0) 1) 2) 3

end Sys2Proof.Machine
end

