-- ==== Sys2Proof/Machine/Operands.lean ====
section
/-! DEFINITION. Operand fields: instruction words (Tables 4.2 to 4.15), shuttle descriptors (Tables 5.10, 5.11), the format
codes of Table 2.1 and which of them a field may name. -/
namespace Sys2Proof.Machine

/-! ## Instruction words -/

def opClass (w : InstrWord) : Nat := fld w 127 124
def opCode (w : InstrWord) : Nat := fld w 123 116
def opEfx (w : InstrWord) : Bool := bitOf w 115
def imm64 (w : InstrWord) : Word64 := w.extractLsb' 0 64

/-! ## Formats (Table 2.1) -/

/-- Width in bits of an element of a format; 0 for the reserved code 0xF. -/
def fmtBits : Nat → Nat
  | 0 => 32 | 1 => 64 | 2 => 16 | 3 => 16 | 4 => 8 | 5 => 8 | 6 => 6 | 7 => 6 | 8 => 4 | 9 => 32 | 10 => 16 | 11 => 8
  | 12 => 4 | 13 => 2 | 14 => 8 | _ => 0

/-- F6A, F6B, F4, I4 and T2 are block-scaled. -/
def fmtBlock (f : Nat) : Bool := (6 ≤ f && f ≤ 8) || f == 12 || f == 13

/-- Bytes to whose multiple an access to a format is aligned: 1 for the packed formats. -/
def fmtAlign (f : Nat) : Nat := max 1 (fmtBits f / 8)

/-- Stochastic rounding goes to F8G, B16 and T2 only (R70). -/
def rndOk (dfmt : Nat) (rnd : Bool) : Bool := !rnd || dfmt == 5 || dfmt == 3 || dfmt == 13

/-- Accumulator and combination formats: F32, F32K, I32. -/
def fmtAcc (f : Nat) : Bool := f == 0 || f == 1 || f == 9

/-- Table 2.7: the accumulator formats that an operand pair allows; the pair may stand in either order (R146). -/
def pairOk (fs fa fc : Nat) : Bool :=
  let f8 := fun f => f == 4 || f == 5
  let blk := fun f => 6 ≤ f && f ≤ 8
  if fs == 11 && fa == 11 then fc == 9
  else
    (fc == 0 || fc == 1) &&
      ((f8 fs && f8 fa) || (fs == 2 && fa == 2) || (fs == 3 && fa == 3) || (blk fs && blk fa) ||
       (blk fs && fa == 4) || (fs == 4 && blk fa) || (fs == 12 && fa == 12))

/-! ## Reserved values in defined fields (R142) -/

/-- The run of n general registers from r lies within GP31. -/
def runOk (r n : Nat) : Bool := decide (n = 0) || decide (r + n ≤ 32)

def scalarOps : List Nat :=
  [1, 2, 3, 4, 5, 6, 7, 8, 9, 10, 11, 12, 13, 14, 16, 17, 0x20, 0x21, 0x22, 0x23, 0x24, 0x25, 0x28, 0x29, 0x2A, 0x2B, 0x3F]

def vectorOps : List Nat :=
  [1, 2, 3, 0x10, 0x11, 0x12, 0x13, 0x14, 0x15, 0x16, 0x17, 0x20, 0x21, 0x22, 0x23, 0x24, 0x28, 0x29, 0x30, 0x31, 0x32,
   0x38, 0x40]

/-- General registers of the run at GAUX that a CVT reads: none, the source scale, the destination scale, the residuals. -/
def cvtAux (sf df : Nat) : Nat :=
  if df = 13 then 3 else if fmtBlock df then 2 else if fmtBlock sf then 1 else 0

/-- A word with a reserved CLASS, an undefined OP or a reserved value of a defined field, apart from those that an earlier
chapter gives a named fault (R142). -/
def illegal (w : InstrWord) : Bool :=
  let op := opCode w
  match opClass w with
  | 0 => !scalarOps.contains op
  | 1 => op != 1 || fld w 114 112 == 7 || fld w 111 110 == 3 || fld w 72 71 == 3
  | 2 =>
    !vectorOps.contains op ||
      (if op = 0x40 then fld w 104 103 == 3 || fld w 78 77 == 3
       else decide (3 ≤ fld w 114 112) || (op == 0x28 && decide (4 ≤ fld w 2 0)))
  | 3 =>
    match op with
    | 1 =>
      !runOk (fld w 91 87) 1 || !runOk (fld w 86 82) (cvtAux (fld w 114 111) (fld w 110 107)) ||
        !runOk (fld w 81 77) (if bitOf w 106 then 2 else 0)
    | 2 => false
    | _ => true
  | 4 => op == 0 || decide (10 < op) || decide (2 ≤ fld w 114 112)
  | 5 =>
    !([1, 2, 3, 0x11, 0x12, 0x13].contains op) ||
      !runOk (fld w 91 87) (if op = 1 then 2 else if op = 3 ∨ op = 0x13 then 0 else if op = 2 then 1
        else if bitOf w 75 then (if op = 0x11 then 4 else 3) else 1) ||
      !runOk (fld w 86 82) 2 ||
      !runOk (fld w 81 77) (if (op = 3 ∨ op = 0x13) ∧ bitOf w 76 then 3 else 1)
  | 6 => op != 1
  | 7 => op == 0 || decide (6 < op)
  | _ => true

/-! ## Shuttle descriptors -/

structure Desc where
  typ : Nat
  fin : Bool
  ext : Bool
  conv : Bool
  sfmt : Nat
  dfmt : Nat
  rnd : Bool
  vidx : Nat
  layout : Nat
  paired : Bool
  wmode : Nat
  version : BitVec 7
  vchk : Nat
  vexp : BitVec 7
  src : Nat
  dst : Nat
  len : Nat
  rows : Nat
  spitch : Int
  dpitch : Int
  node : Node
  remote : Bool
  umask : Nat
  next : Word32
  whey : BitVec 128
  k : Word32
  stream : BitVec 16
  step : Word32
  posbase : BitVec 48
  sscale : Nat
  dscale : Nat
  resid : Nat
  word0 : Word64
  word1 : Word64
  deriving DecidableEq, Repr

/-- A descriptor from its words (R233, R7). -/
def descOf (w : Nat → Word64) : Desc :=
  let w0 := w 0
  { typ := fld w0 3 0, fin := bitOf w0 4, ext := bitOf w0 5, conv := bitOf w0 6, sfmt := fld w0 10 7,
    dfmt := fld w0 14 11, rnd := bitOf w0 15, vidx := fld w0 19 16, layout := fld w0 22 20, paired := bitOf w0 23,
    wmode := fld w0 25 24, version := w0.extractLsb' 26 7, vchk := fld w0 34 33, vexp := w0.extractLsb' 35 7,
    src := (w 1).toNat, dst := (w 2).toNat, len := fld (w 3) 23 0, rows := fld (w 3) 47 24,
    spitch := ((w 4).extractLsb' 0 32).toInt, dpitch := ((w 4).extractLsb' 32 32).toInt,
    node := (w 5).extractLsb' 0 20, remote := bitOf (w 5) 20, umask := fld (w 5) 28 21,
    next := (w 5).extractLsb' 32 32, whey := w 7 ++ w 6, k := (w 8).extractLsb' 0 32,
    stream := (w 8).extractLsb' 32 16, step := (w 9).extractLsb' 0 32, posbase := (w 10).extractLsb' 0 48,
    sscale := (w 11).toNat, dscale := (w 12).toNat, resid := (w 13).toNat, word0 := w0, word1 := w 1 }

end Sys2Proof.Machine
end

