-- ==== Sys2Proof/Machine/Convert.lean ====
section
/-! DEFINITION. Conversion of elements between the formats of Table 2.1: decoding, block encoding (R65), ternary encoding
with error feedback (R83), vanishing (R67). -/
namespace Sys2Proof.Machine

/-- Parameters of a floating-point format code. -/
def floatOf : Nat → Option FFmt
  | 0 => some fmtF32 | 2 => some fmtF16 | 3 => some fmtB16 | 4 => some fmtF8V | 5 => some fmtF8G | 6 => some fmtF6A
  | 7 => some fmtF6B | 8 => some fmtF4 | _ => none

/-- A two's-complement code of n bits. -/
def intOf (n c : Nat) : Int := (BitVec.ofNat n c).toInt

/-- The value of an element code without a block scale; T2's 0b10 reads as 0 (R57). -/
def elemVal (f c : Nat) : Val :=
  match floatOf f with
  | some g => g.decode c
  | none =>
    match f with
    | 1 => (F32K.ofWord (BitVec.ofNat 64 c)).val
    | 13 => if c = 1 then .one else if c = 3 then Val.one.negate else .zero
    | _ => .ofInt (intOf (fmtBits f) c)

/-- The value of a block-scaled element (R61, R62). -/
def blockVal (f c : Nat) (x8 : Byte) : Val :=
  if x8 = 0 then .zero else if x8 = 0xFF then .nan else (elemVal f c).scale (x8Exp x8)

/-- Range of an integer format. -/
def intMin (n : Nat) : Int := -(2 ^ (n - 1) : Nat)
def intMax (n : Nat) : Int := (2 ^ (n - 1) : Nat) - 1

/-- To an integer format: round to nearest even; out of range or not a number gives the indefinite value (R59). -/
def toIntCode (n : Nat) (v : Val) : Nat × Bool :=
  match v with
  | .fin neg m e =>
    let i := roundInt neg m e
    if intMin n ≤ i ∧ i ≤ intMax n then ((BitVec.ofInt n i).toNat, false) else (2 ^ (n - 1), true)
  | _ => (2 ^ (n - 1), true)

/-- One encoded element: its code, and the flags of R59 and R77. -/
structure Enc where
  code : Nat
  fl : Flags
  deriving DecidableEq, Repr

/-- Encode a value in a format without a block scale; `draw` is the draw of a stochastic rounding (R70, R72). -/
def encElem (f : Nat) (draw : Option (BitVec 16)) (v : Val) : Enc :=
  match floatOf f with
  | some g =>
    let c := match draw with
      | some r => g.roundStochastic r.toNat v
      | none => g.round v
    ⟨c, .ofNf (!(g.decode c).finite)⟩
  | none =>
    if f = 1 then
      let k := F32K.ofVal v
      ⟨k.toWord.toNat, .ofNf (!(f32 k.v).finite)⟩
    else
      let (c, bad) := toIntCode (fmtBits f) v
      ⟨c, ⟨false, false, bad⟩⟩

/-- Between F32 and F32K a NaN keeps its 32 bits, as R55 returns every F32 bit for bit; elsewhere it is canonical (R50).
DESIGN CHOICE, log entry 90. -/
def keepNan (sf df src out : Nat) : Nat :=
  if ((sf = 0 ∧ df = 1) ∨ (sf = 1 ∧ df = 0)) ∧ (elemVal 0 (src % 2 ^ 32)).isNan then src % 2 ^ 32 else out

/-- Does a code of an unscaled format stand for ±0? -/
def codeZero (f c : Nat) : Bool := (elemVal f c).isZero

/-- Vanishing is counted for these destinations (R67). -/
def vanishes (f : Nat) : Bool := f ≤ 8 || f == 12

/-- floor(log₂ |v|) of a finite non-zero value. -/
def log2Floor : Val → Int
  | .fin _ m e => (Nat.log2 m : Int) + e
  | _ => 0

def intMaxOf : List Int → Int
  | [] => 0
  | [a] => a
  | a :: t => max a (intMaxOf t)

/-- emax of Table 2.4. -/
def blockEmax (f : Nat) : Int := if f = 6 then 4 else 2

/-- One element divided by 2^E and rounded to the element format: its code, and whether it fits. -/
def blockElem (f : Nat) (e : Int) (v : Val) : Nat × Bool :=
  match floatOf f, v.scale (-e) with
  | some g, .fin neg m ex =>
    let c := g.nearest m ex
    (g.signBit neg + min c g.maxCode, decide (c ≤ g.maxCode))
  | none, .fin neg m ex =>
    let i := roundInt neg m ex
    ((BitVec.ofInt 4 i).toNat, decide (-8 ≤ i) && decide (i ≤ 7))
  | _, _ => (0, true)

/-- A block of F6A, F6B, F4 or I4 from its values (R65): X8 code and element codes. For E + 127 above 254 the spec states no
code: a free value. DESIGN CHOICE, log entry 90. -/
def encBlock (f : Nat) (vs : List Val) : Byte × List Nat :=
  if vs.any (fun v => !v.finite) then (0xFF, vs.map fun _ => 0)
  else if vs.all Val.isZero then (0, vs.map fun _ => 0)
  else
    let e0 := intMaxOf ((vs.filter fun v => !v.isZero).map log2Floor) - blockEmax f
    let e1 := if vs.all (fun v => (blockElem f e0 v).2) then e0 else e0 + 1
    let e := max e1 (-126)
    let cs := vs.map fun v => (blockElem f e v).1
    if cs.all (codeZero f) then (0, vs.map fun _ => 0)
    else (if 127 < e then Config.wideScale e else BitVec.ofInt 8 (e + 127), cs)

/-- Elements of the values that vanish in their codes (R67). DEDUCED, log entry 48. -/
def vanishCount (f : Nat) (x8 : Byte) (vs : List Val) (cs : List Nat) : Nat :=
  if vanishes f && x8 != 0xFF then
    ((vs.zip cs).filter fun (v, c) => v.finite && !v.isZero && codeZero f c).length
  else 0

/-- A ternary block with its new residuals (R83); `none` leaves the residuals unchanged. -/
structure TBlock where
  x8 : Byte
  codes : List Nat
  resid : Option (List Word32)
  nf : Bool
  deriving DecidableEq, Repr

/-- Smallest E with 2^E ≥ v. -/
def log2Ceil : Val → Int
  | .fin _ m e => if m = 2 ^ Nat.log2 m then (Nat.log2 m : Int) + e else (Nat.log2 m : Int) + e + 1
  | _ => 0

/-- Round |u| / 2^E to 0 or 1 (R83 step 4). -/
def ternary (e : Int) (draw : Option (BitVec 16)) (u : Val) : Nat :=
  let a := u.abs.scale (-e)
  let up := match draw with
    | none => (Val.fin false 1 (-1)).lt a
    | some r =>
      match a with
      | .fin _ m ex => decide (2 ^ 16 ≤ r.toNat + (if 0 ≤ ex then 2 ^ 16 * m * 2 ^ ex.toNat else 2 ^ 16 * m / 2 ^ (-ex).toNat))
      | _ => false
  if up then (if u.isNeg then 3 else 1) else 0

/-- xs are the 32 source values, fs the stored residuals, draws the draw of each element where rounding is stochastic. -/
def encT2 (xs : List Val) (fs : List Word32) (draws : Nat → Option (BitVec 16)) : TBlock :=
  let us := (xs.zip fs).map fun (x, f) => toF32 (x.add (f32 f))
  let vs := us.map f32
  let zeros := vs.map fun _ => 0
  if vs.any (fun v => !v.finite) then ⟨0xFF, zeros, none, true⟩
  else if vs.all Val.isZero then ⟨0, zeros, some (us.map fun _ => 0), false⟩
  else
    let e := max (intMaxOf ((vs.filter fun v => !v.isZero).map log2Ceil)) (-126)
    if 127 < e then ⟨0xFF, zeros, none, true⟩
    else
      let ts := vs.mapIdx fun j v => ternary e (draws j) v
      let rs := (vs.zip ts).map fun (v, t) => toF32 (v.sub ((elemVal 13 t).scale e))
      ⟨BitVec.ofInt 8 (e + 127), ts, some rs, false⟩

/-! ## Packed elements (R64) -/

/-- Element j of width w from the bytes of a tensor or row. -/
def elemAt (bs : List Byte) (w j : Nat) : Nat :=
  let b0 := w * j / 8
  let nb := (w * j % 8 + w + 7) / 8
  (leNat ((bs.drop b0).take nb) / 2 ^ (w * j % 8)) % 2 ^ w

/-- All elements of width w in a byte string. -/
def elemsOf (w n : Nat) (bs : List Byte) : List Nat :=
  let x := leNat bs
  (List.range n).map fun j => x / 2 ^ (w * j) % 2 ^ w

/-- Codes of width w packed into bytes, the first lowest. -/
def packCodes (w : Nat) (cs : List Nat) : List Byte :=
  leBytes ((w * cs.length + 7) / 8) (cs.foldr (fun c x => c + 2 ^ w * x) 0)

end Sys2Proof.Machine
end

