-- ==== Sys2Proof/Machine/FabricOps.lean ====
section
/-! DEFINITION. The router and its output ports: identity and slice, routing (R323), multicast (R338), circuits (R342, R343),
output queues, frames and credits (R304, R306, R320, R321), drain counts (R332), injection (R350), the congestion map
(R346), and a port going DOWN (R309). -/
namespace Sys2Proof.Machine

/-! ## Identity and slice (R315, R447, R348) -/

/-- The strap node, STRAP[21:2]. -/
def State.strapNode (s : State) : Node := s.boot.strap.extractLsb' 2 20

/-- The job node: FAB_STANDIN.NODE while VALID is set (R447). -/
def State.jobNode (s : State) : Node :=
  let r := s.cfgReg 0x0200C8
  if r.getLsbD 31 then r.extractLsb' 0 20 else s.strapNode

/-- Coordinate on axis a (0 W, 1 X, 2 Y, 3 Z). -/
def coord (n : Node) (a : Nat) : Nat := fld n (15 - 4 * a) (12 - 4 * a)
def siteOf (n : Node) : Nat := fld n 19 16
/-- n with coordinate c on axis a. -/
def setCoord (n : Node) (a c : Nat) : Node := BitVec.ofNat 20 (n.toNat - coord n a * 16 ^ (3 - a) + c * 16 ^ (3 - a))

def State.sliceTag (s : State) : BitVec 8 := (s.cfgReg 0x0200C0).extractLsb' 24 8
def State.sliceLo (s : State) (a : Nat) : Nat := fld (s.cfgReg 0x0200C0) (15 - 4 * a) (12 - 4 * a)
def State.sliceExtent (s : State) (a : Nat) : Nat := fld (s.cfgReg 0x0200C4) (15 - 4 * a) (12 - 4 * a) + 1
def State.axisSize (s : State) (a : Nat) : Nat := fld (s.cfgReg 0x020084) (15 - 4 * a) (12 - 4 * a) + 1

/-- The module lies in the slice on every axis (R348). -/
def inSliceAxis (s : State) (a c : Nat) : Bool :=
  decide (c < s.axisSize a) && decide ((c + s.axisSize a - s.sliceLo a) % s.axisSize a < s.sliceExtent a)

def inSlice (s : State) (n : Node) : Bool :=
  siteOf n == siteOf s.jobNode && (List.range 4).all fun a => inSliceAxis s a (coord n a)

/-- A module to which an engine or a shuttle may send (R350). -/
def mayReach (s : State) (n : Node) : Bool := s.sliceTag != 0 && inSlice s n

def State.inj (s : State) : Bool := s.fab.inj.val == 1
def State.bankValid (s : State) (b : Bool) : Bool := if b then s.fab.valid1 else s.fab.valid0

/-! ## Routing -/

/-- Port p is UP with ADMIT set. -/
def usable (s : State) (p : Nat) : Bool :=
  (s.port p).state == .up && (s.cfgReg (0x020040 + 4 * p)).getLsbD 1

inductive Hop where
  | port (p : Nat) (det : Bool)
  | drop
  | second
  deriving DecidableEq, Repr

/-- Entry of a coordinate in a bank; unlisted entries are DROP. -/
def State.route (s : State) (b : Bool) (a c : Nat) : BitVec 16 := tget 0xFF s.fab.routes (64 * b.toNat + 16 * a + c)

/-- The port for coordinate c of axis a (R323): the primary port, else the alternate one with its detour rule. -/
def hopFor (s : State) (b : Bool) (det : Bool) (a c : Nat) : Hop :=
  let e := s.route b a c
  let pri := fld e 3 0
  let alt := fld e 7 4
  if decide (pri < 8) && usable s pri then .port pri det
  else if decide (alt < 8) && usable s alt then
    if alt / 2 = a then .port alt det
    else if det then .second else .port alt true
  else .drop

/-- The node that a packet is routed towards: a redirect of its bank stands for its DST (R448).
DEDUCED, log entry 47. -/
def redirected (s : State) (b : Bool) (n : Node) : Node :=
  match s.fab.redirects.find? fun (k, f, _) => k.val == b.toNat && f == n with
  | some (_, _, t) => t
  | none => n

def isOwn (s : State) (n : Node) : Bool := n == s.strapNode || n == s.jobNode

/-- The packet is delivered at this module: its DST, or the TO node of a redirect that stands for it, is the strap or the
job node (R447, R448). DEDUCED, log entry 47. -/
def isFor (s : State) (p : Packet) : Bool := isOwn s p.dst || isOwn s (redirected s p.epoch p.dst)

/-- An answer from src is one of node n: n itself, or the module that a redirect puts in its place (R448).
DEDUCED, log entry 47. -/
def answersFor (s : State) (n src : Node) : Bool := n == src || s.fab.redirects.any fun (_, f, t) => f == n && t == src

/-- Where copies of a packet go: output ports with the copies, modules dropped by route and by detour, local delivery. -/
structure Plan where
  out : List (Nat × Packet)
  noRoute : Nat
  second : Nat
  here : Bool

def planUnicast (s : State) (p : Packet) : Plan :=
  let dst := redirected s p.epoch p.dst
  if isFor s p then ⟨[], 0, 0, true⟩
  else if siteOf dst ≠ siteOf s.strapNode then ⟨[], 1, 0, false⟩
  else match (List.range 4).find? fun a => coord dst a != coord s.strapNode a with
    | none => ⟨[], 0, 0, true⟩
    | some a =>
      match hopFor s p.epoch p.det a (coord dst a) with
      | .port q d => ⟨[(q, { p with det := d })], 0, 0, false⟩
      | .drop => ⟨[], 1, 0, false⟩
      | .second => ⟨[], 0, 1, false⟩

/-- Axis field of a multicast mask (R337). -/
def maskAxis (m : Word64) (a : Nat) : Nat := fld m (63 - 16 * a) (48 - 16 * a)
def setMaskAxis (m : Word64) (a v : Nat) : Word64 :=
  BitVec.ofNat 64 (m.toNat - maskAxis m a * 2 ^ (48 - 16 * a) + v * 2 ^ (48 - 16 * a))

/-- The mask marks a node on every axis. -/
def maskMarks (m : Word64) (n : Node) : Bool := (List.range 4).all fun a => (maskAxis m a).testBit (coord n a)

/-- The packet has this module among its destinations: its DST, or the module's coordinates in its mask (R337, R447). -/
def reaches (s : State) (p : Packet) : Bool :=
  if p.mc then maskMarks p.mask s.strapNode || maskMarks p.mask s.jobNode else isFor s p

/-- A destination, or a whole multicast mask, that the module may inject to (R337, R350). -/
def mayInject (s : State) (p : Packet) : Bool :=
  if p.mc then
    s.sliceTag != 0 && (List.range 4).all fun a =>
      maskAxis p.mask a != 0 && (List.range 16).all fun c => !(maskAxis p.mask a).testBit c || inSliceAxis s a c
  else mayReach s p.dst

/-- Modules that one coordinate of axis a stands for: every choice of the later axes. -/
def standsFor (m : Word64) (a : Nat) : Nat :=
  ((List.range 4).filter fun b => decide (a < b)).foldl (fun n b => n * popcount (maskAxis m b) 16) 1

/-- replicate of R338, from axis a on. Both outcomes of R323 that drop a coordinate count in FAB_DROP_ROUTE. -/
def replicate (s : State) : Nat → Packet → Plan → Plan
  | 0, _, pl => { pl with here := true }
  | k + 1, p, pl =>
    let a := 3 - k
    let own := coord s.strapNode a
    let cs := (List.range 16).filter fun c => (maskAxis p.mask a).testBit c && c != own
    if cs.isEmpty then replicate s k p pl
    else
      let hops := cs.map fun c => (c, hopFor s p.epoch p.det a c)
      let targets := (List.range 8).flatMap fun q => [(q, false), (q, true)]
      let outs := targets.filterMap fun (q, d) =>
        let mine := hops.filterMap fun (c, h) => if h = .port q d then some c else none
        if mine.isEmpty then none
        else some (q, { p with det := d, mask := setMaskAxis p.mask a (mine.foldl (fun m c => m + 2 ^ c) 0) })
      let gone := (hops.filter fun x => x.2 == .drop || x.2 == .second).length
      let pl := { pl with out := pl.out ++ outs, noRoute := pl.noRoute + standsFor p.mask a * gone }
      if (maskAxis p.mask a).testBit own then replicate s k { p with mask := setMaskAxis p.mask a (2 ^ own) } pl
      else pl

def planOf (s : State) (p : Packet) : Plan := if p.mc then replicate s 4 p ⟨[], 0, 0, false⟩ else planUnicast s p

/-! ## Frames that leave (R301 to R303) -/

/-- The header of a frame other than a data frame: every frame carries ACK and the current ASEQ. -/
def txHdr (x : Port) (ftype : BitVec 2) : FrameHdr :=
  { fseq := 0, aseq := x.expected - 1, ak := 1, ftype := ftype, fpo := 31, cvc := 0, ccnt := 0, csh := false, fvc := 0, fsh := false }

/-- The header of a data frame: its packet begins with its first frame. DESIGN CHOICE, log entry 44. -/
def dataHdr (x : Port) (f : HeldFrame) : FrameHdr :=
  { txHdr x 0 with fseq := f.fseq, fpo := if f.idx = 0 then 0 else 31, fvc := BitVec.ofNat 4 f.vc, fsh := f.shared }

def asPort (q : Nat) : Fin 10 := ⟨q % 10, Nat.mod_lt _ (by decide)⟩

def emitFrame (q : Nat) (h : FrameHdr) (b : FrameBody) (s : State) : State := s.emit (.frame (asPort q) h b)

/-- Send an idle frame. -/
def sendIdle (q : Nat) (h : FrameHdr) (s : State) : State := emitFrame q h .idle (s.modPort q fun x => { x with sinceIdle := 0 })

/-- Send a frame that is not idle; at least one frame in 2,048 is (R301). -/
def sendFrame (q : Nat) (h : FrameHdr) (b : FrameBody) (s : State) : State :=
  let s := emitFrame q h b (s.modPort q fun x => { x with sinceIdle := x.sinceIdle + 1 })
  let x := s.port q
  if 2047 ≤ x.sinceIdle then sendIdle q (txHdr x 1) s else s

def sendCtl (q : Nat) (m : LinkMsg) (s : State) : State := sendFrame q (txHdr (s.port q) 2) (.ctl m) s

/-- Send a held frame, for the first time or again. -/
def sendHeld (q : Nat) (s : State) (f : HeldFrame) : State := sendFrame q (dataHdr (s.port q) f) (.data f.qp.pkt f.idx) s

/-! ## Buffers and credits (R306) -/

/-- Frames of 240 body bytes that a packet takes (R318); a packet's frames carry no other packet.
DESIGN CHOICE, log entry 44. -/
def framesOf (p : Packet) : Nat := (32 + (if p.mc then 8 else 0) + p.payload.length + 239) / 240

/-- n credits in counts of a frame's CCNT, which ends at 2,047 (Table 7.3). -/
def ccnts (n : Nat) : List Nat := List.replicate (n / 2047) 2047 ++ if n % 2047 = 0 then [] else [n % 2047]

/-- Return the credits that are due, each kind in idle frames of its own. DESIGN CHOICE, log entry 44. -/
def flushCredits (q : Nat) (s : State) : State :=
  let x := s.port q
  if x.state ≠ .up then s
  else
    let kinds := (List.range 16).flatMap fun vc => [(vc, false), (vc, true)]
    kinds.foldl (fun s k => (ccnts (x.creditDue.count k)).foldl (fun s n =>
      sendIdle q { txHdr x 1 with cvc := BitVec.ofNat 4 k.1, ccnt := BitVec.ofNat 11 n, csh := k.2 } s) s)
      (s.setPort q { x with creditDue := [] })

/-- Packet k of a channel has come in with its last frame. -/
def rxWhole (x : Port) (vc k : Nat) : Bool :=
  decide (k + 1 < tget 0 x.rxBegun vc) || (decide (k + 1 = tget 0 x.rxBegun vc) && decide (tget 0 x.rxLeft vc = 0))

/-- Packet k of a channel is partial (R309): it has begun without its last frame, or its header stands for itself
(PACKET_ROUTE) and it has more frames than that of its header. DESIGN CHOICE, log entry 44. -/
def rxPartial (x : Port) (vc k : Nat) (p : Packet) : Bool :=
  if k < tget 0 x.rxBegun vc then !rxWhole x vc k else decide (1 < framesOf p)

/-- A packet has left its input buffers: a buffer that holds no other packet's bytes is free and its credit goes back
(R306); what of it has still to arrive will be free as it comes. -/
def freeBuffers (e : QPkt) (s : State) : State :=
  match e.rx with
  | none => s
  | some (vc, k) =>
    let x := s.port e.inp
    let held := x.rxBuf.map fun b => if b.vc = vc then { b with users := b.users.filter (· != k) } else b
    let free := held.filter fun b => b.users.isEmpty
    flushCredits e.inp (s.setPort e.inp { x with
      rxBuf := held.filter fun b => !b.users.isEmpty
      creditDue := x.creditDue ++ free.map fun b => (b.vc, b.shared)
      rxGone := if rxWhole x vc k then x.rxGone else x.rxGone ++ [(vc, k)] })

/-! ## Counting (R325, R332) -/

def inOff (b : Bool) : Nat := if b then 0x0200AC else 0x0200A4
def outOff (b : Bool) : Nat := if b then 0x0200B0 else 0x0200A8
def countIn (b : Bool) (s : State) : State := s.drain (inOff b) 1
def countOut (b : Bool) (s : State) : State := s.drain (outOff b) 1
def drainCount (s : State) (b : Bool) : Word32 := s.counter (inOff b) - s.counter (outOff b)

/-- Change the counts of a multicast's copies; a multicast with no count left is dropped from the table. -/
def setCopies (i : Nat) (f : Copies → Copies) (s : State) : State :=
  { s with fab := { s.fab with
      mcast := (s.fab.mcast.map fun c => if c.id = i then f c else c).filter fun c => decide (0 < c.unfinished + c.unsent) } }

def findCopies (s : State) (i : Nat) : Option Copies := s.fab.mcast.find? fun c => c.id == i

/-- A packet, or the last copy of a multicast, is finished at this router. -/
def finishPkt (e : QPkt) (s : State) : State :=
  match e.mc with
  | none => countOut e.pkt.epoch s
  | some i =>
    match findCopies s i with
    | none => s
    | some c =>
      let s := setCopies i (fun c => { c with unfinished := c.unfinished - 1 }) s
      if c.unfinished = 1 then countOut e.pkt.epoch s else s

/-- A packet, or the last copy of a multicast, has left its input buffer. -/
def leaveBuffer (e : QPkt) (s : State) : State :=
  match e.mc with
  | none => freeBuffers e s
  | some i =>
    match findCopies s i with
    | none => s
    | some c =>
      let s := setCopies i (fun c => { c with unsent := c.unsent - 1 }) s
      if c.unsent = 1 then freeBuffers e s else s

/-- A packet or copy ends here: delivered or discarded. -/
def endPkt (e : QPkt) (s : State) : State := finishPkt e (leaveBuffer e s)

/-- n copies go on in place of a packet or of one copy. -/
def splitPkt (e : QPkt) (n : Nat) (s : State) : QPkt × State :=
  if n ≤ 1 then (e, s)
  else match e.mc with
    | some i => (e, setCopies i (fun c => { c with unfinished := c.unfinished + (n - 1), unsent := c.unsent + (n - 1) }) s)
    | none => ({ e with mc := some s.fab.nextMc },
        { s with fab := { s.fab with mcast := ⟨s.fab.nextMc, n, n⟩ :: s.fab.mcast, nextMc := s.fab.nextMc + 1 } })

/-! ## Output ports (R304, R306, R320, R321, R343) -/

/-- DL of R321 on port q: a packet that goes on along the axis it came in on keeps it. -/
def dateline (e : QPkt) (q : Nat) : Nat := if decide (e.inp < 8) && e.inp / 2 == q / 2 && e.crossed then 1 else 0

def vcOf (e : QPkt) (q : Nat) : Nat := 4 * e.pkt.cls.toNat + 2 * e.pkt.det.toNat + dateline e q

/-- The hop into this router along port `inp` crossed the wrap link of its axis, which joins coordinates n - 1 and 0. -/
def wrapHop (s : State) (inp : Nat) : Bool :=
  let a := inp / 2
  let c := coord s.strapNode a
  decide (inp < 8) && (if inp % 2 = 1 then c == 0 else c + 1 == s.axisSize a)

/-- Build n frames of a packet on a channel, taking a reserved credit first and else one of the shared pool; none when a
credit or a retry buffer is missing. DESIGN CHOICE, log entry 44. -/
def takeFrames (vc : Nat) (e : QPkt) : Nat → Nat → Port → Option Port
  | 0, _, x => some x
  | n + 1, k, x =>
    if 2048 ≤ x.held.length then none
    else
      let own := tget 0 x.credits vc
      let f := fun (shared : Bool) => HeldFrame.mk x.nextSeq vc shared e k (n == 0) 0
      if own < 32 then
        takeFrames vc e n (k + 1) { x with held := x.held ++ [f false], nextSeq := x.nextSeq + 1, credits := tput 0 vc (own + 1) x.credits }
      else if x.sharedUsed < 3584 then
        takeFrames vc e n (k + 1) { x with held := x.held ++ [f true], nextSeq := x.nextSeq + 1, sharedUsed := x.sharedUsed + 1 }
      else none

/-- A credit is held for a channel. -/
def holdsCredit (x : Port) (vc : Nat) : Bool := decide (tget 0 x.credits vc < 32) || decide (x.sharedUsed < 3584)

/-- FAB_WRR weight of class 1 to 3 (R320). -/
def wrrWeight (s : State) (c : Nat) : Nat :=
  let r := s.cfgReg 0x020088
  match c with
  | 1 => fld r 23 16
  | 2 => fld r 15 8
  | _ => fld r 7 0

/-- A heddle window is open on port q. -/
def windowOpen (s : State) (q : Nat) : Bool := s.fab.heddles.any fun h => h.isOpen && h.outp.toNat == q

/-- A circuit packet goes first while a window of its entry is open on the port; else it is served as an ordinary packet of its
class (R343). -/
def goesFirst (s : State) (q : Nat) (e : QPkt) : Bool :=
  e.circ && s.fab.heddles.any fun h => h.isOpen && h.outp.toNat == q && h.hid == e.pkt.heddle

/-- A packet may not overtake another of its flow (R329), nor one of its channel that waits at the same priority. -/
def mustFollow (s : State) (q : Nat) (a e : QPkt) : Bool :=
  (vcOf a q == vcOf e q && goesFirst s q a == goesFirst s q e) ||
    (a.pkt.src == e.pkt.src && a.pkt.dst == e.pkt.dst && a.pkt.cls == e.pkt.cls && a.pkt.epoch == e.pkt.epoch && a.pkt.heddle == e.pkt.heddle)

/-- No routed packet goes through a torus port with ADMIT clear (R313). DESIGN CHOICE, log entry 44. -/
def admitted (s : State) (q : Nat) (e : QPkt) : Bool := decide (8 ≤ q) || e.circ || (s.cfgReg (0x020040 + 4 * q)).getLsbD 1

/-- The waiting packets that the port could send now: every frame has its credit, and no packet before them is overtaken. -/
def sendable (s : State) (q : Nat) (x : Port) : List QPkt → List QPkt → List QPkt
  | _, [] => []
  | before, e :: t =>
    if !before.any (fun a => mustFollow s q a e) && admitted s q e && (takeFrames (vcOf e q) e (framesOf e.pkt) 0 x).isSome then
      e :: sendable s q x (before ++ [e]) t
    else sendable s q x (before ++ [e]) t

/-- Rounds of the weighted round-robin that end before a class with a packet to send has frames left: what a class has sent
beyond its weight counts against its next rounds (R320). -/
def roundsOver (s : State) (used : List Nat) (cs : List Nat) : Nat :=
  match cs.map fun c => used.getD (c - 1) 0 / wrrWeight s c with
  | [] => 0
  | r :: rs => rs.foldl min r

/-- The waiting packet that port q sends next, and the frames that classes 1 to 3 have then sent in the running round (R320,
R343): with an open window, its circuit packets go before the other classes, and CONTROL has one frame in 64; else CONTROL comes
first, then the weighted round-robin. -/
def nextPkt (s : State) (q : Nat) (x : Port) : Option (QPkt × List Nat) :=
  let l := sendable s q x [] x.waiting
  let first := l.find? (goesFirst s q)
  let cls := fun (c : Nat) => l.find? fun e => e.pkt.cls.toNat == c && !goesFirst s q e
  let cs := [1, 2, 3].filter fun c => (cls c).isSome
  let r := roundsOver s x.used cs
  let used := [1, 2, 3].map fun c => x.used.getD (c - 1) 0 - r * wrrWeight s c
  let other := (cs.find? fun c => decide (used.getD (c - 1) 0 < wrrWeight s c)).bind cls
  match first, cls 0 with
  | some e, some c => if 63 * framesOf c.pkt ≤ x.circ then some (c, x.used) else some (e, x.used)
  | some e, none => some (e, x.used)
  | none, some c => some (c, x.used)
  | none, none => other.map fun e => (e, used)

/-- The shares after n frames of a packet: circuit frames are counted for CONTROL's share, with what is left of the last one,
while a CONTROL packet waits beside them (R343). -/
def bumpUsed (s : State) (q : Nat) (x : Port) (e : QPkt) (n : Nat) (used : List Nat) : Port :=
  if goesFirst s q e then
    if x.waiting.any fun c => c.pkt.cls == 0 && !goesFirst s q c then { x with circ := x.circ + n }
    else { x with circ := min 63 (x.circ + n) }
  else if e.pkt.cls = 0 then
    if x.waiting.any (goesFirst s q) then { x with circ := x.circ - 63 * n } else x
  else
    let c := e.pkt.cls.toNat
    { x with used := used.set (c - 1) (used.getD (c - 1) 0 + n) }

/-- Congestion-map cell of a port and class. -/
def cellKey (port cls f : Nat) : Nat := 16 * (4 * port + cls) + f

def bumpCell (k n : Nat) (s : State) : State :=
  { s with fab := { s.fab with cmapNow := { s.fab.cmapNow with
      cells := tput 0 k (tget 0 s.fab.cmapNow.cells k + n) s.fab.cmapNow.cells } } }

/-- Send what the port can send, each packet whole. DESIGN CHOICE, log entry 44. -/
def pump (q : Nat) : Nat → State → State
  | 0, s => s
  | k + 1, s =>
    let x := s.port q
    if x.state ≠ .up then s
    else match nextPkt s q x with
      | none => s
      | some (e, used) =>
        let n := framesOf e.pkt
        match takeFrames (vcOf e q) e n 0 x with
        | none => s
        | some y =>
          let y := { y with waiting := eraseFirst (· == e) y.waiting
                            lastAck := if x.held.isEmpty then s.portBeat q else y.lastAck }
          let s := (y.held.drop x.held.length).foldl (sendHeld q) (s.setPort q (bumpUsed s q y e n used))
          pump q k (leaveBuffer e (bumpCell (cellKey q e.pkt.cls.toNat 8) n s))

def pumpAll (q : Nat) (s : State) : State := pump q ((s.port q).waiting.length + 1) s

def enqueue (q : Nat) (e : QPkt) (s : State) : State :=
  pumpAll q (s.modPort q fun x => { x with waiting := x.waiting ++ [e] })

/-! ## Delivery and routing -/

/-- A packet is delivered into the module (R332, R346). -/
def delivered (e : QPkt) (s : State) : State := endPkt e (bumpCell (cellKey 10 e.pkt.cls.toNat 8) (framesOf e.pkt) s)

/-- The packet came in through a storage port. -/
def QPkt.stored (e : QPkt) : Bool := e.inp == 8 || e.inp == 9

/-- Some command of the table takes a packet that came in on port `inp` at port 10; no command takes one with a reserved
OP or ROP. From a storage port the checkpoint engine alone takes packets, those of the store protocol (R351); SEALED and
HELLO_REPLY come from a store alone (R461, R464). DESIGN CHOICE, log entry 43. -/
def claimed (inp : Nat) (p : Packet) : Bool :=
  let store := inp == 8 || inp == 9
  let op := fld p.addr 47 44
  match p.typ.toNat with
  | 2 => true
  | 4 => !store && decide (1 ≤ op) && decide (op ≤ 7)
  | 5 => [1, 2, 3, 8, 9, 10].contains op || (store && (op == 5 || op == 7))
  | _ => !store

/-- A restored state is verified by the seal of its checkpoint where the job has no replica: CKP_DIGEST_PEER is 0 (R458). DEDUCED,
log entry 69. -/
def checkSeal (s : State) : State :=
  match s.ckp.restoredRecs with
  | none => s
  | some r => if s.cfgReg 0x050008 = 0 ∧ r ∈ s.ckp.seals then { s with ckp := { s.ckp with unverified := false } } else s

/-- The engine holds the seal of a checkpoint: its identity, and the digest of each export record (R464). -/
def keepSeal (id : BitVec 16) (ds : List (BitVec 128)) (s : State) : State :=
  checkSeal { s with ckp := { s.ckp with seals := ((id, ds) :: s.ckp.seals).take 2 } }

/-- The digests that a SEAL's payload carries after identity, step and segment count. DESIGN CHOICE, log entry 67. -/
def sealDigests (bs : List Byte) : List (BitVec 128) :=
  (List.range ((bs.length - 12) / 16)).map fun i => BitVec.ofNat 128 (beNat ((bs.drop (12 + 16 * i)).take 16))

/-- A SEAL that comes from a store is kept as it is delivered; no row of the table takes it. DEDUCED, log entry 69. -/
def sealFrom (e : QPkt) (s : State) : State :=
  if e.stored && e.pkt.typ == 5 && fld e.pkt.addr 47 44 == 4 then
    keepSeal (e.pkt.addr.extractLsb' 48 16) (sealDigests e.pkt.payload) s
  else s

/-- Into the queue of port 10, where the packet waits for the engine that takes it. DESIGN CHOICE, log entry 43. -/
def deliver (e : QPkt) (s : State) : State :=
  if claimed e.inp e.pkt then { s with fab := { s.fab with inbox := s.fab.inbox ++ [e] } } else delivered e (sealFrom e s)

/-- Port 10 as an output port (R320, R343); it asks no credit and keeps no frame. -/
def localPort (s : State) : Port :=
  { Port.reset with waiting := s.fab.inbox, used := s.fab.localUsed, circ := s.fab.localCirc }

/-- Port 10 delivers the packet that it sends next. -/
def serveLocal (s : State) : Option (QPkt × State) :=
  let x := localPort s
  (nextPkt s 10 x).map fun (e, used) =>
    let y := bumpUsed s 10 x e (framesOf e.pkt) used
    (e, delivered e { s with fab := { s.fab with
      inbox := eraseFirst (fun x => decide (x = e)) s.fab.inbox, localUsed := y.used, localCirc := y.circ } })

/-- Port 10 delivers packets in its order until one that `sel` holds of; the others have landed for their engines.
DESIGN CHOICE, log entry 43. -/
def serveUntil (sel : QPkt → Bool) : Nat → State → State
  | 0, s => s
  | n + 1, s =>
    match serveLocal s with
    | none => s
    | some (e, s) => if sel e then s else serveUntil sel n { s with fab := { s.fab with landed := s.fab.landed ++ [e] } }

/-- An engine takes the packet that `sel` holds of: one that has landed, or one that waits at port 10, after all that go before it
there; one that does neither is taken as it comes. Nothing is delivered outside READY (R27). DESIGN CHOICE, log entry 43. -/
def takePkt (sel : QPkt → Bool) (s : State) : State :=
  if !s.isReady then s
  else if s.fab.landed.any sel then { s with fab := { s.fab with landed := eraseFirst sel s.fab.landed } }
  else if s.fab.inbox.any sel then serveUntil sel s.fab.inbox.length s
  else s

/-- A row takes its packet: an answer from a storage port is the checkpoint engine's (R351).
DESIGN CHOICE, log entry 43. -/
def takeLocal (p : Packet) : State → State := takePkt fun e => decide (e.pkt = p) && !(e.stored && p.typ != 5)

/-- The checkpoint engine takes an answer, from wherever it came. -/
def takeAnswer (p : Packet) : State → State := takePkt fun e => decide (e.pkt = p)

/-- The checkpoint engine takes a message of the store of port 8 + k. -/
def takeStore (k : Fin 2) (rop : Nat) (tag : Word32) : State → State :=
  takePkt fun e => e.inp == 8 + k.val && e.pkt.typ == 5 && fld e.pkt.addr 47 44 == rop && e.pkt.tag == tag

/-- Route a packet that the router holds and that has been counted IN. -/
def forward (e : QPkt) (s : State) : State :=
  let pl := planOf s e.pkt
  let s := (s.bump 0x020100 pl.noRoute).bump 0x020104 pl.second
  let n := pl.out.length + pl.here.toNat
  if n = 0 then endPkt e s
  else
    let (e, s) := splitPkt e n s
    let s := if pl.here then deliver e s else s
    pl.out.foldl (fun s (q, c) => enqueue q { e with pkt := c, circ := false } s) s

/-- The entry of a heddle that makes a packet a circuit packet here (R342). -/
def circuitOf (s : State) (inp : Nat) (p : Packet) : Option Heddle :=
  if p.heddle = 0 then none
  else s.fab.heddles.find? fun h => h.hid == p.heddle && h.inp.toNat == inp && h.isOpen

/-- A packet's header reaches the router from port `inp` on channel `vc`, or from local injection (10). One from a storage port
goes to the checkpoint engine alone, by no bank and under no slice (R351). -/
def routeIn (inp vc : Nat) (p : Packet) (s : State) : State :=
  let s := countIn p.epoch s
  let k := tget 0 (s.port inp).rxRouted vc
  let s := if inp < 10 then s.modPort inp fun x => { x with rxRouted := tput 0 vc (k + 1) x.rxRouted } else s
  let e : QPkt := ⟨p, none, false, inp, if inp < 10 then some (vc, k) else none, vc % 2 == 1 || wrapHop s inp⟩
  let drop := fun (off : Nat) => endPkt e (s.bump off 1)
  if p.ver ≠ 1 ∨ p.typ = 0 ∨ 5 < p.typ.toNat then drop 0x020114
  else if inp = 8 ∨ inp = 9 then deliver e s
  else if s.sliceTag = 0 ∨ p.slice ≠ s.sliceTag then drop 0x020108
  else if !s.bankValid p.epoch then drop 0x02010C
  else match circuitOf s inp p with
    | some h =>
      if h.outp = 10 then
        if isFor s p then deliver { e with circ := true } s else drop 0x020110
      else enqueue h.outp.toNat { e with circ := true } s
    | none => forward e s

/-- The module injects a packet (R330, R350): its SRC, slice tag and epoch are stamped. Nothing is injected while the tag is
zero or the bank named by INJ is invalid, nor to a module outside the slice. DEDUCED, log entry 45. -/
def inject (p : Packet) (s : State) : State :=
  let p := { p with src := s.jobNode, slice := s.sliceTag, epoch := s.inj, det := false }
  if s.isReady && s.sliceTag != 0 && s.bankValid s.inj && mayInject s p then routeIn 10 0 p s else s

/-- A blank packet. -/
def Packet.blank : Packet :=
  { ver := 1, typ := 0, cls := 0, epoch := false, mc := false, det := false, dst := 0, src := 0, heddle := 0, slice := 0,
    addr := 0, tag := 0, vers := 0, ext := 0, mask := 0, payload := [] }

/-- A packet for the store, on a storage port (R351): it is injected (R330, R332, R350) and not routed. -/
def sendStore (q : Nat) (p : Packet) (s : State) : State :=
  if (s.port q).state = .up then
    enqueue q ⟨{ p with src := s.strapNode, slice := s.sliceTag, epoch := s.inj }, none, false, 10, none, false⟩ (countIn s.inj s)
  else s

/-- WACK or WNAK (R326), in class CONTROL. -/
def answerPacket (p : Packet) (cause : Option Nat) : Packet :=
  { Packet.blank with typ := if cause.isNone then 2 else 3, dst := p.src, tag := p.tag, vers := BitVec.ofNat 8 (cause.getD 0) }

def answerWrite (p : Packet) (cause : Option Nat) (s : State) : State := inject (answerPacket p cause) s

/-! ## Heddles (R345) -/

/-- Remove entries and send HEDDLE_DOWN for each, naming its HID and the port. -/
def dropHeddles (sel : Heddle → Bool) (port : Nat) (s : State) : State :=
  let gone := s.fab.heddles.filter sel
  let s := { s with fab := { s.fab with heddles := s.fab.heddles.filter fun h => !sel h } }
  gone.foldl (fun s h => sendEvent 0x0033 1 (BitVec.ofNat 32 port) 0 (h.hid.zeroExtend 16) 0 s) s

/-! ## A port goes DOWN (R309) -/

def distinct {α : Type} [DecidableEq α] : List α → List α
  | [] => []
  | a :: t => if t.contains a then distinct t else a :: distinct t

/-- The packets of which a held frame exists: sent in part or unacknowledged. Frames of one packet stand together and the
last closes it. -/
def heldPackets (x : Port) : List QPkt := (x.held.filter (·.last)).map (·.qp)

/-- A packet that came in on port q and of which not every frame has come (x: the port). -/
def brokenOn (q : Nat) (x : Port) (e : QPkt) : Bool :=
  e.inp == q && match e.rx with
    | some (vc, k) => rxPartial x vc k e.pkt
    | none => false

/-- Every packet that the router holds, other than in a retry buffer. -/
def heldAnywhere (s : State) : List QPkt := s.fab.ports.flatMap (fun (_, x) => x.waiting) ++ s.fab.inbox

/-- Packets of which `broken` holds leave the router; others that came in on port q hold no buffer of it any more. -/
def forgetRx (q : Nat) (broken : QPkt → Bool) (s : State) : State :=
  let f := fun (l : List QPkt) => (l.filter fun e => !broken e).map fun e => if e.inp = q then { e with rx := none } else e
  { s with fab := { s.fab with
      ports := s.fab.ports.map fun (k, x) => (k, { x with waiting := f x.waiting })
      inbox := f s.fab.inbox, landed := f s.fab.landed } }

/-- Partial packets received on a port (R309): channel and number of each. -/
def partials (q : Nat) (s : State) : List (Nat × Nat) :=
  let x := s.port q
  distinct ((x.rxLeft.filter fun e => decide (0 < e.2)).map (fun e => (e.1, tget 0 x.rxBegun e.1 - 1)) ++
    ((heldAnywhere s).filter (brokenOn q x)).filterMap (·.rx))

/-- A packet waiting for a storage port has no other way: it is discarded with the port. DEDUCED, log entry 45. -/
def portDown (q : Nat) (cause : Nat) (s : State) : State :=
  let x := s.port q
  if x.state = .down then s
  else
    let lost := heldPackets x
    let parts := (partials q s).filter fun r => !lost.any fun e => e.inp == q && e.rx == some r
    let broken := ((heldAnywhere s).filter (brokenOn q x)).map fun e => { e with rx := none }
    let waiting := (x.waiting.filter fun e => !brokenOn q x e).map fun e => if e.inp = q then { e with rx := none } else e
    let stuck := if q < 8 then [] else waiting
    let s := forgetRx q (brokenOn q x) (s.setPort q { x with
      state := .down, lanes := 0, cause := BitVec.ofNat 4 cause, held := [], credits := [], sharedUsed := 0,
      waiting := [], rxBuf := [], rxBegun := [], rxLeft := [], rxRouted := [], rxGone := [], creditDue := [], sinceIdle := 0,
      corrected := [], nakSent := false, retrain := none, asked := [], restripeTo := 0, downSince := s.portBeat q })
    let s := s.bump 0x020118 (lost.length + parts.length + stuck.length)
    let s := (broken ++ stuck).foldl (fun s e => endPkt e s) (lost.foldl (fun s e => finishPkt e s) s)
    let s := if s.boot.state != .boot then s.setCfg (0x020040 + 4 * q) (s.cfgReg (0x020040 + 4 * q) &&& ~~~(2 : Word32)) else s
    let s := sendEvent 0x0031 1 (BitVec.ofNat 32 q) 0 (BitVec.ofNat 16 cause) 0 s
    let s := dropHeddles (fun h => h.inp.toNat == q || h.outp.toNat == q) q s
    if q < 8 then waiting.foldl (fun s e => forward { e with circ := false } s) s else s

/-! ## Congestion map (R346) -/

/-- Packets queued for output port q in class c; at port 10, those that wait for delivery. -/
def queuedPkts (s : State) (q c : Nat) : List QPkt :=
  (if q = 10 then s.fab.inbox else (s.port q).waiting).filter fun e => e.pkt.cls.toNat == c

def queuedFrames (s : State) (q c : Nat) : Nat := (queuedPkts s q c).foldl (fun n e => n + framesOf e.pkt) 0

/-- Frames of a class wait and no credit is held for the first of them (CSTALL). -/
def stalled (s : State) (q c : Nat) : Bool :=
  decide (q < 10) && match queuedPkts s q c with
    | e :: _ => !holdsCredit (s.port q) (vcOf e q)
    | [] => false

def binOf (n : Nat) : Nat :=
  if n = 0 then 0 else if n < 8 then 1 else if n < 32 then 2 else if n < 128 then 3 else if n < 512 then 4
  else if n < 2048 then 5 else if n < 8192 then 6 else 7

/-- One sample of every port and class. -/
def cmapSample (s : State) : State :=
  let s := (List.range 11).foldl (fun s q => (List.range 4).foldl (fun s c =>
    let n := queuedFrames s q c
    let s := bumpCell (cellKey q c (binOf n)) 1 s
    let s := if stalled s q c then bumpCell (cellKey q c 9) 1 s else s
    let s := if windowOpen s q then bumpCell (cellKey q c 10) 1 s else s
    let k := cellKey q c 11
    let peak := max (tget 0 s.fab.cmapNow.cells k) (min n 65535)
    { s with fab := { s.fab with cmapNow := { s.fab.cmapNow with cells := tput 0 k peak s.fab.cmapNow.cells } } }) s) s
  { s with fab := { s.fab with cmapNow := { s.fab.cmapNow with beats := s.fab.cmapNow.beats + 1 } } }

end Sys2Proof.Machine
end

