-- ==== Sys2Proof/Machine/Records.lean ====
section
/-! DEFINITION. Memory as the engines on F reach it, and the control lines of a job: step record (Table 6.4), commit list,
shard headers (Table 6.2), bobbin-set records (Table 6.5), hold lines (R278), the rind header (Table 8.8), outer records
(Table 9.2). -/
namespace Sys2Proof.Machine

/-! ## Engine accesses (R194 to R196, R223) -/

inductive EngFail where
  | refused
  | poison
  deriving DecidableEq, Repr

/-- What an engine's read gives. -/
structure Got where
  s : State
  bytes : List Byte
  fail : Option EngFail

def engRead (a n : Nat) (s : State) : Got :=
  if n = 0 then ⟨s, [], none⟩
  else match regionOf a n with
    | none => ⟨s, [], some .refused⟩
    | some r =>
      match openSpan r a n .engine s with
      | (s, false) => ⟨s, [], some .refused⟩
      | (s, true) =>
        let s := touch r a n s
        if s.anyPoison r a n then ⟨s, [], some .poison⟩ else ⟨s, s.rawRead (plainAddr r a) n, none⟩

/-- An engine's write, all of it or nothing. A poisoned word under an alias is as a poisoned read (R204).
DEDUCED, log entry 58. -/
def engWrite (a : Nat) (bs : List Byte) (ver : BitVec 7) (s : State) : State × Option EngFail :=
  if bs.isEmpty then (s, none)
  else match regionOf a bs.length with
    | none => (s, some .refused)
    | some r =>
      match openSpan r a bs.length .engine s with
      | (s, false) => (s, some .refused)
      | (s, true) =>
        match aliasPoison r a bs.length s with
        | (s, true) => (s, some .poison)
        | (s, false) => (writeSpan r a bs ver s, none)

/-- Codes of n elements of width w from element i of an array at a. -/
def engCodes (a w i n : Nat) (s : State) : State × List Nat × Option EngFail :=
  let b0 := w * i / 8
  let sh := w * i % 8
  let g := engRead (a + b0) ((sh + w * n + 7) / 8) s
  match g.fail with
  | some f => (g.s, [], some f)
  | none => (g.s, elemsOf w n (leBytes ((w * n + 7) / 8) (leNat g.bytes / 2 ^ sh)), none)

/-- Write codes of width w as elements i, i + 1, … of an array at a: elements that share a byte keep their bits. -/
def engPut (a w i : Nat) (cs : List Nat) (ver : BitVec 7) (s : State) : State × Option EngFail :=
  if cs.isEmpty then (s, none)
  else
    let b0 := w * i / 8
    let sh := w * i % 8
    let bits := w * cs.length
    let nb := (sh + bits + 7) / 8
    let v := cs.foldr (fun c x => c % 2 ^ w + 2 ^ w * x) 0
    let put := fun (bs : List Byte) (s : State) => engWrite (a + b0) bs ver s
    if sh = 0 ∧ bits % 8 = 0 then put (leBytes nb v) s
    else
      let g := engRead (a + b0) nb s
      match g.fail with
      | some f => (g.s, some f)
      | none =>
        let old := leNat g.bytes
        put (leBytes nb (old - old / 2 ^ sh % 2 ^ bits * 2 ^ sh + v * 2 ^ sh)) g.s

/-! ## Control lines -/

/-- w with v in bits [hi:lo]. -/
def setFld (w : Word64) (hi lo v : Nat) : Word64 :=
  BitVec.ofNat 64 (w.toNat - fld w hi lo * 2 ^ lo + v % 2 ^ (hi + 1 - lo) * 2 ^ lo)

/-- The eight words of a control line. None when the line is poisoned, or is no DRAM line: nothing is used from it
(R577). Where owner codes or an open stack refuse the access, it is counted (R124, R196). -/
def ctlLine (a : Nat) (s : State) : State × Option (List Word64) :=
  match regionOf a 64 with
  | some (.dram g) =>
    let s := touch (.dram g) a 64 s
    if s.anyPoison (.dram g) a 64 then (s, none)
    else (s, some ((List.range 8).map fun i => s.word64 (a + 8 * i)))
  | some r => ((openSpan r a 64 .engine s).1, none)
  | none => (s, none)

def lineW (l : List Word64) (i : Nat) : Word64 := l.getD i 0

/-- One whole-line write with the version of step `st` (R254, R576). -/
def ctlWrite (a : Nat) (l : List Word64) (st : BitVec 48) (s : State) : State :=
  writeMem a (l.flatMap fun w => leBytes 8 w.toNat) (st.extractLsb' 0 7) s

/-- A control line at an address that no read has checked before: as any engine write, refused and counted where owner codes or an
open stack do not open it (R124, R195, R196). -/
def engLine (a : Nat) (l : List Word64) (st : BitVec 48) (s : State) : State × Option EngFail :=
  engWrite a (l.flatMap fun w => leBytes 8 w.toNat) (st.extractLsb' 0 7) s

/-- An array of n 8-byte addresses. -/
def addrList (a n : Nat) (s : State) : State × Option (List Nat) :=
  if n = 0 then (s, some [])
  else match regionOf a (8 * n) with
    | some (.dram g) =>
      let s := touch (.dram g) a (8 * n) s
      if s.anyPoison (.dram g) a (8 * n) then (s, none)
      else (s, some ((List.range n).map fun i => (s.word64 (a + 8 * i)).toNat))
    | _ => (s, none)

/-! ## The step record -/

def State.stepAddr (s : State) : Nat := (s.cfgReg64 0x030008).toNat

def outNone : Nat := 0
def outGradClear : Nat := 1
def outSkipGrad : Nat := 2
def outDecided : Nat := 3
def outCommitted : Nat := 4
def outSkipUpdate : Nat := 5

def recStep (l : List Word64) : BitVec 48 := (lineW l 0).extractLsb' 0 48
def recOutcome (l : List Word64) : Nat := fld (lineW l 0) 50 48
/-- An outcome that ends its step. -/
def finalOutcome (o : Nat) : Bool := o == outSkipGrad || o == outCommitted || o == outSkipUpdate

def stepRec (s : State) : State × Option (List Word64) := ctlLine s.stepAddr s
def setStepRec (l : List Word64) (st : BitVec 48) (s : State) : State := ctlWrite s.stepAddr l st s

/-- The commit list of a step record. -/
def commitList (l : List Word64) (s : State) : State × Option (List Nat) :=
  addrList (lineW l 3).toNat (fld (lineW l 4) 15 0) s

/-- Headers of a commit list; none when a line may not be used. -/
def headers : List Nat → State → State × Option (List (Nat × List Word64))
  | [], s => (s, some [])
  | a :: t, s =>
    match ctlLine a s with
    | (s, none) => (s, none)
    | (s, some h) =>
      match headers t s with
      | (s, none) => (s, none)
      | (s, some r) => (s, some ((a, h) :: r))

def jobHeaders (l : List Word64) (s : State) : State × Option (List (Nat × List Word64)) :=
  match commitList l s with
  | (s, none) => (s, none)
  | (s, some as) => headers as s

/-! ## Shard headers -/

def hdrStep (h : List Word64) : BitVec 48 := (lineW h 0).extractLsb' 16 48
def hdrCur (h : List Word64) : Nat := fld (lineW h 0) 0 0
def hdrCount (h : List Word64) : Nat := fld (lineW h 7) 39 0
def hdrNmom (h : List Word64) : Nat := fld (lineW h 7) 41 40
def hdrTensor (h : List Word64) : Nat := fld (lineW h 7) 63 48
/-- Address of master set c, of moment j of set c (Table 6.2), of the gradient shard. -/
def hdrMaster (h : List Word64) (c : Nat) : Nat := (lineW h (2 + c)).toNat
def padTo (k n : Nat) : Nat := (n + k - 1) / k * k
def hdrMoment (h : List Word64) (c j : Nat) : Nat := (lineW h (4 + c)).toNat + j * padTo 256 (4 * hdrCount h)
def hdrGrad (h : List Word64) : Nat := (lineW h 6).toNat

/-- The other set holds a complete update for step st. -/
def prepared (h : List Word64) (st : BitVec 48) : Bool :=
  fld (lineW h 1) 0 0 == 1 && (lineW h 1).extractLsb' 16 48 == st

/-- The header as committed for step st (R255). -/
def committedHdr (h : List Word64) (st : BitVec 48) : List Word64 :=
  let w0 := setFld (setFld (setFld (lineW h 0) 0 0 (1 - hdrCur h)) 15 8 (fld (lineW h 0) 15 8 + 1)) 63 16 st.toNat
  (h.set 0 w0).set 1 (setFld (lineW h 1) 0 0 0)

/-- Commit one shard (R255); the Bool is false when its header may not be used. -/
def commitShard (a : Nat) (st : BitVec 48) (s : State) : State × Bool :=
  match ctlLine a s with
  | (s, none) => (s, false)
  | (s, some h) =>
    if hdrStep h = st then (s, true)
    else if prepared h st then (ctlWrite a (committedHdr h st) st s, true)
    else (sendEvent 0x0043 2 0 st 0 (xAddr a) s, true)

def commitShards : List Nat → BitVec 48 → State → State × Bool
  | [], _, s => (s, true)
  | a :: t, st, s =>
    match commitShard a st s with
    | (s, false) => (s, false)
    | (s, true) => commitShards t st s

/-- Clear PVALID of every header (R267). -/
def clearPrepare : List Nat → BitVec 48 → State → State × Bool
  | [], _, s => (s, true)
  | a :: t, st, s =>
    match ctlLine a s with
    | (s, none) => (s, false)
    | (s, some h) => clearPrepare t st (ctlWrite a (h.set 1 (setFld (lineW h 1) 0 0 0)) st s)

/-! ## Bobbin sets (R277 to R283) -/

def slotState (b : List Word64) (k : Nat) : Nat := fld (lineW b (2 + k)) 1 0
def slotStep (b : List Word64) (k : Nat) : BitVec 48 := (lineW b (2 + k)).extractLsb' 16 48
def bsetSlots (b : List Word64) : Nat := min 5 (fld (lineW b 1) 42 40)
def bsetStride (b : List Word64) : Nat := fld (lineW b 1) 39 0

/-- The listed slot of extreme STEP, the first among equals. -/
def pickSlot (b : List Word64) (lt : Nat → Nat → Bool) : List Nat → Option Nat
  | [] => none
  | k :: t =>
    match pickSlot b lt t with
    | none => some k
    | some j => if lt (slotStep b j).toNat (slotStep b k).toNat then some j else some k

/-- The slot that a claim chooses (R281, R282). -/
def chooseSlot (b : List Word64) : Option Nat :=
  let ks := List.range (bsetSlots b)
  match ks.find? fun k => slotState b k == 0 with
  | some k => some k
  | none =>
    let live := ks.filter fun k => slotState b k == 2
    match pickSlot b (fun x y => decide (y < x)) live with
    | none => none
    | some top => pickSlot b (fun x y => decide (x < y)) (live.filter (· != top))

def setSlot (b : List Word64) (k st : Nat) : List Word64 := b.set (2 + k) (setFld (lineW b (2 + k)) 1 0 st)
def setSlotStep (b : List Word64) (k : Nat) (st : BitVec 48) : List Word64 :=
  b.set (2 + k) (setFld (lineW b (2 + k)) 63 16 st.toNat)

/-- Reference count of slot k over n hold lines (R278). -/
def holdCount (a k : Nat) : Nat → State → State × Option Nat
  | 0, s => (s, some 0)
  | n + 1, s =>
    match ctlLine a s with
    | (s, none) => (s, none)
    | (s, some h) =>
      match holdCount (a + 64) k n s with
      | (s, none) => (s, none)
      | (s, some c) => (s, some (c + if fld (lineW h 0) 3 3 = 1 ∧ fld (lineW h 0) 2 0 = k then 1 else 0))

/-! ## Flags (R262, R264) -/

def localFlag (s : State) : Bool :=
  s.units.any (fun e => e.2.nonfinite) || s.shuttles.any fun e => decide (e.1 % 8 < 4) && e.2.nf

/-- Sample the local flag: each flag sampled as set is cleared. -/
def sampleFlag (s : State) : State × Bool :=
  let v := localFlag s
  let s := allUnits.foldl (fun s u => if (s.unit u).nonfinite then s.modUnit u fun x => { x with nonfinite := false } else s) s
  let s := allClusters.foldl (fun s c => if s.shtNf c = 0 then s else s.clearShtNf c 15) s
  (s, v)

/-! ## Pauses of the exchange (R400, R401) -/

/-- A cause that was not standing becomes standing: PAUSED and the event HX_PAUSE. -/
def hxPause (cause : Nat) (p : Word32) (q : BitVec 48) (s : State) : State :=
  if s.hx.pauses.getLsbD cause then s
  else sendEvent 0x0051 1 p q (BitVec.ofNat 16 cause) 0
    { s with hx := { s.hx with pauses := s.hx.pauses ||| (1 <<< cause),
                               lateSince := if cause = 1 then some s.hxBeat else s.hx.lateSince } }

def hxUnpause (cause : Nat) (s : State) : State :=
  { s with hx := { s.hx with pauses := s.hx.pauses &&& ~~~((1 : BitVec 7) <<< cause) } }

/-! ## The decisions of a step (R266, R267, R381, R397) -/

/-- The writes of HX_APPLY are done: its semaphore is signalled, once (R395). -/
def signalApply (s : State) : State :=
  match s.hx.applying with
  | some (o, st, sem, false) =>
    let s := { s with hx := { s.hx with applying := some (o, st, sem, true) } }
    match sem with
    | some (u, k) => s.modUnit u fun x => x.semAdd k.val 1 false
    | none => s
  | _ => s

/-- No apply is open any more; one that ends before its semaphore was signalled signals it now. -/
def endApply (s : State) : State :=
  let s := signalApply s
  { s with hx := { s.hx with applying := none } }

/-- An apply step skips (R397): its result stays ready, and the exchange pauses with APPLY_SKIPPED.
DEDUCED, log entry 80. -/
def applySkipped (st : BitVec 48) (s : State) : State :=
  match s.hx.applying with
  | some (o, t, _, _) => if t = st then hxPause 4 0 o (endApply s) else s
  | none => s

/-- The record after the gradient flag phase of step st (R266). UPD_NF belongs to the new OSTEP and is not yet formed. -/
def gradRecord (l : List Word64) (st : BitVec 48) (flag : Bool) : List Word64 :=
  let w0 := setFld (setFld (setFld (setFld (lineW l 0) 47 0 st.toNat) 51 51 flag.toNat) 52 52 0) 50 48
    (if flag then outSkipGrad else outGradClear)
  let l := l.set 0 w0
  if !flag then l
  else
    let g := (lineW l 1).extractLsb' 0 32
    let halve := fld (lineW l 1) 32 32 = 1 ∧ (f32 0x00800000).lt (f32 g)
    let l := if halve then l.set 1 (setFld (lineW l 1) 31 0 (toF32 ((f32 g).scale (-1))).toNat) else l
    let skips := min 0xFFFFFFFF (fld (lineW l 2) 31 0 + 1)
    let halvings := if halve then min 0xFFFFFFFF (fld (lineW l 2) 63 32 + 1) else fld (lineW l 2) 63 32
    l.set 2 (setFld (setFld (lineW l 2) 31 0 skips) 63 32 halvings)

/-- The gradient decision of step st. The Bool is false when the record may not be used. -/
def gradDecision (st : BitVec 48) (flag : Bool) (s : State) : State × Bool :=
  match stepRec s with
  | (s, none) => (s, false)
  | (s, some l) =>
    let s := setStepRec (gradRecord l st flag) st s
    (if flag then applySkipped st (sendEvent 0x0042 1 0 st 1 0 s) else s, true)

def rindBase (s : State) : Nat := (s.cfgReg64 0x030010).toNat
def rindSize (s : State) : Nat := (s.cfgReg64 0x030018).toNat

/-- The rind header flip of a commit pass (R381); false when its line is poisoned. A module without the HOST bit keeps no
rind. -/
def rindCommit (st : BitVec 48) (s : State) : State × Bool :=
  if !(s.cfgReg 0x030004).getLsbD 30 then (s, true)
  else match ctlLine (rindBase s) s with
    | (s, none) => (s, false)
    | (s, some h) =>
      let w0 := lineW h 0
      let w1 := lineW h 1
      if fld w0 63 16 = st.toNat then (s, true)
      else if fld w1 0 0 = 1 ∧ fld w1 63 16 = st.toNat ∧ fld w1 1 1 = 0 then
        let h := (h.set 0 (setFld (setFld (setFld w0 0 0 (1 - fld w0 0 0)) 63 16 st.toNat) 1 1 1)).set 1 (setFld w1 0 0 0)
        let h := match s.col.rind with
          | some r => if r.step = st then (h.set 2 (setFld (lineW h 2) 47 0 r.bytes.toNat)).set 3 (setFld (lineW h 3) 19 0 r.owner.toNat) else h
          | none => h
        (ctlWrite (rindBase s) h st s, true)
      else
        let s := ctlWrite (rindBase s) (h.set 1 (setFld w1 0 0 0)) st s
        let owner : BitVec 20 := match s.col.rind with
          | some r => r.owner
          | none => (lineW h 3).extractLsb' 0 20
        (sendEvent 0x0045 1 (owner.zeroExtend 32) st 0 0 { s with col := { s.col with rindStale := true } }, true)

/-- Step st skips: the buddy clears FILLING. -/
def rindSkip (st : BitVec 48) (s : State) : State × Bool :=
  if !(s.cfgReg 0x030004).getLsbD 30 then (s, true)
  else match ctlLine (rindBase s) s with
    | (s, none) => (s, false)
    | (s, some h) =>
      if fld (lineW h 1) 0 0 = 0 then (s, true)
      else (ctlWrite (rindBase s) (h.set 1 (setFld (lineW h 1) 0 0 0)) st s, true)

/-- The apply step of the commit pass (R397): ACUR inverted and ASTEP = o in every outer record. -/
def applyOuter (o st : BitVec 48) : List Nat → State → State × Bool
  | [], s => (s, true)
  | a :: t, s =>
    match ctlLine a s with
    | (s, none) => (s, false)
    | (s, some l) =>
      let w0 := setFld (setFld (lineW l 0) 0 0 (1 - fld (lineW l 0) 0 0)) 63 16 o.toNat
      applyOuter o st t (if fld (lineW l 0) 63 16 = o.toNat then s else ctlWrite a (l.set 0 w0) st s)

/-- The outer step that step st applies (R397). -/
def applyStep (s : State) (st : BitVec 48) : Option (BitVec 48) :=
  match s.hx.applying with
  | some (o, t, _, _) => if t = st then some o else none
  | none => none

/-- What remains of a commit pass after the shards and the slot: rind header, outer records, OUTCOME = COMMITTED, the count
of inner steps (R389), the digest of R286. False when a line may not be used. -/
def commitTail (l : List Word64) (st : BitVec 48) (s : State) : State × Bool :=
  match rindCommit st s with
  | (s, false) => (s, false)
  | (s, true) =>
    let (s, ok) := match applyStep s st with
      | some o => applyOuter o st (s.hx.shards.map BitVec.toNat) s
      | none => (s, true)
    if !ok then (s, false)
    else
      let s := setStepRec (l.set 0 (setFld (lineW l 0) 50 48 outCommitted)) st s
      let s := match applyStep s st with
        | some o =>
          let s := endApply s
          { s with hx := { s.hx with steps := s.hx.steps.filter fun x => x.o != o } }
        | none => { s with hx := { s.hx with inner := s.hx.inner + 1 } }
      let iv := fld (s.cfgReg 0x050004) 15 0
      (if iv ≠ 0 ∧ st.toNat % iv = 0 then { s with ckp := { s.ckp with digesting := some st } } else s, true)

/-- A commit pass stops at a poisoned line: OUTCOME stays DECIDED_COMMIT and COLL_FAIL names the step (R577). -/
def commitStopped (opid : BitVec 16) (st : BitVec 48) (s : State) : State :=
  sendEvent 0x0041 1 (opid.zeroExtend 32) st (Config.outcomeCode 2) 0 s

/-- FILLING slots of bobbin-set records: outside a running all-gather, what its claim has left. None where a record may not be
used. DEDUCED, log entry 55. -/
def fillingSlots : List Nat → State → State × Option (List (Nat × Nat))
  | [], s => (s, some [])
  | a :: t, s =>
    match ctlLine a s with
    | (s, none) => (s, none)
    | (s, some b) =>
      match fillingSlots t s with
      | (s, none) => (s, none)
      | (s, some l) => (s, some (((List.range (bsetSlots b)).filter fun k => slotState b k == 1).map (fun k => (a, k)) ++ l))

/-- The slots that claims have left FILLING in every bobbin-set record named. DEDUCED, log entry 55. -/
def filling (s : State) : State × Option (List (Nat × Nat)) := fillingSlots (s.col.bsets.map BitVec.toNat) s

/-- Write the records of claimed slots as f makes them; false where a record may not be used. -/
def moveSlots (f : List Word64 → Nat → List Word64) (st : BitVec 48) : List (Nat × Nat) → State → State × Bool
  | [], s => (s, true)
  | (a, k) :: t, s =>
    match ctlLine a s with
    | (s, none) => (s, false)
    | (s, some b) => moveSlots f st t (ctlWrite a (f b k) st s)

/-- The commit pass of R267 for step st; `slots` finds, when the pass comes to them, the bobbin sets and slots that its
all-gathers claimed (R295). -/
def commitPass (st : BitVec 48) (slots : State → State × Option (List (Nat × Nat))) (s : State) : State × Bool :=
  match stepRec s with
  | (s, none) => (s, false)
  | (s, some l) =>
    let l := l.set 0 (setFld (setFld (lineW l 0) 47 0 st.toNat) 50 48 outDecided)
    let s := setStepRec l st s
    match commitList l s with
    | (s, none) => (s, false)
    | (s, some as) =>
      match commitShards as st s with
      | (s, false) => (s, false)
      | (s, true) =>
        match slots s with
        | (s, none) => (s, false)
        | (s, some ks) =>
          match moveSlots (fun b k => setSlot (setSlotStep b k st) k 2) st ks s with
          | (s, false) => (s, false)
          | (s, true) => commitTail l st s

/-- The skip branch of R267. -/
def skipPass (st : BitVec 48) (slots : State → State × Option (List (Nat × Nat))) (s : State) : State × Bool :=
  match stepRec s with
  | (s, none) => (s, false)
  | (s, some l) =>
    let w0 := setFld (setFld (setFld (lineW l 0) 47 0 st.toNat) 52 52 1) 50 48 outSkipUpdate
    let l := (l.set 0 w0).set 2 (setFld (lineW l 2) 31 0 (min 0xFFFFFFFF (fld (lineW l 2) 31 0 + 1)))
    match slots (setStepRec l st s) with
    | (s, none) => (s, false)
    | (s, some ks) =>
    match moveSlots (fun b k => setSlot b k 0) st ks s with
    | (s, false) => (s, false)
    | (s, true) =>
      match commitList l s with
      | (s, none) => (s, false)
      | (s, some as) =>
        match clearPrepare as st s with
        | (s, false) => (s, false)
        | (s, true) =>
          match rindSkip st s with
          | (s, false) => (s, false)
          | (s, true) => (applySkipped st (sendEvent 0x0042 1 0 st 2 0 s), true)

/-! ## Gradient shards (R261) -/

/-- May a reduce-scatter write now? -/
inductive GradGate where
  | open_
  | held
  | poison
  deriving DecidableEq, Repr

/-- A write of n bytes at a by a reduce-scatter: held when it meets a gradient shard of the commit list while the outcome of
the step before stands open, or is yet to be decided (`undecided`); poison where a control line may not be used (R577).
DEDUCED, log entry 94. -/
def gradGate (undecided : Bool) (a n : Nat) (s : State) : GradGate :=
  match stepRec s with
  | (_, none) => .poison
  | (s, some l) =>
    if undecided ∨ recOutcome l = outGradClear ∨ recOutcome l = outDecided then
      match jobHeaders l s with
      | (_, none) => .poison
      | (_, some hs) =>
        if hs.any fun (_, h) => decide (hdrGrad h < a + n) && decide (a < hdrGrad h + 4 * hdrCount h) then .held else .open_
    else .open_

end Sys2Proof.Machine
end

