-- ==== Sys2Proof/Machine/CollectiveOps.lean ====
section
/-! DEFINITION. The collective engine: lines and chunks (R352, R360), packets (R359), reduction (R362), delivery (R372,
R373), the end of a collective (R358, R374), the flag phase (R370). -/
namespace Sys2Proof.Machine

/-! ## Lines (R352, R353) -/

def linePos (s : State) (a : Nat) : Nat := (coord s.jobNode a + s.axisSize a - s.sliceLo a) % s.axisSize a
def lineNode (s : State) (a j : Nat) : Node := setCoord s.jobNode a ((s.sliceLo a + j) % s.axisSize a)

/-- Multicast mask of the line of axis a (R367). -/
def lineMask (s : State) (a : Nat) : Word64 :=
  (List.range 4).foldl (fun m b =>
    setMaskAxis m b (if b = a then (List.range (s.sliceExtent a)).foldl (fun v j => v ||| 2 ^ coord (lineNode s a j) a) 0
      else 2 ^ coord s.jobNode b)) 0

/-! ## Chunks (R291, R360) -/

/-- The division of R291 of n elements over p participants. -/
def raggedCounts (n p : Nat) : List Nat :=
  let c := padTo 64 ((n + p - 1) / p)
  (List.range p).map fun i => min n ((i + 1) * c) - min n (i * c)

def sumTake (l : List Nat) (k : Nat) : Nat := (l.take k).foldl (· + ·) 0

/-- Bytes of n elements of width w. -/
def bytesOf (w n : Nat) : Nat := (w * n + 7) / 8

/-- Elements of the lower part of a chunk of n. -/
def lowerPart (n : Nat) : Nat := min n (padTo 64 ((n + 1) / 2))

/-- Elements that a full packet of width w carries: 4,096 bytes, a whole multiple of 64 elements. -/
def packetElems (w : Nat) : Nat := 4096 * 8 / w / 64 * 64

/-- Packets of a part of n elements; an empty part sends one empty packet. -/
def packetsOf (n w : Nat) : Nat := max 1 ((n + packetElems w - 1) / packetElems w)

def Coll.axis (c : Coll) : Nat := c.req.axis.val
def Coll.chunk (c : Coll) (j : Nat) : Nat := c.counts.getD j 0
/-- First element of chunk j among the chunks. -/
def Coll.off (c : Coll) (j : Nat) : Nat := sumTake c.counts j
/-- First element and elements of the part of chunk j that travels on a ring (down = true: the upper part). -/
def Coll.part (c : Coll) (j : Nat) (down : Bool) : Nat × Nat :=
  let n := c.chunk j
  if down then (c.off j + lowerPart n, n - lowerPart n) else (c.off j, lowerPart n)

def Coll.version (c : Coll) : BitVec 7 := if c.req.close = 0 then 0 else c.req.step.extractLsb' 0 7
def Coll.isRs (c : Coll) : Bool := c.op == .rs || c.op == .ar
/-- Format of the packets of an all-gather: DFMT for the result of an all-reduce. -/
def Coll.agFmt (c : Coll) : Nat := if c.op = .ar then c.req.dfmt.toNat else c.req.sfmt.toNat

/-! ## The table of open collectives -/

def State.coll (s : State) (opid : BitVec 16) : Option Coll := s.col.opens.find? fun c => c.req.opid == opid
def State.setColl (s : State) (c : Coll) : State :=
  { s with col := { s.col with opens := s.col.opens.map fun x => if x.req.opid == c.req.opid then c else x } }

def State.modColl (s : State) (opid : BitVec 16) (f : Coll → Coll) : State :=
  { s with col := { s.col with opens := s.col.opens.map fun x => if x.req.opid == opid then f x else x } }

def closingOpen (s : State) : Bool := s.col.opens.any fun c => c.req.close != 0

/-! ## COLL packets (Table 8.4) -/

structure CollHdr where
  opid : BitVec 16
  op : Nat
  down : Bool
  nf : Bool
  fv : Bool
  fin : Bool
  chunk : Nat
  step : Nat
  eoff : Nat
  wfmt : Nat
  deriving DecidableEq, Repr

def collHdr (p : Packet) : CollHdr :=
  { opid := p.addr.extractLsb' 48 16, op := fld p.addr 47 44, down := bitOf p.addr 43, nf := bitOf p.addr 42,
    fv := bitOf p.addr 41, fin := bitOf p.addr 40, chunk := fld p.addr 39 36, step := fld p.addr 35 32,
    eoff := fld p.addr 31 0, wfmt := fld p.ext 55 52 }

def collPacket (h : CollHdr) (cls : BitVec 2) (dst : Node) (heddle : BitVec 8) (ver : BitVec 7) (bs : List Byte) : Packet :=
  { Packet.blank with
    typ := 4, cls := cls, dst := dst, heddle := heddle, vers := ver.zeroExtend 8, payload := bs,
    addr := BitVec.ofNat 64 (h.opid.toNat * 2 ^ 48 + h.op * 2 ^ 44 + h.down.toNat * 2 ^ 43 + h.nf.toNat * 2 ^ 42 +
      h.fv.toNat * 2 ^ 41 + h.fin.toNat * 2 ^ 40 + h.chunk % 16 * 2 ^ 36 + h.step % 16 * 2 ^ 32 + h.eoff % 2 ^ 32),
    ext := BitVec.ofNat 56 (h.wfmt % 16 * 2 ^ 52) }

/-- Send a packet that wants an answer from every module of `want` (R339, R372), under the next serial of its OPID.
DEDUCED, log entry 52. -/
def sendColl (opid : BitVec 16) (p : Packet) (want : List Node) (s : State) : State :=
  match s.coll opid with
  | none => s
  | some c =>
    let p := { p with tag := c.nextTag }
    inject p (s.setColl { c with nextTag := c.nextTag + 1, sent := c.sent ++ [CollSent.mk c.nextTag p want 0 s.collBeat] })

/-- A ring's next position. -/
def Coll.nextPos (c : Coll) (down : Bool) : Nat := if down then (c.pos + c.p - 1) % c.p else (c.pos + 1) % c.p

/-- A data packet to the next position of a ring. -/
def sendRing (c : Coll) (h : CollHdr) (bs : List Byte) (s : State) : State :=
  let dst := lineNode s c.axis (c.nextPos h.down)
  sendColl c.req.opid (collPacket h 1 dst (if h.down then c.req.hidDown else c.req.hidUp) c.version bs) [dst] s

/-- WACK for a COLL packet (R372). -/
def collAnswer (p : Packet) (s : State) : State := answerWrite p none s

/-- This packet has been answered before (R373). -/
def Coll.seen (c : Coll) (p : Packet) : Bool := c.answered.contains (p.src, p.tag)
def Coll.note (c : Coll) (p : Packet) : Coll := { c with answered := (p.src, p.tag) :: c.answered }

/-- Does the injection bank redirect one of these modules (R449)? -/
def redirectsOne (s : State) (ns : List Node) : Bool :=
  s.fab.redirects.any fun (k, f, _) => k == s.fab.inj && ns.contains f

/-- Every module of the line, which is the set that its multicast marks (R367), and the others. -/
def Coll.line (c : Coll) (s : State) : List Node := (List.range c.p).map (lineNode s c.axis)
def Coll.others (c : Coll) (s : State) : List Node := ((List.range c.p).filter (· != c.pos)).map (lineNode s c.axis)

/-! ## The end of a collective -/

/-- COLL_DONE, or a failure of Table 8.6 with its ABORT, SEM and COLL_FAIL. Outcomes: 0 complete, 1 COLL_TIMEOUT,
2 COLL_POISON, 3 COLL_COUNT, 4 COLL_ABORTED, 5 COLL_FAULT. DESIGN CHOICE, log entry 19. -/
def endColl (c : Coll) (outcome : Nat) (abort : Bool) (s : State) : State :=
  let opid := c.req.opid
  let s := { s with col := { s.col with
    opens := s.col.opens.filter fun x => x.req.opid != opid, lastOpid := opid,
    aborted := if outcome = 0 then s.col.aborted else opid :: s.col.aborted } }
  let s := if abort ∧ 1 < c.p then
      let h : CollHdr := ⟨opid, 7, false, false, false, true, 0, 0, 0, 0⟩
      let pkt := fun (d : Node) => { collPacket h 0 d 0 0 [] with tag := c.nextTag }
      if redirectsOne s (c.line s) then (c.others s).foldl (fun s d => inject (pkt d) s) s
      else inject { pkt s.jobNode with mc := true, mask := lineMask s c.axis } s
    else s
  let s := match c.req.sem with
    | some (u, k) => s.modUnit u fun x => x.semAdd k.val 1 (outcome != 0)
    | none => s
  if outcome = 0 then sendEvent 0x0040 0 (opid.zeroExtend 32) c.req.step (Config.outcomeCode 0) 0 s
  else sendEvent 0x0041 1 (opid.zeroExtend 32) c.req.step (Config.outcomeCode outcome) 0 s

/-- A step that waited for a collective waits no more, and goes on only with HX_OUTER. -/
def OuterStep.haltWait (x : OuterStep) : OuterStep :=
  if x.waitColl then { x with waitColl := false, halted := true, failed := true } else x

/-- A closing collective has decided nothing yet. -/
def Coll.undecided (c : Coll) : Bool := c.req.close != 0 && !(c.phase == .flagged && c.flag.isNone)

/-- An update-closing all-gather has failed without a decision: its step commits nothing until the set's next one (R295, R375).
DEDUCED, log entry 93. -/
def setFailed (c : Coll) (upto : Nat) (s : State) : State :=
  { s with col := { s.col with failedSets := ⟨c.req.bset, c.req.step, upto⟩ :: s.col.failedSets.filter fun e => e.step == c.req.step } }

/-- A closing collective fails before its step is decided: the step has no outcome (R375), and what belongs to the step after it
still waits (R261). -/
def closingFailed (c : Coll) (s : State) : State :=
  if !c.undecided then s
  else if c.req.close = 2 then setFailed c s.col.nextOrder s
  else
    let w := s.word64 s.stepAddr
    let first := match s.col.failedGrad with
      | some f => if f.word = w then min f.order c.order else c.order
      | none => c.order
    { s with col := { s.col with failedGrad := some ⟨first, s.col.nextOrder, w⟩ } }

/-- A collective that a pass of the exchange waits for has failed: the boundary or the merge ends, with PAUSED cause LATE
(R403). DEDUCED, log entry 81. -/
def failColl (c : Coll) (outcome : Nat) (abort : Bool) (s : State) : State :=
  let s := closingFailed c (endColl c outcome abort s)
  if c.byHx then hxPause 1 0 0 { s with hx := { s.hx with steps := s.hx.steps.map (·.haltWait) } } else s

def failOf : EngFail → Nat
  | .refused => 4
  | .poison => 2

/-! ## Arithmetic of a reduce-scatter (R362) -/

/-- An element widened to F32; I32 as it is. -/
def widen (f c : Nat) : Word32 := if f = 9 then BitVec.ofNat 32 c else toF32 (elemVal f c)

/-- A value rounded to a format: F32, B16 or I32. -/
def narrow (f : Nat) (v : Word32) : Nat :=
  if f = 3 then (toB16 (f32 v)).toNat else if f = 9 then v.toNat else (toF32 (f32 v)).toNat

def reduce2 (c : Coll) (a b : Word32) : Word32 :=
  if c.req.wfmt.toNat = 9 then a + b else if c.req.redMax then f32Max a b else f32Add a b

/-- round(destination + result) (ACCUM 1). -/
def accumTo (f : Nat) (old : Nat) (r : Word32) : Nat :=
  if f = 9 then (BitVec.ofNat 32 old + r).toNat
  else if f = 3 then (toB16 ((elemVal 3 old).add (f32 r))).toNat
  else (toF32 ((elemVal 0 old).add (f32 r))).toNat

/-- Write results as elements i, i + 1, … of the destination array. -/
def writeResult (c : Coll) (i : Nat) (rs : List Word32) (s : State) : State × Option EngFail :=
  let f := c.req.dfmt.toNat
  let w := fmtBits f
  if c.req.accum then
    match engCodes c.dst w i rs.length s with
    | (s, _, some e) => (s, some e)
    | (s, old, none) => engPut c.dst w i ((old.zip rs).map fun (o, r) => accumTo f o r) c.version s
  else engPut c.dst w i (rs.map (narrow f)) c.version s

/-- Index in the destination array of element i of the chunks: a reduce-scatter's destination holds the own chunk only. -/
def Coll.dstIndex (c : Coll) (i : Nat) : Nat := if c.op = .rs then i - c.off c.pos else i

/-! ## Step 0 (R361, R365) -/

/-- One packet of the own contribution to a part. -/
def sendOwn (c : Coll) (down : Bool) (j : Nat) (k : Nat) (s : State) : State × Option EngFail :=
  let f := c.req.wfmt.toNat
  let (e0, n) := c.part j down
  let pe := packetElems (fmtBits f)
  let m := min pe (n - k * pe)
  match engCodes c.req.src.toNat (fmtBits c.req.sfmt.toNat) (e0 + k * pe) m s with
  | (s, _, some e) => (s, some e)
  | (s, cs, none) =>
    let vs := cs.map (widen c.req.sfmt.toNat)
    let nf := (c.req.sfmt != 9 && vs.any f32Special) || localFlag s
    let h : CollHdr := ⟨c.req.opid, 1, down, nf, false, decide (n ≤ (k + 1) * pe), j, 0, (e0 - c.off j + k * pe) / 64, f⟩
    (sendRing c h (packCodes (fmtBits f) (vs.map (narrow f))) s, none)

/-- One packet of the own chunk of an all-gather, from array `base` in which the chunk begins at element i0. -/
def sendGather (c : Coll) (base i0 : Nat) (down : Bool) (k : Nat) (s : State) : State × Option EngFail :=
  let f := c.agFmt
  let w := fmtBits f
  let (e0, n) := c.part c.pos down
  let pe := packetElems w
  let m := min pe (n - k * pe)
  let rel := e0 - c.off c.pos + k * pe
  match engCodes base w (i0 + rel) m s with
  | (s, _, some e) => (s, some e)
  | (s, cs, none) =>
    let h : CollHdr := ⟨c.req.opid, 2, down, false, false, decide (n ≤ (k + 1) * pe), c.pos, 0, rel / 64, f⟩
    (sendRing c h (packCodes w cs) s, none)

/-- Run actions until one fails. -/
def runAll (fs : List (State → State × Option EngFail)) (s : State) : State × Option EngFail :=
  fs.foldl (fun (s, e) f => match e with
    | some x => (s, some x)
    | none => f s) (s, none)

/-- The packets of step 0 of a reduce-scatter on both rings. -/
def startRs (c : Coll) (s : State) : State × Option EngFail :=
  let w := fmtBits c.req.wfmt.toNat
  let one := fun (down : Bool) (j : Nat) =>
    (List.range (packetsOf (c.part j down).2 w)).map fun k => sendOwn c down j k
  runAll (one false ((c.pos + c.p - 1) % c.p) ++ one true ((c.pos + 1) % c.p)) s

/-- The own chunk of an all-gather on both rings. -/
def startAg (c : Coll) (base i0 : Nat) (s : State) : State × Option EngFail :=
  let w := fmtBits c.agFmt
  let one := fun (down : Bool) =>
    (List.range (packetsOf (c.part c.pos down).2 w)).map fun k => sendGather c base i0 down k
  runAll (one false ++ one true) s

/-- Packets of the reduce-scatter that a position receives: on each ring every chunk but the sender's own first. -/
def rsLeft (c : Coll) : Nat :=
  if c.p ≤ 1 ∨ !c.isRs then 0
  else
    let w := fmtBits c.req.wfmt.toNat
    ((List.range c.p).map fun j =>
      (if j = (c.pos + c.p - 1) % c.p then 0 else packetsOf (c.part j false).2 w) +
      (if j = (c.pos + 1) % c.p then 0 else packetsOf (c.part j true).2 w)).foldl (· + ·) 0

def agLeft (c : Coll) : Nat :=
  if c.p ≤ 1 ∨ !(c.op == .ag || c.op == .ar) then 0
  else
    let w := fmtBits c.agFmt
    ((List.range c.p).map fun j =>
      if j = c.pos then 0 else packetsOf (c.part j false).2 w + packetsOf (c.part j true).2 w).foldl (· + ·) 0

/-! ## Broadcast and all-to-all (R367 to R369) -/

/-- A packet of the root's buffer, to every module of the line, the root among them: each answers it (R339). It rides on no ring,
so it carries no heddle (R376). -/
def sendBc (c : Coll) (k : Nat) (s : State) : State × Option EngFail :=
  let f := c.req.sfmt.toNat
  let w := fmtBits f
  let pe := packetElems w
  let n := c.chunk 0
  let m := min pe (n - k * pe)
  match engCodes c.req.src.toNat w (k * pe) m s with
  | (s, _, some e) => (s, some e)
  | (s, cs, none) =>
    let h : CollHdr := ⟨c.req.opid, 3, false, false, false, decide (n ≤ (k + 1) * pe), c.pos, 0, k * pe / 64, f⟩
    let line := c.line s
    let pkt := fun (d : Node) => collPacket h 1 d 0 c.version (packCodes w cs)
    if redirectsOne s line then (line.foldl (fun s d => sendColl c.req.opid (pkt d) [d] s) s, none)
    else (sendColl c.req.opid { pkt s.jobNode with mc := true, mask := lineMask s c.axis } line s, none)

/-- Send segment j: packet k. -/
def sendA2a (c : Coll) (j k : Nat) (s : State) : State × Option EngFail :=
  let f := c.req.sfmt.toNat
  let w := fmtBits f
  let pe := packetElems w
  let n := c.counts.getD j 0
  match engCodes c.req.src.toNat w (sumTake c.counts j + k * pe) (min pe (n - k * pe)) s with
  | (s, _, some e) => (s, some e)
  | (s, cs, none) =>
    let h : CollHdr := ⟨c.req.opid, 4, false, false, false, decide (n ≤ (k + 1) * pe), c.pos, 0, k * pe / 64, f⟩
    let d := lineNode s c.axis j
    (sendColl c.req.opid (collPacket h 1 d 0 c.version (packCodes w cs)) [d] s, none)

/-- Receive counts of an all-to-all, and the first element of source j's segment. -/
def Coll.recv (c : Coll) (j : Nat) : Nat := c.counts.getD (c.p + j) 0
def Coll.recvOff (c : Coll) (j : Nat) : Nat := sumTake (c.counts.drop c.p) j

/-- Copy elements between arrays of one format. -/
def engCopy (w src i dst j n : Nat) (ver : BitVec 7) (s : State) : State × Option EngFail :=
  match engCodes src w i n s with
  | (s, _, some e) => (s, some e)
  | (s, cs, none) => engPut dst w j cs ver s

/-! ## The rind (R378) -/

/-- The neighbour on port q: one step from the job node in its direction. -/
def neighbour (s : State) (q : Nat) : Node :=
  let a := q / 2
  let n := s.axisSize a
  setCoord s.jobNode a ((coord s.jobNode a + (if q % 2 = 0 then 1 else n - 1)) % n)

/-- n bytes that the spec does not state: free values. DESIGN CHOICE, log entry 83. -/
def freeBytes (n : Nat) (s : State) : State × List Byte :=
  ({ s with free := s.free + n }, (List.range n).map fun i => (Config.freeBits (s.free + i)).extractLsb' 0 8)

/-- Read n bytes and pad them to 256. -/
def imagePart (a n : Nat) (s : State) : State × List Byte × Option EngFail :=
  let g := engRead a n s
  let (s, pad) := freeBytes (padTo 256 n - n) g.s
  (s, g.bytes ++ pad, g.fail)

/-- The image of one shard: preamble, master and moments not named by CUR. -/
def shardImage (a : Nat) (h : List Word64) (s : State) : State × List Byte × Option EngFail :=
  let o := 1 - hdrCur h
  let n := 4 * hdrCount h
  ([(hdrMaster h o, n)] ++ (List.range (min 2 (hdrNmom h))).map fun j => (hdrMoment h o j, n)).foldl
    (fun (s, bs, e) (b, k) => match e with
      | some x => (s, bs, some x)
      | none =>
        let (s, cs, e) := imagePart b k s
        (s, bs ++ cs, e)) (imagePart a 64 s)

/-- Divide an image into RIND packets. -/
def sendRindFrom (c : Coll) (dst : Node) : Nat → Nat → List Byte → State → State
  | 0, _, _, s => s
  | k + 1, off, bs, s =>
    let rest := bs.drop 4096
    let h : CollHdr := ⟨c.req.opid, 6, false, false, false, rest.isEmpty, 0, 0, off / 256, 0⟩
    let s := sendColl c.req.opid (collPacket h 1 dst 0 c.version (bs.take 4096)) [dst] s
    if rest.isEmpty then s else sendRindFrom c dst k (off + 4096) rest s

def sendRind (c : Coll) (s : State) : State × Option EngFail :=
  let ctl := s.cfgReg 0x030004
  if c.req.close ≠ 2 ∨ !ctl.getLsbD 31 then (s, none)
  else match stepRec s with
    | (s, none) => (s, some .poison)
    | (s, some l) =>
      match jobHeaders l s with
      | (s, none) => (s, some .poison)
      | (s, some hs) =>
        let (s, bs, e) := hs.foldl (fun (s, bs, e) (a, h) => match e with
          | some x => (s, bs, some x)
          | none =>
            let (s, cs, e) := shardImage a h s
            (s, bs ++ cs, e)) (s, [], (none : Option EngFail))
        match e with
        | some x => (s, some x)
        | none => (sendRindFrom c (neighbour s (fld ctl 3 0)) (bs.length / 4096 + 1) 0 bs s, none)

/-! ## The flag phase (R370) -/

def sendFlag (c : Coll) (a hop : Nat) (v : Bool) (s : State) : State :=
  let h : CollHdr := ⟨c.req.opid, 5, false, false, v, true, a, hop, 0, 0⟩
  let p := s.sliceExtent a
  let dst := lineNode s a ((linePos s a + 1) % p)
  sendColl c.req.opid (collPacket h 0 dst 0 0 []) [dst] s

/-- Send what the phase can send; `hop` counts the hops sent on the present axis. -/
def flagRun (opid : BitVec 16) : Nat → State → State
  | 0, s => s
  | k + 1, s =>
    match s.coll opid with
    | none => s
    | some c =>
      match c.flag with
      | none => s
      | some f =>
        if 4 ≤ f.axis then s.setColl { c with phase := .flagged }
        else
          let p := s.sliceExtent f.axis
          if p ≤ 1 then flagRun opid k (s.setColl { c with flag := some { f with axis := f.axis + 1, hop := 0 } })
          else if f.hop = 0 then
            flagRun opid k (sendFlag c f.axis 0 f.value (s.setColl { c with flag := some { f with hop := 1 } }))
          else match f.got.find? fun (a, h, _) => a == f.axis && h == f.hop - 1 with
            | none => s
            | some (_, _, v) =>
              let f := { f with value := f.value || v }
              if f.hop = p - 1 then flagRun opid k (s.setColl { c with flag := some { f with axis := f.axis + 1, hop := 0 } })
              else
                let s := s.setColl { c with flag := some { f with hop := f.hop + 1 } }
                flagRun opid k (sendFlag c f.axis f.hop f.value s)

/-- Enough for 4 axes of 16 positions. DESIGN CHOICE, log entry 51. -/
def flagFuel : Nat := 140

end Sys2Proof.Machine
end

