-- ==== Sys2Proof/Machine/Units.lean ====
section
/-! DEFINITION. A unit's program: fetch, issue, program-counter advance, faults (R186 to R188), launch (R133), and access to
unit memory at unit-local addresses (R139, R140). -/
namespace Sys2Proof.Machine

/-! ## Faults -/

/-- FAULT_PC, STOP_PC and the lost-arming bit in X (Table 11.12). -/
def xFault (fpc spc : BitVec 12) (lost : Bool) : BitVec 96 :=
  BitVec.ofNat 96 (fpc.toNat * 2 ^ 80 + spc.toNat * 2 ^ 64 + lost.toNat * 2 ^ 56)

/-- The unit faults (R186): one record per program, FAULTED, a pending arming lost, UNIT_FAULT sent. -/
def unitFault (u : UnitId) (cause : Nat) (fpc spc : BitVec 12) (s : State) : State :=
  let x := s.unit u
  if x.status = .faulted then s
  else
    let lost := x.arming.isSome
    let q : Beat := match x.arming with
      | some a => a.beat.getD 0
      | none => 0
    let s := s.setUnit u { x with
      status := .faulted, arming := none, wait := .none, faultValid := true, faultCause := BitVec.ofNat 7 cause,
      faultPc := fpc, stopPc := spc, faultBeat := s.unitBeat u }
    sendEvent 0x0012 1 (BitVec.ofNat 32 u.key) q (BitVec.ofNat 16 cause) (xFault fpc spc lost) s

/-- A precise fault of the instruction at the program counter (R187). DEDUCED, log entry 2. -/
def faultHere (u : UnitId) (cause : Nat) (s : State) : State :=
  let pc := (s.unit u).pc
  unitFault u cause pc pc s

/-! ## Issue -/

/-- How an issued instruction ends. DEDUCED, log entry 2. -/
inductive Done where
  | ok (s : State)
  | jump (s : State) (pc : BitVec 12)
  | stay (s : State)
  | fault (s : State) (cause : Nat)

/-- Past index 4,095 the unit faults with PC_RANGE, the instruction there having taken effect (R137). -/
def advance (u : UnitId) (s : State) : State :=
  let x := s.unit u
  if x.pc = 4095 then unitFault u 0x02 4095 4095 (s.setUnit u { x with wait := .none })
  else s.setUnit u { x with pc := x.pc + 1, wait := .none }

def finish (u : UnitId) : Done → State
  | .ok s => advance u s
  | .jump s pc => s.modUnit u fun x => { x with pc := pc, wait := .none }
  | .stay s => s
  | .fault s c => faultHere u c s

/-- A running unit that waits for nothing, or only for a busy slot, issues its next instruction.
DESIGN CHOICE, log entry 1. -/
def canIssue (s : State) (u : UnitId) : Bool :=
  let x := s.unit u
  s.isReady && x.status == .running && (x.wait == .none || x.wait == .slot)

/-- IFETCH_ECC (R188), with the indices that R443 watches. -/
def ifetchFault (u : UnitId) (s : State) : State :=
  let pc := (s.unit u).pc
  faultHere u 0x05 (s.modUnit u fun x => { x with
    ifetchTwice := x.ifetchTwice || x.ifetchAt.contains pc, ifetchAt := if x.ifetchAt.contains pc then x.ifetchAt else pc :: x.ifetchAt })

/-- Instructions that a replay launch skips when EFX is set (R184). -/
def replaySkips (cls op : Nat) : Bool :=
  cls == 1 || (cls == 2 && (op == 2 || op == 0x40)) || (cls == 3 && op == 1) || cls == 5 || (cls == 0 && op == 0x11) ||
    cls == 6

/-- A skipped instruction retires and is counted; a skipped SHISSUE signals its semaphore (R184).
DESIGN CHOICE, log entry 1. -/
def skip (u : UnitId) (cls : Nat) (w : InstrWord) (s : State) : State :=
  let s := s.bump (unitOff u 0x20) 1
  let s := if cls = 6 then
      s.modUnit (u.cluster.unit ⟨fld w 102 100, by simp only [fld]; exact Nat.mod_lt _ (by decide)⟩) fun x =>
        x.semAdd (fld w 106 103) 1 false
    else s
  advance u s

/-- The beat in which the first instruction of a LAUNCH without a beat issues is its launch beat (Table 4.5). No slot, queue or
shuttle operation is taken then, so that a first instruction never waits at issue. -/
def noteIssue (u : UnitId) (s : State) : State :=
  if (s.unit u).unissued then s.modUnit u fun x => { x with launchBeat := s.unitBeat u, unissued := false } else s

/-- The row of class `cls` and operation `op` for unit u: the instruction at the program counter issues when it is this
row's; a word that R142 makes illegal, or an uncorrectable fetch, faults under any row; a row that is not the next
instruction's changes nothing. DESIGN CHOICE, log entry 1. -/
def issueRow (cls op : Nat) (u : UnitId) (body : InstrWord → State → Done) (s0 : State) : State :=
  if !canIssue s0 u then s0
  else
    let pc := (s0.unit u).pc.toNat
    let (s, bad) := touchInstr u pc s0
    let s := noteIssue u s
    let w := s.instr u pc
    if bad then ifetchFault u s
    else if illegal w then faultHere u 0x01 s
    else if opClass w != cls || opCode w != op then s0
    else if (s.unit u).replay && opEfx w && replaySkips cls op then skip u cls w s
    else finish u (body w (s.modUnit u fun x => { x with wait := .none }))

/-! ## Launch (R133) -/

/-- A unit starts a launched program: its state as Table 4.1 gives. `beat` is the launch beat; without one it is that of the
first issue, when it has come. -/
def startProgram (u : UnitId) (a : Arming) (beat : Beat) (s : State) : State :=
  let args := a.args.take 8
  s.modUnit u fun x =>
    { x with status := .running, arming := none, canon := a.canon, replay := a.replay, launchBeat := beat, pc := a.entry,
             gp := (args.mapIdx fun i v => (i + 1, v)).filter fun (_, v) => v != 0,
             vreg := [], wh := [], calls := [], wait := .none, unissued := a.beat.isNone, program := true }

/-! ## Unit memory -/

/-- Scratch or accumulator memory at a unit-local address (R139). -/
def localRegion (u : UnitId) (a n : Nat) : Option Region :=
  if a + n ≤ 0x180000 then some (.scratch u)
  else if 0x200000 ≤ a ∧ a + n ≤ 0x280000 then some (.acc u)
  else none

/-- Slots of the destination tile of a matrix instruction; busy from issue to completion (R107). -/
def MxOp.slots (o : MxOp) : List Nat :=
  (List.range (tileSlots (fld o.word 114 112) (fld o.word 101 98))).map (fld o.word 89 85 + ·)

def UnitState.busySlots (x : UnitState) : List Nat := (x.mxRun.map (·.op) ++ x.mxQueue).flatMap MxOp.slots

/-- Judgement of one access before an instruction's first write or read. -/
inductive Judged where
  | ok
  | busy
  | bad (cause : Nat) (refused : Option Nat)

/-- n bytes at unit-local address a, aligned to al, by the vector engine or a scalar instruction; a scalar access that
touches an open stack meets SLOT_OPEN as the vector engine does. DEDUCED, log entry 91. -/
def judge (s : State) (u : UnitId) (m : Master) (a n al : Nat) : Judged :=
  if n = 0 then .ok
  else if a % al ≠ 0 then .bad 0x04 none
  else match localRegion u a n with
    | none => .bad 0x04 none
    | some (.acc _) =>
      let ks := (blocks 16384 (a - 0x200000) n).map (· / 16384)
      let x := s.unit u
      if ks.any x.stackSlots.contains then .bad 0x16 none
      else if ks.any x.busySlots.contains then .busy
      else .ok
    | some _ =>
      match refusedBank s u a n m with
      | some b => .bad 0x22 (some b)
      | none => .ok

/-- All accesses of an instruction, in order: the first failure decides; a busy slot makes the instruction wait. -/
def judgeAll (s : State) (u : UnitId) (m : Master) : List (Nat × Nat × Nat) → Judged
  | [] => .ok
  | (a, n, al) :: t =>
    match judge s u m a n al with
    | .ok => judgeAll s u m t
    | .bad c r => .bad c r
    | .busy =>
      match judgeAll s u m t with
      | .bad c r => .bad c r
      | _ => .busy

/-- Run `k` when every access is admitted; a refused bank is counted (R194) and the instruction faults. -/
def withAccess (u : UnitId) (m : Master) (accs : List (Nat × Nat × Nat)) (s : State) (k : State → Done) : Done :=
  match judgeAll s u m accs with
  | .ok => k s
  | .busy => .stay (s.modUnit u fun x => { x with wait := .slot })
  | .bad c none => .fault s c
  | .bad c (some b) => .fault (refuse u false b m s) c

/-- Read n bytes at a unit-local address: the state after the read, the bytes, and whether a word was poisoned. -/
def unitRead (u : UnitId) (a n : Nat) (s : State) : State × List Byte × Bool :=
  match localRegion u a n with
  | none => (s, [], false)
  | some r =>
    let m := unitAddr u a
    let s := touch r m n s
    (s, s.rawRead m n, s.anyPoison r m n)

def unitWrite (u : UnitId) (a : Nat) (bs : List Byte) (s : State) : State :=
  if bs.isEmpty then s
  else match localRegion u a bs.length with
    | none => s
    | some r => writeSpan r (unitAddr u a) bs 0 s

def leWord32 (bs : List Byte) : Word32 := BitVec.ofNat 32 (leNat bs)
def leWord64 (bs : List Byte) : Word64 := BitVec.ofNat 64 (leNat bs)

end Sys2Proof.Machine
end

