-- ==== Sys2Proof/Machine/Scalar.lean ====
section
/-! DEFINITION. The scalar class (Tables 4.3 to 4.5): meanings of NOP to END, and of the events PROGRAM_END and
IFETCH_ECC. -/
namespace Sys2Proof.Machine

def gd (w : InstrWord) : Nat := fld w 114 110
def ga (w : InstrWord) : Nat := fld w 109 105
def gb (w : InstrWord) : Nat := fld w 104 100

/-- GD ← f GA GB IMM. -/
def scalarBody (u : UnitId) (f : Word64 → Word64 → Word64 → Word64) (w : InstrWord) (s : State) : Done :=
  let x := s.unit u
  .ok (s.setUnit u (x.gpSet (gd w) (f (x.gpGet (ga w)) (x.gpGet (gb w)) (imm64 w))))

def scalarAlu (op : Nat) (u : UnitId) (f : Word64 → Word64 → Word64 → Word64) (s : State) : State :=
  issueRow 0 op u (scalarBody u f) s

def execNop (u : UnitId) (s : State) : Out := .next (issueRow 0 0x01 u (fun _ s => .ok s) s)
def execLi (u : UnitId) (s : State) : Out := .next (scalarAlu 0x02 u (fun _ _ i => i) s)
def execAdd (u : UnitId) (s : State) : Out := .next (scalarAlu 0x03 u (fun a b _ => a + b) s)
def execAddi (u : UnitId) (s : State) : Out := .next (scalarAlu 0x04 u (fun a _ i => a + i) s)
def execSub (u : UnitId) (s : State) : Out := .next (scalarAlu 0x05 u (fun a b _ => a - b) s)
def execMul (u : UnitId) (s : State) : Out := .next (scalarAlu 0x06 u (fun a b _ => a * b) s)
def execAnd (u : UnitId) (s : State) : Out := .next (scalarAlu 0x07 u (fun a b _ => a &&& b) s)
def execOr (u : UnitId) (s : State) : Out := .next (scalarAlu 0x08 u (fun a b _ => a ||| b) s)
def execXor (u : UnitId) (s : State) : Out := .next (scalarAlu 0x09 u (fun a b _ => a ^^^ b) s)
def execShl (u : UnitId) (s : State) : Out := .next (scalarAlu 0x0A u (fun a b _ => a <<< (b.toNat % 64)) s)
def execShr (u : UnitId) (s : State) : Out := .next (scalarAlu 0x0B u (fun a b _ => a >>> (b.toNat % 64)) s)
def execSra (u : UnitId) (s : State) : Out := .next (scalarAlu 0x0C u (fun a b _ => a.sshiftRight (b.toNat % 64)) s)
def execSlt (u : UnitId) (s : State) : Out := .next (scalarAlu 0x0D u (fun a b _ => if a.slt b then 1 else 0) s)
def execSltu (u : UnitId) (s : State) : Out := .next (scalarAlu 0x0E u (fun a b _ => if a.ult b then 1 else 0) s)

/-- SLD: the 64-bit word at GA + IMM. -/
def sldBody (u : UnitId) (w : InstrWord) (s : State) : Done :=
  let a := ((s.unit u).gpGet (ga w) + imm64 w).toNat
  withAccess u .scalar [(a, 8, 8)] s fun s =>
    let (s, bs, bad) := unitRead u a 8 s
    if bad then .fault s 0x06 else .ok (s.modUnit u (·.gpSet (gd w) (leWord64 bs)))

def execSld (u : UnitId) (s : State) : Out := .next (issueRow 0 0x10 u (sldBody u) s)

def sstBody (u : UnitId) (w : InstrWord) (s : State) : Done :=
  let x := s.unit u
  let a := (x.gpGet (ga w) + imm64 w).toNat
  withAccess u .scalar [(a, 8, 8)] s fun s => .ok (unitWrite u a (leBytes 8 (x.gpGet (gb w)).toNat) s)

def execSst (u : UnitId) (s : State) : Out := .next (issueRow 0 0x11 u (sstBody u) s)

def target (w : InstrWord) : BitVec 12 := w.extractLsb' 0 12

def execJmp (u : UnitId) (s : State) : Out := .next (issueRow 0 0x20 u (fun w s => .jump s (target w)) s)

def execBeqz (u : UnitId) (s : State) : Out :=
  .next (issueRow 0 0x21 u (fun w s => if (s.unit u).gpGet (ga w) = 0 then .jump s (target w) else .ok s) s)

def execBnez (u : UnitId) (s : State) : Out :=
  .next (issueRow 0 0x22 u (fun w s => if (s.unit u).gpGet (ga w) = 0 then .ok s else .jump s (target w)) s)

/-- GA ← GA − 1; jump when the new GA is not zero. A write of GP0 is discarded, so that GP0 stays zero.
DEDUCED, log entry 4. -/
def dbnzBody (u : UnitId) (w : InstrWord) (s : State) : Done :=
  let x := s.unit u
  let x' := x.gpSet (ga w) (x.gpGet (ga w) - 1)
  let s' := s.setUnit u x'
  if x'.gpGet (ga w) = 0 then .ok s' else .jump s' (target w)

def execDbnz (u : UnitId) (s : State) : Out := .next (issueRow 0 0x23 u (dbnzBody u) s)

/-- Push the next index and jump; a ninth entry faults (R143). Past index 4,095 the next index is 0. DEDUCED, log entry 4. -/
def callBody (u : UnitId) (w : InstrWord) (s : State) : Done :=
  let x := s.unit u
  if 8 ≤ x.calls.length then .fault s 0x03
  else .jump (s.setUnit u { x with calls := (x.pc + 1) :: x.calls }) (target w)

def execCall (u : UnitId) (s : State) : Out := .next (issueRow 0 0x24 u (callBody u) s)

def retBody (u : UnitId) (_ : InstrWord) (s : State) : Done :=
  let x := s.unit u
  match x.calls with
  | [] => .fault s 0x03
  | r :: t => .jump (s.setUnit u { x with calls := t }) r

def execRet (u : UnitId) (s : State) : Out := .next (issueRow 0 0x25 u (retBody u) s)

/-- Table 4.5. -/
def specialValue (u : UnitId) (k : Nat) (s : State) : Word64 :=
  let x := s.unit u
  match k with
  | 0 => (s.unitBeat u).zeroExtend 64
  | 1 => x.launchBeat.zeroExtend 64
  | 2 => BitVec.ofNat 64 u.key
  | 3 => BitVec.ofNat 64 (x.canon.toNat + 2 * x.replay.toNat)
  | 4 => (s.counter (unitOff u 0x34)).zeroExtend 64
  | _ => 0

def execGets (u : UnitId) (s : State) : Out :=
  .next (issueRow 0 0x28 u (fun w s => .ok (s.modUnit u (·.gpSet (gd w) (specialValue u (fld w 7 0) s)))) s)

/-- FLAGS: read the sticky flags of the unit and of SH0 to SH3 of its cluster, then clear those named by IMM[15:7]. -/
def flagsBody (u : UnitId) (w : InstrWord) (s : State) : Done :=
  let v := (s.unit u).flagBits + s.shtNf u.cluster * 4096
  let m := fld w 15 7 * 128
  let s := s.modUnit u fun x => (x.clearFlags m).gpSet (gd w) (BitVec.ofNat 64 v)
  .ok (s.clearShtNf u.cluster (m / 4096))

def execFlags (u : UnitId) (s : State) : Out := .next (issueRow 0 0x29 u (flagsBody u) s)

def UnitState.whGet (x : UnitState) (k : Nat) : BitVec 128 := tget 0 x.wh k
def UnitState.whSet (x : UnitState) (k : Nat) (v : BitVec 128) : UnitState := { x with wh := tput 0 k v x.wh }

/-- WH(GD[2:0]) ← GB:GA; GD is the field of the instruction. -/
def whsetBody (u : UnitId) (w : InstrWord) (s : State) : Done :=
  let x := s.unit u
  .ok (s.setUnit u (x.whSet (gd w % 8) (x.gpGet (gb w) ++ x.gpGet (ga w))))

def execWhset (u : UnitId) (s : State) : Out := .next (issueRow 0 0x2A u (whsetBody u) s)

/-- A whey register is one element of 16 bytes (R139). DEDUCED, log entry 5. -/
def whldBody (u : UnitId) (w : InstrWord) (s : State) : Done :=
  let a := ((s.unit u).gpGet (ga w) + imm64 w).toNat
  withAccess u .scalar [(a, 16, 16)] s fun s =>
    let (s, bs, bad) := unitRead u a 16 s
    if bad then .fault s 0x06 else .ok (s.modUnit u (·.whSet (gd w % 8) (BitVec.ofNat 128 (leNat bs))))

def execWhld (u : UnitId) (s : State) : Out := .next (issueRow 0 0x2B u (whldBody u) s)

/-- END issues nothing more and waits for the program's work (R136). DEDUCED, log entry 3. -/
def execEndInstr (u : UnitId) (s : State) : Out :=
  .next (issueRow 0 0x3F u (fun w s => .stay (s.modUnit u fun x => { x with wait := .ended (bitOf w 0) })) s)

/-- Every matrix instruction and shuttle operation of the program is complete (R136, R190). -/
def UnitState.workDone (x : UnitState) : Bool := x.mxQueue.isEmpty && x.mxRun.isEmpty && x.shOut == 0

/-- The work of an ended or halted program is complete: UNIT_END_BEAT, IDLE, and PROGRAM_END where END asks for it and
the launch is no replay (R136, R185, R497). DEDUCED, log entry 3. DESIGN CHOICE, log entry 6. -/
def endProgram (u : UnitId) (s : State) : State :=
  let x := s.unit u
  match x.wait with
  | .ended ev =>
    if s.isReady && x.status == .running && x.workDone then
      let s := s.setUnit u { x with status := if x.arming.isSome then .armed else .idle, wait := .none, program := false,
                                    endBeat := s.unitBeat u }
      if ev && !x.replay then sendEvent 0x0010 0 (BitVec.ofNat 32 u.key) x.launchBeat 0 0 s else s
    else s
  | _ => s

def execProgramEnd (u : UnitId) (s : State) : Out := .next (endProgram u s)

/-- The word at the program counter has an uncorrectable error or poison as it is fetched (R188). -/
def execIfetchEcc (u : UnitId) (s : State) : Out :=
  .next (if canIssue s u then
    let (t, bad) := touchInstr u (s.unit u).pc.toNat s
    if bad then ifetchFault u (noteIssue u t) else s
  else s)

end Sys2Proof.Machine
end

