-- ==== Sys2Proof/Machine/Collective.lean ====
section
/-! DEFINITION. Collectives as they run (ch. 8) and the decisions that close a step (ch. 6): data packets, flag phase, bobbin
claims, commit and skip, answers and resends. The COLLECTIVE command itself stands in HostFabric.lean. -/
namespace Sys2Proof.Machine

/-! ## Applying data packets -/

/-- One packet less to receive. -/
def gotRs (opid : BitVec 16) (s : State) : State := s.modColl opid fun c => { c with left := c.left - 1 }
def gotAg (opid : BitVec 16) (s : State) : State := s.modColl opid fun c => { c with leftAg := c.leftAg - 1 }

/-- Elements of a packet at offset eoff of a part of n. -/
def partLen (w n eoff : Nat) : Nat := min (packetElems w) (n - 64 * eoff)

/-- EOFF counts from the start of the chunk (Table 8.4): units of 64 elements from the start of the part.
DEDUCED, log entry 52. -/
def Coll.partOff (c : Coll) (h : CollHdr) : Nat := h.eoff - ((c.part h.chunk h.down).1 - c.off h.chunk) / 64

/-- The packet names a chunk of the line and carries the elements that its offset implies. -/
def wellSized (c : Coll) (h : CollHdr) (p : Packet) : Bool :=
  let w := if h.op = 1 then fmtBits c.req.wfmt.toNat else if h.op = 2 then fmtBits c.agFmt else fmtBits c.req.sfmt.toNat
  let ring := h.op == 1 || h.op == 2
  let n := if ring then (c.part h.chunk h.down).2 else if h.op = 3 then c.chunk 0 else c.recv h.chunk
  let k := if ring then c.partOff h else h.eoff
  let low := !ring || decide (((c.part h.chunk h.down).1 - c.off h.chunk) / 64 ≤ h.eoff)
  decide (h.chunk < c.p) && low && (h.op == 4 || (decide (64 * k ≤ n) && p.payload.length == bytesOf w (partLen w n k)))

/-- A gradient-closing collective accepted before c has still to decide its step, or has failed before it did while c was already
accepted: c belongs to the next (R261). DEDUCED, log entry 94. -/
def undecidedBefore (c : Coll) (s : State) : Bool :=
  s.col.opens.any (fun x => x.req.close == 1 && decide (x.order < c.order) && x.undecided) ||
    s.col.failedGrad.any fun f => decide (f.order < c.order) && decide (c.order < f.upto) && s.word64 s.stepAddr == f.word

/-- What R261 says of the write that a reduce-scatter packet makes. DEDUCED, log entry 94. -/
def rsGate (c : Coll) (h : CollHdr) (s : State) : GradGate :=
  let w := fmtBits c.req.dfmt.toNat
  let (e0, n) := c.part h.chunk h.down
  if h.op = 1 ∧ h.chunk = c.pos then
    gradGate (undecidedBefore c s) (c.dst + w * c.dstIndex (e0 + 64 * c.partOff h) / 8)
      (bytesOf (fmtBits c.req.dfmt.toNat) (partLen (fmtBits c.req.wfmt.toNat) n (c.partOff h))) s
  else .open_

/-- The write of a reduce-scatter packet must wait (R261). -/
def rsWaits (c : Coll) (h : CollHdr) (s : State) : Bool := rsGate c h s == .held

/-- RS data (R361, R362): add the own contribution; write at the owner, else round to WFMT and send on. -/
def applyRs (c : Coll) (h : CollHdr) (p : Packet) (s : State) : State × Option EngFail :=
  let f := c.req.wfmt.toNat
  let w := fmtBits f
  let (e0, n) := c.part h.chunk h.down
  let m := partLen w n (c.partOff h)
  let i := e0 + 64 * c.partOff h
  match engCodes c.req.src.toNat (fmtBits c.req.sfmt.toNat) i m s with
  | (s, _, some e) => (s, some e)
  | (s, cs, none) =>
    let own := cs.map (widen c.req.sfmt.toNat)
    let inc := (elemsOf w m p.payload).map (widen f)
    let rs := (inc.zip own).map fun (a, b) => reduce2 c a b
    if h.chunk = c.pos then
      match writeResult c (c.dstIndex i) rs s with
      | (s, some e) => (s, some e)
      | (s, none) => (gotRs c.req.opid s, none)
    else
      let nf := (f != 9 && (own.any f32Special || inc.any f32Special)) || localFlag s
      let h := { h with step := h.step + 1, nf := nf }
      (sendRing c h (packCodes w (rs.map (narrow f))) (gotRs c.req.opid s), none)

/-- AG data (R365): written unchanged at the chunk's place and forwarded. -/
def applyAg (c : Coll) (h : CollHdr) (p : Packet) (s : State) : State × Option EngFail :=
  let w := fmtBits c.agFmt
  let (e0, n) := c.part h.chunk h.down
  match engPut c.dst w (e0 + 64 * c.partOff h) (elemsOf w (partLen w n (c.partOff h)) p.payload) c.version s with
  | (s, some e) => (s, some e)
  | (s, none) =>
    let s := gotAg c.req.opid s
    (if h.step + 2 < c.p then sendRing c { h with step := h.step + 1 } p.payload s else s, none)

/-- BC data (R367). -/
def applyBc (c : Coll) (h : CollHdr) (p : Packet) (s : State) : State × Option EngFail :=
  let w := fmtBits c.req.sfmt.toNat
  match engPut c.dst w (64 * h.eoff) (elemsOf w (partLen w (c.chunk 0) h.eoff) p.payload) c.version s with
  | (s, some e) => (s, some e)
  | (s, none) => (gotAg c.req.opid s, none)

/-- A2A data (R368): placed by source and offset. -/
def applyA2a (c : Coll) (h : CollHdr) (p : Packet) (s : State) : State × Option EngFail :=
  let w := fmtBits c.req.sfmt.toNat
  match engPut c.dst w (c.recvOff h.chunk + 64 * h.eoff) (elemsOf w (8 * p.payload.length / w) p.payload) c.version s with
  | (s, some e) => (s, some e)
  | (s, none) =>
    (s.modColl c.req.opid fun c =>
      let g := tput 0 h.chunk (tget 0 c.gotBytes h.chunk + p.payload.length) c.gotBytes
      { c with gotBytes := if h.fin then tput 0 (16 + h.chunk) 1 g else g }, none)

/-- The bytes that an END packet of an all-to-all closes disagree with RECV (R369). -/
def a2aShort (c : Coll) (h : CollHdr) : Bool :=
  h.op == 4 && h.fin && tget 0 c.gotBytes h.chunk != bytesOf (fmtBits c.req.sfmt.toNat) (c.recv h.chunk)

/-- The reduce-scatter part of an all-reduce is done: its result is gathered (R366). -/
def afterRs (opid : BitVec 16) (s : State) : State × Option EngFail :=
  match s.coll opid with
  | none => (s, none)
  | some c => if c.op = .ar ∧ c.left = 0 then startAg c c.dst (c.off c.pos) s else (s, none)


/-- Apply one data packet of a running collective; a failure ends it. The Bool says that the packet's own bytes are added or
written. -/
def applyData (opid : BitVec 16) (p : Packet) (s : State) : State × Bool :=
  match s.coll opid with
  | none => (s, false)
  | some c =>
    let h := collHdr p
    let (s, e) := match h.op with
      | 1 => if rsGate c h s = GradGate.poison then (s, some EngFail.poison) else applyRs c h p s
      | 2 => applyAg c h p s
      | 3 => applyBc c h p s
      | _ => applyA2a c h p s
    let done := e.isNone
    let (s, e) := if done ∧ h.op = 1 ∧ c.left ≠ 0 then afterRs opid s else (s, e)
    (match s.coll opid, e with
      | some c, some x => failColl c (failOf x) true s
      | some c, none => if a2aShort c h then failColl c 3 true s else s
      | none, _ => s, done)

/-- Apply held packets in order of arrival, as far as they need not wait. -/
def applyHeld (opid : BitVec 16) : Nat → State → State
  | 0, s => s
  | k + 1, s =>
    match s.coll opid with
    | none => s
    | some c =>
      if c.phase ≠ .running then s
      else match c.held.find? fun p => (collHdr p).op != 5 && !rsWaits c (collHdr p) s with
        | none => s
        | some p =>
          applyHeld opid k (applyData opid p (s.modColl opid fun c => { c with held := eraseFirst (· == p) c.held })).1

/-- DESIGN CHOICE, log entry 51. -/
def heldFuel (s : State) (opid : BitVec 16) : Nat := match s.coll opid with
  | some c => c.held.length
  | none => 0

/-- A step's outcome has become final: writes that waited under R261 go on. -/
def applyAllHeld (s : State) : State :=
  if !s.isReady then s else (s.col.opens.map (·.req.opid)).foldl (fun s o => applyHeld o (heldFuel s o) s) s

/-! ## Packets that arrive -/

def collFor (s : State) (op : Nat) (p : Packet) : Bool :=
  s.isReady && p.typ == 4 && (collHdr p).op == op && reaches s p

/-- A data packet (R372 to R374): a duplicate, and the root's own copy of a broadcast, is answered again; before the start it is
held; NF of a reduce-scatter is noted as the packet is received (R364); a packet whose bytes are added, written or held is
answered, also where it ends the collective; a packet of an OPID that the module does not hold is discarded, answered where that
OPID ended by a failure. DEDUCED, log entry 54. -/
def dataIn (op : Nat) (p : Packet) (s : State) : State :=
  if !collFor s op p then s
  else
    let h := collHdr p
    match s.coll h.opid with
    | none => if s.col.aborted.contains h.opid then collAnswer p s else s
    | some c =>
      if op = 3 ∧ c.req.root.toNat = c.pos then collAnswer p s
      else if c.seen p then collAnswer p s
      else if c.phase = .flag ∨ c.phase = .flagged then s
      else
        let t := s.modColl h.opid (·.note p)
        let t := if op = 1 ∧ h.nf then { t with col := { t.col with nfEarly := true } } else t
        if !wellSized c h p then s
        else if c.phase ≠ .running then collAnswer p (t.modColl h.opid fun c => { c with held := c.held ++ [p] })
        else if rsWaits c h s then collAnswer p (t.modColl h.opid fun c => { c with held := c.held ++ [p] })
        else
          let (t, done) := applyData h.opid p t
          if done then collAnswer p t else t

def execCollRsData (p : Packet) (s : State) : Out := .next (dataIn 1 p (takeLocal p s))
def execCollAgData (p : Packet) (s : State) : Out := .next (dataIn 2 p (takeLocal p s))
def execCollBcData (p : Packet) (s : State) : Out := .next (dataIn 3 p (takeLocal p s))
def execCollA2aData (p : Packet) (s : State) : Out := .next (dataIn 4 p (takeLocal p s))

/-! ## The start of a collective (R354, R358, R376) -/

/-- The own data of operations that copy it, and every result of a line of one module. -/
def localPart (c : Coll) (s : State) : State × Option EngFail :=
  let w := fmtBits c.req.sfmt.toNat
  let src := c.req.src.toNat
  match c.op with
  | .rs | .ar =>
    if 1 < c.p then (s, none)
    else match engCodes src w 0 (c.chunk 0) s with
      | (s, _, some e) => (s, some e)
      | (s, cs, none) => writeResult c 0 (cs.map (widen c.req.sfmt.toNat)) s
  | .ag => engCopy w src 0 c.dst (c.off c.pos) (c.chunk c.pos) c.version s
  | .bc => if c.req.root.toNat = c.pos then engCopy w src 0 c.dst 0 (c.chunk 0) c.version s else (s, none)
  | .a2a => engCopy w src (sumTake c.counts c.pos) c.dst (c.recvOff c.pos) (c.counts.getD c.pos 0) c.version s

/-- The packets that a start sends. -/
def startSends (c : Coll) (s : State) : State × Option EngFail :=
  if c.p ≤ 1 then (s, none)
  else match c.op with
    | .rs | .ar => startRs c s
    | .ag =>
      match startAg c c.req.src.toNat 0 s with
      | (s, some e) => (s, some e)
      | (s, none) => sendRind c s
    | .bc =>
      if c.req.root.toNat = c.pos then
        runAll ((List.range (packetsOf (c.chunk 0) (fmtBits c.req.sfmt.toNat))).map fun k => sendBc c k) s
      else (s, none)
    | .a2a =>
      runAll ((List.range (c.p - 1)).flatMap fun d =>
        let j := (c.pos + d + 1) % c.p
        (List.range (packetsOf (c.counts.getD j 0) (fmtBits c.req.sfmt.toNat))).map fun k => sendA2a c j k) s

/-- Begin the data part: `base` is added to DST (the claimed slot's address, or 0). -/
def beginColl (c : Coll) (base : Nat) (s : State) : State :=
  let opid := c.req.opid
  let c := { c with phase := .running, dst := base + c.req.dst.toNat, left := rsLeft c,
                    leftAg := if c.op = .bc ∧ c.req.root.toNat ≠ c.pos then packetsOf (c.chunk 0) (fmtBits c.req.sfmt.toNat)
                      else agLeft c }
  let s := s.setColl c
  let (s, e) := localPart c s
  let (s, e) := if e.isNone then startSends c s else (s, e)
  let (s, e) := if e.isNone ∧ c.p ≤ 1 ∧ c.op = .ag then sendRind c s else (s, e)
  match s.coll opid, e with
  | some c, some x => failColl c (failOf x) true s
  | _, _ => applyHeld opid (heldFuel s opid) s

/-- Collectives on one axis start in the order in which they were accepted. -/
def turnOf (s : State) (c : Coll) : Bool :=
  s.col.opens.all fun x => !(x.axis == c.axis && decide (x.order < c.order) && (x.phase == .armed || x.phase == .queued))

/-- What R261 says of a start that writes its result at once. -/
def startGate (c : Coll) (s : State) : GradGate :=
  if c.isRs && decide (c.p ≤ 1) then
    gradGate (undecidedBefore c s) c.req.dst.toNat (bytesOf (fmtBits c.req.dfmt.toNat) (c.chunk 0)) s
  else .open_

def startColl (opid : BitVec 16) (s : State) : State :=
  match s.coll opid with
  | none => s
  | some c =>
    if !s.isReady || c.phase != .queued || !turnOf s c || startGate c s == .held then s
    else if startGate c s = .poison then failColl c 2 true s
    else if c.req.close = 2 then s.setColl { c with phase := .claiming, claimSince := s.collBeat, retryAt := s.collBeat }
    else beginColl c 0 s

def execCollectiveStart (opid : BitVec 16) (s : State) : Out := .next (startColl opid s)

/-! ## Bobbin claims (R281, R282) -/

def claimSlot (c : Coll) (s : State) : State :=
  let opid := c.req.opid
  let bs := c.req.bset.toNat
  let retry := fun (s : State) => s.modColl opid fun c => { c with retryAt := s.collBeat + 16 }
  match ctlLine bs s with
  | (s, none) => failColl c 2 true s
  | (s, some b) =>
    match chooseSlot b with
    | none => retry s
    | some k =>
      let s := ctlWrite bs (setSlot b k 1) c.req.step s
      match holdCount (fld (lineW b 7) 47 0) k (fld (lineW b 7) 54 48) s with
      | (s, none) => failColl c 2 true s
      | (s, some n) =>
        if n ≠ 0 then retry (ctlWrite bs b c.req.step s)
        else
          let c := { c with slot := some k }
          beginColl c ((lineW b 0).toNat + k * bsetStride b) (s.setColl c)

def claiming (opid : BitVec 16) (s : State) : Option Coll :=
  match s.coll opid with
  | some c => if s.isReady && c.phase == .claiming then some c else none
  | none => none

def execBobbinClaim (opid : BitVec 16) (s : State) : Out :=
  .next (match claiming opid s with
    | some c => if c.retryAt = c.claimSince then claimSlot c s else s
    | none => s)

def execBobbinClaimRetry (opid : BitVec 16) (s : State) : Out :=
  .next (match claiming opid s with
    | some c => if c.retryAt ≠ c.claimSince ∧ !later c.retryAt s.collBeat then claimSlot c s else s
    | none => s)

def execBobbinStall (opid : BitVec 16) (s : State) : Out :=
  .next (match claiming opid s with
    | some c =>
      if !c.stallSent && decide ((s.cfgReg 0x030020).toNat ≤ beatsSince s.collBeat c.claimSince) then
        sendEvent 0x0044 1 0 c.req.step 0 (xAddr c.req.bset.toNat) (s.setColl { c with stallSent := true })
      else s
    | none => s)

/-! ## The flag phase (R262, R267, R370, R371) -/

/-- The data part is complete: everything received, applied and answered. -/
def dataDone (c : Coll) : Bool :=
  c.phase == .running && c.left == 0 && c.leftAg == 0 && c.sent.isEmpty && (c.held.all fun p => (collHdr p).op == 5) &&
    (c.op != .a2a || (List.range c.p).all fun j => j == c.pos || tget 0 c.gotBytes (16 + j) == 1)

/-- The module's own value: its local flag, and for an update any shard of the commit list that is not prepared. None where
a control line may not be used. -/
def ownValue (c : Coll) (s : State) : State × Option Bool :=
  if c.req.close ≠ 2 then
    let (s, v) := sampleFlag s
    (s, some v)
  else match stepRec s with
    | (s, none) => (s, none)
    | (s, some l) =>
      match jobHeaders l s with
      | (s, none) => (s, none)
      | (s, some hs) =>
        let (s, v) := sampleFlag s
        (s, some (v || hs.any fun (_, h) => !prepared h c.req.step))

/-- FLAG packets among those held, as axis, hop and value. -/
def heldFlags (c : Coll) : List (Nat × Nat × Bool) :=
  (c.held.filter fun p => (collHdr p).op == 5).map fun p => ((collHdr p).chunk, (collHdr p).step, (collHdr p).fv)

def flagBegin (opid : BitVec 16) (s : State) : State :=
  match s.coll opid with
  | none => s
  | some c =>
    if !s.isReady || c.req.close == 0 || !dataDone c then s
    else match ownValue c s with
      | (s, none) => failColl c 2 true s
      | (s, some v) =>
        flagRun opid flagFuel (s.setColl { c with phase := .flag, held := [], flag := some ⟨0, 0, v, v, heldFlags c⟩ })

def execFlagPhaseBegin (opid : BitVec 16) (s : State) : Out := .next (flagBegin opid s)

def flagIn (p : Packet) (s : State) : State :=
  if !collFor s 5 p then s
  else
    let h := collHdr p
    match s.coll h.opid with
    | none => if s.col.aborted.contains h.opid then collAnswer p s else s
    | some c =>
      if c.seen p then collAnswer p s
      else
        let c := c.note p
        match c.phase, c.flag with
        | .flag, some f =>
          if f.got.any fun (a, k, _) => a == h.chunk && k == h.step then collAnswer p (s.setColl c)
          else collAnswer p (flagRun h.opid flagFuel (s.setColl { c with flag := some { f with got := f.got ++ [(h.chunk, h.step, h.fv)] } }))
        | .flagged, _ => collAnswer p (s.setColl c)
        | _, _ => collAnswer p (s.setColl { c with held := c.held ++ [p] })

def execCollFlag (p : Packet) (s : State) : Out := .next (flagIn p (takeLocal p s))

/-! ## The decisions (R266, R267, R271) -/

def decided (opid : BitVec 16) (close : BitVec 2) (s : State) : Option (Coll × Bool) :=
  match s.coll opid with
  | some c => match c.phase, c.flag with
    | .flagged, some f => if s.isReady && c.req.close == close then some (c, f.value) else none
    | _, _ => none
  | none => none

def gradDone (opid : BitVec 16) (s : State) : State :=
  match decided opid 1 s with
  | none => s
  | some (c, v) =>
    match gradDecision c.req.step v s with
    | (s, false) => failColl c 2 true s
    | (s, true) => applyAllHeld (s.modColl opid fun c => { c with flag := none })

/-- A commit waits for the digest of the step before it (R287). A checkpoint reads the shards as its command is accepted, so
no commit falls between (R463). -/
def commitWaits (s : State) : Bool := s.ckp.digesting.isSome

def Coll.claim (c : Coll) : Option (Nat × Nat) := c.slot.map fun k => (c.req.bset.toNat, k)

/-- The update-closing all-gathers of one step, which commit or skip together (R295). DEDUCED, log entry 93. -/
def updateGroup (st : BitVec 48) (s : State) : List Coll := s.col.opens.filter fun c => c.req.close == 2 && c.req.step == st

/-- An all-gather of a step of which another set has failed without a decision is aborted; it takes the failure's place
in the order of acceptance. DEDUCED, log entry 93. -/
def abortSet (s : State) (x : Coll) : State :=
  let upto := (s.col.failedSets.find? fun e => e.step == x.req.step).elim 0 (·.upto)
  setFailed x upto (endColl x 4 false s)

/-- The decision of step s falls when every open update-closing all-gather of the step has ended its flag phase, on the
OR of their flags; it holds for all of their sets. Where the all-gather of a set has failed, those accepted before that
end as aborted, and later ones wait for the set's next one (R375). DEDUCED, log entry 93. -/
def updateDone (opid : BitVec 16) (s : State) : State :=
  match decided opid 2 s with
  | none => s
  | some (c, _) =>
    let st := c.req.step
    let g := updateGroup st s
    let failed := s.col.failedSets.filter fun e => e.step == st
    let old := g.filter fun x => failed.any fun e => decide (x.order < e.upto)
    if !g.all (fun x => x.phase == .flagged && x.flag.isSome) then s
    else if !old.isEmpty then old.foldl abortSet s
    else if !failed.isEmpty then s
    else
      let v := g.any fun x => (x.flag.map (·.value)).getD false
      let slots := g.filterMap Coll.claim
      if !v && commitWaits s then s
      else
        let claims := fun (s : State) => (s, some slots)
        match (if v then skipPass st claims s else commitPass st claims s) with
        | (s, false) => g.foldl (fun s x => endColl x 2 false s) s
        | (s, true) => applyAllHeld (g.foldl (fun s x => s.modColl x.req.opid fun c => { c with flag := none }) s)

/-- A module that resumes with OUTCOME DECIDED_COMMIT runs the commit pass again (R271), with the slots that the claims of its
step have left FILLING. DEDUCED, log entry 55. -/
def commitResume (s : State) : State :=
  if !s.isReady || closingOpen s || commitWaits s then s
  else match stepRec s with
    | (s, none) => s
    | (s, some l) =>
      if recOutcome l ≠ outDecided then s
      else match commitPass (recStep l) filling s with
        | (s, true) => applyAllHeld s
        | (s, false) => commitStopped 0 (recStep l) s

/-! ## Completion -/

def completeColl (opid : BitVec 16) (s : State) : State :=
  match s.coll opid with
  | none => s
  | some c =>
    let ok := if c.req.close = 0 then dataDone c else c.phase == .flagged && c.flag.isNone && c.sent.isEmpty
    if s.isReady && ok then endColl c 0 false s else s

def execCollectiveComplete (opid : BitVec 16) (s : State) : Out := .next (applyAllHeld (completeColl opid s))

/-! ## Answers (R339, R372, R375) -/

/-- The open collective and packet that an answer names: an answer carries the TAG alone, and two OPIDs may have packets of one
serial unanswered; the oldest collective that waits for this module has it. DEDUCED, log entry 52. -/
def findSent (p : Packet) (s : State) : Option (Coll × CollSent) :=
  s.col.opens.findSome? fun c => (c.sent.find? fun x => x.tag == p.tag && x.want.any fun n => answersFor s n p.src).map fun x => (c, x)

def collWack (p : Packet) (s : State) : State :=
  if !(s.isReady && p.typ == 2 && isFor s p) then s
  else match findSent p s with
    | none => s
    | some (c, x) =>
      let want := x.want.filter fun n => !answersFor s n p.src
      let left := if want.isEmpty then c.sent.filter (fun y => y.tag != x.tag)
        else c.sent.map fun y => if y.tag == x.tag then { y with want := want } else y
      s.setColl { c with sent := left }

def execCollWackReceive (p : Packet) (s : State) : Out := .next (collWack p (takeLocal p s))

def collWnak (p : Packet) (s : State) : State :=
  if !(s.isReady && p.typ == 3 && isFor s p) then s
  else match findSent p s with
    | none => s
    | some (c, _) => failColl c 4 true s

def execCollWnak (p : Packet) (s : State) : Out := .next (applyAllHeld (collWnak p (takeLocal p s)))

def collResend (opid : BitVec 16) (tag : Word32) (s : State) : State :=
  match s.coll opid with
  | none => s
  | some c =>
    match c.sent.find? fun x => x.tag == tag with
    | none => s
    | some x =>
      if !s.isReady || decide (beatsSince s.collBeat x.sentAt < (s.cfgReg 0x02008C).toNat) then s
      else if (s.cfgReg 0x020090).toNat ≤ x.resends then failColl c 1 true s
      else
        let sent := c.sent.map fun y => if y.tag == tag then { y with resends := y.resends + 1, sentAt := s.collBeat } else y
        inject x.pkt (s.setColl { c with sent := sent })

def execCollResendTimeout (opid : BitVec 16) (tag : Word32) (s : State) : Out := .next (applyAllHeld (collResend opid tag s))

/-- ABORT (R374): it is not answered. -/
def abortIn (p : Packet) (s : State) : State :=
  if !collFor s 7 p then s
  else match s.coll (collHdr p).opid with
    | none => s
    | some c => failColl c 4 false s

def execCollAbort (p : Packet) (s : State) : Out := .next (applyAllHeld (abortIn p (takeLocal p s)))

/-! ## The rind at the buddy (R380, R382) -/

/-- The rind header with step st being filled from its start. -/
def rindFirst (st : BitVec 48) (h : List Word64) : List Word64 :=
  h.set 1 (setFld (setFld (setFld (lineW h 1) 63 16 st.toNat) 1 1 0) 0 0 1)

def rindWrite (c : Coll) (h : CollHdr) (p : Packet) (hd : List Word64) (s : State) : State :=
  let st := c.req.step
  let half := (rindSize s - 64) / 2
  let off := 256 * h.eoff
  let set := 1 - fld (lineW hd 0) 0 0
  let ok := fun (s : State) => collAnswer p (s.modColl h.opid (·.note p))
  if half < off + p.payload.length then
    ok (ctlWrite (rindBase s) (hd.set 1 (setFld (lineW hd 1) 1 1 1)) st s)
  else match engWrite (rindBase s + 64 + set * half + off) p.payload c.version s with
    | (s, some .refused) => failColl c 4 true s
    | (s, some .poison) => failColl c 2 true s
    | (s, none) =>
      let rind := s.col.rind.map fun r => { r with bytes := BitVec.ofNat 48 (off + p.payload.length) }
      ok (if h.fin then { s with col := { s.col with rind := rind } } else s)

def rindIn (p : Packet) (s : State) : State :=
  if !collFor s 6 p then s
  else if !(s.cfgReg 0x030004).getLsbD 30 then answerWrite p (some 2) s
  else
    let h := collHdr p
    match s.coll h.opid with
    | none => if s.col.aborted.contains h.opid then collAnswer p s else s
    | some c =>
      if c.req.close ≠ 2 then s
      else if c.seen p then collAnswer p s
      else match ctlLine (rindBase s) s with
        | (s, none) => failColl c 2 true s
        | (s, some hd) =>
          let st := c.req.step
          if st.toNat < fld (lineW hd 1) 63 16 then collAnswer p (s.modColl h.opid (·.note p))
          else if s.col.rind.isSome then rindWrite c h p hd s
          else
            let hd := rindFirst st hd
            rindWrite c h p hd (ctlWrite (rindBase s) hd st { s with col := { s.col with rind := some ⟨st, 0, p.src⟩ } })

def execCollRind (p : Packet) (s : State) : Out := .next (rindIn p (takeLocal p s))

end Sys2Proof.Machine
end

