-- ==== Sys2Proof/Machine/HostTypes.lean ====
section
/-! DEFINITION. Opcodes, their marks and lengths (Table 11.4), status codes (Table 11.11), and the outcomes of a host
command's own conditions and effect. -/
namespace Sys2Proof.Machine

/-- Table 11.11. -/
inductive Status where
  | ok | badRev | lenTooLong | lenMismatch | tagBusy | busyQueue | nodeMismatch | badOpcode | faultState | recoveryState
  | lenInvalid | fieldInvalid | formatInvalid | countRange | chainOrder | beatUnsupported | beatPassed | beatRange
  | launchConflict | addrRange | dataPoison | busyUnit | unitFaulted | noSpare | busySeed | sliceInvalid | busyFabric
  | routeInvalid | busyEpoch | bankInvalid | heddleField | heddleExists | heddleFull | heddleOverlap | portIsDown
  | standinInvalid | stepOrder | collField | collRange | opidExists | busyColl | hxField | hxOrder | hxPaused | hxNotReady
  | busyHx | busyRefill | unverified | storeDown | ckpOrder | busyPress | noPress | pressUnknown | sigInvalid | fwOrder
  deriving DecidableEq, Repr

def Status.code : Status → BitVec 8
  | .ok => 0x00 | .badRev => 0x01 | .lenTooLong => 0x02 | .lenMismatch => 0x03 | .tagBusy => 0x04 | .busyQueue => 0x05
  | .nodeMismatch => 0x06 | .badOpcode => 0x07 | .faultState => 0x08 | .recoveryState => 0x09 | .lenInvalid => 0x0A
  | .fieldInvalid => 0x0B | .formatInvalid => 0x0C | .countRange => 0x0D | .chainOrder => 0x0E | .beatUnsupported => 0x0F
  | .beatPassed => 0x10 | .beatRange => 0x11 | .launchConflict => 0x12 | .addrRange => 0x18 | .dataPoison => 0x19
  | .busyUnit => 0x1A | .unitFaulted => 0x1B | .noSpare => 0x1C | .busySeed => 0x1D | .sliceInvalid => 0x20
  | .busyFabric => 0x21 | .routeInvalid => 0x22 | .busyEpoch => 0x23 | .bankInvalid => 0x24 | .heddleField => 0x25
  | .heddleExists => 0x26 | .heddleFull => 0x27 | .heddleOverlap => 0x28 | .portIsDown => 0x29 | .standinInvalid => 0x2A
  | .stepOrder => 0x30 | .collField => 0x31 | .collRange => 0x32 | .opidExists => 0x33 | .busyColl => 0x34
  | .hxField => 0x38 | .hxOrder => 0x39 | .hxPaused => 0x3A | .hxNotReady => 0x3B | .busyHx => 0x3C | .busyRefill => 0x40
  | .unverified => 0x41 | .storeDown => 0x42 | .ckpOrder => 0x43 | .busyPress => 0x44 | .noPress => 0x45
  | .pressUnknown => 0x46 | .sigInvalid => 0x48 | .fwOrder => 0x49

/-- What a command's own conditions and effect come to: completed with a payload and DETAIL; refused, with nothing
executed; poisoned data returned (R494); accepted, to be answered once armed (R37); or stopped by the model. -/
inductive HRes where
  | done (s : State) (payload : List Byte) (detail : Nat)
  | refuse (st : Status) (detail : Nat)
  | poison (s : State) (payload : List Byte) (detail : Nat)
  | later (s : State)
  | stop (f : Fault)

/-- Completed with an empty payload. -/
def HRes.ok (s : State) : HRes := .done s [] 0

/-- Refuse where a condition holds; else go on. -/
def HRes.orElse (c : Bool) (st : Status) (r : HRes) : HRes := if c then .refuse st 0 else r

/-! ## Table 11.4 -/

def cmdCode : HostOp → BitVec 16
  | .ping => 0x01 | .regRead _ => 0x02 | .regWrite _ => 0x03 | .snapshot => 0x04 | .memRead _ _ => 0x05
  | .memWrite _ _ _ _ => 0x06 | .evtRead _ _ => 0x07 | .jnlRead _ => 0x08 | .loadProgram _ => 0x10 | .launch _ => 0x11
  | .halt _ => 0x12 | .unitRetire _ _ => 0x13 | .setRouteWrite _ => 0x20 | .setRouteSwitch _ => 0x20
  | .setHeddleInstall _ => 0x21 | .setHeddleRemove _ => 0x21 | .cmapRead => 0x22 | .collective _ _ => 0x30
  | .collReserved _ _ _ _ => 0x30
  | .stepResolve _ _ => 0x31 | .digest _ => 0x32 | .checkpoint _ _ => 0x40 | .restore _ => 0x41 | .refill _ _ _ _ => 0x42
  | .evacuate _ => 0x43 | .pressAcquire _ _ _ => 0x48 | .pressRelease _ => 0x49 | .hxGeneral _ => 0x50
  | .hxShards _ _ => 0x50 | .hxPeers _ => 0x50 | .hxMember _ => 0x50 | .hxCommit => 0x50 | .hxOuter _ _ => 0x51
  | .hxApply _ _ _ => 0x52 | .hxFetch _ => 0x53 | .hxResume _ => 0x54 | .hxRekey => 0x55 | .ripRead _ _ => 0x60
  | .attest _ => 0x68 | .fwStage _ => 0x69 | .fwCommit _ _ _ => 0x6A | .fwRecover _ => 0x6B

/-- Marks of an opcode. -/
def markJ (c : BitVec 16) : Bool :=
  [0x03, 0x10, 0x13, 0x20, 0x21, 0x31, 0x41, 0x42, 0x43, 0x48, 0x49, 0x50, 0x53, 0x54, 0x55, 0x69, 0x6A].contains c.toNat
def markL (c : BitVec 16) : Bool := [0x04, 0x11, 0x30].contains c.toNat
def markF (c : BitVec 16) : Bool := [0x01, 0x02, 0x04, 0x05, 0x07, 0x08, 0x22, 0x60, 0x68].contains c.toNat
def markR (c : BitVec 16) : Bool := [0x01, 0x02, 0x07, 0x08, 0x68, 0x6B].contains c.toNat

/-- Payload bytes of a request, as its fields imply them. -/
def cmdLen : HostOp → Nat
  | .ping => 0 | .regRead l => 4 * l.length | .regWrite l => 8 * l.length | .snapshot => 0 | .memRead _ _ => 16
  | .memWrite _ _ _ d => 16 + d.length | .evtRead _ _ => 8 | .jnlRead _ => 4 | .loadProgram p => 48 + 16 * p.words.length
  | .launch _ => 112 | .halt _ => 40 | .unitRetire _ _ => 4 | .setRouteWrite p => 136 + 8 * p.redirects.length
  | .setRouteSwitch _ => 4 | .setHeddleInstall _ => 24 | .setHeddleRemove _ => 24 | .cmapRead => 0
  | .collective _ p => match p.counts with
    | none => 64
    | some l => 64 + 5 * l.length
  | .collReserved n _ _ _ => n
  | .stepResolve _ _ => 8 | .digest _ => 8 | .checkpoint _ _ => 8 | .restore _ => 4
  | .refill _ _ _ sets => 8 + 8 * sets.length | .evacuate _ => 4 | .pressAcquire _ _ _ => 8 | .pressRelease _ => 4
  | .hxGeneral _ => 48 | .hxShards _ l => 8 + 8 * l.length | .hxPeers l => 8 + 168 * l.length | .hxMember _ => 16
  | .hxCommit => 8 | .hxOuter _ _ => 8 | .hxApply _ _ _ => 16 | .hxFetch _ => 4 | .hxResume _ => 4 | .hxRekey => 0
  | .ripRead _ _ => 4 | .attest _ => 32 | .fwStage p => 16 + p.bytes.length | .fwCommit _ _ _ => 8
  | .fwRecover p => 16 + p.bytes.length

/-- A LEN that R499 lets a COLLECTIVE have: 64 + 5 m. One with the wrong m is refused later, with COLL_FIELD. -/
def collLen (n : Nat) : Bool := decide (64 ≤ n) && (n - 64) % 5 == 0

/-- Check 12: a LEN that no count implies; every opcode but those of LEN 0 refuses LEN = 0 (R485). -/
def badLen (h : Hdr) (op : HostOp) : Bool :=
  (match op with
  | .collective _ p => if p.counts.isNone then !collLen h.len.toNat else h.len.toNat != cmdLen op
  | _ => h.len.toNat != cmdLen op) ||
  match op with
  | .regRead l => l.isEmpty
  | .regWrite l => l.isEmpty
  | _ => false

/-- Check 13: a reserved value in a defined field, with the byte offset of the field in the payload.
DEDUCED, log entry 56. -/
def badField (op : HostOp) : Option Nat :=
  let bad := fun (b : Bool) (off : Nat) => if b then some off else none
  match op with
  | .evtRead net _ => bad (decide (1 < net.toNat)) 0
  | .loadProgram p => bad (p.umask == 0) 0
  | .launch p => bad (p.umask == 0) 0
  | .halt m => bad (m == 0) 0
  | .unitRetire d u => if 1 < d.toNat then some 0 else bad (decide (159 < u.toNat)) 1
  | .stepResolve _ a => bad (a == 0 || decide (4 < a.toNat)) 6
  | .checkpoint _ id => bad (id == 0) 6
  | .restore id => bad (id == 0) 0
  | .refill _ rid _ _ => bad (rid == 0) 4
  | .pressAcquire a _ d =>
    if a == 0 || decide (8 < a.toNat) then some 0 else bad (d == 0 || decide (86400 < d.toNat)) 4
  | .hxGeneral p => bad (decide (256 < p.nshard.toNat)) 10
  | .hxFetch i => bad (decide (63 < i.toNat)) 0
  | .hxResume c => bad (decide (6 < c.toNat)) 0
  | .fwCommit i _ _ => bad (i == 0 || decide (2 < i.toNat)) 0
  | _ => none

/-- Format codes that a command names: 0xF, or one outside Table 2.1. -/
def badFormat (op : HostOp) : Bool :=
  match op with
  | .collective _ p => [p.sfmt, p.wfmt, p.dfmt].any fun f => f == 15
  | .collReserved _ a b c => [a, b, c].any fun f => f == 15
  | _ => false

/-- Check 14: a count outside its range in Table 11.4. DEDUCED, log entry 56. -/
def badCount (op : HostOp) : Bool :=
  match op with
  | .regRead l => decide (256 < l.length)
  | .regWrite l => decide (256 < l.length)
  | .memRead _ c => c == 0 || decide (8176 < c.toNat)
  | .memWrite _ _ _ d => d.isEmpty || decide (8176 < d.length)
  | .loadProgram p => p.words.isEmpty || decide (509 < p.words.length) || decide (4096 < p.first.toNat % 4096 + p.words.length)
  | .setRouteWrite p => decide (4 < p.redirects.length)
  | .refill _ _ _ sets => decide (64 < sets.length)
  | .hxShards f l => l.isEmpty || decide (256 < f.toNat + l.length)
  | .hxPeers l => l.isEmpty || decide (48 < l.length)
  | .fwStage p => decide (p.total.toNat < 29921) || decide (33554432 < p.total.toNat)
  | .fwRecover p => decide (p.total.toNat < 29921) || decide (33554432 < p.total.toNat)
  | .ripRead _ n => n == 0 || decide (204 < n.toNat)
  | _ => false

/-! ## Masks (R496) -/

/-- Units that a unit mask names, in mask order. -/
def maskUnits (m : BitVec 320) : List UnitId := allUnits.filter fun u => m.getLsbD (160 * u.die.val + u.num.val)

/-- Something happens at a launch beat N that R35 and R36 allow. -/
def beatPassed (s : State) (n : Beat) : Bool := decide ((n - s.beat).toInt < 16)
def beatFar (s : State) (n : Beat) : Bool := decide (2 ^ 32 ≤ (n - s.beat).toNat)

end Sys2Proof.Machine
end

