-- ==== Sys2Proof/Machine/Reply.lean ====
section
/-! DEFINITION. Responses and their cache (R483, R491), chains (R490), the change journal (R493), and the answers of SNAPSHOT
(R33, R515). -/
namespace Sys2Proof.Machine

/-! ## Headers and responses -/

/-- Fields that Table 11.2 gives to later revisions alone are ignored in an earlier one (R482). -/
def revHdr (h : Hdr) : Hdr :=
  let h := if h.rev = 1 then { h with hostid := 0, chain := 0, nchk := false, cfirst := false, clast := false, node := 0 } else h
  if h.rev = 3 then h else { h with lbv := false, lbeat := 0 }

/-- The source of a request (R486). -/
def sourceOf (h : Hdr) : Source := if h.hostid = 0 then .addr h.srcAddr h.srcUdp else .host h.hostid

def lowestPort (s : State) (n : Nat) : Option (Fin 8) := (List.finRange 8).find? fun p => p.val / 4 == n && s.ethUp p.val

/-- The port that a response leaves from (R483). -/
def respPort (p : Fin 8) (s : State) : Option (Fin 8) := if s.ethUp p.val then some p else lowestPort s (p.val / 4)

/-- A response, before it has its VLAN tag: it fills only the fields of its revision. DEDUCED, log entry 60. -/
def respOf (h : Hdr) (code : BitVec 16) (fromUdp : BitVec 16) (st : Status) (detail : Nat) (payload : List Byte) (beat : Beat) : Resp :=
  { port := h.port, vid := 0, srcAddr := h.net.dst, fromUdp := fromUdp, dstAddr := h.srcAddr, dstUdp := h.srcUdp, rev := h.rev, status := st.code, opcode := code,
    tag := h.tag, seq := h.seq, hostid := h.hostid, chain := h.chain,
    detail := if h.rev = 1 then 0 else BitVec.ofNat 32 detail, rbeat := if h.rev = 3 then beat else 0, payload := payload }

/-- Send a response; one that is sent is kept in the cache where `keep` says so. DESIGN CHOICE, log entry 43.
DEDUCED, log entry 60. -/
def sendResp (src : Source) (r : Resp) (keep : Bool) (s : State) : State :=
  match respPort r.port s with
  | none => s
  | some p =>
    let r := { r with port := p, vid := s.vid }
    let s := s.emit (.resp r)
    if keep then { s with host := { s.host with cache := (CacheEntry.mk src r.tag r.seq r :: s.host.cache).take 1024 } } else s

/-! ## Chains -/

def findChain (s : State) (src : Source) (id : BitVec 16) : Option CmdChain :=
  s.host.chains.find? fun c => c.id == id && decide (c.src = src)

def setChain (c : CmdChain) (s : State) : State :=
  { s with host := { s.host with chains := s.host.chains.map fun x => if x.id == c.id && decide (x.src = c.src) then c else x } }

def dropChain (src : Source) (id : BitVec 16) (s : State) : State :=
  { s with host := { s.host with chains := s.host.chains.filter fun c => !(c.id == id && decide (c.src = src)) } }

/-- What is still under way of a chain that closes no longer belongs to one: its outstanding command, a staging that it has not
brought whole (R546). -/
def cutChain (src : Source) (id : BitVec 16) (s : State) : State :=
  { s with
    host := { s.host with outstanding := s.host.outstanding.map fun o =>
      if o.hdr.chain == id && decide (sourceOf o.hdr = src) then { o with cut := true } else o }
    sec := { s.sec with staging := s.sec.staging.map fun g => if !g.whole && g.chain == id && decide (g.src = src) then { g with cut := true } else g } }

/-- Close a chain: its held commands are answered with CHAIN_ORDER. DEDUCED, log entry 61. -/
def closeChain (src : Source) (id : BitVec 16) (s : State) : State :=
  match findChain s src id with
  | none => s
  | some c => c.held.foldl (fun s x =>
      sendResp src (respOf x.1 (cmdCode x.2.1) s.cmdUdp .chainOrder 0 [] s.beat) true s) (cutChain src id (dropChain src id s))

/-- A refusal: answered, and the chain of the command closes. -/
def refuseCmd (h : Hdr) (code : BitVec 16) (st : Status) (detail : Nat) (keep : Bool) (s : State) : State :=
  let src := sourceOf h
  let s := sendResp src (respOf h code s.cmdUdp st detail [] s.beat) keep s
  if h.chain = 0 then s else closeChain src h.chain s

/-- A command has completed: the chain goes on, or closes on CLAST. DEDUCED, log entry 61. -/
def chainDone (h : Hdr) (s : State) : State :=
  if h.chain = 0 then s
  else if h.clast then closeChain (sourceOf h) h.chain s
  else match findChain s (sourceOf h) h.chain with
    | some c => setChain { c with busy := false } s
    | none => s

/-- A change-journal entry (R493). -/
def journal (h : Hdr) (code : BitVec 16) (s : State) : State :=
  if !markJ code then s
  else
    let e : JEntry := ⟨s.beat, h.port, h.rev, code, h.hostid, h.seq, h.srcAddr⟩
    { s with host := { s.host with journal := (e :: s.host.journal).take 4096, jnlHead := s.host.jnlHead + 1 } }

/-- The answer to a completed command, with its journal entry; `udp` is the command port before the command. -/
def answerCmd (h : Hdr) (op : HostOp) (udp : BitVec 16) (payload : List Byte) (detail : Nat) (s : State) : State :=
  let code := cmdCode op
  let s := journal h code s
  sendResp (sourceOf h) (respOf h code udp .ok detail payload s.beat) true s

/-- Completion with status OK. -/
def completeCmd (h : Hdr) (op : HostOp) (udp : BitVec 16) (payload : List Byte) (detail : Nat) (s : State) : State :=
  chainDone h (answerCmd h op udp payload detail s)

/-- Completion of a command that was kept as outstanding: it moves its chain, unless that has closed since.
DEDUCED, log entry 61. -/
def completeKept (o : Outstanding) (payload : List Byte) (s : State) : State :=
  let t := answerCmd o.hdr o.op s.cmdUdp payload 0 s
  if o.cut then t else chainDone o.hdr t

/-! ## SNAPSHOT (R33, R515) -/

/-- Every counter into its holding copy (R515). -/
def takeSnapshot (s : State) : State := { s with snap := { s.snap with beat := s.beat, seq := s.snap.seq + 1, copies := s.counters } }

/-- Payload of SNAPSHOT: the beat of the copy. -/
def snapBytes (b : Beat) : List Byte := beBytes 6 b.toNat ++ [0, 0]

/-- A SNAPSHOT without a launch beat that waits for its copy. -/
def snapWaits (o : Outstanding) : Bool := decide (o.op = .snapshot) && !o.hdr.lbv

/-- The SNAPSHOTs that wait for a copy take it and are answered. -/
def answerSnaps (s : State) : State :=
  let waiting := s.host.outstanding.filter snapWaits
  let s := { s with host := { s.host with outstanding := s.host.outstanding.filter fun o => !snapWaits o } }
  waiting.foldl (fun s o => let s := takeSnapshot s; completeKept o (snapBytes s.snap.beat) s) s

end Sys2Proof.Machine
end

