-- ==== Sys2Proof/Machine/Matrix.lean ====
section
/-! DEFINITION. The matrix class (03; Table 4.6): issue checks, queues, summation in fast and canonical order, accumulator
tiles, and ACOMBINE's shared merge. -/
namespace Sys2Proof.Machine

/-! ## Fields -/

def mxGroup (w : InstrWord) : Nat := fld w 114 112
def mxDir (w : InstrWord) : Nat := fld w 111 110
def mxFmtS (w : InstrWord) : Nat := fld w 109 106
def mxFmtA (w : InstrWord) : Nat := fld w 105 102
def mxFmtC (w : InstrWord) : Nat := fld w 101 98
def mxK (w : InstrWord) : Nat := 16 * (fld w 97 90 + 1)
def mxDst (w : InstrWord) : Nat := fld w 89 85
def mxSet (w : InstrWord) : Bool := bitOf w 84
def mxCanon (w : InstrWord) : Bool := bitOf w 83
def mxStart (w : InstrWord) : Bool := bitOf w 82
def mxEnd (w : InstrWord) : Bool := bitOf w 81
def mxStk (w : InstrWord) : Nat := fld w 80 76
def mxDepth (w : InstrWord) : Nat := fld w 75 73 + 1
def mxSBase (w : InstrWord) : Nat := 32 * fld w 62 47
def mxPitch (w : InstrWord) : Nat := 32 * fld w 46 37
def mxABase (w : InstrWord) : Nat := 32 * fld w 36 21

/-- Rows M of the output tile, which is also the edge E (Table 3.1). -/
def groupEdge (g : Nat) : Nat := if g = 6 then 128 else 64
/-- Columns N of the output tile. -/
def groupCols (g : Nat) : Nat := if g < 4 then 64 else 128
/-- Arrays of a group. -/
def groupArrays (g : Nat) : List Nat :=
  match g with
  | 0 => [0] | 1 => [1] | 2 => [2] | 3 => [3] | 4 => [0, 1] | 5 => [2, 3] | _ => [0, 1, 2, 3]

def sharesArray (g h : Nat) : Bool := (groupArrays g).any (groupArrays h).contains

/-- Both operands are block-scaled: two elements to a cell row (R88). -/
def mxPaired (w : InstrWord) : Bool := fmtBlock (mxFmtS w) && fmtBlock (mxFmtA w)
def mxRowCount (w : InstrWord) : Nat := if mxPaired w then mxK w / 2 else mxK w

/-- Cycles c_row of a cell row (R90). -/
def mxRowCycles (w : InstrWord) : Nat := if mxFmtS w = 2 ∨ mxFmtS w = 3 then 2 else 1

/-- Rows of the chunks in order (R89). -/
def chunkRows (e rows : Nat) : List Nat :=
  List.replicate (rows / e) e ++ [64, 32, 16].filter fun r => r < e && (rows % e) / r % 2 == 1

/-! ## Accumulator values: F32 and I32 in the low word, F32K in 64 bits -/

def accBytes (fmt : Nat) : Nat := if fmt = 1 then 8 else 4

def accAdd (fmt : Nat) (a b : Word64) : Word64 :=
  match fmt with
  | 1 => ((F32K.ofWord a).add (F32K.ofWord b)).toWord
  | 9 => ((a.extractLsb' 0 32 + b.extractLsb' 0 32)).zeroExtend 64
  | _ => (f32Add (a.extractLsb' 0 32) (b.extractLsb' 0 32)).zeroExtend 64

/-- An infinity or a NaN in an accumulator (R77). -/
def accNf (fmt : Nat) (a : Word64) : Bool := fmt != 9 && f32Special (a.extractLsb' 0 32)

def accInt (a : Word64) : Int := (a.extractLsb' 0 32).toInt

/-- One more product enters a sum (R111). -/
def accStep (fmt : Nat) (a : Word64) (p : Val) : Word64 :=
  if fmt = 1 then ((F32K.ofWord a).addVal p).toWord
  else (toF32 ((f32 (a.extractLsb' 0 32)).add p)).zeroExtend 64

/-- A sum that starts from its first product (R112, R117). -/
def accFirst (p : Val) : Word64 := (toF32 p).zeroExtend 64

def chainSum (fmt : Nat) : List Val → Word64
  | [] => 0
  | p :: t => t.foldl (accStep fmt) (accFirst p)

/-- One level of the tree of R118: neighbours are added, an odd last one stands. -/
def pairUp (fmt : Nat) : List Word64 → List Word64
  | a :: b :: t => accAdd fmt a b :: pairUp fmt t
  | l => l

def treeSum (fmt : Nat) : Nat → List Word64 → Word64
  | 0, l => l.headD 0
  | n + 1, l => if l.length ≤ 1 then l.headD 0 else treeSum fmt n (pairUp fmt l)

def groupsOf {α : Type} (n : Nat) : Nat → List α → List (List α)
  | 0, _ => []
  | k + 1, l => if l.isEmpty then [] else l.take n :: groupsOf n k (l.drop n)

/-! ## The binary counter of R122 -/

/-- Merge a subtree of n leaves into the stack of leaf counts (top first): how many entries it takes, and the leaves of the
result. With the end flag it takes all. -/
def mergeCount (last : Bool) : Nat → List Nat → Nat × Nat
  | n, [] => (0, n)
  | n, c :: t => if last || c == n then (let r := mergeCount last (n + c) t; (r.1 + 1, r.2)) else (0, n)

def isPow2 (n : Nat) : Bool := n != 0 && n == 2 ^ Nat.log2 n

/-- What a canonical instruction makes of the reduction open on its destination: an error, or the reduction after it and
the number of stack entries merged. -/
inductive CanonStep where
  | err (cause : Nat)
  | ok (after : Option Canon) (before : List Nat) (taken : Nat)

/-- Leaves of 256 reduction elements (R117). -/
def leavesOf (k : Nat) : Nat := (k + 255) / 256

/-- A destination is its slot index. An instruction with another tile size does not continue the reduction: CANON_ALIGN, as
for another format (R125). A start flag at another index is accepted, wherever its tile lies. DEDUCED, log entry 11. -/
def canonStep (w : InstrWord) (cur : Option Canon) : CanonStep :=
  let ns := tileSlots (mxGroup w) (mxFmtC w)
  let n := leavesOf (mxK w)
  let whole := mxK w % 256 == 0 && isPow2 n
  let go := fun (c : Canon) =>
    if !mxEnd w && !(whole && c.leaves % n == 0) then CanonStep.err 0x14
    else if 65536 < c.leaves + n then .err 0x15
    else
      let (taken, m) := mergeCount (mxEnd w) n c.stack
      if mxEnd w then .ok none c.stack taken
      else if c.depth < c.stack.length - taken + 1 then .err 0x15
      else .ok (some { c with leaves := c.leaves + n, stack := m :: c.stack.drop taken }) c.stack taken
  if mxStart w then
    match cur with
    | some _ => .err 0x14
    | none => go ⟨mxDst w, ns, mxFmtC w, mxStk w, mxDepth w, 0, [], false⟩
  else match cur with
    | none => .err 0x14
    | some c => if c.fmtc.toNat ≠ mxFmtC w ∨ c.slots ≠ ns then .err 0x14 else go c

/-- DEDUCED, log entry 11. -/
def UnitState.openCanon (x : UnitState) (dst : Nat) : Option Canon := x.canons.find? fun c => c.dst == dst && !c.closing

/-- The reduction on a destination as it will be when the queued instructions have run. -/
def UnitState.expectCanon (x : UnitState) (dst : Nat) : Option Canon :=
  (x.mxQueue.filter fun o => mxDst o.word == dst && mxCanon o.word).foldl (fun c o =>
    match canonStep o.word c with
    | .err _ => c
    | .ok c' _ _ => c') (x.openCanon dst)

/-! ## Issue (R78, R103, R104, R125, R145, R146) -/

/-- Spans of scratch that an instruction reads: (unit-local address, bytes). A line that wraps reads its 256-byte row in
two parts (R238). -/
def lineSpans (base n len : Nat) : List (Nat × Nat) :=
  let a := base + 256 * n
  let o := a % 256
  if o + len ≤ 256 then [(a, len)] else [(a, 256 - o), (a - o, len - (256 - o))]

def mxSpans (w : InstrWord) (scale : Word64) : List (Nat × Nat) :=
  let g := mxGroup w
  let e := groupEdge g
  let n := groupCols g
  let lines := mxRowCount w + e - 1
  let img := fun (base len : Nat) => (List.range lines).flatMap fun i => lineSpans base i len
  if mxDir w = 2 then
    img (mxABase w) (e * fmtBits (mxFmtA w) / 8) ++ img (mxSBase w) (n * fmtBits (mxFmtS w) / 8)
  else
    let rows := if mxDir w = 0 then mxK w else n
    let cols := if mxDir w = 0 then n else mxK w
    let lane := fmtBits (mxFmtA w) * (if mxPaired w then 2 else 1)
    ((List.range rows).map fun i => (mxSBase w + i * mxPitch w, cols * fmtBits (mxFmtS w) / 8)) ++
    (if fmtBlock (mxFmtS w) then
      (List.range (mxK w / 32)).map fun b => (scale.toNat % 2 ^ 32 + 256 * b, n)
    else []) ++
    img (mxABase w) (e * lane / 8) ++
    (if fmtBlock (mxFmtA w) then img (scale.toNat / 2 ^ 32) (e / 16) else [])

/-- Faults found at issue, in order; 0 for none. DEDUCED, log entry 9. -/
def mxCheck (x : UnitState) (w : InstrWord) : Nat :=
  let g := mxGroup w
  let ns := tileSlots g (mxFmtC w)
  let blk := fmtBlock (mxFmtS w) || fmtBlock (mxFmtA w)
  let dst := (List.range ns).map (mxDst w + ·)
  let stk := (List.range (mxDepth w * ns)).map (mxStk w + ·)
  let needStk := mxCanon w && !(mxStart w && mxEnd w)
  if mxCanon w != x.canon then 0x17
  else if !pairOk (mxFmtS w) (mxFmtA w) (mxFmtC w) || (mxDir w == 2 && blk) then 0x10
  else if (blk && mxK w % 32 != 0) || (mxDir w != 2 && mxPitch w == 0) then 0x11
  else if mxDst w % ns != 0 || (needStk && (mxStk w % ns != 0 || decide (32 < mxStk w + mxDepth w * ns) || stk.any dst.contains)) then
    0x12
  else
    let c := if mxCanon w then
        match canonStep w (x.expectCanon (mxDst w)) with
        | .err c => c
        | .ok .. => 0
      else 0
    if c ≠ 0 then c
    else if (mxSpans w (x.gpGet (fld w 67 63))).any fun (a, n) => decide (0x180000 < a + n) then 0x04
    else 0

/-- The instruction joins its group's queue when no earlier one is queued on any of its arrays (R86). -/
def canJoin (x : UnitState) (w : InstrWord) : Bool := !x.mxQueue.any fun o => sharesArray (mxGroup o.word) (mxGroup w)

def mxOpOf (x : UnitState) (w : InstrWord) : MxOp := ⟨x.pc, w, x.gpGet (fld w 67 63), x.whGet (fld w 70 68)⟩

def mxBody (u : UnitId) (w : InstrWord) (s : State) : Done :=
  let x := s.unit u
  let c := mxCheck x w
  if c ≠ 0 then .fault s c
  else if canJoin x w then .ok (s.setUnit u { x with mxQueue := x.mxQueue ++ [mxOpOf x w] })
  else .stay (s.setUnit u { x with wait := .mx (mxOpOf x w) })

def execMx (u : UnitId) (s : State) : Out := .next (issueRow 1 0x01 u (mxBody u) s)

/-- The instruction that waits at issue joins its queue, taking its whey register now (R86, R181). -/
def mxJoin (u : UnitId) (s : State) : State :=
  let x := s.unit u
  match x.wait with
  | .mx o =>
    if s.isReady && x.status == .running && canJoin x o.word then
      advance u (s.setUnit u { x with mxQueue := x.mxQueue ++ [mxOpOf x o.word] })
    else s
  | _ => s

def execMxQueueJoin (u : UnitId) (s : State) : Out := .next (mxJoin u s)

/-! ## Operands (R91 to R98, R238 to R240) -/

/-- An element of w bits at a bit offset of a row or of a line's bytes. -/
def bitsAt (bs : List Byte) (w bit : Nat) : Nat :=
  let nb := (bit % 8 + w + 7) / 8
  leNat ((List.range nb).map fun i => bs.getD (bit / 8 + i) 0) / 2 ^ (bit % 8) % 2 ^ w

/-- An element and its block scale, or none for an unscaled format. -/
structure Opnd where
  val : Val
  x8 : Option Byte

/-- The chunk that holds cell row q: its index, its first cell row and its rows. -/
def chunkAt (q : Nat) : Nat → Nat → List Nat → Nat × Nat × Nat
  | c, k0, [] => (c, k0, 16)
  | c, k0, r :: t => if q < k0 + r then (c, k0, r) else chunkAt q (c + 1) (k0 + r) t

def mxChunks (w : InstrWord) : List Nat := chunkRows (groupEdge (mxGroup w)) (mxRowCount w)
def mxChunkOf (w : InstrWord) (q : Nat) : Nat × Nat × Nat := chunkAt q 0 0 (mxChunks w)

/-- Reduction elements in a cell row (R88). -/
def mxPer (w : InstrWord) : Nat := if mxPaired w then 2 else 1

/-- Element of the stationary operand at reduction index k and output column n, from the rows as they were loaded: in either
direction the elements of a memory row stand in it in ascending column order, those of a block-scaled tile too.
DEDUCED, log entry 100. -/
def statElem (r : MxRun) (k n : Nat) : Opnd :=
  let w := r.op.word
  let f := mxFmtS w
  let (ci, k0, _) := mxChunkOf w (k / mxPer w)
  let c := if mxDir w = 0 then bitsAt (r.stat.getD k []) (fmtBits f) (n * fmtBits f)
    else bitsAt (r.stat.getD (ci * groupCols (mxGroup w) + n) []) (fmtBits f) ((k - mxPer w * k0) * fmtBits f)
  ⟨elemVal f c, if fmtBlock f then some ((r.sscale.getD (k / 32) []).getD n 0) else none⟩

/-- Element of the streaming operand at streaming row m and reduction index k, from the lane of R92 and the scale byte of
R93. -/
def streamElem (r : MxRun) (m k : Nat) : Opnd :=
  let w := r.op.word
  let f := mxFmtA w
  let q := k / mxPer w
  let (_, k0, rows) := mxChunkOf w q
  let g := groupEdge (mxGroup w) / rows
  let i := q - k0
  let lane := (m % g) * rows + i
  let line := k0 + m / g + i
  let c := bitsAt (r.aimg.getD line []) (fmtBits f) ((lane * mxPer w + k % mxPer w) * fmtBits f)
  ⟨elemVal f c, if fmtBlock f then some ((r.ascale.getD (line - lane % 16) []).getD (lane / 16) 0) else none⟩

/-- Lane of an output-stationary image at reduction step t (R97, R241). -/
def osElem (w : InstrWord) (img : List (List Byte)) (f t lane : Nat) : Opnd :=
  ⟨elemVal f (bitsAt (img.getD (t + lane % groupEdge (mxGroup w)) []) (fmtBits f) (lane * fmtBits f)), none⟩

/-- The exact product of two elements (R79): a NaN block gives a NaN, a zero block +0. Of a zero block and a NaN block the NaN
wins, and a zero block wins over an infinity or a NaN of an F8V operand. DESIGN CHOICE, log entry 90. -/
def opndMul (a b : Opnd) : Val :=
  if a.x8 = some 0xFF ∨ b.x8 = some 0xFF then .nan
  else if a.x8 = some 0 ∨ b.x8 = some 0 then .zero
  else
    let sc := fun (o : Opnd) => match o.x8 with
      | some c => o.val.scale (x8Exp c)
      | none => o.val
    (sc a).mul (sc b)

def opndNf (a : Opnd) : Bool := !a.val.finite || a.x8 == some 0xFF

def mxA (r : MxRun) (m k : Nat) : Opnd :=
  if mxDir r.op.word = 2 then osElem r.op.word r.aimg (mxFmtA r.op.word) k m else streamElem r m k
def mxS (r : MxRun) (k n : Nat) : Opnd :=
  if mxDir r.op.word = 2 then osElem r.op.word r.qimg (mxFmtS r.op.word) k n else statElem r k n

/-- Terms that enter a sum, in ascending reduction order: products, or the exact sums of 32 products of an I4 block pair
(R114). -/
def mxTerms (i4 : Bool) (a b : List Opnd) : List Val :=
  let pr := a.zip b
  if i4 then
    (groupsOf 32 (pr.length + 1) pr).map fun blk =>
      match blk with
      | [] => .zero
      | (x, y) :: _ =>
        let raw := blk.foldl (fun t (p, q) => t.add (p.val.mul q.val)) Val.zero
        if x.x8 = some 0xFF ∨ y.x8 = some 0xFF then .nan
        else if x.x8 = some 0 ∨ y.x8 = some 0 then .zero
        else raw.scale (x8Exp (x.x8.getD 127) + x8Exp (y.x8.getD 127))
  else pr.map fun (p, q) => opndMul p q

/-- Split terms by chunk lengths (in terms). -/
def splitBy {α : Type} : List Nat → List α → List (List α)
  | [], _ => []
  | n :: t, l => l.take n :: splitBy t (l.drop n)

/-- An integer of a finite term: products of I8 elements. -/
def valInt : Val → Int
  | .fin neg m e => let a : Int := (m * 2 ^ e.toNat : Nat); if neg then -a else a
  | _ => 0

/-- Fast order (R112, R113): the element from its prior value (under ADD) and its terms. DEDUCED, log entry 12. -/
def fastSum (fmt dir : Nat) (set : Bool) (prior : Word64) (chunks : List (List Val)) : Word64 :=
  if dir = 2 then
    let ts := chunks.flatten
    if set then chainSum fmt ts else ts.foldl (accStep fmt) prior
  else
    let sums := chunks.map (chainSum fmt)
    if set then match sums with
      | [] => prior
      | c :: t => t.foldl (accAdd fmt) c
    else sums.foldl (accAdd fmt) prior

/-- Canonical order (R117, R118): the subtree of an instruction's own leaves; `per` terms make a leaf. -/
def canonSum (fmt per : Nat) (terms : List Val) : Word64 :=
  treeSum fmt 17 ((groupsOf per (terms.length + 1) terms).map (chainSum fmt))

/-! ## Tiles (R105, R110, R180) -/

def tileElem (u : UnitId) (slot fmt cols r n : Nat) : Nat := accAddr u (16384 * slot + accBytes fmt * (cols * r + n))

def readElem (s : State) (u : UnitId) (slot fmt cols r n : Nat) : Word64 :=
  BitVec.ofNat 64 (leNat (s.rawRead (tileElem u slot fmt cols r n) (accBytes fmt)))

/-- Is element (r, n) whey under WMODE? -/
def isWhey (mode : Nat) (whey : BitVec 128) (r n : Nat) : Bool :=
  (mode == 1 && whey.getLsbD r) || (mode == 2 && whey.getLsbD n)

/-- Write a row's values from column n on, in runs that whey does not break. -/
def writeRow (u : UnitId) (slot fmt cols r : Nat) (skip : Nat → Bool) : Nat → List Word64 → List Byte → State → State
  | n, [], acc, s => writeMem (tileElem u slot fmt cols r n - acc.length) acc 0 s
  | n, v :: t, acc, s =>
    if skip n then
      writeRow u slot fmt cols r skip (n + 1) t [] (writeMem (tileElem u slot fmt cols r n - acc.length) acc 0 s)
    else writeRow u slot fmt cols r skip (n + 1) t (acc ++ leBytes (accBytes fmt) v.toNat) s

def writeTile (u : UnitId) (slot fmt cols mode : Nat) (whey : BitVec 128) : Nat → List (List Word64) → State → State
  | _, [], s => s
  | r, row :: t, s =>
    writeTile u slot fmt cols mode whey (r + 1) t (writeRow u slot fmt cols r (isWhey mode whey r) 0 row [] s)

/-- Is any word of a tile poisoned? The read settles its words. -/
def touchTile (u : UnitId) (slot n : Nat) (s : State) : State × Bool :=
  let a := accAddr u (16384 * slot)
  let s := touch (.acc u) a (16384 * n) s
  (s, s.anyPoison (.acc u) a (16384 * n))

/-- Fold an element's stack entries, top first, into a new subtree: each entry is the left child (R122). -/
def foldEntries (fmt : Nat) (cur : Word64) (entries : List Word64) : Word64 := entries.foldl (fun c e => accAdd fmt e c) cur

/-- The sum of I32 values, and whether it leaves the range (R58). DEDUCED, log entry 12. -/
def intTotal (prior : Option Word64) (entries : List Word64) (own : Int) : Word64 × Bool :=
  let t := (entries.map accInt).foldl (· + ·) own + (match prior with | some p => accInt p | none => 0)
  let (w, o) := wrap32 t
  (w.zeroExtend 64, o)

/-! ## Reads (R91, R575)

A step of the fill loads one cell row of the first chunk; step n of the computation reads streaming line n with its scale
line, and loads one cell row of the next chunk. -/

/-- Steps of the fill. -/
def mxFill (w : InstrWord) : Nat := if mxDir w = 2 then 0 else (mxChunks w).headD 0
def mxLines (w : InstrWord) : Nat := mxRowCount w + groupEdge (mxGroup w) - 1
def mxSteps (w : InstrWord) : Nat := mxFill w + mxLines w

/-- The cell row of the stationary operand that step i loads. -/
def mxLoadAt (w : InstrWord) (i : Nat) : Option Nat :=
  if i < mxFill w then some i
  else if mxDir w = 2 ∨ mxRowCount w ≤ i - mxFill w then none
  else
    let (_, k0, r) := mxChunkOf w (i - mxFill w)
    let next := k0 + r
    let q := next + (i - mxFill w - k0)
    if next < mxRowCount w ∧ q < next + (mxChunkOf w next).2.2 then some q else none

/-- What a read delivers. -/
inductive MxPart where
  | stat | sscale | aimg | ascale | qimg
  deriving DecidableEq, Repr

/-- Spans of cell row q of the stationary operand: its rows on a warp read; on a weft read, where each memory row runs along
the reduction, its share of the chunk's part of every row. -/
def statSpans (w : InstrWord) (q : Nat) : List (Nat × Nat) :=
  let bits := fmtBits (mxFmtS w)
  let cols := groupCols (mxGroup w)
  if mxDir w = 0 then
    (List.range (mxPer w)).map fun j => (mxSBase w + (mxPer w * q + j) * mxPitch w, cols * bits / 8)
  else
    let (_, k0, r) := mxChunkOf w q
    ((List.range cols).filter fun i => i * r / cols == q - k0).map fun i =>
      (mxSBase w + i * mxPitch w + mxPer w * k0 * bits / 8, mxPer w * r * bits / 8)

/-- The reads of step i, each with its spans. DESIGN CHOICE, log entry 10. -/
def mxPlan (o : MxOp) (i : Nat) : List (MxPart × List (Nat × Nat)) :=
  let w := o.word
  let n := i - mxFill w
  let load := match mxLoadAt w i with
    | none => []
    | some q => (statSpans w q).map (fun p => (MxPart.stat, [p])) ++
      (if fmtBlock (mxFmtS w) && mxPer w * q % 32 == 0 then
        [(.sscale, [(o.scale.toNat % 2 ^ 32 + 256 * (mxPer w * q / 32), groupCols (mxGroup w))])]
      else [])
  if i < mxFill w then load
  else load ++ [(.aimg, lineSpans (mxABase w) n (groupEdge (mxGroup w) * mxPer w * fmtBits (mxFmtA w) / 8))] ++
    (if fmtBlock (mxFmtA w) then [(.ascale, lineSpans (o.scale.toNat / 2 ^ 32) n (groupEdge (mxGroup w) / 16))] else []) ++
    (if mxDir w = 2 then [(.qimg, lineSpans (mxSBase w) n (groupCols (mxGroup w) * fmtBits (mxFmtS w) / 8))] else [])

def MxRun.push (r : MxRun) (p : MxPart) (bs : List Byte) : MxRun :=
  match p with
  | .stat => { r with stat := r.stat ++ [bs] }
  | .sscale => { r with sscale := r.sscale ++ [bs] }
  | .aimg => { r with aimg := r.aimg ++ [bs] }
  | .ascale => { r with ascale := r.ascale ++ [bs] }
  | .qimg => { r with qimg := r.qimg ++ [bs] }

/-- The bytes of spans as they are now, each access judged by the owner code in force (R95, R199); with the cause that ends
the instruction, 0 for none. -/
def mxRead (u : UnitId) : List (Nat × Nat) → State → State × List Byte × Nat
  | [], s => (s, [], 0)
  | (a, n) :: t, s =>
    match refusedBank s u a n .feed with
    | some b => (refuse u false b .feed s, [], 0x13)
    | none =>
      let (s, bs, bad) := unitRead u a n s
      if bad then (s, [], 0x06) else let (s, rest, c) := mxRead u t s; (s, bs ++ rest, c)

def mxReads (u : UnitId) : List (MxPart × List (Nat × Nat)) → MxRun → State → State × MxRun × Nat
  | [], r, s => (s, r, 0)
  | (p, sp) :: t, r, s =>
    let (s, bs, c) := mxRead u sp s
    if c ≠ 0 then (s, r, c) else mxReads u t (r.push p bs) s

/-! ## Running (R95, R96, R120, R188) -/

def mxSlotMask (slot n : Nat) : Word32 := BitVec.ofNat 32 ((2 ^ n - 1) * 2 ^ slot)

/-- Does the destination's prior value enter the sum (R106, R120)? -/
def mxUsesPrior (w : InstrWord) : Bool := !mxSet w && (!mxCanon w || mxEnd w)

/-- The new value of element (m, n), the flags it raises: prior value and stack entries are read from memory.
DEDUCED, log entry 12. -/
def mxElement (o : MxOp) (aRow bCol : List Opnd) (prior : Word64) (entries : List Word64) : Word64 × Flags :=
  let w := o.word
  let fmt := mxFmtC w
  let i4 := mxFmtS w == 12
  let terms := mxTerms i4 aRow bCol
  let nfIn := aRow.any opndNf || bCol.any opndNf
  let usePrior := mxUsesPrior w
  if fmt = 9 then
    let own := (terms.map valInt).foldl (· + ·) 0
    let (v, ov) := intTotal (if usePrior then some prior else none) entries own
    (v, ⟨false, ov, false⟩)
  else if mxCanon w then
    let sub := foldEntries fmt (canonSum fmt (if i4 then 8 else 256) terms) entries
    let v := if usePrior then accAdd fmt prior sub else sub
    (v, .ofNf (nfIn || accNf fmt v || (usePrior && accNf fmt prior)))
  else
    let rows := chunkRows (groupEdge (mxGroup w)) (mxRowCount w)
    let per := fun (r : Nat) => if i4 then r * 2 / 32 else if mxPaired w then 2 * r else r
    let v := fastSum fmt (mxDir w) (mxSet w) prior (splitBy (rows.map per) terms)
    (v, .ofNf (nfIn || accNf fmt v || (!mxSet w && accNf fmt prior)))

/-- The line with which the sum of element (m, n) is complete: it is written then. DESIGN CHOICE, log entry 10. -/
def mxDoneAt (w : InstrWord) (m n : Nat) : Nat :=
  let e := groupEdge (mxGroup w)
  if mxDir w = 2 then mxK w - 1 + max (m % e) (n % e)
  else
    let (_, k0, r) := mxChunkOf w (mxRowCount w - 1)
    k0 + m / (e / r) + r - 1

/-- Read a row's words of tiles: is one poisoned? -/
def touchRow (u : UnitId) (fmt cols r : Nat) (slots : List Nat) (s : State) : State × Bool :=
  slots.foldl (fun (s, bad) k =>
    let a := tileElem u k fmt cols r 0
    let s := touch (.acc u) a (accBytes fmt * cols) s
    (s, bad || s.anyPoison (.acc u) a (accBytes fmt * cols))) (s, false)

/-- Write the elements of row m whose sums line n completes. Whey protects the destination tile; a stack entry is written
whole. DEDUCED, log entry 100. -/
def mxWriteRow (u : UnitId) (r : MxRun) (bcols : List (List Opnd)) (n m : Nat) (s : State) : State × Nat :=
  let w := r.op.word
  let fmt := mxFmtC w
  let cols := groupCols (mxGroup w)
  let (s, bad) := touchRow u fmt cols m (r.merged ++ (if mxUsesPrior w then [mxDst w] else [])) s
  if bad then (s, 0x06)
  else
    let arow := (List.range (mxK w)).map (mxA r m)
    let out := bcols.mapIdx fun j bcol =>
      if mxDoneAt w m j = n then
        mxElement r.op arow bcol (readElem s u (mxDst w) fmt cols m j) (r.merged.map fun k => readElem s u k fmt cols m j)
      else (0, Flags.none)
    let skip := fun (j : Nat) => mxDoneAt w m j != n || (r.out.isNone && isWhey (fld w 72 71) r.op.whey m j)
    let s := writeRow u (r.out.getD (mxDst w)) fmt cols m skip 0 (out.map (·.1)) [] s
    (s.unitFlag u (out.foldl (fun f e => f.or e.2) Flags.none), 0)

def mxWriteRows (u : UnitId) (r : MxRun) (bcols : List (List Opnd)) (n : Nat) : List Nat → State → State × Nat
  | [], s => (s, 0)
  | m :: t, s =>
    let (s, c) := mxWriteRow u r bcols n m s
    if c ≠ 0 then (s, c) else mxWriteRows u r bcols n t s

/-- Rows with an element whose sum line n completes. -/
def mxRowsAt (w : InstrWord) (n : Nat) : List Nat :=
  (List.range (groupEdge (mxGroup w))).filter fun m => (List.range (groupCols (mxGroup w))).any fun j => mxDoneAt w m j == n

/-- One step: its reads, and the elements that they complete. -/
def mxStep (u : UnitId) (r : MxRun) (s : State) : State × MxRun × Nat :=
  let w := r.op.word
  let (s, r', c) := mxReads u (mxPlan r.op r.step) r s
  if c ≠ 0 then (s, r, c)
  else
    let r' := { r' with step := r.step + 1 }
    if r.step + 1 < mxFill w + mxRowCount w then (s, r', 0)
    else
      let n := r.step - mxFill w
      let bcols := (List.range (groupCols (mxGroup w))).map fun j => (List.range (mxK w)).map fun k => mxS r' k j
      let (s, c) := mxWriteRows u r' bcols n (mxRowsAt w n) s
      (s, r', c)

/-- A running instruction that a refused or poisoned read ends: elements already written keep their values, its tile is
marked incomplete, its reduction stands as before it, and its group is free (R130, Table 3.9). The tile marked is the
destination's, of a canonical instruction without end flag too. DEDUCED, log entry 100. -/
def mxAbort (u : UnitId) (r : MxRun) (cause : Nat) (s : State) : State :=
  let x := s.unit u
  let w := r.op.word
  unitFault u cause r.op.pc x.nextPc (s.setUnit u { x with
    mxRun := x.mxRun.filter fun q => q.op != r.op
    canons := if mxCanon w then r.prev.toList ++ x.canons.filter (fun c => c.dst != mxDst w) else x.canons
    mxStatus := x.mxStatus ||| mxSlotMask (mxDst w) (tileSlots (mxGroup w) (mxFmtC w)) })

/-! ## Chained instructions (R100, R575) -/

/-- The first cell row of the last chunk. -/
def mxLastChunk (w : InstrWord) : Nat := (mxChunkOf w (mxRowCount w - 1)).2.1

/-- The instruction b, queued behind a, is chained to it: same group, direction and cycles per row. -/
def mxChains (a b : InstrWord) : Bool :=
  mxGroup a == mxGroup b && mxDir a == mxDir b && mxDir a != 2 && mxRowCycles a == mxRowCycles b

def MxRun.fresh (o : MxOp) : MxRun := ⟨o, 0, none, [], none, [], [], [], [], []⟩

/-- As a running instruction begins its last chunk, the one that is chained to it begins to load its first.
DESIGN CHOICE, log entry 10. -/
def chainBegin (u : UnitId) (r : MxRun) (s : State) : State :=
  if r.step ≠ mxFill r.op.word + mxLastChunk r.op.word then s
  else s.modUnit u fun x => { x with
    mxPre := x.mxPre ++ (x.mxQueue.filter fun o => mxChains r.op.word o.word).map MxRun.fresh }

/-- A chained instruction that a refused or poisoned read ends before it has started. -/
def chainAbort (u : UnitId) (q : MxRun) (cause : Nat) (s : State) : State :=
  let x := s.unit u
  unitFault u cause q.op.pc x.nextPc (s.setUnit u { x with
    mxQueue := eraseFirst (· == q.op) x.mxQueue
    mxPre := x.mxPre.filter fun p => p.op != q.op
    mxStatus := x.mxStatus ||| mxSlotMask (mxDst q.op.word) (tileSlots (mxGroup q.op.word) (mxFmtC q.op.word)) })

/-- With a step of the last chunk, a cell row of the chained instruction's first chunk is loaded.
DESIGN CHOICE, log entry 10. -/
def chainLoad (u : UnitId) (r : MxRun) (s : State) : State :=
  match (s.unit u).mxPre.find? fun q => mxChains r.op.word q.op.word with
  | none => s
  | some q =>
    if r.step < mxFill r.op.word + mxLastChunk r.op.word ∨ mxFill r.op.word + mxRowCount r.op.word ≤ r.step ∨
        mxFill q.op.word ≤ q.step then s
    else
      let (s, q', c) := mxReads u (mxPlan q.op q.step) q s
      if c ≠ 0 then chainAbort u q c s
      else s.modUnit u fun x => { x with mxPre := x.mxPre.map fun p => if p.op = q.op then { q' with step := q.step + 1 } else p }

/-- At most k steps. -/
def mxAdvance (u : UnitId) : Nat → MxRun → State → State × MxRun × Nat
  | 0, r, s => (s, r, 0)
  | k + 1, r, s =>
    if mxSteps r.op.word ≤ r.step then (s, r, 0)
    else
      let (s, r', c) := mxStep u r (chainBegin u r s)
      if c ≠ 0 then (s, r', c) else mxAdvance u k r' (chainLoad u r s)

/-- Let a running instruction make k steps. -/
def mxProgress (u : UnitId) (k : Nat) (r : MxRun) (s : State) : State :=
  let (s, r', c) := mxAdvance u k r s
  if c ≠ 0 then mxAbort u r' c s
  else s.modUnit u fun x => { x with mxRun := x.mxRun.map fun q => if q.op = r.op then r' else q }

/-- Steps that fit into a beat of 256 cycles (R24, R90), of which L in 64 are withheld (R557). DEDUCED, log entry 101. -/
def mxBeatSteps (level : Nat) (w : InstrWord) : Nat := 4 * (64 - level) / mxRowCycles w

/-- The queued instruction of a group starts (R86) and loads what is missing of its first chunk (R575). It keeps its arrays and
its slots until MX_COMPLETE. DESIGN CHOICE, log entry 10. -/
def mxRunOp (u : UnitId) (o : MxOp) (s : State) : State :=
  let w := o.word
  let x := s.unit u
  let x' := { x with mxQueue := eraseFirst (· == o) x.mxQueue, mxPre := x.mxPre.filter fun q => q.op != o }
  let pre := (x.mxPre.find? fun q => q.op == o).getD (MxRun.fresh o)
  let cur := x.openCanon (mxDst w)
  match (if mxCanon w then canonStep w cur else .ok none [] 0) with
  | .err c => unitFault u c o.pc x.nextPc (s.setUnit u x')
  | .ok after before taken =>
    let base := (cur.map (·.base)).getD (mxStk w)
    let ns := tileSlots (mxGroup w) (mxFmtC w)
    let r : MxRun := { pre with
      out := if mxCanon w && !mxEnd w then some (base + ns * (before.length - taken)) else none
      merged := (List.range taken).map fun i => base + ns * (before.length - 1 - i)
      prev := cur }
    let rest := x.canons.filter fun c => c.dst != mxDst w || c.closing
    let cs := if !mxCanon w then x.canons
      else match after, cur with
        | some c, _ => c :: rest
        | none, some c => { c with closing := true } :: rest
        | none, none => rest
    mxProgress u (mxFill w - pre.step) r (s.setUnit u { x' with mxRun := x.mxRun ++ [r], canons := cs })

def mxStartRow (u : UnitId) (group : Fin 7) (s : State) : State :=
  let x := s.unit u
  match x.mxQueue.find? fun o => mxGroup o.word == group.val with
  | none => s
  | some o =>
    if s.isReady && !x.mxRun.any (fun r => sharesArray (mxGroup r.op.word) group.val) then mxRunOp u o s else s

def execMxStart (u : UnitId) (group : Fin 7) (s : State) : Out := .next (mxStartRow u group s)

/-- Running instructions of a unit go on for a beat. DESIGN CHOICE, log entry 10. -/
def mxBeat (s : State) : State :=
  if !s.isReady then s
  else allUnits.foldl (fun s u => (s.unit u).mxRun.foldl (fun s r => mxProgress u (mxBeatSteps s.pwr.level r.op.word) r s) s) s

/-- The running instruction of a group makes its last steps, no more than a beat has, and completes: its slots and, at the end
flag, its stack are free (R107, R124). DESIGN CHOICE, log entry 10. -/
def mxDone (u : UnitId) (group : Fin 7) (s : State) : State :=
  match (s.unit u).mxRun.find? fun r => mxGroup r.op.word == group.val with
  | none => s
  | some r =>
    if !s.isReady || decide (mxBeatSteps s.pwr.level r.op.word < mxSteps r.op.word - r.step) then s
    else
      let w := r.op.word
      let s := mxProgress u (mxSteps w - r.step) r s
      let x := s.unit u
      if x.mxRun.any (·.op == r.op) then
        s.setUnit u { x with
          mxRun := x.mxRun.filter fun q => q.op != r.op
          canons := if mxCanon w && mxEnd w then x.canons.filter (fun c => !(c.dst == mxDst w && c.closing)) else x.canons }
      else s

def execMxComplete (u : UnitId) (group : Fin 7) (s : State) : Out := .next (mxDone u group s)

end Sys2Proof.Machine
end

