-- ==== Sys2Proof/Machine/Vector.lean ====
section
/-! DEFINITION. The vector class (Tables 4.7 to 4.9; R147 to R151) and ACOMBINE (R126, R127, R150). -/
namespace Sys2Proof.Machine

def vType (w : InstrWord) : Nat := fld w 114 112
def vD (w : InstrWord) : Nat := fld w 111 107
def vA (w : InstrWord) : Nat := fld w 106 102
def vB (w : InstrWord) : Nat := fld w 101 97
def vC (w : InstrWord) : Nat := fld w 96 92
def vGA (w : InstrWord) : Nat := fld w 91 87
def vGB (w : InstrWord) : Nat := fld w 86 82
def vWen (w : InstrWord) : Bool := bitOf w 81
def vWreg (w : InstrWord) : Nat := fld w 80 78

/-! ## Lanes -/

def lo16 (w : Word32) : BitVec 16 := w.extractLsb' 0 16
def hi16 (w : Word32) : BitVec 16 := w.extractLsb' 16 16

/-- One lane of a floating-point operation: F32 rounds once; each B16 half is computed exactly and rounded once (R147). -/
def laneF (ty : Nat) (f : List Val → Val) (ws : List Word32) : Word32 × Flags :=
  if ty = 0 then
    let r := toF32 (f (ws.map f32))
    (r, .ofNf (f32Special r || ws.any f32Special))
  else
    let half := fun (h : Word32 → BitVec 16) => toB16 (f (ws.map fun w => b16 (h w)))
    let l := half lo16
    let u := half hi16
    (u ++ l, .ofNf ((!(b16 l).finite || !(b16 u).finite) ||
      ws.any fun w => !(b16 (lo16 w)).finite || !(b16 (hi16 w)).finite))

/-- One lane of I32 arithmetic (R58). -/
def laneI (f : List Int → Int) (ws : List Word32) : Word32 × Flags :=
  let (r, o) := wrap32 (f (ws.map BitVec.toInt))
  (r, ⟨false, o, false⟩)

/-- Write VD lane by lane and raise the flags. -/
def putLanes (u : UnitId) (rd : Nat) (out : Nat → Word32 × Flags) (s : State) : State :=
  let rs := (List.range 128).map out
  let fl := rs.foldl (fun f r => f.or r.2) Flags.none
  s.modUnit u fun x => (x.setVec rd fun i => (rs.getD i (0, Flags.none)).1).flag fl

/-- A lane-wise arithmetic operation on its source registers, in each of the three types. -/
def vArith (u : UnitId) (srcs : InstrWord → List Nat) (f : List Val → Val) (g : List Int → Int) (w : InstrWord) (s : State) : Done :=
  let x := s.unit u
  .ok (putLanes u (vD w) (fun i =>
    let ws := (srcs w).map fun r => x.lane r i
    if vType w = 2 then laneI g ws else laneF (vType w) f ws) s)

def srcAB (w : InstrWord) : List Nat := [vA w, vB w]
def srcA (w : InstrWord) : List Nat := [vA w]
def srcABC (w : InstrWord) : List Nat := [vA w, vB w, vC w]

def op1 {α : Type} (d : α) (f : α → α) : List α → α := fun l => f (l.getD 0 d)
def op2 {α : Type} (d : α) (f : α → α → α) : List α → α := fun l => f (l.getD 0 d) (l.getD 1 d)
def op3 {α : Type} (d : α) (f : α → α → α → α) : List α → α := fun l => f (l.getD 0 d) (l.getD 1 d) (l.getD 2 d)

def execVadd (u : UnitId) (s : State) : Out :=
  .next (issueRow 2 0x10 u (vArith u srcAB (op2 .zero Val.add) (op2 0 fun a b => a + b)) s)
def execVsub (u : UnitId) (s : State) : Out :=
  .next (issueRow 2 0x11 u (vArith u srcAB (op2 .zero Val.sub) (op2 0 fun a b => a - b)) s)
def execVmul (u : UnitId) (s : State) : Out :=
  .next (issueRow 2 0x12 u (vArith u srcAB (op2 .zero Val.mul) (op2 0 fun a b => a * b)) s)
def execVfma (u : UnitId) (s : State) : Out :=
  .next (issueRow 2 0x13 u (vArith u srcABC (op3 .zero fun a b c => (a.mul b).add c) (op3 0 fun a b c => a * b + c)) s)
def execVmax (u : UnitId) (s : State) : Out :=
  .next (issueRow 2 0x14 u (vArith u srcAB (op2 .zero Val.max) (op2 0 fun a b => max a b)) s)
def execVmin (u : UnitId) (s : State) : Out :=
  .next (issueRow 2 0x15 u (vArith u srcAB (op2 .zero Val.min) (op2 0 fun a b => min a b)) s)
def execVabs (u : UnitId) (s : State) : Out :=
  .next (issueRow 2 0x16 u (vArith u srcA (op1 .zero Val.abs) (op1 0 fun a => (a.natAbs : Int))) s)
def execVneg (u : UnitId) (s : State) : Out :=
  .next (issueRow 2 0x17 u (vArith u srcA (op1 .zero Val.negate) (op1 0 fun a => -a)) s)

/-- Bitwise and shift operations take I32 only (R147). DEDUCED, log entry 48. -/
def vBits (u : UnitId) (f : Word32 → Word32 → Word32) (w : InstrWord) (s : State) : Done :=
  if vType w ≠ 2 then .fault s 0x20
  else
    let x := s.unit u
    .ok (putLanes u (vD w) (fun i => (f (x.lane (vA w) i) (x.lane (vB w) i), Flags.none)) s)

def execVand (u : UnitId) (s : State) : Out := .next (issueRow 2 0x20 u (vBits u fun a b => a &&& b) s)
def execVor (u : UnitId) (s : State) : Out := .next (issueRow 2 0x21 u (vBits u fun a b => a ||| b) s)
def execVxor (u : UnitId) (s : State) : Out := .next (issueRow 2 0x22 u (vBits u fun a b => a ^^^ b) s)
def execVshl (u : UnitId) (s : State) : Out := .next (issueRow 2 0x23 u (vBits u fun a b => a <<< (b.toNat % 32)) s)
def execVshr (u : UnitId) (s : State) : Out := .next (issueRow 2 0x24 u (vBits u fun a b => a >>> (b.toNat % 32)) s)

/-! ## Loads, stores, broadcast -/

/-- Address of lane i: GA + IMM[31:0] (signed) + 4 × i × IMM[47:32]. Of every TYPE the lane's word of 4 bytes is the element
that must be aligned. DEDUCED, log entry 5. -/
def laneAddr (x : UnitState) (w : InstrWord) (i : Nat) : Nat :=
  (x.gpGet (vGA w) + (w.extractLsb' 0 32).signExtend 64 + BitVec.ofNat 64 (4 * i * fld w 47 32)).toNat

/-- Lanes that a VST writes: all, or with WEN those whose bit of WREG is 0 (R182). -/
def storeLanes (x : UnitState) (w : InstrWord) : List Nat :=
  (List.range 128).filter fun i => !(vWen w && (x.whGet (vWreg w)).getLsbD i)

def vldBody (u : UnitId) (w : InstrWord) (s : State) : Done :=
  let x := s.unit u
  withAccess u .vec ((List.range 128).map fun i => (laneAddr x w i, 4, 4)) s fun s =>
    let (s, vs, bad) := (List.range 128).foldl (fun (t : State × List Word32 × Bool) i =>
      let (s, vs, bad) := t
      let (s, bs, b) := unitRead u (laneAddr x w i) 4 s
      (s, leWord32 bs :: vs, bad || b)) (s, [], false)
    if bad then .fault s 0x06
    else
      let ws := vs.reverse
      .ok (s.modUnit u fun x => x.setVec (vD w) fun i => ws.getD i 0)

def execVld (u : UnitId) (s : State) : Out := .next (issueRow 2 0x01 u (vldBody u) s)

/-- Every lane's address is checked; whey lanes are not written (R182). -/
def vstBody (u : UnitId) (w : InstrWord) (s : State) : Done :=
  let x := s.unit u
  withAccess u .vec ((List.range 128).map fun i => (laneAddr x w i, 4, 4)) s fun s =>
    .ok ((storeLanes x w).foldl (fun s i => unitWrite u (laneAddr x w i) (leBytes 4 (x.lane (vA w) i).toNat) s) s)

def execVst (u : UnitId) (s : State) : Out := .next (issueRow 2 0x02 u (vstBody u) s)

def vbcastBody (u : UnitId) (w : InstrWord) (s : State) : Done :=
  .ok (s.modUnit u fun x => x.setVec (vD w) fun _ => (x.gpGet (vGA w)).extractLsb' 0 32)

def execVbcast (u : UnitId) (s : State) : Out := .next (issueRow 2 0x03 u (vbcastBody u) s)

/-! ## Compare, select, reductions, dropout -/

/-- Comparison k of two values: 0 equal, 1 less, 2 less or equal, 3 unordered. -/
def cmpVal (k : Nat) (a b : Val) : Bool :=
  if a.isNan || b.isNan then k == 3
  else match k with
    | 0 => a.eq b
    | 1 => a.lt b
    | 2 => a.lt b || a.eq b
    | _ => false

def cmpLane (ty k : Nat) (a b : Word32) : Bool × Flags :=
  if ty = 2 then
    (match k with
      | 0 => a == b
      | 1 => a.slt b
      | 2 => a.slt b || a == b
      | _ => false, Flags.none)
  else if ty = 0 then (cmpVal k (f32 a) (f32 b), nfWords [a, b])
  else
    let vs := [lo16 a, lo16 b, hi16 a, hi16 b].map b16
    (cmpVal k (b16 (lo16 a)) (b16 (lo16 b)) || cmpVal k (b16 (hi16 a)) (b16 (hi16 b)), nfVals vs)

def vcmpBody (u : UnitId) (w : InstrWord) (s : State) : Done :=
  let x := s.unit u
  let rs := (List.range 128).map fun i => cmpLane (vType w) (fld w 2 0) (x.lane (vA w) i) (x.lane (vB w) i)
  let mask := rs.foldr (fun r m => 2 * m + r.1.toNat) 0
  let fl := rs.foldl (fun f r => f.or r.2) Flags.none
  .ok (s.setUnit u ((x.whSet (vWreg w) (BitVec.ofNat 128 mask)).flag fl))

def execVcmp (u : UnitId) (s : State) : Out := .next (issueRow 2 0x28 u (vcmpBody u) s)

/-- DEDUCED, log entry 48. -/
def vselBody (u : UnitId) (w : InstrWord) (s : State) : Done :=
  let x := s.unit u
  let m := x.whGet (vWreg w)
  .ok (putLanes u (vD w) (fun i => (if m.getLsbD i then x.lane (vA w) i else x.lane (vB w) i, Flags.none)) s)

def execVsel (u : UnitId) (s : State) : Out := .next (issueRow 2 0x29 u (vselBody u) s)

/-- One level of the tree of R149 over values in order: lane j and lane j + w are combined for the next level. -/
def pairF {α : Type} (f : α → α → α) : List α → List α
  | a :: b :: t => f a b :: pairF f t
  | l => l

def foldTree {α : Type} (f : α → α → α) (d : α) : Nat → List α → α
  | 0, l => l.headD d
  | n + 1, l => foldTree f d n (pairF f l)

/-- The elements of a register as F32 words: B16 halves are widened exactly, in element order. -/
def wideElems (ty : Nat) (ws : List Word32) : List Word32 :=
  if ty = 1 then ws.flatMap fun w => [toF32 (b16 (lo16 w)), toF32 (b16 (hi16 w))] else ws

def lanes (x : UnitState) (r : Nat) : List Word32 := (List.range 128).map fun i => x.lane r i

/-- A node of VRSUM in I32: the flag is judged at every addition of the tree (R58). DESIGN CHOICE, log entry 90. -/
def addI (p q : Word32 × Bool) : Word32 × Bool :=
  let r := wrap32 (p.1.toInt + q.1.toInt)
  (r.1, p.2 || q.2 || r.2)

def vReduce (u : UnitId) (f : Word32 → Word32 → Word32) (g : Word32 × Bool → Word32 × Bool → Word32 × Bool) (w : InstrWord)
    (s : State) : Done :=
  let x := s.unit u
  let es := wideElems (vType w) (lanes x (vA w))
  let (r, fl) : Word32 × Flags :=
    if vType w = 2 then
      let p := foldTree g (0, false) 7 (es.map fun e => (e, false))
      (p.1, ⟨false, p.2, false⟩)
    else
      let r := foldTree f 0 8 es
      (r, .ofNf (f32Special r || es.any f32Special))
  .ok (s.setUnit u ((x.setVec (vD w) fun i => if i = 0 then r else 0).flag fl))

def execVrsum (u : UnitId) (s : State) : Out := .next (issueRow 2 0x30 u (vReduce u f32Add addI) s)
def execVrmax (u : UnitId) (s : State) : Out :=
  .next (issueRow 2 0x31 u (vReduce u f32Max fun p q => if p.1.slt q.1 then q else p) s)
def execVrmin (u : UnitId) (s : State) : Out :=
  .next (issueRow 2 0x32 u (vReduce u (fun a b => toF32 ((f32 a).min (f32 b))) fun p q => if q.1.slt p.1 then q else p) s)

/-- The job seed (R73). -/
def State.seed (s : State) : Word64 := s.cfgReg64 0x000018

def drawAt (s : State) (step : Word32) (stream purpose : BitVec 16) (pos : BitVec 48) : BitVec 16 :=
  draw16 s.seed step stream purpose (pos.zeroExtend 64)

/-- VDROP (R151): element n becomes +0 when its draw is below IMM[15:0], else it is multiplied by the F32 in IMM[63:32]. -/
def vdropBody (u : UnitId) (w : InstrWord) (s : State) : Done :=
  if vType w = 2 then .fault s 0x20
  else
    let x := s.unit u
    let a := x.gpGet (vGA w)
    let p := (x.gpGet (vGB w)).extractLsb' 0 48
    let k := f32 (w.extractLsb' 32 32)
    let drop := fun (n : Nat) => drawAt s (a.extractLsb' 0 32) (a.extractLsb' 32 16) 1 (p + BitVec.ofNat 48 n) < w.extractLsb' 0 16
    .ok (putLanes u (vD w) (fun i =>
      let v := x.lane (vA w) i
      if vType w = 0 then
        let r := if drop i then 0 else toF32 ((f32 v).mul k)
        (r, nfWords [v, r])
      else
        let half := fun (h : BitVec 16) (n : Nat) => if drop n then 0 else toB16 ((b16 h).mul k)
        let l := half (lo16 v) (2 * i)
        let h := half (hi16 v) (2 * i + 1)
        (h ++ l, nfVals ([lo16 v, hi16 v, l, h].map b16))) s)

def execVdrop (u : UnitId) (s : State) : Out := .next (issueRow 2 0x38 u (vdropBody u) s)

/-! ## ACOMBINE -/

def acDst (w : InstrWord) : Nat := fld w 114 110
def acSrc (w : InstrWord) : Nat := fld w 109 105
def acFmt (w : InstrWord) : Nat := fld w 102 99
def acPart (w : InstrWord) : Nat := fld w 98 91
def acFirst (w : InstrWord) : Bool := bitOf w 90
def acLast (w : InstrWord) : Bool := bitOf w 89
def acSet (w : InstrWord) : Bool := bitOf w 88
def acStk (w : InstrWord) : Nat := fld w 86 82
def acDepth (w : InstrWord) : Nat := fld w 81 79 + 1
def acRows (w : InstrWord) : Nat := if fld w 104 103 = 2 then 128 else 64
def acCols (w : InstrWord) : Nat := if fld w 104 103 = 0 then 64 else 128
def acSlots (w : InstrWord) : Nat := tileSlots (match fld w 104 103 with | 0 => 0 | 1 => 4 | _ => 6) (acFmt w)

def UnitState.openComb (x : UnitState) (dst : Nat) : Option Comb := x.combs.find? fun c => c.dst == dst

/-- Checks of ACOMBINE in order; 0 for none (R127, R145, R150, Table 3.9). The source index is held to R104 too; a later part
may have another SHAPE; one without the first flag needs an open combination. DEDUCED, log entry 9.
DEDUCED, log entry 13. -/
def acCheck (x : UnitState) (w : InstrWord) : Nat :=
  let ns := acSlots w
  let canon := bitOf w 87
  let needStk := canon && !(acFirst w && acLast w)
  let stk := (List.range (acDepth w * ns)).map (acStk w + ·)
  let dst := (List.range ns).map (acDst w + ·)
  let own := match x.openComb (acDst w) with
    | some c => if acFirst w then [] else (List.range (c.depth * c.slots)).map (c.base + ·)
    | none => []
  if canon != x.canon then 0x17
  else if !fmtAcc (acFmt w) then 0x10
  else if acDst w % ns != 0 || acSrc w % ns != 0 ||
      (needStk && (acStk w % ns != 0 || decide (32 < acStk w + acDepth w * ns) || stk.any dst.contains)) then 0x12
  else
    let order : Bool := match acFirst w, x.openComb (acDst w) with
      | true, none => acPart w == 0
      | true, some _ => false
      | false, none => false
      | false, some c => acPart w == c.next && c.fmt.toNat == acFmt w
    if !order then 0x14
    else if (dst ++ (List.range ns).map (acSrc w + ·) ++ (if needStk then stk.filter (!own.contains ·) else [])).any
        x.stackSlots.contains then 0x16
    else 0

/-- Slots that it reads or writes; a busy one makes it wait (R108). -/
def acTouched (w : InstrWord) : List Nat :=
  let ns := acSlots w
  (List.range ns).flatMap (fun i => [acDst w + i, acSrc w + i]) ++
    (if bitOf w 87 && !(acFirst w && acLast w) then (List.range (acDepth w * ns)).map (acStk w + ·) else [])

/-- A value as the combination writes it: an F32K normalised (R54), a NaN canonical (R50). DEDUCED, log entry 13. -/
def acWrite (fmt : Nat) (v : Word64) : Word64 :=
  if fmt = 1 then (F32K.ofVal (F32K.ofWord v).val).toWord
  else (toF32 (f32 (v.extractLsb' 0 32))).zeroExtend 64

/-- One element: the partial p enters the prior value and the stack entries. Each I32 addition is judged by itself (R58). -/
def acElement (fmt : Nat) (usePrior : Bool) (prior p : Word64) (entries : List Word64) : Word64 × Flags :=
  if fmt = 9 then
    let (v, o) := (entries ++ (if usePrior then [prior] else [])).foldl
      (fun (c, o) e => (accAdd 9 e c, o || (wrap32 (accInt e + accInt c)).2)) (p, false)
    (v, ⟨false, o, false⟩)
  else
    let m := foldEntries fmt p entries
    let v := acWrite fmt (if usePrior then accAdd fmt prior m else m)
    (v, .ofNf (accNf fmt v || accNf fmt p || (usePrior && accNf fmt prior)))

/-- ACOMBINE (R126). The first part names the stack of a combination; what a later part names is checked and not used.
DEDUCED, log entry 13. -/
def acBody (u : UnitId) (w : InstrWord) (s : State) : Done :=
  let x := s.unit u
  let c := acCheck x w
  if c ≠ 0 then .fault s c
  else if (acTouched w).any x.busySlots.contains then .stay (s.setUnit u { x with wait := .slot })
  else
    let fmt := acFmt w
    let ns := acSlots w
    let canon := bitOf w 87
    let cur : Comb := (if acFirst w then none else x.openComb (acDst w)).getD
      ⟨0, BitVec.ofNat 4 fmt, acDst w, ns, acStk w, if canon && !acLast w then acDepth w else 0, []⟩
    let (taken, m) := if canon then mergeCount (acLast w) 1 cur.stack else (0, 1)
    if canon && !acLast w && decide (cur.depth < cur.stack.length - taken + 1) then .fault s 0x15
    else
      let slots := (List.range taken).map fun i => cur.base + ns * (cur.stack.length - 1 - i)
      let usePrior := if canon then acLast w && !acSet w else !(acFirst w && acSet w)
      let (s, bad) := (acSrc w :: slots ++ (if usePrior then [acDst w] else [])).foldl
        (fun (s, bad) k => let (s, b) := touchTile u k ns s; (s, bad || b)) (s, false)
      if bad then .fault s 0x06
      else
        let out := (List.range (acRows w)).map fun r => (List.range (acCols w)).map fun n =>
          acElement fmt usePrior (readElem s u (acDst w) fmt (acCols w) r n) (readElem s u (acSrc w) fmt (acCols w) r n)
            (slots.map fun k => readElem s u k fmt (acCols w) r n)
        let fl := out.foldl (fun f row => row.foldl (fun f e => f.or e.2) f) Flags.none
        let vals := out.map fun row => row.map (·.1)
        let s :=
          if canon && !acLast w then
            writeTile u (cur.base + ns * (cur.stack.length - taken)) fmt (acCols w) 0 0 0 vals s
          else writeTile u (acDst w) fmt (acCols w) (fld w 78 77) (x.whGet (fld w 76 74)) 0 vals s
        let rest := x.combs.filter fun c => c.dst != acDst w
        .ok (s.modUnit u fun x =>
          { (x.flag fl) with
            combs := if acLast w then rest
              else { cur with next := acPart w + 1, stack := if canon then m :: cur.stack.drop taken else [] } :: rest })

def execAcombine (u : UnitId) (s : State) : Out := .next (issueRow 2 0x40 u (acBody u) s)

end Sys2Proof.Machine
end

