-- ==== Sys2Proof/Machine/ConvertUnit.lean ====
section
/-! DEFINITION. The convert class (Table 4.10; R152 to R155), and the conversion of a run of elements that shuttles and the
HX engine share with it (R65, R67, R72, R83). -/
namespace Sys2Proof.Machine

/-- A converted run: element codes, block scales, new residuals (absent: unchanged), vanished elements, flags. -/
structure Conv where
  codes : List Nat
  scales : List Byte
  resid : List (Option Word32)
  vanished : Nat
  fl : Flags
  deriving DecidableEq, Repr

def Conv.empty : Conv := ⟨[], [], [], 0, Flags.none⟩
def Conv.append (a b : Conv) : Conv :=
  ⟨a.codes ++ b.codes, a.scales ++ b.scales, a.resid ++ b.resid, a.vanished + b.vanished, a.fl.or b.fl⟩

/-- Padding elements of the last block are zero (R63). -/
def padVals (n : Nat) (vs : List Val) : List Val := vs ++ List.replicate (n - vs.length) Val.zero

/-- Convert values to a destination format: xs are the source values before scaling, ys after; index i0 is the first
element's for the draws. -/
def convRun (df : Nat) (draw : Nat → Option (BitVec 16)) (i0 : Nat) (xs ys : List Val) (fs : List Word32) : Conv :=
  let nfIn := xs.any fun v => !v.finite
  if df = 13 then
    let t := encT2 (padVals 32 ys) (fs ++ List.replicate (32 - fs.length) 0) fun j => draw (i0 + j)
    ⟨t.codes, [t.x8], match t.resid with
      | some r => (r.take xs.length).map some
      | none => xs.map fun _ => none, 0, .ofNf (nfIn || t.nf)⟩
  else if fmtBlock df then
    let (x8, cs) := encBlock df (padVals 32 ys)
    ⟨cs, [x8], [], vanishCount df x8 xs cs, .ofNf (nfIn || x8 == 0xFF)⟩
  else
    let es := ys.mapIdx fun j y => encElem df (draw (i0 + j)) y
    let cs := es.map (·.code)
    ⟨cs, [], [], vanishCount df 0 xs cs, es.foldl (fun f e => f.or e.fl) (.ofNf nfIn)⟩

/-- The run in blocks of 32. -/
def convBlocks (df : Nat) (draw : Nat → Option (BitVec 16)) : Nat → Nat → List Val → List Val → List Word32 → Conv
  | 0, _, _, _, _ => .empty
  | k + 1, i, xs, ys, fs =>
    if xs.isEmpty then .empty
    else (convRun df draw i (xs.take 32) (ys.take 32) (fs.take 32)).append
      (convBlocks df draw k (i + 32) (xs.drop 32) (ys.drop 32) (fs.drop 32))

def convAll (df : Nat) (draw : Nat → Option (BitVec 16)) (xs ys : List Val) (fs : List Word32) : Conv :=
  convBlocks df draw (xs.length / 32 + 1) 0 xs ys fs

/-! ## CVT -/

def cvSfmt (w : InstrWord) : Nat := fld w 114 111
def cvDfmt (w : InstrWord) : Nat := fld w 110 107
def cvRnd (w : InstrWord) : Bool := bitOf w 106
def cvVidx (w : InstrWord) : Nat := fld w 105 102
def cvExp (w : InstrWord) : Int := (w.extractLsb' 69 8).toInt

/-- Addresses of a CVT of n elements: source, source scales, destination, destination scales, residuals. -/
structure CvtAddr where
  src : Nat
  sscale : Nat
  dst : Nat
  dscale : Nat
  resid : Nat

def cvtAddr (x : UnitState) (w : InstrWord) : CvtAddr :=
  let aux := fun (i : Nat) => if fld w 86 82 + i < 32 then (x.gpGet (fld w 86 82 + i)).toNat else 0
  ⟨(x.gpGet (fld w 101 97)).toNat, aux 0, (x.gpGet (fld w 96 92)).toNat, aux 1, aux 2⟩

def blocksOf (n : Nat) : Nat := (n + 31) / 32
def tensorBytes (f n : Nat) : Nat := (n * fmtBits f + 7) / 8
/-- Bytes of a destination: whole padded blocks (R153). -/
def destBytes (f n : Nat) : Nat := tensorBytes f (if fmtBlock f then 32 * blocksOf n else n)

def cvtReads (a : CvtAddr) (sf df n : Nat) : List (Nat × Nat × Nat) :=
  [(a.src, tensorBytes sf n, fmtAlign sf)] ++ (if fmtBlock sf then [(a.sscale, blocksOf n, 1)] else []) ++
    (if df = 13 then [(a.resid, 4 * n, 4)] else [])

def cvtWrites (a : CvtAddr) (df n : Nat) : List (Nat × Nat × Nat) :=
  [(a.dst, destBytes df n, fmtAlign df)] ++ (if fmtBlock df then [(a.dscale, blocksOf n, 1)] else [])

/-- Elements before the first that draws on a poisoned byte; whole blocks where a block format is involved. -/
def soundElems (s : State) (u : UnitId) (a : CvtAddr) (sf df n : Nat) : Nat :=
  let pois := fun (addr len : Nat) => match localRegion u addr len with
    | some r => s.anyPoison r (unitAddr u addr) len
    | none => false
  let bad := fun (i : Nat) =>
    pois (a.src + i * fmtBits sf / 8) (max 1 (fmtBits sf / 8)) || (fmtBlock sf && pois (a.sscale + i / 32) 1) ||
      (df == 13 && pois (a.resid + 4 * i) 4)
  match (List.range n).find? bad with
  | none => n
  | some i => if fmtBlock sf || fmtBlock df then i / 32 * 32 else i

/-- Convert n elements and write them, their scales and residuals; vanish counts and residuals stand still in a replay
launch (R185). -/
def cvtRun (u : UnitId) (w : InstrWord) (x : UnitState) (n : Nat) (s : State) : State :=
  let a := cvtAddr x w
  let sf := cvSfmt w
  let df := cvDfmt w
  let g := fun (r : Nat) => if r < 32 then x.gpGet r else 0
  let rng := g (fld w 81 77)
  let base := (g (fld w 81 77 + 1)).extractLsb' 0 48
  let draw := fun (i : Nat) => if cvRnd w then
      some (drawAt s (rng.extractLsb' 0 32) (rng.extractLsb' 32 16) 2 (base + BitVec.ofNat 48 i)) else none
  let bytes := s.rawRead (unitAddr u a.src) (tensorBytes sf n)
  let scs := if fmtBlock sf then s.rawRead (unitAddr u a.sscale) (blocksOf n) else []
  let src := elemsOf (fmtBits sf) n bytes
  let xs := src.mapIdx fun i c =>
    if fmtBlock sf then blockVal sf c (scs.getD (i / 32) 0) else elemVal sf c
  let fs := if df = 13 then (elemsOf 32 n (s.rawRead (unitAddr u a.resid) (4 * n))).map (BitVec.ofNat 32) else []
  let r := convAll df draw xs (xs.map (Val.scale (cvExp w))) fs
  let s := unitWrite u a.dst (packCodes (fmtBits df) (r.codes.mapIdx fun i c => keepNan sf df (src.getD i 0) c)) s
  let s := unitWrite u a.dscale (if fmtBlock df then r.scales else []) s
  let s := if df = 13 && !x.replay then
      (r.resid.mapIdx fun i f => (i, f)).foldl (fun s (i, f) => match f with
        | some v => unitWrite u (a.resid + 4 * i) (leBytes 4 v.toNat) s
        | none => s) s
    else s
  let s := if x.replay then s else s.bump (unitOff u (0x80 + 4 * cvVidx w)) r.vanished
  s.unitFlag u r.fl

def cvtBody (u : UnitId) (w : InstrWord) (s : State) : Done :=
  let x := s.unit u
  let sf := cvSfmt w
  let df := cvDfmt w
  let n := (x.gpGet (fld w 91 87)).toNat
  if 14 ≤ sf ∨ 14 ≤ df ∨ !rndOk df (cvRnd w) then .fault s 0x20
  else if 16777216 < n then .fault s 0x21
  else if n = 0 then .ok s
  else
    let a := cvtAddr x w
    withAccess u .vec (cvtReads a sf df n ++ cvtWrites a df n) s fun s =>
      let s := (cvtReads a sf df n).foldl (fun s (b, len, _) => (unitRead u b len s).1) s
      let k := soundElems s u a sf df n
      if k = n then .ok (cvtRun u w x n s)
      else if k = 0 then .fault s 0x06
      else .fault ((cvtRun u w x k s).modUnit u fun x => { x with mxPartial := true }) 0x06

def execCvt (u : UnitId) (s : State) : Out := .next (issueRow 3 0x01 u (cvtBody u) s)

/-- VCVT between F32 and I32 (R154). -/
def vcvtBody (u : UnitId) (w : InstrWord) (s : State) : Done :=
  let x := s.unit u
  let sf := cvSfmt w
  let df := cvDfmt w
  if !((sf == 0 && df == 9) || (sf == 9 && df == 0)) || cvRnd w then .fault s 0x20
  else .ok (putLanes u (fld w 96 92) (fun i =>
    let v := elemVal sf (x.lane (fld w 101 97) i).toNat
    let e := encElem df none v
    (BitVec.ofNat 32 e.code, e.fl.or (.ofNf (!v.finite)))) s)

def execVcvt (u : UnitId) (s : State) : Out := .next (issueRow 3 0x02 u (vcvtBody u) s)

end Sys2Proof.Machine
end

