-- ==== Sys2Proof/Machine/Copy.lean ====
section
/-! DEFINITION. What one shuttle descriptor moves: geometry, checks and conversions of COPY (R234 to R244), and FILL
(R246), local and remote. -/
namespace Sys2Proof.Machine

/-- The descriptor that runs: the shuttle, the issuer's cluster, the replay bit (R185), the descriptor. -/
structure Ctx where
  sh : ShuttleId
  replay : Bool
  d : Desc

def Ctx.block (c : Ctx) : Bool := fmtBlock c.d.sfmt || fmtBlock c.d.dfmt
def Ctx.toT2 (c : Ctx) : Bool := c.d.conv && c.d.dfmt == 13


/-! ## Geometry -/

/-- E of a SKEW or OSKEW layout. -/
def Ctx.edge (c : Ctx) : Nat := if c.d.layout = 1 ∨ c.d.layout = 3 then 64 else 128
def Ctx.oskew (c : Ctx) : Bool := decide (3 ≤ c.d.layout)
def Ctx.paired (c : Ctx) : Bool := c.d.paired && !c.oskew && c.d.layout != 0
/-- Elements per cell row. -/
def Ctx.epr (c : Ctx) : Nat := if c.paired then 2 else 1
/-- Elements that are read and converted together: a block, or the elements of one lane. -/
def Ctx.grain (c : Ctx) : Nat := if c.block then 32 else c.epr
def Ctx.lanes (c : Ctx) : Nat := if c.oskew then c.d.len else c.edge
def Ctx.laneBits (c : Ctx) : Nat := c.epr * fmtBits c.d.dfmt
def Ctx.lineBytes (c : Ctx) : Nat := c.lanes * c.laneBits / 8
/-- Steps of an image: its row count (R92), or K for OSKEW. -/
def Ctx.steps (c : Ctx) : Nat := if c.oskew then c.d.rows else c.d.len / c.epr
def Ctx.srcRows (c : Ctx) : Nat := if c.d.layout = 0 ∨ c.oskew then c.d.rows else c.edge

/-- Chunks of R89 as (first cell row, rows). -/
def chunkList (e rows : Nat) : List (Nat × Nat) :=
  let full := rows / e
  let rem := rows % e
  let parts := [64, 32, 16].foldl (fun (acc : List (Nat × Nat) × Nat × Nat) p =>
    if p ≤ acc.2.2 then (acc.1 ++ [(acc.2.1, p)], acc.2.1 + p, acc.2.2 - p) else acc) ([], full * e, rem)
  (List.range full).map (fun i => (i * e, e)) ++ parts.1

/-- Chunks of the source: one for OSKEW, whose rows are read in ascending order. -/
def Ctx.chunks (c : Ctx) : List (Nat × Nat) := if c.oskew then [(0, c.d.len)] else chunkList c.edge c.steps

/-- Start of a row, as an integer: an address below 0 lies outside every range. -/
def rowAt (base : Nat) (r : Nat) (pitch : Int) : Int := base + r * pitch

/-- Base of a piece as a 64-bit address: one below 0, which only a remote row can have, lies outside every range of the
module that it is sent to. -/
def addr64 (a : Int) : Nat := (a % 2 ^ 64).toNat

/-- A span of bytes: base, length. -/
abbrev Span := Int × Nat

def Ctx.srcRow (c : Ctx) (r : Nat) : Span := (rowAt c.d.src r c.d.spitch, tensorBytes c.d.sfmt c.d.len)
def Ctx.srcScale (c : Ctx) (r : Nat) : Span := (c.d.sscale + r * blocksOf c.d.len, blocksOf c.d.len)
def Ctx.residRow (c : Ctx) (r : Nat) : Span := (c.d.resid + 4 * r * c.d.len, 4 * c.d.len)

/-- Pieces of an image line of n bytes at base address a: past the end of its 256-byte row it wraps to its start (R238). -/
def wrapPieces : Nat → Nat → Nat → List (Nat × Nat)
  | 0, _, _ => []
  | _, _, 0 => []
  | k + 1, a, n =>
    let m := min n (256 - a % 256)
    (a, m) :: wrapPieces k (a / 256 * 256) (n - m)

def pieces (a n : Nat) : List (Nat × Nat) := wrapPieces (n / 256 + 2) a n

/-- Row r is not written under WMODE 1. -/
def Ctx.rowWhey (c : Ctx) (r : Nat) : Bool := c.d.wmode == 1 && decide (r < 128) && c.d.whey.getLsbD r
/-- Element e is not written under WMODE 2. -/
def Ctx.elemWhey (c : Ctx) (e : Nat) : Bool := c.d.wmode == 2 && decide (e < 128) && c.d.whey.getLsbD e

/-- Written spans of a LINEAR row: runs of elements between whey elements. -/
def Ctx.rowRuns (c : Ctx) (r : Nat) : List Span :=
  let a := rowAt c.d.dst r c.d.dpitch
  if c.rowWhey r then []
  else if c.d.wmode = 2 then
    let w := fmtBits c.d.dfmt / 8
    let hd := (List.range (min 128 c.d.len)).filterMap fun e => if c.elemWhey e then none else some (a + e * w, w)
    let tl := if 128 < c.d.len then [(a + 128 * w, (c.d.len - 128) * w)] else []
    (hd ++ tl).foldr (fun x acc => match acc with
      | [] => [x]
      | y :: t => if x.1 + x.2 = y.1 then (x.1, x.2 + y.2) :: t else x :: acc) []
  else [(a, destBytes c.d.dfmt c.d.len)]

def Ctx.dstSpans (c : Ctx) : List Span :=
  if c.d.layout = 0 then
    (List.range c.d.rows).flatMap fun r => c.rowRuns r ++
      (if fmtBlock c.d.dfmt && !c.rowWhey r then [((c.d.dscale + r * blocksOf c.d.len : Int), blocksOf c.d.len)] else [])
  else
    (List.range (c.steps + c.edge - 1)).flatMap fun n =>
      ((pieces (c.d.dst + 256 * n) c.lineBytes ++
        (if fmtBlock c.d.dfmt then pieces (c.d.dscale + 256 * n) (c.edge / 16) else [])).map fun (a, k) => ((a : Int), k))

def Ctx.srcSpans (c : Ctx) : List Span :=
  (List.range c.srcRows).flatMap fun r => c.srcRow r :: (if fmtBlock c.d.sfmt then [c.srcScale r] else [])

def Ctx.residSpans (c : Ctx) : List Span := if c.toT2 then (List.range c.srcRows).map c.residRow else []

/-- Units that a descriptor writes: those of UMASK, or none for a module address. -/
def Ctx.targets (c : Ctx) : List (Option UnitId) :=
  if c.d.umask = 0 then [none]
  else (List.finRange 8).filterMap fun i => if c.d.umask.testBit i.val then some (some (c.sh.cluster.unit i)) else none

/-- Module address of a destination address for one target. -/
def targetAddr (t : Option UnitId) (a : Nat) : Nat :=
  match t with
  | some u => unitAddr u a
  | none => a

/-! ## Checks before the first write (R247) -/

def pow2Scale (k : Word32) : Bool := bitOf k 31 == false && fld k 22 0 == 0 && decide (1 ≤ fld k 30 23) && decide (fld k 30 23 ≤ 254)

/-- Pairs of Table 2.8 with the direction of the scale: true multiplies by k. -/
def scaledPair (sf df : Nat) : Option Bool :=
  if sf = 0 ∧ df = 3 ∨ sf = 3 ∧ df = 5 then some true
  else if sf = 3 ∧ df = 0 ∨ sf = 5 ∧ df = 3 then some false
  else none

def kOk (k : Nat) (b : Bool) : Bool := decide (16 ≤ k) && decide (k ≤ 4096) && k % 16 == 0 && (!b || k % 32 == 0)

/-- Field, format and shape checks of a COPY: a cause of Table 5.12. DESIGN CHOICE, log entry 49. -/
def Ctx.copyCause (c : Ctx) : Option Nat :=
  let d := c.d
  if 4 < d.layout ∨ d.wmode = 3 ∨ d.vchk = 3 ∨ (d.umask ≠ 0 ∧ d.remote) ∨ (d.wmode ≠ 0 ∧ d.layout ≠ 0) ∨
      (d.wmode = 2 ∧ fmtBlock d.dfmt) then some 1
  else if d.sfmt = 15 ∨ d.dfmt = 15 ∨ ((d.conv || c.block) && !d.ext) ∨ (c.oskew ∧ fmtBlock d.dfmt) ∨
      (!d.conv ∧ d.sfmt ≠ d.dfmt) ∨
      (d.conv ∧ (3 < c.sh.k.val ∨ !rndOk d.dfmt d.rnd ∨
        !(match scaledPair d.sfmt d.dfmt with
          | some _ => pow2Scale d.k
          | none => (d.sfmt == 0 && d.dfmt == 13) || (d.sfmt == 13 && d.dfmt == 0 && !d.rnd)))) then some 2
  else if d.layout = 0 then
    if fmtBlock d.sfmt ∧ d.len % 32 ≠ 0 then some 3 else none
  else if c.oskew then
    if (d.len = c.edge ∨ (d.layout = 3 ∧ d.len = 128)) ∧ kOk d.rows false then none else some 3
  else if d.rows = c.edge ∧ kOk d.len (c.block || c.paired) then none
  else some 3

/-- A span that a shuttle may reach: in a range of the address map, aligned to 4 bytes in accumulator memory; a write in an
alias range covers whole words (R204, R206, R208). -/
def spanOk (write : Bool) (x : Span) : Bool :=
  if x.2 = 0 then true
  else if x.1 < 0 then false
  else
    let a := x.1.toNat
    match regionOf a x.2 with
    | none => false
    | some (.acc _) => a % 4 == 0
    | some (.setBits _) | some (.clrBits _) => !write || (a % 8 == 0 && x.2 % 8 == 0)
    | some _ => true

/-- Destination spans on this module, target by target; an offset of a multicast lies in the unit's window. -/
def destOk (ts : List (Option UnitId)) (x : Span) : Bool :=
  ts.all fun t => match t with
    | none => spanOk true x
    | some u => if x.2 = 0 then true else if x.1 < 0 ∨ (unitWindow : Int) ≤ x.1 then false else spanOk true ((unitAddr u 0 : Int) + x.1, x.2)

def Ctx.copyAddrOk (c : Ctx) : Bool :=
  c.srcSpans.all (spanOk false) && c.residSpans.all (spanOk true) && (c.d.remote || c.dstSpans.all (destOk c.targets))

/-- A span in the engine-queue range. DESIGN CHOICE, log entry 8. -/
def inQueues (x : Span) : Bool := decide (0 < x.2) && regionOf x.1.toNat x.2 == some .queues

/-- A span of accumulator memory that touches a busy slot (R108). -/
def busySpan (s : State) (a n : Nat) : Bool :=
  match regionOf a n with
  | some (.acc u) => ((blocks 16384 ((a - unitBase) % unitWindow - 0x200000) n).map (· / 16384)).any (s.unit u).busySlots.contains
  | _ => false

def anyBusy (s : State) (ts : List (Option UnitId)) (local_ dst : List Span) : Bool :=
  local_.any (fun x => decide (0 < x.2) && busySpan s x.1.toNat x.2) ||
    dst.any fun x => decide (0 < x.2) && ts.any fun t => busySpan s (targetAddr t x.1.toNat) x.2

/-! ## Access by access -/

/-- An access by the shuttle: owner codes and open stacks. -/
def shAdmit (sh : ShuttleId) (a n : Nat) (s : State) : State × Bool :=
  if n = 0 then (s, true)
  else match regionOf a n with
    | some r => openSpan r a n (.shuttle sh) s
    | none => (s, true)

/-- The version of every DRAM line of a span satisfies VCHK (R226). -/
def versionsOk (d : Desc) (a n : Nat) (s : State) : Bool :=
  match regionOf a n with
  | some (.dram _) => (blocks 64 a n).all fun l =>
      let v := s.version l
      if d.vchk = 1 then v == d.vexp else if d.vchk = 2 then decide ((v - d.vexp).toNat < 64) else true
  | _ => true

/-- The destination lies on F. -/
def Ctx.onF (c : Ctx) : Bool := !c.d.remote && c.dstSpans.any fun x => c.targets.any fun t => inQueues ((targetAddr t x.1.toNat : Int), x.2)

/-- One source access: refused, a failed version, or poison that may not go to F or to another module (R223). -/
def readSpan (c : Ctx) (a n : Nat) (s : State) : State × Option Nat :=
  if n = 0 then (s, none)
  else
    let (s, ok) := shAdmit c.sh a n s
    if !ok then (s, some 8)
    else match regionOf a n with
      | none => (s, none)
      | some r =>
        let s := touch r a n s
        if !versionsOk c.d a n s then (s, some 0x0A)
        else if s.anyPoison r a n && (c.d.remote || c.onF) then (s, some 9)
        else (s, none)

/-- A run of elements of one source row: row, first element, elements. -/
structure Cell where
  r : Nat
  e : Nat
  n : Nat

def Ctx.cellSrc (c : Ctx) (x : Cell) : Nat × Nat :=
  (((c.srcRow x.r).1.toNat + x.e * fmtBits c.d.sfmt / 8), tensorBytes c.d.sfmt x.n)
def Ctx.cellScale (c : Ctx) (x : Cell) : Nat × Nat :=
  ((c.srcScale x.r).1.toNat + x.e / 32, if fmtBlock c.d.sfmt then 1 else 0)
def Ctx.cellResid (c : Ctx) (x : Cell) : Nat × Nat :=
  ((c.residRow x.r).1.toNat + 4 * x.e, if c.toT2 then 4 * x.n else 0)

/-- Spans read in order, up to the first that fails: the bytes that have passed, and the cause. -/
def readSpans (c : Ctx) : List (Nat × Nat) → State → State × Nat × Option Nat
  | [], s => (s, 0, none)
  | (a, n) :: t, s =>
    match readSpan c a n s with
    | (s, some f) => (s, 0, some f)
    | (s, none) =>
      let (s, k, f) := readSpans c t s
      (s, n + k, f)

/-- A span as accesses, each within one 64-bit word (R192). DESIGN CHOICE, log entry 49. -/
def wordSpans (a n : Nat) : List (Nat × Nat) :=
  (blocks 8 a n).map fun w => (max a w, min (a + n) (w + 8) - max a w)

/-- The elements of a cell whose every source byte is among the first k that it reads: its scale byte, its elements,
their residuals. Elements that are converted to a block depend on the whole cell. -/
def Ctx.cellPassed (c : Ctx) (x : Cell) (k : Nat) : Option Nat :=
  let sc := (c.cellScale x).2
  let n := (c.cellSrc x).2
  if k < sc ∨ (c.d.conv ∧ fmtBlock c.d.dfmt) then none
  else if c.toT2 then some ((k - sc - n) / 4)
  else some (min x.n ((k - sc) * 8 / fmtBits c.d.sfmt))

/-- Read a cell, its scale byte first. A read that fails has ended the descriptor at that access: with the elements that
have passed, where there may be any. DESIGN CHOICE, log entry 49. -/
def readCell (c : Ctx) (x : Cell) (s : State) : State × Option Nat × Option Nat :=
  let spans := [c.cellScale x, c.cellSrc x, c.cellResid x]
  match readSpans c spans s with
  | (s, _, none) => (s, some x.n, none)
  | _ =>
    let (s, k, f) := readSpans c (spans.flatMap fun (a, n) => wordSpans a n) s
    (s, c.cellPassed x k, f)

/-- The first failing read of a list of cells: the state, the cells read, with what has passed of the one that failed, and the
cause. -/
def readCells (c : Ctx) : List Cell → State → State × List Cell × Option Nat
  | [], s => (s, [], none)
  | x :: t, s =>
    match readCell c x s with
    | (s, some n, some f) => (s, [{ x with n := n }], some f)
    | (s, none, some f) => (s, [], some f)
    | (s, _, none) =>
      let (s, ok, f) := readCells c t s
      (s, x :: ok, f)

/-- A cell as it is to be written. `pois` is per element code. -/
structure CellOut where
  cell : Cell
  codes : List Nat
  pois : List Bool
  bytePois : List Bool
  scale : Option (Byte × Bool)
  resid : List (Option Word32)
  vanished : Nat
  fl : Flags

/-- n bytes at a module address, an alias range reading as the words behind it. -/
def bytesAt (s : State) (a n : Nat) : List Byte :=
  match regionOf a n with
  | some r => s.rawRead (plainAddr r a) n
  | none => List.replicate n 0

def isPois (s : State) (a : Nat) : Bool :=
  match regionOf a 1 with
  | some r => s.poisoned r a
  | none => false

/-- Poison of the element at bit offset w·j of bytes whose poison is given. DEDUCED, log entry 50. -/
def elemPois (w j : Nat) (bp : List Bool) : Bool :=
  (List.range ((w * j % 8 + w + 7) / 8)).any fun i => bp.getD (w * j / 8 + i) false

def scaleOfK (k : Word32) : Int := (fld k 30 23 : Int) - 127

/-- The codes of a cell that has been read (R82, R83, R223, R235, R236). F8G to B16 takes RND as R70 allows
for B16, so that an underflow may round stochastically. DEDUCED, log entry 50. -/
def cellOut (c : Ctx) (s : State) (x : Cell) : CellOut :=
  let d := c.d
  let w := fmtBits d.sfmt
  let (a, n) := c.cellSrc x
  let bytes := bytesAt s a n
  let bp := (List.range n).map fun i => isPois s (a + i)
  let sc := (c.cellScale x).1
  let scByte : Byte := (bytesAt s sc 1).headD 0
  let scBad := fmtBlock d.sfmt && isPois s sc
  let cs := elemsOf w x.n bytes
  let ep := (List.range x.n).map fun j => elemPois w j bp
  if !d.conv then
    ⟨x, cs, ep, bp, if fmtBlock d.sfmt then some (scByte, scBad) else none, [], 0, Flags.none⟩
  else
    let xs := cs.map fun k => if fmtBlock d.sfmt then blockVal d.sfmt k scByte else elemVal d.sfmt k
    let ys := match scaledPair d.sfmt d.dfmt with
      | some true => xs.map (Val.scale (scaleOfK d.k))
      | some false => xs.map (Val.scale (-(scaleOfK d.k)))
      | none => xs
    let ra := (c.cellResid x).1
    let fs := if c.toT2 then (List.range x.n).map fun j => BitVec.ofNat 32 (leNat (bytesAt s (ra + 4 * j) 4)) else []
    let pos : BitVec 48 := d.posbase + BitVec.ofNat 48 (x.r * d.len + x.e)
    let draw := fun (j : Nat) => if d.rnd then some (drawAt s d.step d.stream 2 (pos + BitVec.ofNat 48 j)) else none
    let v := convRun d.dfmt draw 0 xs ys fs
    let rp := (List.range x.n).map fun j => c.toT2 && (List.range 4).any fun i => isPois s (ra + 4 * j + i)
    let ep := (ep.zip rp).map fun (p, q) => p || q || scBad
    let ep := if fmtBlock d.dfmt then v.codes.map fun _ => ep.any id else ep
    let dw := fmtBits d.dfmt
    let bp := (List.range ((dw * v.codes.length + 7) / 8)).map fun b => ep.getD (8 * b / dw) false
    ⟨x, v.codes, ep, bp, v.scales.head?.map fun k => (k, ep.any id), v.resid, v.vanished, v.fl⟩

/-- Count vanished elements (R68, R185) and raise the shuttle's flag (R77). -/
def noteConv (c : Ctx) (os : List CellOut) (s : State) : State :=
  if !c.d.conv then s
  else
    let van := os.foldl (fun n o => n + o.vanished) 0
    let nf := os.any fun o => o.fl.nf
    let s := if c.replay then s else s.bump (shtOff c.sh.cluster (0x100 + 0x40 * c.sh.k.val + 4 * c.d.vidx)) van
    if nf then s.modSh c.sh fun h => { h with nf := true } else s

/-! ## Writes -/

/-- Bytes for one contiguous destination span, with their poison. -/
structure Piece where
  a : Nat
  bytes : List Byte
  pois : List Bool

/-- Join pieces that follow on one another. -/
def joinPieces : List Piece → List Piece
  | [] => []
  | p :: t =>
    match joinPieces t with
    | [] => [p]
    | q :: r => if p.a + p.bytes.length = q.a then ⟨p.a, p.bytes ++ q.bytes, p.pois ++ q.pois⟩ :: r else p :: q :: r

/-- Write one piece: data with the descriptor's version, then the poison of its source (R223, R224).
DEDUCED, log entry 50. -/
def putPiece (ver : BitVec 7) (p : Piece) (s : State) : State :=
  let s := writeMem p.a p.bytes ver s
  (List.range p.bytes.length).foldl (fun s i =>
    if p.pois.getD i false then match regionOf (p.a + i) 1 with
      | some r => poisonSpan r (p.a + i) 1 s
      | none => s
    else s) s

/-- The part of a piece that lies in a span within it. -/
def Piece.part (p : Piece) (x : Nat × Nat) : Piece :=
  ⟨x.1, (p.bytes.drop (x.1 - p.a)).take x.2, (p.pois.drop (x.1 - p.a)).take x.2⟩

/-- The words of a piece before the first that is refused: every earlier write stands (R192, R194, R247).
DESIGN CHOICE, log entry 49. -/
def admitWords (sh : ShuttleId) : List Piece → State → State × List Piece
  | [], s => (s, [])
  | p :: t, s =>
    match shAdmit sh p.a p.bytes.length s with
    | (s, false) => (s, [])
    | (s, true) =>
      let (s, ok) := admitWords sh t s
      (s, p :: ok)

/-- The pieces, and words of pieces, before the first that owner codes or open stacks refuse. -/
def admitPieces (sh : ShuttleId) : List Piece → State → State × List Piece × Bool
  | [], s => (s, [], true)
  | p :: t, s =>
    match shAdmit sh p.a p.bytes.length s with
    | (_, false) =>
      let (s, ok) := admitWords sh ((wordSpans p.a p.bytes.length).map p.part) s
      (s, ok, false)
    | (s, true) =>
      let (s, ok, all) := admitPieces sh t s
      (s, p :: ok, all)

/-- Progress of a descriptor: the state, bytes written here, packets for another module, the cause that ended it. -/
structure Prog where
  s : State
  written : Nat
  packets : List Packet
  cause : Option Nat

/-- Payloads of a remote span: at most 4,096 bytes, none across a 4 KiB boundary (R319). -/
def splitRemote : Nat → Nat → List Byte → List (Nat × List Byte)
  | 0, _, _ => []
  | k + 1, a, bs =>
    if bs.isEmpty then []
    else
      let n := 4096 - a % 4096
      (a, bs.take n) :: splitRemote k (a + n) (bs.drop n)

def remotePackets (d : Desc) (p : Piece) : List Packet :=
  (splitRemote (p.bytes.length / 4096 + 2) p.a p.bytes).map fun (a, bs) =>
    { Packet.blank with typ := 1, cls := 2, dst := d.node, addr := BitVec.ofNat 64 a, vers := d.version.zeroExtend 8, payload := bs }

/-- Write pieces to one target, or send them. -/
def putAll (c : Ctx) (t : Option UnitId) (ps : List Piece) (g : Prog) : Prog :=
  if g.cause.isSome then g
  else if c.d.remote then { g with packets := g.packets ++ (joinPieces ps).flatMap (remotePackets c.d) }
  else
    let ps := ps.map fun p => { p with a := targetAddr t p.a }
    let (s, ok, all) := admitPieces c.sh ps g.s
    let s := (joinPieces ok).foldl (fun s p => putPiece c.d.version p s) s
    ⟨s, g.written + ok.foldl (fun n p => n + p.bytes.length) 0, g.packets, if all then none else some 8⟩

/-- Residuals of cells (R83, R185). -/
def putResid (c : Ctx) (os : List CellOut) (g : Prog) : Prog :=
  if g.cause.isSome || !c.toT2 || c.replay then g
  else
    let ps := os.flatMap fun o => (o.resid.mapIdx fun j r => (j, r)).filterMap fun (j, r) => r.map fun v =>
      let bad := o.pois.getD j false
      Piece.mk ((c.cellResid o.cell).1 + 4 * j) (leBytes 4 v.toNat) [bad, bad, bad, bad]
    let (s, ok, all) := admitPieces c.sh ps g.s
    let s := (joinPieces ok).foldl (fun s p => putPiece c.d.version p s) s
    ⟨s, g.written, g.packets, if all then none else some 8⟩

/-! ## LINEAR (R235) -/

def Ctx.rowCells (c : Ctx) (r : Nat) : List Cell :=
  (List.range ((c.d.len + c.grain - 1) / c.grain)).map fun i => ⟨r, i * c.grain, min c.grain (c.d.len - i * c.grain)⟩

/-- Destination pieces of a cell, whey elements left out. -/
def Ctx.cellPieces (c : Ctx) (o : CellOut) : List Piece :=
  let w := fmtBits c.d.dfmt
  let base := addr64 (rowAt c.d.dst o.cell.r c.d.dpitch) + o.cell.e * w / 8
  if fmtBlock c.d.dfmt then [⟨base, packCodes w o.codes, o.bytePois⟩]
  else (o.codes.mapIdx fun j k => (j, k)).filterMap fun (j, k) =>
    if c.elemWhey (o.cell.e + j) then none
    else some ⟨base + j * w / 8, leBytes (w / 8) k, (o.bytePois.drop (j * w / 8)).take (w / 8)⟩

def Ctx.scalePieces (c : Ctx) (os : List CellOut) : List Piece :=
  if fmtBlock c.d.dfmt then
    os.filterMap fun o => o.scale.map fun (k, p) => ⟨c.d.dscale + o.cell.r * blocksOf c.d.len + o.cell.e / 32, [k], [p]⟩
  else []

def copyRow (c : Ctx) (g : Prog) (r : Nat) : Prog :=
  if g.cause.isSome then g
  else
    let (s, cells, cause) := readCells c (c.rowCells r) g.s
    let os := cells.map (cellOut c s)
    let g := { g with s := noteConv c os s }
    let g := if c.rowWhey r then g else
      c.targets.foldl (fun g t => putAll c t (c.scalePieces os) (putAll c t (os.flatMap c.cellPieces) g)) g
    let g := putResid c os g
    if g.cause.isSome then g else { g with cause := cause }

/-! ## Images (R237 to R241) -/

/-- Cells in the order of R247. -/
def Ctx.imageCells (c : Ctx) : List Cell :=
  c.chunks.flatMap fun (c0, r) => (List.range c.srcRows).flatMap fun m =>
    (List.range (r * c.epr / c.grain)).map fun i => ⟨m, c0 * c.epr + i * c.grain, c.grain⟩

/-- Place of element e of row m in that order. -/
def Ctx.ordOf (c : Ctx) (c0 r m e : Nat) : Nat := (c.srcRows * c0 * c.epr + m * (r * c.epr) + (e - c0 * c.epr)) / c.grain

/-- The element in lane j of line n: its chunk, its row and its first element; the last chunk that reaches the lane stands. -/
def Ctx.laneElem (c : Ctx) (n j : Nat) : Option (Nat × Nat × Nat × Nat) :=
  if c.oskew then
    let i := j % c.edge
    if i ≤ n ∧ n - i < c.d.rows then some (0, c.d.len, n - i, j) else none
  else
    c.chunks.reverse.findSome? fun (c0, r) =>
      let g := j / r
      let i := j % r
      if c0 + i ≤ n ∧ n - (c0 + i) < r then
        some (c0, r, c.edge / r * (n - (c0 + i)) + g, (c0 + i) * c.epr) else none

/-- The pieces of image line n from the cells read: its element line and, of a block-scaled image, its scale line;
neither where it draws on a byte that was not read. -/
def Ctx.line (c : Ctx) (os : List CellOut) (n : Nat) : List Piece :=
  let w := fmtBits c.d.dfmt
  let lanes := (List.range c.lanes).map fun j => (c.laneElem n j).map fun (c0, r, m, e) => (c.ordOf c0 r m e, e)
  let read := fun (x : Option (Nat × Nat)) => match x with
    | none => true
    | some (o, e) => match os[o]? with
      | none => false
      | some q => decide (e - q.cell.e + c.epr ≤ q.codes.length)
  let val := fun (x : Option (Nat × Nat)) => match x with
    | none => (0, false)
    | some (o, e) =>
      match os[o]? with
      | none => (0, false)
      | some q =>
        let one := fun (i : Nat) => (q.codes.getD i 0, q.pois.getD i false)
        let i := e - q.cell.e
        if c.paired then ((one i).1 + 2 ^ w * (one (i + 1)).1, (one i).2 || (one (i + 1)).2) else one i
  let vs := lanes.map val
  let bytes := packCodes c.laneBits (vs.map (·.1))
  let pois := (List.range bytes.length).map fun b =>
    (List.range (8 / c.laneBits + 2)).any fun i =>
      let j := 8 * b / c.laneBits + i
      decide (j * c.laneBits < 8 * b + 8) && (vs.getD j (0, false)).2
  let split := fun (a : Nat) (bs : List Byte) (ps : List Bool) =>
    ((pieces a bs.length).foldl (fun (acc : List Piece × Nat) (p : Nat × Nat) =>
      (acc.1 ++ [⟨p.1, (bs.drop acc.2).take p.2, (ps.drop acc.2).take p.2⟩], acc.2 + p.2)) ([], 0)).1
  let main := if lanes.all read then split (c.d.dst + 256 * n) bytes pois else []
  let blocks := (List.range (c.edge / 16)).map fun b => lanes.getD (16 * b) none
  let scale := fun (x : Option (Nat × Nat)) => x.bind fun (o, _) => os[o]?.bind (·.scale)
  let sl := blocks.map fun x => (scale x).getD ((0 : Byte), false)
  if fmtBlock c.d.dfmt && blocks.all (fun x => x.isNone || (scale x).isSome) then
    main ++ split (c.d.dscale + 256 * n) (sl.map (·.1)) (sl.map (·.2))
  else main

def copyImage (c : Ctx) (g : Prog) : Prog :=
  let (s, cells, cause) := readCells c c.imageCells g.s
  let os := cells.map (cellOut c s)
  let g := { g with s := noteConv c os s }
  let g := (List.range (c.steps + c.edge - 1)).foldl (fun g n => c.targets.foldl (fun g t => putAll c t (c.line os n) g) g) g
  let g := putResid c os g
  if g.cause.isSome then g else { g with cause := cause }

/-- What a COPY that passed its checks does. DESIGN CHOICE, log entry 49. -/
def runCopy (c : Ctx) (s : State) : Prog :=
  if c.d.layout = 0 then (List.range c.d.rows).foldl (copyRow c) ⟨s, 0, [], none⟩ else copyImage c ⟨s, 0, [], none⟩

/-- A COPY with no element (R235). -/
def Ctx.isEmpty (c : Ctx) : Bool := c.d.layout == 0 && (c.d.len == 0 || c.d.rows == 0)

/-! ## FILL (R246) -/

/-- The fields of word 0 in Table 5.10 other than TYPE, END and VERSION; its reserved bits [63:42] are ignored (R8). -/
def fillBits : Word64 := 0x3FE03FFFFE0

/-- R246 asks for zero in those fields and names no consequence: DESC_FIELD. DESIGN CHOICE, log entry 49. -/
def Ctx.fillCause (c : Ctx) : Option Nat :=
  if c.d.word0 &&& fillBits ≠ 0 ∨ (c.d.umask ≠ 0 ∧ c.d.remote) then some 1 else none

def Ctx.fillSpans (c : Ctx) : List Span :=
  (List.range c.d.rows).map fun r => (rowAt c.d.dst r c.d.dpitch, 8 * c.d.len)

def Ctx.fillAddrOk (c : Ctx) : Bool :=
  c.d.dst % 8 == 0 && c.d.dpitch % 8 == 0 && (c.d.remote || c.fillSpans.all (destOk c.targets))

def fillRow (c : Ctx) (g : Prog) (r : Nat) : Prog :=
  let a := addr64 (rowAt c.d.dst r c.d.dpitch)
  let ps := (List.range c.d.len).map fun e => Piece.mk (a + 8 * e) (leBytes 8 c.d.word1.toNat) (List.replicate 8 false)
  c.targets.foldl (fun g t => putAll c t ps g) g

/-- DESIGN CHOICE, log entry 49. -/
def runFill (c : Ctx) (s : State) : Prog := (List.range c.d.rows).foldl (fillRow c) ⟨s, 0, [], none⟩

end Sys2Proof.Machine
end

