-- ==== Sys2Proof/Machine/Sync.lean ====
section
/-! DEFINITION. Shuttle issue and synchronisation (Tables 4.14, 4.15; R158 to R171), and their events. -/
namespace Sys2Proof.Machine

/-- A three-bit field as a place within the cluster. -/
def fin8 (n : Nat) : Fin 8 := ⟨n % 8, Nat.mod_lt _ (by decide)⟩
def fin16 (n : Nat) : Fin 16 := ⟨n % 16, Nat.mod_lt _ (by decide)⟩
def fin4 (n : Nat) : Fin 4 := ⟨n % 4, Nat.mod_lt _ (by decide)⟩

/-! ## Shuttle issue -/

/-- Hand the chain to the shuttle (R158): it joins the shuttle's queue, and counts as outstanding. R229's limit of 256
chains is 8 units of R159's 32. -/
def handOver (u : UnitId) (w : InstrWord) (s : State) : State :=
  let x := s.unit u
  let c : Chain := ⟨u.slot, x.gpGet (fld w 111 107), fin16 (fld w 106 103), fin8 (fld w 102 100), x.replay⟩
  let s := s.setUnit u { x with shOut := x.shOut + 1 }
  s.modSh ⟨u.cluster, fin8 (fld w 114 112)⟩ fun h => { h with queue := h.queue ++ [c] }

/-- The 33rd operation waits at issue (R159). -/
def shissueBody (u : UnitId) (w : InstrWord) (s : State) : Done :=
  if 32 ≤ (s.unit u).shOut then .stay (s.modUnit u fun x => { x with wait := .shissue })
  else .ok (handOver u w s)

def execShissue (u : UnitId) (s : State) : Out := .next (issueRow 6 0x01 u (shissueBody u) s)

/-- One of the 32 operations has completed: the waiting SHISSUE issues. -/
def shissueEnd (u : UnitId) (s : State) : State :=
  let x := s.unit u
  if s.isReady && x.status == .running && x.wait == .shissue && decide (x.shOut < 32) then
    advance u (handOver u (s.instr u x.pc.toNat) s)
  else s

def execShissueWaitEnd (u : UnitId) (s : State) : Out := .next (shissueEnd u s)

/-! ## BWAIT (R160, R42) -/

def bwaitBeat (u : UnitId) (w : InstrWord) (s : State) : Beat :=
  let x := s.unit u
  if bitOf w 114 then x.launchBeat + w.extractLsb' 0 48 else (x.gpGet (fld w 113 109)).extractLsb' 0 48

/-- A beat that has passed completes it at once with the late-wait bit and count; the present beat, whose first cycle has
begun, completes it as well. -/
def bwaitBody (u : UnitId) (w : InstrWord) (s : State) : Done :=
  let b := bwaitBeat u w s
  if later (s.unitBeat u) b then
    .ok ((s.modUnit u fun x => { x with lateWait := true }).bump (unitOff u 0x34) 1)
  else if s.unitBeat u = b then .ok s
  else .stay (s.modUnit u fun x => { x with wait := .bwait b })

def execBwait (u : UnitId) (s : State) : Out := .next (issueRow 7 0x01 u (bwaitBody u) s)

def bwaitDone (u : UnitId) (s : State) : State :=
  match (s.unit u).wait with
  | .bwait b => if s.isReady && (s.unit u).status == .running && !later b (s.unitBeat u) then advance u s else s
  | _ => s

def execBwaitComplete (u : UnitId) (s : State) : Out := .next (bwaitDone u s)

/-! ## Barriers (R161, R162) -/

def State.episode (s : State) (c : ClusterId) (k : Nat) : Option Episode := tget none (s.clu c).barriers k
def State.setEpisode (s : State) (c : ClusterId) (k : Nat) (e : Option Episode) : State :=
  s.modClu c fun x => { x with barriers := tput none k e x.barriers }

def atBarrier (s : State) (u : UnitId) (k : Nat) : Bool :=
  match (s.unit u).wait with
  | .barrier b _ => b.val == k && (s.unit u).status == .running
  | _ => false

/-- Every member of the mask leaves the barrier at once. -/
def releaseMembers (c : ClusterId) (k : Nat) (m : BitVec 8) (s : State) : State :=
  (List.finRange 8).foldl (fun s i => if m.getLsbD i.val && atBarrier s (c.unit i) k then advance (c.unit i) s else s) s

/-- When every member that the episode goes on with has arrived, all leave and the barrier is free. -/
def settleEpisode (c : ClusterId) (k : Nat) (s : State) : State :=
  match s.episode c k with
  | none => s
  | some e =>
    if e.need &&& ~~~e.arrived = 0 then releaseMembers c k e.arrived (s.setEpisode c k none) else s

/-- A member drops out and the episode continues without it. -/
def dropMember (u : UnitId) (k : Nat) (s : State) : State :=
  match s.episode u.cluster k with
  | none => s
  | some e =>
    let bit : BitVec 8 := 1 <<< u.slot.val
    settleEpisode u.cluster k (s.setEpisode u.cluster k (some ⟨e.mask, e.need &&& ~~~bit, e.arrived &&& ~~~bit⟩))

/-- How an arrival ends. -/
def barrierBody (u : UnitId) (w : InstrWord) (s : State) : Done :=
  let k := fld w 114 113
  let mask : BitVec 8 := w.extractLsb' 105 8
  let bit : BitVec 8 := 1 <<< u.slot.val
  if mask &&& bit = 0 then .fault s 0x01
  else match s.episode u.cluster k with
    | none =>
      if mask = bit then .ok s
      else
        .stay ((s.setEpisode u.cluster k (some ⟨mask, mask, bit⟩)).modUnit u fun x =>
          { x with wait := .barrier (fin4 k) (s.unitBeat u) })
    | some e =>
      if mask ≠ e.mask then .fault (dropMember u k s) 0x30
      else
        let s := s.setEpisode u.cluster k (some ⟨e.mask, e.need, e.arrived ||| bit⟩)
        .stay (settleEpisode u.cluster k (s.modUnit u fun x => { x with wait := .barrier (fin4 k) (s.unitBeat u) }))

def execBarrier (u : UnitId) (s : State) : Out := .next (issueRow 7 0x02 u (barrierBody u) s)

/-- A member has waited for CLU_BAR_TIMEOUT beats (R162). -/
def barTimeout (u : UnitId) (s : State) : State :=
  match (s.unit u).wait with
  | .barrier k since =>
    if s.isReady && (s.unit u).status == .running &&
        decide ((s.cfgReg (cluOff u.cluster 0)).toNat ≤ beatsSince (s.unitBeat u) since) then
      dropMember u k.val (faultHere u 0x31 s)
    else s
  | _ => s

def execBarTimeout (u : UnitId) (s : State) : Out := .next (barTimeout u s)

/-- Cancel open episodes of a cluster that a test selects: every waiting member faults with BAR_CANCEL (R162, R497). -/
def cancelEpisodes (c : ClusterId) (p : Episode → Bool) (s : State) : State :=
  (List.finRange 4).foldl (fun s k =>
    match s.episode c k.val with
    | none => s
    | some e =>
      if p e then
        (List.finRange 8).foldl (fun s i => if atBarrier s (c.unit i) k.val then faultHere (c.unit i) 0x32 s else s)
          (s.setEpisode c k.val none)
      else s) s

/-! ## Semaphores (R163 to R166) -/

/-- The outcome of a SEMWAIT's test: a fault cause, or whether the count has been taken. -/
inductive SemTest where
  | err (cause : Nat) (x : UnitState)
  | done (x : UnitState)
  | waits

def semTest (x : UnitState) (k : Nat) (count : BitVec 16) : SemTest :=
  let m := x.sem k
  if m.err then .err 0x33 x
  else if m.ovf then .err 0x34 (x.setSem k { m with ovf := false })
  else if count ≤ m.count then .done (x.setSem k { m with count := m.count - count })
  else .waits

def semwaitBody (u : UnitId) (w : InstrWord) (s : State) : Done :=
  let k := fld w 114 111
  let n : BitVec 16 := w.extractLsb' 95 16
  match semTest (s.unit u) k n with
  | .err c x => .fault (s.setUnit u x) c
  | .done x => .ok (s.setUnit u x)
  | .waits => .stay (s.modUnit u fun x => { x with wait := .semwait (fin16 k) n })

def execSemwait (u : UnitId) (s : State) : Out := .next (issueRow 7 0x03 u (semwaitBody u) s)

def semWake (u : UnitId) (s : State) : State :=
  let x := s.unit u
  match x.wait with
  | .semwait k n =>
    if s.isReady && x.status == .running then
      match semTest x k.val n with
      | .err c x => faultHere u c (s.setUnit u x)
      | .done x => advance u (s.setUnit u x)
      | .waits => s
    else s
  | _ => s

def execSemwaitWake (u : UnitId) (s : State) : Out := .next (semWake u s)

/-- SEMSIG sends its addition on its way (R165). -/
def semsigBody (u : UnitId) (w : InstrWord) (s : State) : Done :=
  .ok (s.modClu u.cluster fun c =>
    { c with sigs := c.sigs ++ [⟨u.slot, fin8 (fld w 110 108), fin16 (fld w 114 111), w.extractLsb' 92 16⟩] })

def execSemsig (u : UnitId) (s : State) : Out := .next (issueRow 7 0x04 u (semsigBody u) s)

/-- The oldest signal from src to unit tgt of src's cluster arrives: signals of one pair arrive in issue order (R165).
DEDUCED, log entry 89. -/
def sigArrive (src : UnitId) (tgt : Fin 8) (s : State) : State :=
  if !s.isReady then s
  else
    let mine := fun (g : Sig) => g.src == src.slot && g.tgt == tgt
    match (s.clu src.cluster).sigs.find? mine with
    | none => s
    | some g =>
      let s := s.modClu src.cluster fun c => { c with sigs := eraseFirst mine c.sigs }
      s.modUnit (src.cluster.unit tgt) fun x => x.semAdd g.sem.val g.count.toNat false

def execSemsigArrival (src : UnitId) (tgt : Fin 8) (s : State) : Out := .next (sigArrive src tgt s)

/-- SEMSET: the count, with the error bit and the overflow mark cleared (Table 4.15, R164). -/
def semsetBody (u : UnitId) (w : InstrWord) (s : State) : Done :=
  let x := s.unit u
  .ok (s.setUnit u (x.setSem (fld w 114 111) ⟨(x.gpGet (fld w 110 106)).extractLsb' 0 16, false, false⟩))

def execSemset (u : UnitId) (s : State) : Out := .next (issueRow 7 0x06 u (semsetBody u) s)

/-! ## FENCE (R170) -/

/-- The classes named in MASK are complete. Vector-engine instructions complete as they issue. -/
def fenceDone (s : State) (u : UnitId) (m : BitVec 4) : Bool :=
  let x := s.unit u
  (!m.getLsbD 0 || (x.mxQueue.isEmpty && x.mxRun.isEmpty)) && (!m.getLsbD 2 || x.shOut == 0) &&
    (!m.getLsbD 3 || !(s.clu u.cluster).sigs.any fun g => g.src == u.slot)

def fenceBody (u : UnitId) (w : InstrWord) (s : State) : Done :=
  let m : BitVec 4 := w.extractLsb' 111 4
  if fenceDone s u m then .ok s else .stay (s.modUnit u fun x => { x with wait := .fence m })

def execFence (u : UnitId) (s : State) : Out := .next (issueRow 7 0x05 u (fenceBody u) s)

def fenceEnd (u : UnitId) (s : State) : State :=
  match (s.unit u).wait with
  | .fence m => if s.isReady && (s.unit u).status == .running && fenceDone s u m then advance u s else s
  | _ => s

def execFenceComplete (u : UnitId) (s : State) : Out := .next (fenceEnd u s)

end Sys2Proof.Machine
end

