-- ==== Sys2Proof/Machine/Shuttle.lean ====
section
/-! DEFINITION. Shuttles: chains, descriptors, owner changes, answers of remote writes (R158, R193 to R202, R229 to R248,
R326 to R328). -/
namespace Sys2Proof.Machine

/-! ## The end of a chain -/

/-- The chain ends: its semaphore is signalled (R158) and the issuer's operation is complete. -/
def endChain (h : ShuttleId) (ch : Chain) (err : Bool) (s : State) : State :=
  let s := s.modSh h fun x => { x with run := none }
  let s := s.modUnit (h.cluster.unit ch.issuer) fun x => { x with shOut := x.shOut - 1 }
  s.modUnit (h.cluster.unit ch.tgt) fun x => x.semAdd ch.sem.val 1 err

/-- SHT_ERRk and SHT_ERR_BYTESk take a failure where none is recorded (R248). -/
def recordFail (h : ShuttleId) (issuer : Fin 8) (addr : Word64) (cause written : Nat) (s : State) : State :=
  let x := s.sh h
  if x.err.getLsbD 31 then s
  else
    (s.setSh h { x with err := BitVec.ofNat 32 (2 ^ 31 + cause % 128 * 2 ^ 24 + issuer.val * 2 ^ 21 + addr.toNat % 2 ^ 21) }).setCounter
      (shtOff h.cluster (0x20 + 4 * h.k.val)) (BitVec.ofNat 32 (min 0xFFFFFFFF written))

/-- A descriptor fails (R248): it is recorded, and the chain ends. -/
def descFail (h : ShuttleId) (cause written : Nat) (s : State) : State :=
  match (s.sh h).run with
  | none => s
  | some r => endChain h r.chain true (recordFail h r.chain.issuer r.addr cause written s)

/-- The present descriptor is complete: the next one follows, or the chain waits for CHAIN_COMPLETE. -/
def descDone (h : ShuttleId) (s : State) : State :=
  s.modSh h fun x => { x with run := x.run.map fun r =>
    { r with addr := if r.endsChain then r.addr else r.next.zeroExtend 64, count := r.count + 1, finished := r.endsChain, ownWait := [],
             unsent := [], unanswered := [], written := 0, failing := none } }

/-- Start the oldest queued chain (R229), with the issuing unit's replay bit (R185). -/
def chainStart (h : ShuttleId) (s : State) : State :=
  let x := s.sh h
  match x.run, x.queue with
  | none, ch :: rest =>
    if s.isReady then
      let ch := { ch with replay := (s.unit (h.cluster.unit ch.issuer)).replay }
      let r : Run := { chain := ch, addr := ch.desc, count := 0, finished := false, ownWait := [], unsent := [],
                       unanswered := [], written := 0, endsChain := false, next := 0, failing := none }
      s.setSh h { x with queue := rest, run := some r }
    else s
  | _, _ => s

def execShuttleChainStart (sh : ShuttleId) (s : State) : Out := .next (chainStart sh s)

/-- Signal the semaphore of a chain whose END descriptor is complete. DEDUCED, log entry 89. -/
def chainComplete (h : ShuttleId) (s : State) : State :=
  match (s.sh h).run with
  | some r => if s.isReady && r.finished then endChain h r.chain false s else s
  | none => s

def execChainComplete (sh : ShuttleId) (s : State) : Out := .next (chainComplete sh s)

/-! ## Fetching a descriptor (R230, R233) -/

inductive Fetched where
  | none
  | fail (s : State) (cause : Nat)
  | desc (s : State) (r : Run) (d : Desc)

def scratchOk (a n : Nat) : Bool := a % 64 == 0 && decide (a + n ≤ 0x180000)

/-- Fetch the descriptor at the running chain's address; owner codes do not concern a fetch (R197). -/
def fetchDesc (h : ShuttleId) (s : State) : Fetched :=
  match (s.sh h).run with
  | none => .none
  | some r =>
    let u := h.cluster.unit r.chain.issuer
    let a := r.addr.toNat
    if !s.isReady || r.finished || !r.ownWait.isEmpty || !r.unsent.isEmpty || !r.unanswered.isEmpty then .none
    else if 65536 ≤ r.count then .fail s 6
    else if !scratchOk a 64 then .fail s 4
    else
      let word := fun (s : State) (i : Nat) => s.word64 (unitAddr u (a + 8 * i))
      let (s, _, bad) := readMem (unitAddr u a) 64 s
      if bad then .fail s 5
      else
        let ext := bitOf (word s 0) 5 && fld (word s 0) 3 0 == 1
        if !ext then .desc s r (descOf fun i => if i < 8 then word s i else 0)
        else if !scratchOk a 128 then .fail s 4
        else
          let (s, _, bad) := readMem (unitAddr u (a + 64)) 64 s
          if bad then .fail s 5 else .desc s r (descOf (word s))

/-- NEXT of a descriptor without END (R230). -/
def nextOk (d : Desc) : Bool := d.fin || scratchOk d.next.toNat 64

/-- Row of a descriptor type: a reserved TYPE ends the chain under any row; another type's row changes nothing. -/
def descRow (typ : Nat) (h : ShuttleId) (body : Run → Desc → State → Out) (s0 : State) : Out :=
  match fetchDesc h s0 with
  | .none => .next s0
  | .fail s c => .next (descFail h c 0 s)
  | .desc s r d =>
    if d.typ = 0 ∨ 3 < d.typ then .next (descFail h 1 0 s)
    else if d.typ ≠ typ then .next s0
    else body r d (s.modSh h fun x => { x with run := some { r with endsChain := d.fin, next := d.next } })

/-! ## Sending remote writes (R244, R319, R327, R328) -/

def overlap (a n b m : Nat) : Bool := decide (a < b + m) && decide (b < a + n)

/-- Send the waiting packets in order, stopping at one that overlaps an unanswered write. -/
def sendWrites (h : ShuttleId) : Nat → State → State
  | 0, s => s
  | k + 1, s =>
    match (s.sh h).run with
    | none => s
    | some r =>
      match r.unsent with
      | [] => s
      | p :: rest =>
        if r.unanswered.any fun w => overlap p.addr.toNat p.payload.length w.pkt.addr.toNat w.pkt.payload.length then s
        else
          let t := s.fab.nextTag
          let p := { p with tag := t }
          let s := s.modSh h fun x => { x with run := some { r with
            unsent := rest, unanswered := r.unanswered ++ [⟨t, p, 0, s.shuttleBeat h⟩] } }
          sendWrites h k (inject p { s with fab := { s.fab with nextTag := t + 1 } })

/-- Nothing of the descriptor is unanswered: it completes, or ends with the cause that it met. -/
def settleRemote (h : ShuttleId) (s : State) : State :=
  match (s.sh h).run with
  | none => s
  | some r =>
    if r.unsent.isEmpty && r.unanswered.isEmpty then
      match r.failing with
      | some c => descFail h c r.written s
      | none => descDone h s
    else s

/-- Finish a COPY or FILL: local writes are complete as they are made; remote ones wait for their answers. -/
def finishMove (h : ShuttleId) (c : Ctx) (g : Prog) : State :=
  if !c.d.remote then
    match g.cause with
    | some k => descFail h k g.written g.s
    | none => descDone h g.s
  else
    let s := g.s.modSh h fun x => { x with run := x.run.map fun r => { r with unsent := g.packets, failing := g.cause } }
    settleRemote h (sendWrites h g.packets.length s)

/-- Run a move that has passed its checks. NODE is judged before any byte is sent. One bound for the engine queues that
ends with a cause ends so, and what it has sent before stays sent (R223, R247); one that would end well stops the model.
DESIGN CHOICE, log entry 49. DESIGN CHOICE, log entry 49. -/
def startMove (h : ShuttleId) (c : Ctx) (go : State → Prog) (local_ dst : List Span) (s0 s : State) : Out :=
  if c.d.remote && !mayReach s c.d.node then .next (descFail h 0x0B 0 s)
  else if local_.any inQueues then .fault .engineQueue
  else if anyBusy s c.targets local_ (if c.d.remote then [] else dst) then .next s0
  else if !c.d.remote && dst.any fun x => c.targets.any fun t => inQueues ((targetAddr t x.1.toNat : Int), x.2) then
    let g := go s
    if g.cause.isSome then .next (finishMove h c g) else .fault .engineQueue
  else .next (finishMove h c (go s))

def copyBody (h : ShuttleId) (s0 : State) (r : Run) (d : Desc) (s : State) : Out :=
  let c : Ctx := ⟨h, r.chain.replay, d⟩
  match c.copyCause with
  | some k => .next (descFail h k 0 s)
  | none =>
    if !nextOk d then .next (descFail h 4 0 s)
    else if c.isEmpty then .next (descDone h s)
    else if !c.copyAddrOk then .next (descFail h 4 0 s)
    else startMove h c (runCopy c) (c.srcSpans ++ c.residSpans) c.dstSpans s0 s

def execCopyDescriptor (sh : ShuttleId) (s : State) : Out := descRow 1 sh (copyBody sh s) s

def fillBody (h : ShuttleId) (s0 : State) (r : Run) (d : Desc) (s : State) : Out :=
  let c : Ctx := ⟨h, r.chain.replay, d⟩
  match c.fillCause with
  | some k => .next (descFail h k 0 s)
  | none =>
    if !nextOk d || !c.fillAddrOk then .next (descFail h 4 0 s)
    else if d.len = 0 ∨ d.rows = 0 then .next (descDone h s)
    else startMove h c (runFill c) [] c.fillSpans s0 s

def execFillDescriptor (sh : ShuttleId) (s : State) : Out := descRow 3 sh (fillBody sh s) s

/-! ## Owner changes (R198 to R202, R245) -/

def reservedCode (c : Nat) : Bool := decide (3 ≤ c) && decide (c ≤ 7)

/-- An OWN descriptor presents its changes; each takes effect by OWNER_CHANGE_EFFECT. -/
def ownBody (h : ShuttleId) (_ : Run) (d : Desc) (s : State) : Out :=
  let code := fld d.word0 11 8
  let tgt := fin8 (fld d.word0 7 5)
  let banks := (List.range 32).filter fun b => d.word0.getLsbD (32 + b)
  if reservedCode code then .next (descFail h 1 0 s)
  else if !nextOk d then .next (descFail h 4 0 s)
  else if banks.isEmpty then .next (descDone h s)
  else
    let s := s.modUnit (h.cluster.unit tgt) fun x =>
      { x with ownReq := x.ownReq ++ banks.map fun b => (b, h.k.val, BitVec.ofNat 4 code) }
    .next (s.modSh h fun x => { x with run := x.run.map fun r => { r with ownWait := banks.map fun b => (tgt, b) } })

def execOwnDescriptor (sh : ShuttleId) (s : State) : Out := descRow 2 sh (ownBody sh) s

/-- Codes requested for a bank, shuttles in ascending number, the host (8) last (R200). DEDUCED, log entry 89. -/
def ownOrder (reqs : List (Nat × Nat × BitVec 4)) : List (Nat × Nat × BitVec 4) :=
  (List.range 9).flatMap fun k => reqs.filter fun e => e.2.1 == k

/-- A bank takes an owner code, with the parity bit of its register (R517). -/
def setOwnerCode (u : UnitId) (bank : Nat) (c : BitVec 4) (s : State) : State :=
  { s.modUnit u fun x => x.setOwner bank c with struck := s.struck.filter (·.1 != unitOff u (0x40 + 4 * (bank / 4))) }

/-- The changes requested for a bank take effect; an OWN descriptor whose banks have all changed completes (R202). -/
def ownersDue (u : UnitId) (bank : Nat) (s : State) : State :=
  let x := s.unit u
  let mine := x.ownReq.filter fun e => e.1 == bank
  if mine.isEmpty then s
  else
    let s := s.setUnit u { x with ownReq := x.ownReq.filter fun e => e.1 != bank }
    let s := (ownOrder mine).foldl (fun s e => if reservedCode e.2.2.toNat then s else setOwnerCode u bank e.2.2 s) s
    (List.finRange 8).foldl (fun s k =>
      let h : ShuttleId := ⟨u.cluster, k⟩
      match (s.sh h).run with
      | none => s
      | some r =>
        if r.ownWait.contains (u.slot, bank) then
          let left := r.ownWait.filter fun e => e != (u.slot, bank)
          if left.isEmpty then descDone h s
          else s.modSh h fun y => { y with run := some { r with ownWait := left } }
        else s) s

def ownerEffect (u : UnitId) (bank : Nat) (s : State) : State := if s.isReady || s.isFault then ownersDue u bank s else s

def execOwnerChangeEffect (u : UnitId) (bank : Fin 32) (s : State) : Out := .next (ownerEffect u bank.val s)

/-! ## Answers (R326, R327) -/

def allShuttles : List ShuttleId := allClusters.flatMap fun c => (List.finRange 8).map fun k => ⟨c, k⟩

/-- The shuttle and the unanswered write that an answer names: its TAG, from the module written to. -/
def findWrite (p : Packet) (s : State) : Option (ShuttleId × Run × RemoteWrite) :=
  allShuttles.findSome? fun h =>
    match (s.sh h).run with
    | none => none
    | some r => (r.unanswered.find? fun w => w.tag == p.tag && answersFor s w.pkt.dst p.src).map fun w => (h, r, w)

def answers (s : State) (typ : Nat) (p : Packet) : Bool :=
  s.isReady && p.typ.toNat == typ && isFor s p

/-- WACK: one write less without an answer; a TAG already answered is ignored. -/
def wackIn (p : Packet) (s : State) : State :=
  if !answers s 2 p then s
  else match findWrite p s with
    | none => s
    | some (h, r, w) =>
      let s := s.modSh h fun x => { x with run := some { r with
        unanswered := r.unanswered.filter (fun v => v.tag != w.tag), written := r.written + w.pkt.payload.length } }
      settleRemote h (sendWrites h r.unsent.length s)

def execWackReceive (p : Packet) (s : State) : Out := .next (wackIn p (takeLocal p s))

/-- WNAK ends the descriptor with cause REMOTE at once. -/
def wnakIn (p : Packet) (s : State) : State :=
  if !answers s 3 p then s
  else match findWrite p s with
    | none => s
    | some (h, r, _) => descFail h 0x0B r.written s

def execWnakReceive (p : Packet) (s : State) : Out := .next (wnakIn p (takeLocal p s))

/-- FAB_E2E_TIMEOUT beats have passed without an answer (R327). -/
def e2eTimeout (h : ShuttleId) (tag : Word32) (s : State) : State :=
  match (s.sh h).run with
  | none => s
  | some r =>
    match r.unanswered.find? fun w => w.tag == tag with
    | none => s
    | some w =>
      if !s.isReady || decide (beatsSince (s.shuttleBeat h) w.sentAt < (s.cfgReg 0x02008C).toNat) then s
      else if !mayReach s w.pkt.dst || decide ((s.cfgReg 0x020090).toNat ≤ w.resends) then descFail h 0x0B r.written s
      else
        let w := { w with resends := w.resends + 1, sentAt := s.shuttleBeat h }
        inject w.pkt (s.modSh h fun x => { x with run := some { r with
          unanswered := r.unanswered.map fun v => if v.tag == tag then w else v } })

def execE2eTimeout (sh : ShuttleId) (tag : Word32) (s : State) : Out := .next (e2eTimeout sh tag s)

end Sys2Proof.Machine
end

