-- ==== Sys2Proof/Machine/Module.lean ====
section
/-! DEFINITION. The module as one domain: the fault state (R27), the beat (R28 to R31), armed launches (R34, R39), retirement
of a unit and its spare (R14, R17, R41, R138, R443, R444). -/
namespace Sys2Proof.Machine

/-! ## The fault state (R27, R528, R562) -/

/-- Commands that wait for an arming: they are dropped without an answer (R37). -/
def waitsForArming : HostOp → Bool
  | .launch _ | .collective _ _ | .setHeddleInstall _ | .snapshot => true
  | _ => false

/-- Every armed launch is cancelled: an ARMED unit becomes IDLE, a RUNNING one loses its pending arming. -/
def cancelArmings (s : State) : State :=
  allUnits.foldl (fun s u =>
    let x := s.unit u
    if x.arming.isSome then
      s.setUnit u { x with arming := none, status := if x.status = .armed then .idle else x.status }
    else s) s

/-- Every open collective ends with COLL_FAULT, and ABORT goes to its line (R374, Table 8.6). -/
def faultColls (s : State) : State := s.col.opens.foldl (fun s c => failColl c 5 true s) s

/-- The module enters the fault state with a cause of Table 12.4: its collectives end, within the 1 µs that R27 gives
its router, then the event FAULT, the end of all activity, the cancelled armings, heddles and leases; the beat counter
keeps its last value. A SNAPSHOT that waits for the next beat takes its copy now and is answered. DESIGN CHOICE,
log entry 19. DEDUCED, log entry 30. -/
def enterFault (cause : BitVec 8) (s : State) : State :=
  if s.isFault then s
  else
    let s := faultColls s
    let s := { s with boot := { s.boot with state := .fault, cause := cause } }
    let s := answerSnaps (cancelArmings (sendEvent 0x0001 2 0 0 (cause.zeroExtend 16) 0 s))
    { s with
      snap := { s.snap with armed := [] },
      fab := { s.fab with heddles := [] }, press := { s.press with leases := [] },
      host := { s.host with outstanding := s.host.outstanding.filter fun o => !waitsForArming o.op } }

/-- Root PLL and reference clock are running: from phase 4 on. -/
def clockRuns (s : State) : Bool :=
  !s.isFault && match s.boot.phase with
    | .input | .rails | .clock | .dead => false
    | _ => true

def execPllLockLoss (refClock : Bool) (s : State) : Out :=
  .next (if clockRuns s then enterFault (if refClock then 2 else 1) s else s)

/-! ## The beat -/

/-- The master counter and every copy of it advance by one (R19, R29). -/
def advanceBeat (s : State) : State :=
  { s with beat := s.beat + 1, boot := { s.boot with
    regionBeats := s.boot.regionBeats.map (· + 1), fabBeats := s.boot.fabBeats.map (· + 1) } }

/-- The check of every 4,096 beats; `upset` is a copy that an error has changed since the last one (R30).
DEDUCED, log entry 88. -/
def beatSkewCheck (upset : Option (Fin 8 × Beat)) (s : State) : State :=
  if !clockRuns s || s.beat.toNat % 4096 != 0 then s
  else
    let s := match upset with
      | some (r, b) => { s with boot := { s.boot with regionBeats := s.boot.regionBeats.set r.val b } }
      | none => s
    if s.boot.regionBeats.all (· == s.beat) then s else enterFault 3 s

def execBeatSkewCheck (upset : Option (Fin 8 × Beat)) (s : State) : Out := .next (beatSkewCheck upset s)

/-! ## Armed units (R34, R39) -/

/-- The spare that takes the unit's place has not yet entered IDLE (R41). -/
def replacingUnit (s : State) (u : UnitId) : Bool := (s.clu u.cluster).replacing == some u.slot

/-- An armed unit that can start: not running, not faulted, not being replaced. -/
def canStart (s : State) (u : UnitId) : Bool := (s.unit u).status == .armed && !replacingUnit s u

/-- The armed beat of a unit has come: it starts, or is late. -/
def unitAtBeat (s : State) (u : UnitId) : State :=
  match (s.unit u).arming with
  | none => s
  | some a =>
    match a.beat with
    | none => s
    | some n =>
      if !a.reached || a.late || later n (s.unitBeat u) then s
      else if canStart s u then startProgram u a n s
      else s.modUnit u fun x => { x with arming := some { a with late := true } }

/-- Collectives armed for a beat that has come: each begins its first phase, or is late behind an earlier one.
DEDUCED, log entry 30. DESIGN CHOICE, log entry 31. -/
def collAtBeat (s : State) (opid : BitVec 16) : State :=
  match s.coll opid with
  | none => s
  | some c =>
    match c.phase, c.launch with
    | .armed, some n =>
      if later n s.collBeat then s
      else
        let s := startColl opid (s.setColl { c with phase := .queued })
        s.modColl opid fun c => { c with late := c.phase == .queued }
    | _, _ => s

/-- The collective engine counts a late launch, and the event names the collective and its beat. -/
def lateColl (opid : BitVec 16) (c : Coll) (s : State) : State :=
  sendEvent 0x0011 1 (opid.zeroExtend 32) (c.launch.getD 0) 0 0
    { s with col := { s.col with lateCount := BitVec.ofNat 32 (min 0xFFFFFFFF (s.col.lateCount.toNat + 1)) } }

/-- A late party starts once it is idle (R39). A launch without a beat that met a busy unit is late as well: its beat is
the one at which the unit was armed. DESIGN CHOICE, log entry 6. DEDUCED, log entry 29. -/
def launchLate (p : Party) (s : State) : State :=
  if !s.isReady then s
  else match p with
    | .unit u =>
      match (s.unit u).arming with
      | none => s
      | some a =>
        if !a.late || !canStart s u then s
        else match a.beat with
          | none =>
            sendEvent 0x0011 1 (BitVec.ofNat 32 u.key) a.reachedAt 0 0 ((startProgram u a (s.unitBeat u) s).bump (unitOff u 0x34) 1)
          | some n =>
            sendEvent 0x0011 1 (BitVec.ofNat 32 u.key) n 0 0 ((startProgram u a n s).bump (unitOff u 0x34) 1)
    | .coll opid =>
      match s.coll opid with
      | none => s
      | some c =>
        if !c.late then s
        else
          let t := startColl opid s
          match t.coll opid with
          | some d =>
            if d.phase = .queued then t
            else lateColl opid c (t.modColl opid fun c => { c with late := false })
          | none => lateColl opid c t
    | .heddle _ => s

def execLaunchLate (p : Party) (s : State) : Out := .next (launchLate p s)

/-! ## Retirement -/

/-- Drop every memory word, poison bit, upset, instruction and counter of a unit: the spare comes as R205 left it. -/
def clearUnit (u : UnitId) (s : State) : State :=
  let lo := unitAddr u 0
  let hi := lo + unitWindow
  { s with
    mem := tclear lo hi s.mem, poison := tclear (lo / 8) (hi / 8) s.poison,
    store := tclear (4096 * u.key) (4096 * u.key + 4096) s.store,
    storePoison := tclear (8192 * u.key) (8192 * u.key + 8192) s.storePoison,
    counters := tclear (unitOff u 0) (unitOff u 0x1000) s.counters,
    struck := s.struck.filter fun e => !(decide (unitOff u 0 ≤ e.1) && decide (e.1 < unitOff u 0x1000)),
    snap := { s.snap with copies := tclear (unitOff u 0) (unitOff u 0x1000) s.snap.copies },
    upsets := s.upsets.filter fun e => match e.loc with
      | .dram _ => true
      | .sram w => !(decide (lo / 8 ≤ w) && decide (w < hi / 8))
      | .store k _ _ => k != u.key }

/-- Every chain that the unit issued, running or queued, ends as a refused chain with cause RETIRED (R14, R248); a queued chain is
recorded with its first descriptor. DEDUCED, log entry 32. -/
def retireChains (u : UnitId) (s : State) : State :=
  (List.finRange 8).foldl (fun s k =>
    let h : ShuttleId := ⟨u.cluster, k⟩
    let s := match (s.sh h).run with
      | some r => if r.chain.issuer = u.slot then descFail h 0x0C r.written s else s
      | none => s
    (s.sh h).queue.foldl (fun s ch =>
      if ch.issuer = u.slot then
        let s := recordFail h ch.issuer ch.desc 0x0C 0 (s.modSh h fun x => { x with queue := eraseFirst (· == ch) x.queue })
        let s := s.modUnit u fun x => { x with shOut := x.shOut - 1 }
        s.modUnit (u.cluster.unit ch.tgt) fun x => x.semAdd ch.sem.val 1 true
      else s) s) s

/-- A cluster whose spare can still take a logical number (R14, R444). -/
def spareUsable (s : State) (c : ClusterId) : Bool :=
  let x := s.clu c
  !x.spareUsed && !x.spareBad && x.replacing.isNone

/-- Firmware retires a unit: its work stops, the barrier episodes of its cluster are cancelled (R162), the spare takes its
number and carries its arming; the unit itself waits at no barrier any more; without a usable spare the module is lost (R17).
Owner changes that stand requested for its banks, those of its own OWN descriptor among them, take effect on the spare, and
SEMSIGs in flight from it or to it stay in flight. DESIGN CHOICE, log entry 31. DEDUCED, log entry 32. -/
def retireUnit (u : UnitId) (s : State) : State :=
  if !spareUsable s u.cluster then enterFault 7 s
  else
    let x := s.unit u
    let s := sendEvent 0x0013 1 (BitVec.ofNat 32 u.key) 0 0 0 (s.setUnit u { x with wait := .none })
    let s := cancelEpisodes u.cluster (fun _ => true) (retireChains u s)
    let y := { UnitState.reset with arming := x.arming, ownReq := x.ownReq,
                                    status := if x.arming.isSome then .armed else .idle }
    ((clearUnit u s).setUnit u y).modClu u.cluster fun c => { c with replacing := some u.slot, sparePos := u.slot }

/-- UNIT_UE_LIMIT errors within 1 s, or IFETCH_ECC twice at one index (R443). -/
def ueLimit (s : State) (u : UnitId) : Bool :=
  let x := s.unit u
  x.ifetchTwice ||
    decide ((fld (s.cfgReg 0x4FF000) 7 0) ≤ (x.ueTimes.filter fun b => decide (beatsSince (s.unitBeat u) b ≤ 3906250)).length)

def execUnitRetirement (u : UnitId) (s : State) : Out :=
  .next (if s.isReady && ((s.unit u).retireAsked || ueLimit s u) then retireUnit u s else s)

def execUeLimitReached (u : UnitId) (s : State) : Out :=
  .next (if s.isReady && ueLimit s u then retireUnit u s else s)

/-- The spare holds the program image and is IDLE: the replacement ends and USED is set (R41, R138). -/
def spareDone (c : ClusterId) (s : State) : State :=
  match (s.clu c).replacing with
  | none => s
  | some i =>
    if !s.isReady then s
    else
      let u := c.unit i
      let lo := 4096 * u.key
      let words := s.images.filter fun e => decide (lo ≤ e.1) && decide (e.1 < lo + 4096)
      let s := { s with store := words.foldl (fun (t : Tab InstrWord) (e : Nat × InstrWord) => tput 0 e.1 e.2 t) (tclear lo (lo + 4096) s.store) }
      s.modClu c fun x => { x with replacing := none, spareUsed := true }

def execSpareReplacementDone (c : ClusterId) (s : State) : Out := .next (spareDone c s)

/-- A spare that has not been taken fails its self-test (R444). DESIGN CHOICE, log entry 31. -/
def spareBad (c : ClusterId) (s : State) : State :=
  let x := s.clu c
  if !s.isReady || x.spareUsed || x.spareBad || x.replacing.isSome then s
  else sendEvent 0x0014 1 (BitVec.ofNat 32 c.key) 0 0 0 (s.modClu c fun x => { x with spareBad := true })

def execSpareBad (c : ClusterId) (s : State) : Out := .next (spareBad c s)

end Sys2Proof.Machine
end

