-- ==== Sys2Proof/Machine/Fabric.lean ====
section
/-! DEFINITION. Ports, lanes and frames (R301 to R313), packets at the router (R323), remote writes at their destination
(R326), heddle windows (R342, R345), the congestion map (R346, R347). -/
namespace Sys2Proof.Machine

/-! ## Lanes (R307) -/

def laneBit (lane : Fin 4) : BitVec 4 := 1 <<< lane.val

/-- Symbols that FEC has corrected on a lane within the last 1 ms. -/
def laneSymbols (s : State) (q : Nat) (lane : Fin 4) : Nat :=
  ((s.port q).corrected.filter fun e => e.2.1 == lane && decide (beatsSince (s.portBeat q) e.1 ≤ beatsOfMs 1)).foldl (fun n e => n + e.2.2) 0

/-- A corrected-symbol count above FAB_LANE_SER_MAX bears out its cause; the loss of signal or lock is the lane's own finding. -/
def laneCause (s : State) (q : Nat) (lane : Fin 4) : LaneCause → Bool
  | .symbols => decide ((s.cfgReg 0x020080).toNat < laneSymbols s q lane)
  | .signal | .announced => true

/-- A lane drops: the port restripes over the remaining lanes, or goes DOWN with its last lane. -/
def laneDrop (port : Fin 10) (lane : Fin 4) (cause : LaneCause) (s : State) : State :=
  let x := s.port port.val
  let now := if x.state = .restriping then x.restripeTo else x.lanes
  let left := now &&& ~~~(laneBit lane)
  if !s.isReady || !(x.state == .up || x.state == .restriping) || left == now ||
      !laneCause s port.val lane cause then s
  else if left = 0 then portDown port.val 7 s
  else
    let s := if cause = .announced then s else sendCtl port.val (.lanes left) s
    s.modPort port.val fun x => { x with state := .restriping, restripeTo := left }

def execLaneDrop (port : Fin 10) (lane : Fin 4) (cause : LaneCause) (s : State) : Out := .next (laneDrop port lane cause s)

def restripeDone (port : Fin 10) (s : State) : State :=
  let x := s.port port.val
  if !s.isReady || x.state != .restriping then s
  else
    let s := flushCredits port.val (s.setPort port.val { x with state := .up, lanes := x.restripeTo })
    pumpAll port.val (sendEvent 0x0032 1 (BitVec.ofNat 32 port.val) 0 (x.restripeTo.zeroExtend 16) 0 s)

def execLaneRestripeDone (port : Fin 10) (s : State) : Out := .next (restripeDone port s)

/-! ## A port goes DOWN (R309) -/

/-- 10 µs without a frame: 40 beats. -/
def silent (s : State) (q : Nat) : Bool := decide (40 ≤ beatsSince (s.portBeat q) (s.port q).lastRx)

/-- The state of the port bears out the cause named. Signal loss and the outcome of training are the port's own findings.
DESIGN CHOICE, log entry 6. -/
def downCause (s : State) (q : Nat) (c : Nat) : Bool :=
  let x := s.port q
  match c with
  | 5 => x.held.any fun f => decide (8 ≤ f.resends)
  | 6 => silent s q
  | 7 => true
  | 8 => !(s.cfgReg (0x020040 + 4 * q)).getLsbD 0
  | 9 => s.boot.strapErr
  | 1 | 2 | 3 | 4 => x.state == .training
  | _ => false

def execPortDown (port : Fin 10) (cause : BitVec 4) (s : State) : Out :=
  .next (if s.isReady && downCause s port.val cause.toNat then portDown port.val cause.toNat s else s)

def execPortSilentTimeout (port : Fin 10) (s : State) : Out :=
  .next (if s.isReady && (s.port port.val).state == .up && silent s port.val then portDown port.val 6 s else s)

/-! ## Training (R310 to R313, R316) -/

/-- The peer's identity passes the check of R312 on torus port q. -/
def peerOk (s : State) (q : Nat) (peer : Node) : Bool :=
  let a := q / 2
  let p := coord s.strapNode a
  let r := coord peer a
  let n := s.axisSize a
  let same := siteOf peer == siteOf s.strapNode &&
    (List.range 4).all fun b => b == a || coord peer b == coord s.strapNode b
  let unset := n == 1
  let ok := if unset then (if q % 2 = 0 then r == p + 1 || r == 0 else r != p)
    else if q % 2 = 0 then r == (p + 1) % n else r == (p + n - 1) % n
  same && ok

/-- The DOWN cause that a training ends with; none when the port comes up. -/
def trainCause (s : State) (q : Nat) (r : TrainResult) : Option Nat :=
  let rate := fld (s.cfgReg (0x020040 + 4 * q)) 3 2
  if !r.signal then some 1
  else if r.lanes = 0 ∨ (rate = 1 ∧ r.mode200) ∨ (rate = 2 ∧ !r.mode200) then some 2
  else if 1800 < r.delayNs then some 4
  else if decide (q < 8) && !peerOk s q (r.peerStrap.extractLsb' 2 20) then some 3
  else none

/-! ## RECOV packets (Table 10.3) -/

structure RecovHdr where
  rid : BitVec 16
  rop : Nat
  fin : Bool
  seg : Nat
  cause : Nat
  soff : Nat
  deriving DecidableEq, Repr

def recovHdr (p : Packet) : RecovHdr :=
  ⟨p.addr.extractLsb' 48 16, fld p.addr 47 44, bitOf p.addr 43, fld p.addr 31 0, p.vers.toNat, fld p.ext 41 16⟩

def recovPacket (h : RecovHdr) (dst : Node) (bs : List Byte) : Packet :=
  { Packet.blank with
    typ := 5, cls := 3, dst := dst, payload := bs, vers := BitVec.ofNat 8 h.cause,
    addr := BitVec.ofNat 64 (h.rid.toNat * 2 ^ 48 + h.rop % 16 * 2 ^ 44 + h.fin.toNat * 2 ^ 43 + h.seg % 2 ^ 32),
    ext := BitVec.ofNat 56 (h.soff % 2 ^ 26 * 2 ^ 16) }

/-- The store of port 8 + k has answered HELLO (R461). -/
def storeKnown (s : State) (k : Fin 2) : Bool := (if k.val = 0 then s.ckp.store0 else s.ckp.store1).isSome

/-- A packet for the store of port 8 + k goes out only where that store has answered; HELLO (ROP 6) asks for the answer (R461).
DESIGN CHOICE, log entry 67. -/
def toStore (k : Fin 2) (p : Packet) (s : State) : State :=
  if storeKnown s k || fld p.addr 47 44 == 6 then sendStore (8 + k.val) p s else s

/-- Send a RECOV packet to a module, or to the store of port 8 + k (R453): it awaits its WACK. The TAG is returned. -/
def sendRecov (h : RecovHdr) (dst : Node) (store : Option (Fin 2)) (bs : List Byte) (s : State) : State × Word32 :=
  let t := s.fab.nextTag
  let p := { recovPacket h (if store.isSome then s.strapNode else dst) bs with tag := t }
  let s := { s with
    fab := { s.fab with nextTag := t + 1 }, ckp := { s.ckp with unanswered := s.ckp.unanswered ++ [RecovSend.mk t p store 0 s.ckpBeat] } }
  (match store with
    | some k => toStore k p s
    | none => inject p s, t)

/-- The store of storage port 8 + k is to answer HELLO before the port is used (R461). -/
def forgetStore (k : Nat) (s : State) : State :=
  { s with ckp := if k = 0 then { s.ckp with store0 := none } else { s.ckp with store1 := none } }

/-- HELLO goes to the store when a storage port comes up (R461); the store found before does not stand for it. DESIGN CHOICE,
log entry 67. -/
def hello (q : Nat) (s : State) : State :=
  if q < 8 then s else (sendRecov ⟨0, 6, true, 0, 0, 0⟩ 0 (some ⟨(q - 8) % 2, Nat.mod_lt _ (by decide)⟩) []
    (forgetStore ((q - 8) % 2) s)).1

/-- Phases 8 and later of start-up, outside the recovery state. -/
def portsTrain (s : State) : Bool :=
  (s.boot.phase == .eth || s.boot.phase == .done) && !s.isFault && s.boot.state != .recovery && !s.boot.trainFault

/-- An enabled port that may train: after a bad strap none does (R316). -/
def mayTrain (q : Nat) (s : State) : Bool :=
  portsTrain s && !s.boot.strapErr && (s.cfgReg (0x020040 + 4 * q)).getLsbD 0

/-- One training of an enabled port: with lanes trained, this end sends its identity and takes the peer's (R311); the port comes
up, or goes DOWN (R309). DEDUCED, log entry 99. -/
def train (q : Nat) (r : TrainResult) (s : State) : State :=
  let x := s.port q
  if !mayTrain q s || !(x.state == .down || x.state == .training) then s
  else
    let cause := trainCause s q r
    let heard := cause != some 1 && cause != some 2
    let x := { x with state := .training, nextSeq := 0, expected := 0 }
    let x := if heard then { x with peer := r.peerStrap.extractLsb' 2 20, peerTag := r.peerTag } else x
    let s := s.setPort q x
    let s := if heard then sendCtl q (.identity s.boot.strap s.sliceTag) s else s
    match cause with
    | some c => portDown q c s
    | none =>
      let s := s.modPort q fun x => { x with
        state := .up, mode200 := r.mode200, lanes := r.lanes, cameUp := true, lastRx := s.portBeat q, lastAck := s.portBeat q }
      hello q (sendEvent 0x0030 0 (BitVec.ofNat 32 q) 0 (r.lanes.zeroExtend 16) 0 s)

def execPortTrain (port : Fin 10) (r : TrainResult) (s : State) : Out := .next (train port.val r s)

/-- A port that is DOWN for a cause trains again every 100 ms (R310, R312). -/
def trainRetry (q : Nat) (s : State) : State :=
  let x := s.port q
  if mayTrain q s && x.state == .down && x.cause != 0 && decide (beatsOfMs 100 ≤ beatsSince (s.portBeat q) x.downSince) then
    s.setPort q { x with state := .training }
  else s

/-- `r`: what the new training finds; none while it runs. -/
def execPortTrainRetry (port : Fin 10) (r : Option TrainResult) (s : State) : Out :=
  .next (let t := trainRetry port.val s
    match r with
    | some r => if (t.port port.val).state = .training then train port.val r t else t
    | none => t)

/-! ## Frames (R303, R304, R306) -/

/-- FSEQ f is covered by ASEQ a. -/
def covered (f a : BitVec 12) : Bool := decide ((a - f).toNat < 2048)

/-- Release the frames that ASEQ covers; a packet is finished when its last frame is. -/
def ackFrames (q : Nat) (a : BitVec 12) (s : State) : State :=
  let x := s.port q
  let done := x.held.filter fun f => covered f.fseq a
  if done.isEmpty then s
  else
    let s := s.setPort q { x with held := x.held.filter (fun f => !covered f.fseq a), lastAck := s.portBeat q }
    (done.filter (·.last)).foldl (fun s f => finishPkt f.qp s) s

/-- Resend every held frame, or go DOWN when one has been resent 8 times. -/
def resendHeld (q : Fin 10) (s : State) : State :=
  let x := s.port q.val
  if x.held.any fun f => decide (8 ≤ f.resends) then portDown q.val 5 s
  else
    let s := s.setPort q.val { x with held := x.held.map (fun f => { f with resends := f.resends + 1 }), lastAck := s.portBeat q.val }
    x.held.foldl (sendHeld q.val) s

def returnCredits (q : Nat) (f : Frame) (s : State) : State :=
  s.modPort q fun x =>
    if f.csh then { x with sharedUsed := x.sharedUsed - f.ccnt.toNat }
    else { x with credits := tput 0 f.cvc.toNat (tget 0 x.credits f.cvc.toNat - f.ccnt.toNat) x.credits }

/-- The sender's side of a frame: credits, acknowledgement, NAK. -/
def frameAcks (q : Fin 10) (f : Frame) (s : State) : State :=
  let s := returnCredits q.val f s
  let s := if f.ak = 1 ∨ f.ak = 2 then ackFrames q.val f.aseq s else s
  if f.ak = 2 then resendHeld q s else s

/-- Packets of its channel that a frame carries bytes of: the one that has begun before it, and those that begin in it. -/
def frameUsers (x : Port) (f : Frame) : List Nat :=
  let n := tget 0 x.rxBegun f.fvc.toNat
  (if tget 0 x.rxLeft f.fvc.toNat = 0 then [] else [n - 1]) ++ (List.range f.begins.length).map (n + ·)

/-- Bytes that have still to come, after a frame, of the last packet begun: the first packet of the frame begins at word FPO, each
other on the 8-byte boundary after the one before it (Table 7.3). -/
def frameLeft (x : Port) (f : Frame) : Nat :=
  (if f.begins.isEmpty then tget 0 x.rxLeft f.fvc.toNat
    else f.begins.foldl (fun at_ n => (at_ + 7) / 8 * 8 + n) (8 * f.fpo.toNat)) - 240

/-- The port after a data frame that it accepts. The frame stands in a buffer until every packet that it carries bytes of has gone
on; one whose packets have gone on already leaves at once, and its credit goes back (R306). -/
def takeFrame (x : Port) (f : Frame) : Port :=
  let vc := f.fvc.toNat
  let users := (frameUsers x f).filter fun k => !x.rxGone.contains (vc, k)
  let x := { x with expected := x.expected + 1, nakSent := false, rxLeft := tput 0 vc (frameLeft x f) x.rxLeft,
                    rxBegun := tput 0 vc (tget 0 x.rxBegun vc + f.begins.length) x.rxBegun }
  let x := { x with rxGone := x.rxGone.filter fun g => !(g.1 == vc && rxWhole x vc g.2) }
  if users.isEmpty then { x with creditDue := x.creditDue ++ [(vc, f.fsh)] } else { x with rxBuf := x.rxBuf ++ [⟨vc, f.fsh, users⟩] }

/-- A data frame is accepted and acknowledged, or discarded. -/
def frameData (q : Fin 10) (f : Frame) (sound : Bool) (s : State) : State :=
  let x := s.port q.val
  if sound && f.fseq == x.expected then
    let x := takeFrame x f
    let s := s.setPort q.val x
    if x.creditDue.contains (f.fvc.toNat, f.fsh) then flushCredits q.val s else sendIdle q.val (txHdr x 1) s
  else if x.nakSent then s
  else sendIdle q.val { txHdr x 1 with ak := 2 } (s.setPort q.val { x with nakSent := true })

/-- The port has received something: the time of it, and the symbols that FEC corrected (R307). -/
def frameHeard (q : Nat) (f : Frame) (s : State) : State :=
  s.modPort q fun x => { x with
    lastRx := s.portBeat q,
    corrected := (f.corrected.map fun e => (s.portBeat q, e.1, e.2)) ++ x.corrected.filter fun e => decide (beatsSince (s.portBeat q) e.1 ≤ beatsOfMs 1) }

/-- A link-control frame: the peer accepts or refuses a lane retrain that this module has asked for (R471); a lane that it refuses
is agreed no more. -/
def frameCtl (q : Nat) (f : Frame) (s : State) : State :=
  match f.ctl with
  | some (.retrainAnswer lane ok) =>
    if f.ftype ≠ 2 then s
    else if ok then s.modPort q fun x => { x with retrain := some lane }
    else if (s.port q).retrain = some lane then s.modPort q fun x => { x with retrain := none }
    else s
  | _ => s

/-- An idle frame that the elastic buffer deletes does nothing more (R301). DESIGN CHOICE, log entry 44. -/
def frameReceive (q : Fin 10) (f : Frame) (s : State) : State :=
  if !s.isReady || (s.port q.val).state != .up then s
  else
    let s := frameHeard q.val f s
    if f.ftype = 1 ∧ f.elastic then s
    else
      let sound := f.crcOk && f.fecOk
      let s := if sound then frameAcks q f (frameCtl q.val f s) else s
      if (s.port q.val).state ≠ .up then s
      else pumpAll q.val (if f.ftype = 0 then frameData q f sound s else s)

def execFrameReceive (port : Fin 10) (f : Frame) (s : State) : Out := .next (frameReceive port f s)

/-- 4 µs without an advance of ASEQ: 16 beats. -/
def execRetryTimeout (port : Fin 10) (s : State) : Out :=
  .next (let x := s.port port.val
    if s.isReady && x.state == .up && !x.held.isEmpty && decide (16 ≤ beatsSince (s.portBeat port.val) x.lastAck) then resendHeld port s
    else s)

/-! ## Packets at the router (R323, R351) -/

/-- A packet's header comes in on channel `vc` of a port; from the local port it is an injection of the module's own
engines. -/
def packetRoute (port : Fin 11) (vc : Fin 16) (p : Packet) (s : State) : State :=
  if !s.isReady then s
  else if port.val = 10 then inject p s
  else if (s.port port.val).state ≠ .up then s
  else routeIn port.val vc.val p s

def execPacketRoute (port : Fin 11) (p : Arrival) (s : State) : Out := .next (packetRoute port p.vc p.pkt s)

/-! ## Remote writes (R326) -/

inductive WriteVerdict where
  | ok (r : Region)
  | busy
  | owner (s : State)
  | poison (s : State)
  | addr
  | queues

/-- Alias ranges take whole aligned words (R204), accumulator memory addresses aligned to 4 bytes (R206). -/
def rangeOk (r : Region) (a n : Nat) : Bool :=
  match r with
  | .setBits _ | .clrBits _ => a % 8 == 0 && n % 8 == 0
  | .acc _ => a % 4 == 0
  | _ => true

/-- A span that meets a busy accumulator slot waits (R108). -/
def slotBusy (s : State) (r : Region) (a n : Nat) : Bool :=
  match r with
  | .acc u =>
    let o := (a - unitBase) % unitWindow - 0x200000
    ((blocks 16384 o n).map (· / 16384)).any (s.unit u).busySlots.contains
  | _ => false

def judgeWrite (p : Packet) (s : State) : WriteVerdict :=
  let a := p.addr.toNat
  let n := p.payload.length
  if n = 0 ∨ 4096 < n ∨ 4096 < a % 4096 + n then .addr
  else match regionOf a n with
    | none => .addr
    | some .queues => .queues
    | some r =>
      if !rangeOk r a n then .addr
      else match openSpan r a n .fabric s with
        | (s, false) => .owner s
        | (s, true) =>
          if slotBusy s r a n then .busy
          else match aliasPoison r a n s with
            | (s, true) => .poison s
            | (s, false) => .ok r

/-- A WRITE at its destination: every byte is written, then WACK; or nothing, then WNAK. One that meets a busy slot waits. A
poisoned word under an alias refuses it with cause ADDR. DEDUCED, log entry 58. -/
def execRemoteWriteReceive (p : Packet) (s : State) : Out :=
  if !(s.isReady && p.typ == 1 && reaches s p) then .next s
  else match judgeWrite p s with
    | .queues => .fault .engineQueue
    | .busy => .next s
    | .addr => .next (answerWrite p (some 2) (takeLocal p s))
    | .poison s => .next (answerWrite p (some 2) (takeLocal p s))
    | .owner s => .next (answerWrite p (some 1) (takeLocal p s))
    | .ok r => .next (answerWrite p none (takeLocal p (writeSpan r p.addr.toNat p.payload (p.vers.extractLsb' 0 7) s)))

/-! ## Heddle windows (R342, R345) -/

/-- Beat at which window k of an entry opens. -/
def Heddle.windowAt (h : Heddle) (k : Nat) : Beat := h.start + BitVec.ofNat 48 (k * h.period.toNat)

def setHeddle (h : Heddle) (s : State) : State :=
  { s with fab := { s.fab with heddles := s.fab.heddles.map fun x => if x.hid = h.hid then h else x } }

def findHeddle (s : State) (hid : BitVec 8) : Option Heddle := s.fab.heddles.find? fun h => h.hid == hid

def removeHeddle (hid : BitVec 8) (s : State) : State :=
  { s with fab := { s.fab with heddles := s.fab.heddles.filter fun h => h.hid != hid } }

def windowOpens (hid : BitVec 8) (s : State) : State :=
  match findHeddle s hid with
  | none => s
  | some h =>
    if !s.isReady || h.isOpen || later (h.windowAt h.opened) (s.portBeat h.outp.toNat) ||
        (h.count != 0 && decide (h.count.toNat ≤ h.opened)) then s
    else setHeddle { h with isOpen := true, opened := h.opened + 1 } s

def execHeddleWindowOpen (hid : BitVec 8) (s : State) : Out := .next (windowOpens hid s)

/-- A window closes after LEN beats; the entry goes with its last window. -/
def windowCloses (hid : BitVec 8) (s : State) : State :=
  match findHeddle s hid with
  | none => s
  | some h =>
    if !s.isReady || !h.isOpen || later (h.windowAt (h.opened - 1) + h.len.zeroExtend 48) (s.portBeat h.outp.toNat) then s
    else
      let s := if h.count ≠ 0 ∧ h.count.toNat ≤ h.opened then removeHeddle hid s else setHeddle { h with isOpen := false } s
      pumpAll h.outp.toNat s

def execHeddleWindowClose (hid : BitVec 8) (s : State) : Out := .next (windowCloses hid s)

/-! ## The congestion map (R346, R347) -/

def cmapLanes (s : State) (c : Cmap) : Cmap :=
  (List.range 10).foldl (fun c q => (List.range 4).foldl (fun c k =>
    { c with cells := tput 0 (cellKey q k 12) (s.port q).lanes.toNat c.cells }) c) c

/-- Close the interval: the running record becomes the completed one and a new interval begins. -/
def cmapClose (s : State) : State :=
  let c := s.fab.cmapNow
  if !clockRuns s || decide (c.beats < fld (s.cfgReg 0x020094) 23 0) then s
  else
    let done := cmapLanes s { c with
      interval := c.interval + 1, node := s.strapNode, slice := s.sliceTag,
      epochBits := BitVec.ofNat 3 (4 * s.fab.valid1.toNat + 2 * s.fab.valid0.toNat + s.fab.inj.val) }
    { s with fab := { s.fab with cmapDone := done, cmapNow := { Cmap.reset with start := s.beat, interval := c.interval + 1 } } }

def execCmapIntervalClose (s : State) : Out := .next (cmapClose s)

/-- One entry of Table 7.16. -/
def cmapEntry (c : Cmap) (q k : Nat) : List Byte :=
  let g := fun f => tget 0 c.cells (cellKey q k f)
  ((List.range 8).flatMap fun b => beBytes 4 (g b)) ++ beBytes 8 (g 8) ++ beBytes 4 (g 9) ++ beBytes 4 (g 10) ++
    beBytes 2 (g 11) ++ [BitVec.ofNat 8 (g 12)] ++ List.replicate 13 0

/-- The completed record (Tables 7.15, 7.16). -/
def cmapBytes (c : Cmap) : List Byte :=
  beBytes 4 0x434D4150 ++ beBytes 2 1 ++ beBytes 2 2880 ++ beBytes 3 c.node.toNat ++ [c.slice] ++
    beBytes 4 c.interval.toNat ++ beBytes 6 c.start.toNat ++ beBytes 4 c.beats ++ [11, 4] ++
    [BitVec.ofNat 8 c.epochBits.toNat] ++ List.replicate 35 0 ++
    (List.range 11).flatMap fun q => (List.range 4).flatMap fun k => cmapEntry c q k

end Sys2Proof.Machine
end

