-- ==== Sys2Proof/Machine/Memory.lean ====
section
/-! DEFINITION. The memory controllers' own work: patrols of DRAM and SRAM (R227, R228), the sweep of a
SCRUB lease (R468), and the failure of a channel (R216). -/
namespace Sys2Proof.Machine

/-- MEM_UE_LIMIT uncorrectable lines of one channel within 1 s (R216). -/
def channelFails (s : State) (ch : Nat) : Bool :=
  decide (fld (s.cfgReg 0x010008) 15 0 ≤
    ((tget [] s.memc.ueTimes ch).filter fun b => decide (beatsSince (s.channelBeat ch) b ≤ 3906250)).length)

def execMemChannelFail (ch : Fin 192) (s : State) : Out :=
  .next (if s.isReady && channelFails s ch.val then
      enterFault 5 (sendEvent 0x0021 2 (BitVec.ofNat 32 ch.val) 0 0 0 s)
    else s)

/-- Bit patterns that have struck stored words since the last visit. DESIGN CHOICE, log entry 17. -/
def strike (us : List Upset) (s : State) : State := { s with upsets := s.upsets ++ us }

/-- Channel granules of a channel (R212). -/
def channelGranules : Nat := 26843545

/-- Module address of channel granule j of module channel ch (R209, R211). -/
def granuleAddr (ch j : Nat) : Nat := ch / 24 * dramWindow + (24 * j + ch % 24) * 256

/-- Sweeps that every channel has completed. DEDUCED, log entry 18. -/
def sweepsDone (t : Tab Nat) : Nat :=
  (List.range 192).foldl (fun n ch => min n (tget 0 t ch / channelGranules)) (tget 0 t 0 / channelGranules)

/-- A read of the four lines of a granule. -/
def touchGranule (a : Nat) (s : State) : State := touchLine (a + 192) (touchLine (a + 128) (touchLine (a + 64) (touchLine a s)))

/-- The DRAM granules that the sweep of a SCRUB lease has visited in its first t beats: every one once in 60 s (R468).
DESIGN CHOICE, log entry 106. -/
def scrubCount (t : Nat) : Nat := t * (192 * channelGranules) / 234375000

/-- SCRUB sweeps every DRAM granule once in 60 s for as long as its lease lasts (R468): at a beat boundary it visits the
granules that are due, in ascending channel granules, each on all channels. DESIGN CHOICE, log entry 106. -/
def scrubBeat (s : State) : State :=
  match s.press.leases.find? fun l => l.activity == 1 with
  | none => s
  | some l =>
    if s.upsets.isEmpty then s
    else
      let t := beatsSince s.beat l.since
      let k := scrubCount (t - 1)
      (List.range (scrubCount t - k)).foldl (fun s i =>
        touchGranule (granuleAddr ((k + i) % 192) ((k + i) / 192 % channelGranules)) s) s

/-- One visit of the DRAM patrol: the four lines of the channel's next granule. -/
def dramVisit (ch : Nat) (s : State) : State :=
  let n := tget 0 s.memc.visit ch
  let a := granuleAddr ch (n % channelGranules)
  let s := touchGranule a s
  let v := tput 0 ch (n + 1) s.memc.visit
  { s with memc := { s.memc with visit := v, passes := BitVec.ofNat 16 (sweepsDone v) } }

def execDramPatrolVisit (ch : Fin 192) (struck : List Upset) (s : State) : Out :=
  .next (let s := strike struck s
    if s.isReady && (s.cfgReg 0x010004).getLsbD 31 then dramVisit ch.val s else s)

/-- Words of one SRAM sweep of a unit: scratch, accumulator memory, instruction words. -/
def sramWords : Nat := 196608 + 65536 + 4096

/-- Read word i of a unit's sweep. -/
def sramTouch (u : UnitId) (i : Nat) (s : State) : State :=
  if i < 196608 then touchWord u (unitAddr u 0 / 8 + i) s
  else if i < 196608 + 65536 then touchWord u (accAddr u 0 / 8 + (i - 196608)) s
  else (touchInstr u (i - (196608 + 65536)) s).1

/-- One read of the SRAM patrol. -/
def sramVisit (u : UnitId) (s : State) : State :=
  let i := tget 0 s.memc.sramVisit u.key
  let s := sramTouch u i s
  { s with memc := { s.memc with sramVisit := tput 0 u.key ((i + 1) % sramWords) s.memc.sramVisit } }

def sramOn (s : State) : Bool := s.isReady && (s.cfgReg 0x010004).getLsbD 30

def execSramPatrol (u : UnitId) (struck : List Upset) (s : State) : Out :=
  .next (let s := strike struck s
    if sramOn s then sramVisit u s else s)

/-- The patrol waits for a scratch bank with no idle cycle and takes its next cycle (R228). -/
def execSramPatrolForce (u : UnitId) (bank : Fin 32) (s : State) : Out :=
  .next (let i := tget 0 s.memc.sramVisit u.key
    if sramOn s && decide (i < 196608) && i % 32 == bank.val then sramVisit u s else s)

end Sys2Proof.Machine
end

