-- ==== Sys2Proof/Machine/HostRegs.lean ====
section
/-! DEFINITION. The register map (ch. 12): what a read of each offset gives, what a write does, two-word registers and their
latches (R514), snapshot copies (R515). -/
namespace Sys2Proof.Machine

/-! ## Offsets -/

/-- The block of an offset of Table 12.1, or a reserved offset. -/
inductive Block where
  | flat (b : Nat)                       -- TOP 0, MEM 1, FAB 2, COL 3, HX 4, CKP 5, SEC 6, PWR 7, RIP 8, JNL 9
  | clu (c : ClusterId)
  | sht (c : ClusterId)
  | unit (u : UnitId)
  | common
  | none
  deriving DecidableEq, Repr

def cluOfKey (k : Nat) : Option ClusterId :=
  if h : k / 20 < 2 then some ⟨⟨k / 20, h⟩, ⟨k % 20, Nat.mod_lt _ (by decide)⟩⟩ else none

def blockOf (off : Nat) : Block :=
  if off < 0x0A0000 then .flat (off / 0x10000)
  else if 0x100000 ≤ off ∧ off < 0x128000 then
    match cluOfKey ((off - 0x100000) / 0x1000) with
    | some c => .clu c
    | Option.none => .none
  else if 0x200000 ≤ off ∧ off < 0x228000 then
    match cluOfKey ((off - 0x200000) / 0x1000) with
    | some c => .sht c
    | Option.none => .none
  else if 0x4FF000 ≤ off ∧ off < 0x500000 then .common
  else if 0x400000 ≤ off ∧ off < 0x600000 then
    match unitOfKey ((off - 0x400000) / 0x1000) with
    | some u => .unit u
    | Option.none => .none
  else .none

/-- Offset within its 64 KiB block or 4 KiB instance. -/
def within (off : Nat) : Nat := if off < 0x0A0000 then off % 0x10000 else off % 0x1000

def inRange (lo n x : Nat) : Bool := decide (lo ≤ x) && decide (x < lo + n)

/-- The counters of Tables 12.2 to 12.12, drain counters apart. -/
def isCounter (off : Nat) : Bool :=
  let o := within off
  match blockOf off with
  | .flat 0 => inRange 0x200 16 o
  | .flat 1 => inRange 0x400 768 o || inRange 0x800 768 o
  | .flat 2 => inRange 0x100 28 o
  | .flat 4 => inRange 0x40 12 o || inRange 0x80 64 o
  | .flat 5 => o == 0x0C || o == 0x10
  | .flat 6 => o == 0x60
  | .flat 7 => o == 0x10
  | .sht _ => inRange 0x20 32 o || inRange 0x100 256 o
  | .unit _ => [0x20, 0x24, 0x2C, 0x30, 0x34].contains o || inRange 0x80 64 o
  | _ => false

def isDrain (off : Nat) : Bool := inRange 0x0200A4 16 off

/-- The counter that an offset is the holding copy of (R515). -/
def copyOf (off : Nat) : Option Nat :=
  let c := if off < 0x0A0000 then off - 0x8000 else off - 0x800
  if decide ((if off < 0x0A0000 then 0x8000 else 0x800) ≤ within off) && (isCounter c || isDrain c) then some c else none

/-- Low words of the 64-bit and 48-bit registers (R514). -/
def isLow (off : Nat) : Bool :=
  [0x10, 0x18, 0x210, 0x030008, 0x030010, 0x030018, 0x050018, 0x050030, 0x050038].contains off ||
    match blockOf off with
    | .unit _ => within off == 0x08 || within off == 0x10
    | _ => false

/-! ## Values -/

def portStatus (x : Port) : Word32 :=
  let st := match x.state with
    | .down => 0 | .training => 1 | .up => 2 | .restriping => 3
  BitVec.ofNat 32 (st * 2 ^ 30 + x.mode200.toNat * 2 ^ 29 + x.lanes.toNat * 2 ^ 25 + x.cause.toNat * 2 ^ 21 + x.peer.toNat)

def fabEpoch (s : State) : Word32 :=
  BitVec.ofNat 32 (4 * s.fab.valid1.toNat + 2 * s.fab.valid0.toNat + s.fab.inj.val)

def topState (s : State) : Word32 :=
  let st := match s.boot.state with
    | .boot => 0 | .ready => 1 | .fault => 2 | .recovery => 3
  BitVec.ofNat 32 (st * 2 ^ 29 + s.boot.cause.toNat * 256)

def topStrap (s : State) : Word32 := BitVec.ofNat 32 (s.boot.strapErr.toNat * 2 ^ 31 + s.boot.strap.toNat)

def colStatus (s : State) : Word32 :=
  BitVec.ofNat 32 (s.col.nfEarly.toNat * 2 ^ 31 + s.col.rindStale.toNat * 2 ^ 30 + s.col.opens.length % 32 * 2 ^ 16 +
    s.col.lastOpid.toNat)

/-- CAUSE of HX_STATUS: the standing cause first in R401's order. -/
def pauseCause (p : BitVec 7) : Nat := ([6, 3, 5, 2, 4, 1].find? fun c => p.getLsbD c).getD 0

def State.session (s : State) (i : Nat) : Session := tget .reset s.hx.sessions i
def isMember (s : State) (i : Nat) : Bool := s.hx.peers.any fun e => e.index.toNat == i && e.member

/-- The lowest lost member, or 0x7F. -/
def lostMember (s : State) : Nat :=
  ((List.range 64).find? fun i => (s.session i).lost && isMember s i).getD 0x7F

def hxDue (s : State) : Bool := decide (s.hx.inner.toNat = fld (s.cfgReg 0x040008) 15 0)

def hxStatus (s : State) : Word32 :=
  BitVec.ofNat 32 ((s.hx.pauses != 0).toNat * 2 ^ 31 + pauseCause s.hx.pauses * 2 ^ 28 +
    (s.hx.steps.filter (·.isReady)).length % 8 * 2 ^ 25 + (hxDue s).toNat * 2 ^ 24 + lostMember s * 2 ^ 16 + s.hx.inner.toNat)

def ckpStatus (s : State) : Word32 :=
  let refilling := (s.ckp.senders.any fun x => x.kind == 1) || (s.ckp.receivers.any fun x => x.kind == 1)
  let running := s.ckp.run.isSome || s.ckp.receivers.any fun x => x.kind == 3
  BitVec.ofNat 32 (s.ckp.unverified.toNat * 2 ^ 31 + refilling.toNat * 2 ^ 30 + running.toNat * 2 ^ 29 +
    s.ckp.store1.isSome.toNat * 2 ^ 28 + s.ckp.store0.isSome.toNat * 2 ^ 27 + s.ckp.lastId.toNat)

/-- PWR_STATUS (Table 12.12). -/
def pwrStatus (s : State) : Word32 :=
  BitVec.ofNat 32 (s.pwr.capping.toNat * 2 ^ 31 + s.pwr.thermal.toNat * 2 ^ 30 + s.pwr.temp.toNat * 2 ^ 16 + s.pwr.watts.toNat)

def secStatus (s : State) : Word32 :=
  BitVec.ofNat 32 ((s.sec.running != 0).toNat * 2 ^ 31 + (s.boot.state == .recovery).toNat * 2 ^ 30 + s.sec.running.val)

def ripStatus (s : State) : Word32 :=
  BitVec.ofNat 32 ((s.nv.rip.any (·.partialMark)).toNat * 2 ^ 31 + (s.nv.rip.filter (·.alert)).length % 65536)

/-- CLU_SPARE. -/
def cluSpare (x : Cluster) : Word32 :=
  BitVec.ofNat 32 (x.spareUsed.toNat * 2 ^ 31 + x.spareBad.toNat * 2 ^ 30 + (if x.spareUsed then x.sparePos.val else 0))

def semWord (m : Sem) : Word32 := BitVec.ofNat 32 (m.ovf.toNat * 2 ^ 17 + m.err.toNat * 2 ^ 16 + m.count.toNat)

/-- UNIT_OWNn: four owner codes. -/
def ownWord (x : UnitState) (n : Nat) : Word32 :=
  BitVec.ofNat 32 ((List.range 4).foldl (fun w i => w + (x.owner (4 * n + i)).toNat * 16 ^ i) 0)

def hashWord (h : BitVec 256) (n : Nat) : Word32 := h.extractLsb' (32 * (7 - n)) 32

/-- One word of a value of up to 64 bits. -/
def half (x : Nat) (hi : Bool) : Word32 := BitVec.ofNat 32 (if hi then x / 2 ^ 32 else x)

def unitReg (s : State) (u : UnitId) (o : Nat) : Word32 :=
  let x := s.unit u
  if o = 0x00 then x.statusWord
  else if o = 0x04 then x.faultWord
  else if o = 0x08 ∨ o = 0x0C then half x.faultBeat.toNat (o == 0x0C)
  else if o = 0x10 ∨ o = 0x14 then half x.endBeat.toNat (o == 0x14)
  else if o = 0x18 then x.mxStatus
  else if o = 0x1C then if x.mxPartial then 1 else 0
  else if o = 0x28 then x.ownLast
  else if inRange 0x40 32 o then ownWord x ((o - 0x40) / 4)
  else if inRange 0x100 64 o then semWord (x.sem ((o - 0x100) / 4))
  else 0

def topReg (s : State) (o : Nat) : Word32 :=
  if o = 0x00 then 0x2460B000
  else if o = 0x04 then topState s
  else if o = 0x08 then topStrap s
  else if o = 0x10 ∨ o = 0x14 then half s.beat.toNat (o == 0x14)
  else if o = 0x20 then BitVec.ofNat 32 (s.host.alertPending.toNat * 2 ^ 31 + s.isFault.toNat * 2 ^ 30)
  else if o = 0x210 ∨ o = 0x214 then half s.snap.beat.toNat (o == 0x214)
  else if o = 0x218 then s.snap.seq
  else s.cfgReg o

def flatReg (s : State) (b o : Nat) : Word32 :=
  let off := 0x10000 * b + o
  match b with
  | 0 => topReg s o
  | 1 =>
    if o = 0 then BitVec.ofNat 32 (256 * s.memc.speedNow.toNat + s.nv.speed.toNat)
    else if o = 4 then (s.cfgReg off &&& 0xFFFF0000) ||| s.memc.passes.zeroExtend 32
    else s.cfgReg off
  | 2 =>
    if o < 0x28 then portStatus (s.port (o / 4))
    else if o = 0x98 then BitVec.ofNat 32 s.fab.heddles.length
    else if o = 0xA0 then fabEpoch s
    else if isDrain off then s.counter off
    else s.cfgReg off
  | 3 => if o = 0 then colStatus s else s.cfgReg off
  | 4 =>
    if o = 4 then hxStatus s
    else if o = 0x30 then s.hx.pauses.zeroExtend 32
    else s.cfgReg off
  | 5 =>
    if o = 0 then ckpStatus s
    else if o = 0x18 ∨ o = 0x1C then half s.ckp.lastStep.toNat (o == 0x1C)
    else if o = 0x20 then s.ckp.cost
    else if o = 0x24 then s.ckp.interval
    else if o = 0x2C then s.ckp.refillSeg
    else if o = 0x30 ∨ o = 0x34 then half (s.ckp.store0.getD 0).toNat (o == 0x34)
    else if o = 0x38 ∨ o = 0x3C then half (s.ckp.store1.getD 0).toNat (o == 0x3C)
    else s.cfgReg off
  | 6 =>
    if o = 0 then secStatus s
    else if o = 4 then s.sec.verA
    else if o = 8 then s.sec.verB
    else if inRange 0x20 32 o then hashWord s.otp.vendorHash ((o - 0x20) / 4)
    else if inRange 0x40 32 o then hashWord (idHash s) ((o - 0x40) / 4)
    else s.cfgReg off
  | 7 =>
    if o = 4 then pwrStatus s
    else if o = 8 then s.pwr.vin
    else if o = 0x0C then s.pwr.iin
    else if o = 0x14 then s.pwr.outlet ++ s.pwr.inlet
    else if o = 0x18 then BitVec.ofNat 32 s.pwr.level
    else if inRange 0x40 40 o then (tget 0 s.pwr.laser ((o - 0x40) / 4)).zeroExtend 32
    else s.cfgReg off
  | 8 => if o = 4 then ripStatus s else if o = 8 then s.onHours else s.cfgReg off
  | _ => if o = 0 then s.host.jnlHead else if o = 4 then BitVec.ofNat 32 s.host.journal.length else 0

/-- The live value at an offset. Registers that are kept nowhere else stand in `cfg`; reserved offsets are never written
there and read zero. -/
def regValue (s : State) (off : Nat) : Word32 :=
  if isCounter off then s.counter off
  else match copyOf off with
    | some c => tget 0 s.snap.copies c
    | none =>
      let o := within off
      match blockOf off with
      | .flat b => flatReg s b o
      | .clu c => if o = 0 then s.cfgReg off else if o = 4 then cluSpare (s.clu c) else 0
      | .sht c =>
        if h : o / 4 < 8 then (s.sh ⟨c, ⟨o / 4, h⟩⟩).err
        else if o = 0x40 then BitVec.ofNat 32 (s.shtNf c)
        else 0
      | .unit u => unitReg s u o
      | .common => if o = 0 then s.cfgReg off else 0
      | .none => 0

/-- One entry of a REG_READ: a held latch serves its word once and is released; a low word latches its high word, and
FAB_EPOCH_INb latches FAB_EPOCH_OUTb (R32, R332, R514). -/
def readEntry (off : Nat) (s : State) : State × Word32 :=
  match s.host.latches.find? fun e => e.1 == off with
  | some (_, v) => ({ s with host := { s.host with latches := s.host.latches.filter fun e => e.1 != off } }, v)
  | none =>
    let mate := if isLow off then some (off + 4)
      else if off = 0x0200A4 ∨ off = 0x0200AC then some (off + 4) else none
    let s := match mate with
      | some m => { s with host := { s.host with latches := (m, regValue s m) :: s.host.latches.filter fun e => e.1 != m } }
      | none => s
    (s, regValue s off)

/-- Latches, and the values read, are released at the end of a REG_READ. -/
def endRead (s : State) : State := { s with host := { s.host with latches := [], readout := [] } }

/-! ## Writes -/

/-- w with the bits of mask m replaced by those of v. -/
def mergeBits (w m v : Word32) : Word32 := (w &&& ~~~m) ||| (v &&& m)

/-- Write the fields of mask m of a register of `cfg`. -/
def putCfg (off : Nat) (m v : Word32) (s : State) : State := s.setCfg off (mergeBits (s.cfgReg off) m v)

/-- A field of bits [hi:lo] takes its value where that is admitted. -/
def fieldIf (w v : Word32) (hi lo : Nat) (ok : Nat → Bool) : Word32 :=
  let m : Word32 := BitVec.ofNat 32 (2 ^ (hi + 1) - 2 ^ lo)
  if ok (fld v hi lo) then mergeBits w m v else w

abbrev WRes := State × Option Status

def wok (s : State) : WRes := (s, none)
def wrefuse (st : Status) (s : State) : WRes := (s, some st)

/-- Work of the faulted program still runs (R190). -/
def faultBusy (x : UnitState) : Bool :=
  x.status == .faulted && (!x.mxQueue.isEmpty || !x.mxRun.isEmpty || x.shOut != 0)

/-- A launched program is running: the unit is RUNNING, or what it issued before its fault still is. -/
def programRuns (x : UnitState) : Bool := x.status == .running || (x.program && x.status != .faulted) || faultBusy x

/-- A party runs a launched program or is armed (R75). DEDUCED, log entry 59. -/
def seedBusy (s : State) : Bool :=
  (s.units.any fun e => e.2.status == .armed || e.2.arming.isSome || programRuns e.2) ||
    (s.col.opens.any fun c => c.launch.isSome) || !s.fab.heddles.isEmpty

/-- A unit is ARMED or RUNNING, a collective or heddle is active, or a drain count is not zero (R349). -/
def fabricBusy (s : State) : Bool :=
  (s.units.any fun e => e.2.status == .armed || e.2.status == .running) || !s.col.opens.isEmpty || !s.fab.heddles.isEmpty ||
    drainCount s false != 0 || drainCount s true != 0

/-- R349, for LO and TAG of a value of FAB_SLICE_POS. -/
def slicePosBad (s : State) (v : Word32) : Bool :=
  ((List.range 4).any fun a =>
    let lo := fld v (15 - 4 * a) (12 - 4 * a)
    let n := s.axisSize a
    let e := s.sliceExtent a
    decide (n ≤ lo) || decide (n < e) || (decide (e < n) && decide (n < lo + e))) ||
  (fld v 31 24 != 0 && !(List.range 4).all fun a =>
    let c := coord s.jobNode a
    let lo := fld v (15 - 4 * a) (12 - 4 * a)
    decide (c < s.axisSize a) && decide ((c + s.axisSize a - lo) % s.axisSize a < s.sliceExtent a))

/-- The module's own coordinates lie below every axis size that v gives (R317). -/
def torusSizeBad (s : State) (v : Word32) : Bool :=
  (List.range 4).any fun a => decide (fld v (15 - 4 * a) (12 - 4 * a) < coord s.strapNode a)

/-- BSTEP differs from ASTEP on a record of the shard list (R438); a record whose line may not be used counts as open.
DEDUCED, log entry 53. -/
def outerOpen (s : State) : Bool :=
  s.hx.shards.any fun a =>
    match ctlLine a.toNat s with
    | (_, none) => true
    | (_, some l) => fld (lineW l 0) 63 16 != fld (lineW l 1) 63 16

/-- R438, for a value of HX_CFG. -/
def hxCfgWrite (v : Word32) (s : State) : WRes :=
  let new := mergeBits (s.cfgReg 0x040000) 0xFFFEF000 v
  let other := (new ^^^ s.cfgReg 0x040000) &&& 0x3FFFFFFF
  if other ≠ 0 ∧ outerOpen s then wrefuse .busyHx s
  else if 4 < fld v 28 26 ∨ fld v 15 12 = 0 ∨ 8 < fld v 15 12 then wrefuse .hxField s
  else wok (s.setCfg 0x040000 new)

/-- H: its refusals follow those of HX_CFG. -/
def hxInnerWrite (v : Word32) (s : State) : WRes :=
  let new := v &&& 0xFFFF
  if new ≠ s.cfgReg 0x040008 ∧ outerOpen s then wrefuse .busyHx s
  else if new = 0 then wrefuse .hxField s
  else wok (s.setCfg 0x040008 new)

/-- An HX_ timing parameter within its range of Table 9.13 (R523). -/
def ranged (off : Nat) (m v : Word32) (lo hi : Nat) (s : State) : WRes :=
  let x := (v &&& m).toNat
  if lo ≤ x ∧ x ≤ hi then wok (putCfg off m v s) else wrefuse .fieldInvalid s

/-- A write of 0 leaves the field unchanged. -/
def nonZero (off : Nat) (m v : Word32) (s : State) : WRes := wok (if v &&& m = 0 then s else putCfg off m v s)

/-- Table 12.2 gives offsets 0x200 to 0x218 twice; the counters and TOP_SNAP stand there, and no word of TOP_IP4.
DEDUCED, log entry 24. -/
def writeTop (o : Nat) (v : Word32) (s : State) : WRes :=
  if o = 0x20 then wok (if v.getLsbD 31 then { s with host := { s.host with alertPending := false } } else s)
  else if o = 0x24 then wok (s.setCfg o (fieldIf (s.cfgReg o) v 3 0 fun x => decide (1 ≤ x) && decide (x ≤ 3)))
  else if o = 0x28 then wok (putCfg o 0xFFFF v s)
  else if o = 0x2C then
    let w := fieldIf (s.cfgReg o) v 31 28 fun x => decide (x ≤ 4)
    let w := fieldIf w v 27 24 fun x => decide (x ≤ 4)
    wok (s.setCfg o (fieldIf w v 11 0 fun _ => true))
  else if inRange 0x40 16 o || inRange 0x60 16 o then wok (s.setCfg o v)
  else if o = 0x50 ∨ o = 0x70 then wok (putCfg o 0xFFFF v s)
  else if inRange 0x210 12 o then wok s
  else if inRange 0x100 0x200 o then
    let r := o % 0x40
    wok (if r < 0x24 then s.setCfg o v else if r = 0x24 then putCfg o 7 v s else s)
  else if o = 0x300 then
    wok (s.setCfg o ((List.range 13).foldl (fun w b => fieldIf w v (2 * b + 1) (2 * b) fun x => x != 3) (s.cfgReg o)))
  else if o = 0x304 then
    wok (if v.getLsbD 31 then { s with cfg := tput 0 o (s.cfgReg o &&& 0x7FFFFFFF) s.cfg } else s)
  else wok s

def writeMemReg (o : Nat) (v : Word32) (s : State) : WRes :=
  let off := 0x010000 + o
  if o = 0 then
    wok (if fld v 1 0 = 3 then s
      else { s with nv := { s.nv with speed := v.extractLsb' 0 2 }, struck := s.struck.filter (·.1 != 0x010000) })
  else if o = 4 then
    wok (s.setCfg off (fieldIf (mergeBits (s.cfgReg off) 0xC0000000 v) v 23 16 fun x => x != 0))
  else if o = 8 then nonZero off 0xFFFF v s
  else wok s

/-- FAB_PORT_CTLk: masked fields, and a RATE of 3 leaves RATE as it was (R510, R511). A port whose EN is cleared goes DOWN
(R309); packets that waited for ADMIT go on (R313). DEDUCED, log entry 46. -/
def portCtl (k : Nat) (v : Word32) (s : State) : State :=
  let off := 0x020040 + 4 * k
  let m := v >>> 16
  let w := mergeBits (s.cfgReg off) (m &&& 0xF) v
  let s := s.setCfg off (if fld w 3 2 = 3 then mergeBits w 0xC (s.cfgReg off) else w)
  if (s.cfgReg off).getLsbD 0 then pumpAll k s else portDown k 8 s

/-- The torus ports that are up repeat the check of R312. DEDUCED, log entry 46. -/
def recheckPeers (s : State) : State :=
  (List.range 8).foldl (fun s q =>
    let x := s.port q
    if (x.state == .up || x.state == .restriping) && !peerOk s q x.peer then portDown q 3 s else s) s

def writeFab (o : Nat) (v : Word32) (s : State) : WRes :=
  let off := 0x020000 + o
  if inRange 0x40 40 o then wok (portCtl ((o - 0x40) / 4) v s)
  else if o = 0x80 then wok (s.setCfg off v)
  else if o = 0x84 then
    if s.sliceTag ≠ 0 then wrefuse .busyFabric s
    else if torusSizeBad s v then wrefuse .sliceInvalid s
    else wok (recheckPeers (putCfg off 0xFFFF v s))
  else if o = 0x88 then
    if fld v 23 16 = 0 ∨ fld v 15 8 = 0 ∨ fld v 7 0 = 0 then wrefuse .fieldInvalid s else wok (putCfg off 0xFFFFFF v s)
  else if o = 0x8C then nonZero off 0xFFFFFFFF v s
  else if o = 0x90 then wok (putCfg off 0xF v s)
  else if o = 0x94 then nonZero off 0xFFFFFF v s
  else if o = 0xC0 then
    if fabricBusy s then wrefuse .busyFabric s
    else if slicePosBad s v then wrefuse .sliceInvalid s
    else wok (putCfg off 0xFF00FFFF v s)
  else if o = 0xC4 then if fabricBusy s then wrefuse .busyFabric s else wok (putCfg off 0xFFFF v s)
  else if o = 0xC8 then if s.sliceTag ≠ 0 then wrefuse .standinInvalid s else wok (putCfg off 0x800FFFFF v s)
  else wok s

def writeCol (o : Nat) (v : Word32) (s : State) : WRes :=
  if o = 0 then
    wok { s with col := { s.col with nfEarly := s.col.nfEarly && !v.getLsbD 31, rindStale := s.col.rindStale && !v.getLsbD 30 } }
  else if o = 4 then
    if closingOpen s then wrefuse .busyColl s
    else wok (s.setCfg 0x030004 (fieldIf (mergeBits (s.cfgReg 0x030004) 0xC0000000 v) v 3 0 fun x => decide (x < 8)))
  else if o = 0x20 then wok (s.setCfg 0x030020 v)
  else wok s

def writeHx (o : Nat) (v : Word32) (s : State) : WRes :=
  let off := 0x040000 + o
  if o = 0x00 then hxCfgWrite v s
  else if o = 0x08 then hxInnerWrite v s
  else if o = 0x0C ∨ o = 0x10 then wok (s.setCfg off v)
  else if o = 0x14 then ranged off 0xFFFF v 1 65535 s
  else if o = 0x18 ∨ o = 0x1C then ranged off 0x1FF v 1 500 s
  else if o = 0x20 then ranged off 0xFFFFFFFF v 100 1000000 s
  else if o = 0x24 then ranged off 0xFFFFFFFF v 10 10000 s
  else if o = 0x28 then ranged off 0xFFFFFFFF v 100 60000 s
  else if o = 0x2C then ranged off 0xFFFFFFFF v 1000 600000 s
  else wok s

def writeCkp (o : Nat) (v : Word32) (s : State) : WRes :=
  let off := 0x050000 + o
  if o = 4 then wok (putCfg off 0xFFFF v s)
  else if o = 8 then wok (putCfg off 0xFFFFF v s)
  else if o = 0x28 then wok (s.setCfg off v).newInterval
  else wok s

/-- The high word of a two-word register: `x` is the whole value. DEDUCED, log entry 57. -/
def writeWide (lo : Nat) (x : Word64) (s : State) : WRes :=
  let put := fun (s : State) => (s.setCfg lo (x.extractLsb' 0 32)).setCfg (lo + 4) (x.extractLsb' 32 32)
  match lo with
  | 0x18 => if seedBusy s then wrefuse .busySeed s else wok (put s)
  | 0x030008 =>
    if x.toNat % 64 ≠ 0 then wrefuse .fieldInvalid s
    else if closingOpen s then wrefuse .busyColl s
    else wok (put s)
  | 0x030010 =>
    if x.toNat % 256 ≠ 0 then wrefuse .fieldInvalid s
    else if closingOpen s then wrefuse .busyColl s
    else wok (put s)
  | 0x030018 =>
    if x.toNat % 512 ≠ 0 then wrefuse .fieldInvalid s
    else if closingOpen s then wrefuse .busyColl s
    else wok (put s)
  | _ => wok s

/-- Two-word registers that a host can write. -/
def isWide (lo : Nat) : Bool := [0x18, 0x030008, 0x030010, 0x030018].contains lo

/-- W1C of UNIT_FAULT.VALID: the unit returns to IDLE (R190, Table 4.23). -/
def clearFault (u : UnitId) (s : State) : State :=
  let x := s.unit u
  if x.status ≠ .faulted ∨ faultBusy x then s
  else s.setUnit u { x with status := .idle, faultValid := false, program := false }

/-- W1C of UNIT_MX_STATUS; PARTIAL goes when no mark is left (R520). -/
def writeMxStatus (u : UnitId) (v : Word32) (s : State) : State :=
  let x := s.unit u
  if faultBusy x then s
  else
    let m := x.mxStatus &&& ~~~v
    s.setUnit u { x with mxStatus := m, mxPartial := x.mxPartial && m != 0 }

/-- A host write of the masked code of one bank. Between two commands no access is in progress in the bank, so it takes
effect within its REG_WRITE, after the changes that stand requested for the bank (R198, R200, R510); one that would
leave a reserved code does nothing (R201). DEDUCED, log entry 102. -/
def writeOwner (u : UnitId) (bank : Nat) (m v : BitVec 4) (s : State) : State :=
  let t := ownersDue u bank s
  let c := ((t.unit u).owner bank &&& ~~~m) ||| (v &&& m)
  if m = 0 ∨ reservedCode c.toNat then s else setOwnerCode u bank c t

/-- A host write of UNIT_OWNn: four banks; the register's parity bit is written with it (R517). -/
def writeOwners (u : UnitId) (n : Nat) (v : Word32) (s : State) : State :=
  let s := (List.range 4).foldl (fun s i =>
    writeOwner u (4 * n + i) (v.extractLsb' (16 + 4 * i) 4) (v.extractLsb' (4 * i) 4) s) s
  { s with struck := s.struck.filter (·.1 != unitOff u (0x40 + 4 * n)) }

def writeUnit (u : UnitId) (o : Nat) (v : Word32) (s : State) : State :=
  if o = 0 then s.modUnit u fun x => x.clearFlags v.toNat
  else if o = 4 then if v.getLsbD 31 then clearFault u s else s
  else if o = 0x18 then writeMxStatus u v s
  else if o = 0x28 then
    if v.getLsbD 31 then s.modUnit u fun x => { x with ownLast := x.ownLast &&& 0x7FFFFFFF } else s
  else if inRange 0x40 32 o then writeOwners u ((o - 0x40) / 4) v s
  else s

def writeSht (c : ClusterId) (o : Nat) (v : Word32) (s : State) : State :=
  if h : o / 4 < 8 then
    if v.getLsbD 31 then s.modSh ⟨c, ⟨o / 4, h⟩⟩ fun x => { x with err := x.err &&& 0x7FFFFFFF } else s
  else if o = 0x40 then s.clearShtNf c (v.toNat % 16)
  else s

/-- A write of a word of a register that has one. -/
def writePlain (off : Nat) (v : Word32) (s : State) : WRes :=
  let o := within off
  match blockOf off with
  | .flat 0 => writeTop o v s
  | .flat 1 => writeMemReg o v s
  | .flat 2 => writeFab o v s
  | .flat 3 => writeCol o v s
  | .flat 4 => writeHx o v s
  | .flat 5 => writeCkp o v s
  | .flat 7 =>
    if o = 0 then
      if 900 ≤ fld v 11 0 ∧ fld v 11 0 ≤ 1650 then wok (putCfg off 0xFFF v s) else wrefuse .fieldInvalid s
    else wok s
  | .flat 8 => wok (if o = 0 then putCfg off 0xFFFF v s else s)
  | .clu _ => if o = 0 then nonZero off 0xFFFFFFFF v s else wok s
  | .sht c => wok (writeSht c o v s)
  | .unit u => wok (writeUnit u o v s)
  | .common => if o = 0 then nonZero off 0xFF v s else wok s
  | _ => wok s

/-- One entry of a REG_WRITE (R506, R508, R510 to R514): a status refuses the whole command. -/
def writeEntry (off : Nat) (v : Word32) (s : State) : WRes :=
  if off % 4 ≠ 0 then wrefuse .fieldInvalid s
  else if isCounter off then wok (s.setCounter off v)
  else if (copyOf off).isSome then wok s
  else if isWide off then wok { s with host := { s.host with staged := (off, v) :: s.host.staged.filter fun e => e.1 != off } }
  else if 4 ≤ off ∧ isWide (off - 4) then
    let lo := ((s.host.staged.find? fun e => e.1 == off - 4).map (·.2)).getD (s.cfgReg (off - 4))
    writeWide (off - 4) (v ++ lo) { s with host := { s.host with staged := s.host.staged.filter fun e => e.1 != off - 4 } }
  else writePlain off v s

/-- The entries in order, each against the state that the earlier ones leave (R489). -/
def writeEntries : Nat → List (BitVec 24 × Word32) → State → State × Option (Status × Nat)
  | _, [], s => ({ s with host := { s.host with staged := [] } }, none)
  | i, (off, v) :: t, s =>
    match writeEntry off.toNat v s with
    | (s, some st) => (s, some (st, i))
    | (s, none) => writeEntries (i + 1) t s

def regWrite (es : List (BitVec 24 × Word32)) (s : State) : HRes :=
  match writeEntries 0 es s with
  | (_, some (st, i)) => .refuse st i
  | (s, none) => .ok s

/-- Offsets read in order; an offset that is no multiple of 4 refuses the command with its index. -/
def readEntries : List Nat → State → State × List Word32
  | [], s => (s, [])
  | o :: t, s =>
    let (s, v) := readEntry o s
    let (s, vs) := readEntries t s
    (s, v :: vs)

def regRead (offs : List (BitVec 24)) (s : State) : HRes :=
  match offs.findIdx? fun o => o.toNat % 4 != 0 with
  | some i => .refuse .fieldInvalid i
  | none =>
    let (s, vs) := readEntries (offs.map BitVec.toNat) (endRead s)
    .done (endRead s) (vs.flatMap fun v => beBytes 4 v.toNat) 0

end Sys2Proof.Machine
end

