-- ==== Sys2Proof/Machine/HostUnits.lean ====
section
/-! DEFINITION. Host commands of units, memory and records: PING, MEM_READ, MEM_WRITE, EVT_READ, JNL_READ, LOAD_PROGRAM,
LAUNCH, HALT, UNIT_RETIRE (Tables 11.4, 11.7; R132, R134, R135, R197, R204, R208, R494 to R498). -/
namespace Sys2Proof.Machine

/-! ## PING -/

def countUnits (s : State) (st : UStat) : Nat := (s.units.filter fun e => e.2.status == st).length

/-- DESIGN CHOICE, log entry 19. -/
def ping (s : State) : HRes :=
  let sum := Config.unitSummary (countUnits s .armed) (countUnits s .running) (countUnits s .faulted)
  .done s (beBytes 4 (topStrap s).toNat ++ beBytes 4 (s.cfgReg 0x0200C8).toNat ++ beBytes 6 s.beat.toNat ++ beBytes 2 sum.toNat) 0

/-! ## Memory -/

/-- Offset, from a, of the first byte of a poisoned line or word. -/
def firstPoison (s : State) (r : Region) (a n : Nat) : Nat := ((List.range n).find? fun i => s.poisoned r (a + i)).getD 0

def memRead (addr : Word64) (c : Word32) (s : State) : HRes :=
  let a := addr.toNat
  let n := c.toNat
  match regionOf a n with
  | none => .refuse .addrRange 0
  | some .queues => .stop .engineQueue
  | some r =>
    let s := touch r a n s
    let bs := s.rawRead (plainAddr r a) n
    if s.anyPoison r a n then .poison s bs (firstPoison s r a n) else .done s bs 0

/-- The unit whose memory a range is part of. -/
def regionUnit : Region → Option UnitId
  | .scratch u | .acc u | .setBits u | .clrBits u => some u
  | _ => none

def unitBusy (s : State) (u : UnitId) : Bool := (s.unit u).status == .armed || (s.unit u).status == .running

/-- An alias write of a poisoned word changes nothing there and is reported as a read of it would be (R204).
DEDUCED, log entry 58. -/
def memWrite (addr : Word64) (vset : Bool) (version : BitVec 7) (data : List Byte) (s : State) : HRes :=
  let a := addr.toNat
  let n := data.length
  match regionOf a n with
  | none => .refuse .addrRange 0
  | some .queues => .stop .engineQueue
  | some r =>
    if r.isAlias && (a % 8 != 0 || n % 8 != 0) then .refuse .addrRange 0
    else if (regionUnit r).any (unitBusy s) then .refuse .busyUnit 0
    else
      let t := writeSpan r a data (if vset then version else 0) s
      if r.isAlias && t.anyPoison r a n then .poison t [] (firstPoison t r a n) else .ok t

/-! ## Records (R495, R503) -/

def evtRecord (net : Nat) (e : Event) : List Byte :=
  beBytes 2 e.code.toNat ++ [0, 0] ++ beBytes 4 (if net = 0 then e.esqA else e.esqB).toNat ++ eventBytes e

/-- Records numbered at or after `first`, in the signed sense of 32-bit serials. -/
def fromSerial {α : Type} (num : α → Word32) (first : Word32) (oldestFirst : List α) : List α :=
  oldestFirst.filter fun e => decide (0 ≤ (num e - first).toInt)

def evtRead (net : BitVec 8) (first : Word32) (s : State) : HRes :=
  let num := fun (e : Event) => if net = 0 then e.esqA else e.esqB
  let l := (fromSerial num first s.host.events.reverse).take 204
  .done s (l.flatMap (evtRecord net.toNat)) (match l with
    | [] => 0
    | e :: _ => (num e).toNat)

def jnlBytes (e : JEntry) : List Byte :=
  beBytes 6 e.beat.toNat ++ [BitVec.ofNat 8 (128 * (e.port.val / 4) + e.port.val % 4), BitVec.ofNat 8 e.rev.toNat] ++
    beBytes 2 e.opcode.toNat ++ beBytes 2 e.hostid.toNat ++ beBytes 4 e.seq.toNat ++ beBytes 16 e.src.toNat

def jnlRead (first : Word32) (s : State) : HRes :=
  let n := s.host.journal.length
  let l := s.host.journal.reverse.mapIdx fun i e => (s.host.jnlHead - BitVec.ofNat 32 (n - i), e)
  let l := (fromSerial (fun (x : Word32 × JEntry) => x.1) first l).take 256
  .done s (l.flatMap fun x => jnlBytes x.2) (match l with
    | [] => 0
    | x :: _ => x.1.toNat)

/-! ## Unit commands -/

/-- Words from index `first` into the store and the kept image; written halves carry no poison. -/
def loadWords (u : UnitId) (first : Nat) (ws : List InstrWord) (s : State) : State :=
  let base := 4096 * u.key + first
  let put := fun (t : Tab InstrWord) => (ws.foldl (fun (x : Tab InstrWord × Nat) w => (tput 0 x.2 w x.1, x.2 + 1)) (t, base)).1
  { s with
    store := put s.store, images := put s.images,
    storePoison := tclear (2 * base) (2 * (base + ws.length)) s.storePoison,
    upsets := s.upsets.filter fun e => match e.loc with
      | .store k i _ => !(k == u.key && decide (first ≤ i) && decide (i < first + ws.length))
      | _ => true }

def loadProgram (p : LoadReq) (s : State) : HRes :=
  let us := maskUnits p.umask
  .orElse (us.any (unitBusy s)) .busyUnit (.ok (us.foldl (fun s u => loadWords u (p.first.toNat % 4096) p.words s) s))

/-- Arm a unit (R133, R134). -/
def armUnit (p : LaunchReq) (beat : Option Beat) (s : State) (u : UnitId) : State :=
  s.modUnit u fun x =>
    { x with arming := some ⟨beat, false, 0, false, p.entry, p.replay, p.canon, p.args⟩,
             status := if x.status = .idle then .armed else x.status }

/-- The first unit, in mask order, that refuses a LAUNCH, and its status. DEDUCED, log entry 57. -/
def launchRefusal (us : List UnitId) (s : State) : Option Status :=
  us.findSome? fun u =>
    let x := s.unit u
    if x.arming.isSome then some .launchConflict else if x.status = .faulted then some .unitFaulted else none

def launch (h : Hdr) (p : LaunchReq) (s : State) : HRes :=
  let us := maskUnits p.umask
  if s.ckp.unverified then .refuse .unverified 0
  else match launchRefusal us s with
  | some st => .refuse st 0
  | none => .later (us.foldl (armUnit p (if h.lbv then some h.lbeat else none)) s)

/-- HALT of one unit, its barrier episodes apart (R497). -/
def haltUnit (s : State) (u : UnitId) : State :=
  let x := s.unit u
  match x.status with
  | .armed => s.setUnit u { x with arming := none, status := .idle }
  | .running => s.setUnit u { x with arming := none, wait := .ended false, pc := x.nextPc }
  | _ => s

/-- An episode of a cluster includes a unit that the mask names. -/
def episodeNamed (m : BitVec 320) (c : ClusterId) (e : Episode) : Bool :=
  (List.finRange 8).any fun i => e.mask.getLsbD i.val && m.getLsbD (160 * c.die.val + (c.unit i).num.val)

/-- HALT: the named units stop, waits at barriers among them; then every open episode that includes one of them is cancelled. -/
def halt (m : BitVec 320) (s : State) : HRes :=
  .ok (allClusters.foldl (fun s c => cancelEpisodes c (episodeNamed m c) s) ((maskUnits m).foldl haltUnit s))

/-- A unit of the cluster other than u waits to be retired: the spare is spoken for. -/
def spareTaken (s : State) (u : UnitId) : Bool :=
  (List.finRange 8).any fun i => u.cluster.unit i != u && (s.unit (u.cluster.unit i)).retireAsked

def unitRetire (die unit : BitVec 8) (s : State) : HRes :=
  match unitOfKey (256 * die.toNat + unit.toNat) with
  | none => .refuse .fieldInvalid 0
  | some u =>
    .orElse (!spareUsable s u.cluster || spareTaken s u) .noSpare (.ok (s.modUnit u fun x => { x with retireAsked := true }))

/-- SNAPSHOT: armed for its launch beat, or copied at the next beat boundary (R33, R37, R38, R515). In the fault state
no boundary comes, and the copy is taken as the command is; one with a launch beat is armed there too, and is not copied
or answered, since that beat does not come. DEDUCED, log entry 30. -/
def snapshot (h : Hdr) (s : State) : HRes :=
  if h.lbv then
    .orElse (s.snap.armed.contains h.lbeat) .launchConflict (.later { s with snap := { s.snap with armed := s.snap.armed ++ [h.lbeat] } })
  else if clockRuns s then .later s
  else
    let s := takeSnapshot s
    .done s (snapBytes s.snap.beat) 0

end Sys2Proof.Machine
end

