-- ==== Sys2Proof/Machine/HostFabric.lean ====
section
/-! DEFINITION. SET_ROUTE, SET_HEDDLE and CMAP_READ (R322, R331 to R335, R341, R345, R347, R448), and the acceptance of
COLLECTIVE (R356 to R358, R259, R260, R398, R458). -/
namespace Sys2Proof.Machine

/-! ## Route tables -/

def routeCode (c : Nat) : Bool := decide (c < 8) || c == 15

/-- R322 and R448. -/
def routeBad (p : RouteReq) (s : State) : Bool :=
  (p.entries.any fun e => !(routeCode (fld e 3 0) && routeCode (fld e 7 4))) ||
    p.redirects.any fun (r : Node × Node) => siteOf r.1 != siteOf s.strapNode || siteOf r.2 != siteOf s.strapNode

def setValid (b : Fin 2) (v : Bool) (s : State) : State :=
  if b.val = 0 then { s with fab := { s.fab with valid0 := v } } else { s with fab := { s.fab with valid1 := v } }

/-- Load a bank: its entries in the order of R322 and its redirects; VALID is set again when the load is complete. -/
def loadBank (p : RouteReq) (s : State) : State :=
  let base := 64 * p.bank.val
  let put := fun (x : Tab (BitVec 16) × Nat) (e : BitVec 16) => (tput (0xFF : BitVec 16) x.2 (e &&& 0xFF) x.1, x.2 + 1)
  let routes := (p.entries.foldl put (tclear base (base + 64) s.fab.routes, base)).1
  let keep := s.fab.redirects.filter fun (b, _, _) => b != p.bank
  let s := { s with fab := { s.fab with routes := routes, redirects := keep ++ p.redirects.map fun (r : Node × Node) => (p.bank, r.1, r.2) } }
  setValid p.bank true { s with struck := s.struck.filter fun e => !inRange (0x1000000 + base) 64 e.1 }

/-- The write form (R322, R331, R334). -/
def setRouteWrite (h : Hdr) (p : RouteReq) (s : State) : HRes :=
  if h.lbv || routeBad p s then .refuse .routeInvalid 0
  else
    let b := p.bank.val == 1
    let own := s.fab.inj == p.bank && s.bankValid b
    if own || drainCount s b != 0 then .refuse .busyEpoch 0 else .ok (loadBank p s)

/-- The switch form (R331, R335). -/
def setRouteSwitch (h : Hdr) (bank : Fin 2) (s : State) : HRes :=
  if h.lbv then .refuse .routeInvalid 0
  else if !s.bankValid (bank.val == 1) then .refuse .bankInvalid 0
  else .ok { s with fab := { s.fab with inj := bank } }

/-! ## Heddles -/

def heddlePort (p : Nat) : Bool := decide (p < 8) || p == 10

def heddleField (p : HeddleReq) : Bool :=
  p.hid == 0 || !heddlePort p.inp.toNat || !heddlePort p.outp.toNat || p.inp == p.outp || p.len == 0 ||
    (p.period != 0 && decide (p.period.toNat < p.len.toNat)) || (p.period == 0 && p.count != 1)

/-- Spans [a, a + m) and [b, b + n) of a circle of k share no point. -/
def apart (k a m b n : Nat) : Bool :=
  decide (m ≤ (b + k - a) % k) && decide (n ≤ (a + k - b) % k)

/-- Two entries whose windows cannot share a beat: single windows with disjoint beats, or an equal period with disjoint
beats within it, by the signed difference of their STARTs (R31). -/
def heddlesApart (x : Heddle) (p : HeddleReq) : Bool :=
  let single := fun (period : BitVec 24) (count : BitVec 16) => period == 0 || count == 1
  if single x.period x.count && single p.period p.count then
    apart (2 ^ 48) x.start.toNat x.len.toNat p.start.toNat p.len.toNat
  else
    x.period != 0 && x.period == p.period &&
      apart x.period.toNat 0 x.len.toNat ((p.start - x.start).toInt % (x.period.toNat : Int)).toNat p.len.toNat

def notUp (s : State) (p : Nat) : Bool := decide (p < 8) && (s.port p).state != .up

/-- The refusal of an install: R35 and R36 on START, R38, then Table 7.14 in its order. -/
def heddleRefusal (p : HeddleReq) (s : State) : Option Status :=
  let same := s.fab.heddles.filter fun x => x.outp == p.outp
  if beatPassed s p.start then some .beatPassed
  else if beatFar s p.start then some .beatRange
  else if same.any (fun x => x.opened == 0 && x.start == p.start) then some .launchConflict
  else if heddleField p then some .heddleField
  else if s.fab.heddles.any (fun x => x.hid == p.hid) then some .heddleExists
  else if 64 ≤ s.fab.heddles.length then some .heddleFull
  else if same.any (fun x => !heddlesApart x p) then some .heddleOverlap
  else if notUp s p.inp.toNat || notUp s p.outp.toNat then some .portIsDown
  else none

def setHeddleInstall (p : HeddleReq) (s : State) : HRes :=
  match heddleRefusal p s with
  | some st => .refuse st 0
  | none =>
    let x : Heddle := ⟨p.hid, p.inp, p.outp, p.start, p.len, p.period, p.count, 0, false⟩
    .later { s with fab := { s.fab with heddles := s.fab.heddles ++ [x] }, struck := s.struck.filter (·.1 != 0x2000000 + p.hid.toNat) }

def setHeddleRemove (hid : BitVec 8) (s : State) : HRes := .ok (removeHeddle hid s)

/-- A close that is due comes first: the record is the one that it produces. -/
def cmapReadOp (s : State) : HRes :=
  let s := cmapClose s
  .done s (cmapBytes s.fab.cmapDone) 0

/-! ## COLLECTIVE -/

/-- Table 8.5. -/
def formatsOk (op : CollOp) (p : CollReq) : Bool :=
  let f := fun (x : BitVec 4) => x == 0 || x == 3
  match op with
  | .rs | .ar =>
    (f p.sfmt && f p.wfmt && f p.dfmt) || (p.sfmt == 9 && p.wfmt == 9 && p.dfmt == 9 && !p.redMax)
  | _ => p.sfmt != 15 && p.wfmt == p.sfmt && p.dfmt == p.sfmt

/-- Counts that a COUNTS list holds: p, or 2 p for an all-to-all. -/
def countsWanted (op : CollOp) (p : Nat) : Nat := if op = .a2a then 2 * p else p

/-- COLL_FIELD of Table 8.3. -/
def collField (op : CollOp) (q : CollReq) (p : Nat) (s : State) : Bool :=
  q.opid == 0 || q.close == 3 || !formatsOk op q || (q.close == 1 && !(op == .rs || op == .ar)) || (q.close == 2 && op != .ag) ||
    (q.close != 0 && q.srec.toNat != s.stepAddr) || decide (p ≤ q.root.toNat) ||
    match q.counts with
    | some l => l.length != countsWanted op p
    | none => false

/-- The counts that a collective works with: a broadcast's one buffer, an all-to-all's send and receive counts, else the
chunks. -/
def collCounts (op : CollOp) (q : CollReq) (p pos : Nat) : List Nat :=
  let given := q.counts.map fun l => l.map BitVec.toNat
  let chunks := raggedCounts q.total.toNat p
  match op with
  | .bc => [match given with
      | some l => sumTake l l.length
      | none => q.total.toNat]
  | .a2a => given.getD (chunks ++ List.replicate p (chunks.getD pos 0))
  | _ => given.getD chunks

/-- Elements of the source and of the destination of a collective. -/
def collSpans (op : CollOp) (q : CollReq) (cs : List Nat) (p pos : Nat) : Nat × Nat :=
  let all := sumTake cs cs.length
  match op with
  | .rs => (all, cs.getD pos 0)
  | .ag => (cs.getD pos 0, all)
  | .ar => (all, all)
  | .bc => (if q.root.toNat = pos then cs.getD 0 0 else 0, cs.getD 0 0)
  | .a2a => (sumTake cs p, sumTake (cs.drop p) p)

def leavesSpace (a w n : Nat) : Bool := n != 0 && (regionOf a (bytesOf w n)).isNone
/-- DESIGN CHOICE, log entry 8. -/
def collQueues (a w n : Nat) : Bool := n != 0 && (regionOf a (bytesOf w n)) == some .queues

/-- What R259, R260, R271 and R577 make of a collective: none is accepted while a commit pass that has been decided is still to
be run again. -/
def stepOrderRefusal (op : CollOp) (q : CollReq) (s : State) : Option Status :=
  if q.close = 0 then
    match stepRec s with
    | (_, some l) => if recOutcome l = outDecided ∧ !closingOpen s then some .stepOrder else none
    | (_, none) => none
  else match stepRec s with
    | (_, none) => some .dataPoison
    | (_, some l) =>
      let o := recOutcome l
      let fits := if q.close = 1 then
          (o == outNone && !s.col.opens.any fun c => c.req.close == 1 && c.req.step != q.step) || (recStep l == q.step - 1 && finalOutcome o)
        else recStep l == q.step && o == outGradClear
      if 5 < o || !fits || op == .bc then some .stepOrder else none

/-- ASTEP and BSTEP of the first outer record. -/
def outerSteps (s : State) : Option (Nat × Nat) :=
  match s.hx.shards with
  | [] => none
  | a :: _ => match ctlLine a.toNat s with
    | (_, some l) => some (fld (lineW l 0) 63 16, fld (lineW l 1) 63 16)
    | (_, none) => none

/-- The step is that of an accepted HX_APPLY. -/
def isApplyStep (s : State) (st : BitVec 48) : Bool := s.hx.applying.any fun a => a.2.1 == st

/-- R398: the exchange holds the gradient-closing collective of a step; a joiner's inner steps wait until it has applied what
it fetched (R435). DEDUCED, log entry 53. DEDUCED, log entry 79. -/
def hxHolds (q : CollReq) (s : State) : Bool :=
  q.close == 1 && s.hx.configured && !s.hx.shards.isEmpty &&
    (hxDue s || (s.hx.joining.isSome && !isApplyStep s q.step) ||
      match outerSteps s, s.hx.applying with
      | some (a, b), some (_, st, _, _) => decide (a + 1 + fld (s.cfgReg 0x040000) 28 26 < b) && st != q.step
      | some (a, b), none => decide (a + 1 + fld (s.cfgReg 0x040000) 28 26 < b)
      | none, _ => false)

inductive CollVerdict where
  | refused (st : Status)
  | queues
  | ok (s : State)

/-- Enter an accepted collective in the table. -/
def enterColl (op : CollOp) (q : CollReq) (cs : List Nat) (pos p : Nat) (launch : Option Beat) (byHx : Bool) (s : State) : State :=
  let c : Coll :=
    { op := op, req := q, counts := cs, pos := pos, p := p, launch := launch, order := s.col.nextOrder,
      phase := if launch.isSome then .armed else .queued, left := 0, leftAg := 0, gotBytes := [], sent := [], answered := [],
      held := [], flag := none, dst := 0, slot := none, claimSince := s.collBeat, retryAt := s.collBeat, stallSent := false,
      late := false, byHx := byHx, nextTag := 0 }
  let up := q.close == 2
  let s := { s with col := { s.col with
    opens := s.col.opens ++ [c], aborted := s.col.aborted.filter (· != q.opid), nextOrder := s.col.nextOrder + 1,
    rind := if up then none else s.col.rind,
    failedSets := s.col.failedSets.filter fun e => !(up && e.set == q.bset && e.step == q.step),
    bsets := if up && !s.col.bsets.contains q.bset then s.col.bsets ++ [q.bset] else s.col.bsets } }
  s

/-- The collective engine, which is one party, is already armed for that beat (R38, R376). DEDUCED, log entry 30. -/
def collArmed (launch : Option Beat) (s : State) : Bool :=
  launch.isSome && s.col.opens.any fun c => c.phase == .armed && c.launch == launch

/-- The refusals of a COLLECTIVE up to COLL_FIELD. -/
def collFront (launch : Option Beat) (byHx field : Bool) (s : State) : Option Status :=
  if !byHx && s.ckp.unverified then some .unverified
  else if collArmed launch s then some .launchConflict
  else if field then some .collField
  else none

/-- The conditions of a COLLECTIVE command, from the host or from the HX engine, and its acceptance; `wrongLen` says that LEN
implies counts that CNT does not announce (R499). -/
def acceptColl (op : CollOp) (q : CollReq) (launch : Option Beat) (wrongLen byHx : Bool) (s : State) : CollVerdict :=
  let s := commitResume s
  let a := q.axis.val
  let p := s.sliceExtent a
  let pos := linePos s a
  let cs := collCounts op q p pos
  let (ns, nd) := collSpans op q cs p pos
  let ws := fmtBits q.sfmt.toNat
  let wd := fmtBits q.dfmt.toNat
  match collFront launch byHx (wrongLen || collField op q p s) s with
  | some st => .refused st
  | none =>
  if q.counts.isNone && (q.total == 0 || decide (2 ^ 40 ≤ q.total.toNat)) then .refused .collRange
  else if leavesSpace q.src.toNat ws ns || (q.close != 2 && leavesSpace q.dst.toNat wd nd) then .refused .collRange
  else if (s.coll q.opid).isSome then .refused .opidExists
  else if 16 ≤ s.col.opens.length then .refused .busyColl
  else if s.sliceTag = 0 then .refused .sliceInvalid
  else match stepOrderRefusal op q s with
    | some st => .refused st
    | none =>
      if hxHolds q s then .refused .hxPaused
      else if collQueues q.src.toNat ws ns || (q.close != 2 && collQueues q.dst.toNat wd nd) then .queues
      else .ok (enterColl op q cs pos p launch byHx s)

/-- An accepted COLLECTIVE is answered once it is queued, or, with a launch beat, once it is armed (R358). -/
def collective (h : Hdr) (op : CollOp) (q : CollReq) (s : State) : HRes :=
  match acceptColl op q (if h.lbv then some h.lbeat else none) (h.len.toNat != 64 && q.counts.isNone) false s with
  | .refused st => .refuse st 0
  | .queues => .stop .engineQueue
  | .ok s => if h.lbv then .later s else .ok s

/-- A COLLECTIVE whose OP is outside Table 8.2 (R357). -/
def collReserved (h : Hdr) (s : State) : HRes :=
  match collFront (if h.lbv then some h.lbeat else none) false true s with
  | some st => .refuse st 0
  | none => .refuse .collField 0

end Sys2Proof.Machine
end

