-- ==== Sys2Proof/Machine/Training.lean ====
section
/-! DEFINITION. Shard digests and their comparison (R285 to R288, R458), DIGEST, and STEP_RESOLVE (R440). -/
namespace Sys2Proof.Machine

/-! ## CRC-64/ECMA-182 (R285) -/

def crcPoly : BitVec 64 := 0x42F0E1EBA9EA3693

def crcBits : Nat → BitVec 64 → BitVec 64
  | 0, c => c
  | n + 1, c => crcBits n (if c.getLsbD 63 then (c <<< 1) ^^^ crcPoly else c <<< 1)

def crcByte (c : BitVec 64) (b : Byte) : BitVec 64 := crcBits 8 (c ^^^ (b.zeroExtend 64 <<< 56))

def crc64 (bs : List Byte) : BitVec 64 := bs.foldl crcByte 0

/-- Blocks of k bytes with a shorter last one; `fuel` bounds their number. -/
def chunksOf {α : Type} (k : Nat) : Nat → List α → List (List α)
  | 0, _ => []
  | fuel + 1, l => if l.isEmpty then [] else l.take k :: chunksOf k fuel (l.drop k)

def blockList (k : Nat) (bs : List Byte) : List (List Byte) := chunksOf k (bs.length / k + 1) bs

/-- The digest of a byte string (R285). -/
def digestOf (bs : List Byte) : BitVec 128 :=
  let vs := (blockList 4096 bs).map crc64
  let crcOf := fun (l : List (BitVec 64)) => crc64 (l.flatMap fun v => beBytes 8 v.toNat)
  crcOf vs.reverse ++ crcOf vs

/-- Digest of n bytes of memory; of a poisoned shard it is a value the spec does not state.
DESIGN CHOICE, log entry 83. -/
def memDigest (a n : Nat) (s : State) : State × BitVec 128 :=
  let g := engRead a n s
  match g.fail with
  | none => (g.s, digestOf g.bytes)
  | some _ =>
    let s := useFree (useFree g.s)
    (s, freeWord g.s ++ freeWord (useFree g.s))

def shardDigests : List (Nat × List Word64) → State → State × List (BitVec 128)
  | [], s => (s, [])
  | (_, h) :: t, s =>
    let (s, d) := memDigest (hdrMaster h (hdrCur h)) (4 * hdrCount h) s
    let (s, ds) := shardDigests t s
    (s, d :: ds)

/-- Digest list of the commit list as it stands; none where a control line may not be used. -/
def listDigests (s : State) : State × Option (List (BitVec 128)) :=
  match stepRec s with
  | (s, none) => (s, none)
  | (s, some l) =>
    match jobHeaders l s with
    | (s, none) => (s, none)
    | (s, some hs) =>
      let (s, ds) := shardDigests hs s
      (s, some ds)

/-! ## Comparison (R288) -/

/-- TENSOR of the shard at a commit-list position. -/
def tensorAt (i : Nat) (s : State) : Nat :=
  match stepRec s with
  | (s, some l) => match jobHeaders l s with
    | (_, some hs) => match hs[i]? with
      | some (_, h) => hdrTensor h
      | none => 0
    | (_, none) => 0
  | (_, none) => 0

def differing (a b : List (BitVec 128)) : List Nat :=
  (List.range (max a.length b.length)).filter fun i => a[i]? != b[i]?

/-- Compare the lists of one step: DIGEST_MISMATCH for each shard that differs; equal lists are counted, and one that
CKP_DIGEST_PEER has sent verifies a restored step (R458). DEDUCED, log entry 69. -/
def compareLists (step : BitVec 48) (src : Node) (own rx : List (BitVec 128)) (s : State) : State :=
  let ds := differing own rx
  if ds.isEmpty then
    let s := s.bump 0x05000C 1
    if s.ckp.unverified && step == s.ckp.restoredStep && src == (s.cfgReg 0x050008).extractLsb' 0 20 then { s with ckp := { s.ckp with unverified := false } } else s
  else
    ds.foldl (fun s i => sendEvent 0x0046 2 (BitVec.ofNat 32 i) step (BitVec.ofNat 16 (tensorAt i s)) 0 s) s

def listFor (step : BitVec 48) (l : List (BitVec 48 × List (BitVec 128))) : Option (List (BitVec 128)) :=
  (l.find? fun e => e.1 == step).map (·.2)

/-- Keep the module's own list of a step, and compare every list that has been held for it. -/
def ownList (step : BitVec 48) (ds : List (BitVec 128)) (s : State) : State :=
  let own := s.ckp.ownDigests.filter fun e => e.1 != step
  let s := { s with ckp := { s.ckp with ownDigests := (step, ds) :: own } }
  let mine := s.ckp.rxDigests.filter fun e => e.1 == step
  let s := { s with ckp := { s.ckp with rxDigests := s.ckp.rxDigests.filter fun e => e.1 != step } }
  mine.foldl (fun s e => compareLists step e.2.1 ds e.2.2 s) s

def sendDigests (step : BitVec 48) (ds : List (BitVec 128)) (s : State) : State :=
  s.emit (.digestList ((s.cfgReg 0x050008).extractLsb' 0 20) step ds)

/-- The shards of a committed step have been read (R286, R287). -/
def digestDone (s : State) : State :=
  match s.ckp.digesting with
  | none => s
  | some step =>
    let s := { s with ckp := { s.ckp with digesting := none } }
    match listDigests s with
    | (s, none) => s
    | (s, some ds) => sendDigests step ds (ownList step ds s)

def execShardDigestDone (s : State) : Host.Outcome State Fault Refusal := .next (if s.isReady then digestDone s else s)

/-- A list that arrives for a step not yet digested is held; a third replaces the oldest. -/
def digestIn (h : ListHead) (ds : List (BitVec 128)) (s : State) : State :=
  if !s.isReady then s
  else match listFor h.step s.ckp.ownDigests with
    | some own => compareLists h.step h.src own ds s
    | none =>
      let held := s.ckp.rxDigests ++ [(h.step, h.src, ds)]
      let s := if 2 < held.length then s.bump 0x050010 1 else s
      { s with ckp := { s.ckp with rxDigests := held.drop (held.length - 2) } }

def execDigestListReceive (head : ListHead) (ds : List (BitVec 128)) (s : State) : Host.Outcome State Fault Refusal :=
  .next (digestIn head ds s)

/-- DIGEST: the list of the step is sent, or formed first where the step is the committed one. -/
def digestCmd (step : BitVec 48) (s : State) : HRes :=
  match listFor step s.ckp.ownDigests with
  | some ds => .ok (sendDigests step ds s)
  | none =>
    match stepRec s with
    | (s, some l) =>
      .ok (if recStep l = step ∧ recOutcome l = outCommitted then { s with ckp := { s.ckp with digesting := some step } } else s)
    | (s, none) => .ok s

/-! ## STEP_RESOLVE (R440) -/

/-- OUTCOME that an action leaves. -/
def resolveGoal (action : Nat) : Nat :=
  match action with
  | 1 => outGradClear
  | 2 => outSkipGrad
  | 3 => outCommitted
  | _ => outSkipUpdate

/-- The result of a pass; one that a poisoned line stops sends COLL_FAIL (R577). -/
def passDone (step : BitVec 48) (r : State × Bool) : HRes :=
  if r.2 then .ok (applyAllHeld r.1) else .ok (commitStopped 0 step r.1)

/-- DEDUCED, log entry 62. -/
def resolveAction (step : BitVec 48) (action : Nat) (l : List Word64) (s : State) : HRes :=
  let o := recOutcome l
  match action with
  | 1 | 2 =>
    if recStep l = step - 1 ∧ finalOutcome o then passDone step (gradDecision step (action == 2) s) else .refuse .stepOrder 0
  | 3 =>
    if recStep l ≠ step ∨ !(o == outGradClear || o == outDecided) then .refuse .stepOrder 0
    else match jobHeaders l s with
      | (_, none) => .refuse .dataPoison 0
      | (s, some hs) =>
        if hs.all fun x => prepared x.2 step then
          passDone step (commitPass step filling (digestDone s))
        else .refuse .stepOrder 0
  | _ =>
    if recStep l = step ∧ o = outGradClear then
      passDone step (skipPass step filling s)
    else .refuse .stepOrder 0

/-- DEDUCED, log entry 62. -/
def stepResolve (step : BitVec 48) (action : BitVec 8) (s : State) : HRes :=
  if !s.col.opens.isEmpty then .refuse .stepOrder 0
  else match stepRec s with
    | (_, none) => .refuse .dataPoison 0
    | (s, some l) =>
      if recStep l = step ∧ recOutcome l = resolveGoal action.toNat then .ok s else resolveAction step action.toNat l s

end Sys2Proof.Machine
end

