-- ==== Sys2Proof/Machine/Outer.lean ====
section
/-! DEFINITION. The outer state of a shard (Tables 9.1, 9.2): its areas, and F32 arrays in memory (R387, R395, R459). -/
namespace Sys2Proof.Machine

/-! ## F32 arrays -/

def wordsOf : Nat → List Byte → List Word32
  | 0, _ => []
  | n + 1, bs => BitVec.ofNat 32 (leNat (bs.take 4)) :: wordsOf n (bs.drop 4)

/-- n F32 values from address a. -/
def engWords (a n : Nat) (s : State) : State × List Word32 × Option EngFail :=
  let g := engRead a (4 * n) s
  match g.fail with
  | some f => (g.s, [], some f)
  | none => (g.s, wordsOf n g.bytes, none)

def engPutWords (a : Nat) (ws : List Word32) (ver : BitVec 7) (s : State) : State × Option EngFail :=
  engWrite a (ws.flatMap fun w => leBytes 4 w.toNat) ver s

/-- The engine has read or written an infinity or a NaN (R77). -/
def noteNf (bad : Bool) (s : State) : State := if bad then { s with hx := { s.hx with nonfinite := true } } else s

/-- dst := f over two arrays of n values. -/
def engZip (f : Word32 → Word32 → Word32) (a b n dst : Nat) (ver : BitVec 7) (s : State) : State × Option EngFail :=
  match engWords a n s with
  | (s, _, some e) => (s, some e)
  | (s, xs, none) => match engWords b n s with
    | (s, _, some e) => (s, some e)
    | (s, ys, none) =>
      let zs := (xs.zip ys).map fun x => f x.1 x.2
      engPutWords dst zs ver (noteNf ((xs ++ ys ++ zs).any f32Special) s)

/-- Copy n values; a copy forms no result, and sets no flag of the engine. DEDUCED, log entry 48. -/
def engMove (a n dst : Nat) (ver : BitVec 7) (s : State) : State × Option EngFail :=
  match engWords a n s with
  | (s, _, some e) => (s, some e)
  | (s, xs, none) => engPutWords dst xs ver s

def engZero (dst n : Nat) (ver : BitVec 7) (s : State) : State × Option EngFail := engPutWords dst (List.replicate n 0) ver s

/-! ## The outer record -/

structure OuterRec where
  addr : Nat
  l0 : List Word64
  l1 : List Word64

/-- The record at an address of the shard list; none where a line may not be used. -/
def outerRec (a : Nat) (s : State) : State × Option OuterRec :=
  match ctlLine a s with
  | (s, none) => (s, none)
  | (s, some l0) => match ctlLine (a + 64) s with
    | (s, none) => (s, none)
    | (s, some l1) => (s, some ⟨a, l0, l1⟩)

def OuterRec.astep (r : OuterRec) : Nat := fld (lineW r.l0 0) 63 16
def OuterRec.acur (r : OuterRec) : Nat := fld (lineW r.l0 0) 0 0
def OuterRec.bstep (r : OuterRec) : Nat := fld (lineW r.l0 1) 63 16
def OuterRec.rcur (r : OuterRec) : Nat := fld (lineW r.l0 1) 0 0
def OuterRec.tensor (r : OuterRec) : Nat := fld (lineW r.l0 2) 31 16
def OuterRec.stream (r : OuterRec) : BitVec 16 := (lineW r.l0 2).extractLsb' 0 16
def OuterRec.count (r : OuterRec) : Nat := fld (lineW r.l0 3) 39 0
def OuterRec.slo (r : OuterRec) : Nat := fld (lineW r.l0 4) 39 0
def OuterRec.scount (r : OuterRec) : Nat := fld (lineW r.l0 5) 39 0
def OuterRec.hdr (r : OuterRec) : Nat := (lineW r.l0 6).toNat

/-- Bytes of one set. -/
def setBytes (n : Nat) : Nat := padTo 256 (4 * n)
def OuterRec.theta (r : OuterRec) (c : Nat) : Nat := (lineW r.l1 0).toNat + c * setBytes r.count
def OuterRec.offs (r : OuterRec) (c : Nat) : Nat := (lineW r.l1 1).toNat + c * setBytes r.count
def OuterRec.snap (r : OuterRec) (k : Nat) : Nat := (lineW r.l1 2).toNat + k * setBytes r.count
def OuterRec.work (r : OuterRec) : Nat := (lineW r.l1 3).toNat
/-- The slice area after the work area. -/
def OuterRec.slice (r : OuterRec) : Nat := r.work + setBytes r.count
def OuterRec.mom (r : OuterRec) (c : Nat) : Nat := (lineW r.l1 4).toNat + c * setBytes r.scount
def OuterRec.resid (r : OuterRec) (c : Nat) : Nat := (lineW r.l1 5).toNat + c * setBytes r.scount

/-- T2 bytes of an image before its scales, and the whole image. -/
def t2Bytes (n : Nat) : Nat := padTo 256 ((n + 3) / 4)
def imageBytes (n : Nat) : Nat := padTo 256 (t2Bytes n + (n + 31) / 32)

/-- The staleness bound S of HX_CFG. -/
def State.stale (s : State) : Nat := fld (s.cfgReg 0x040000) 28 26

/-- Snapshot slot of outer step o. -/
def OuterRec.snapOf (r : OuterRec) (s : State) (o : Nat) : Nat := r.snap (o % (s.stale + 1))

/-- Position of an entry in the table, by ascending index. -/
def entryRank (s : State) (idx : Nat) : Nat := (s.hx.peers.filter fun e => decide (e.index.toNat < idx)).length

/-- Landing slot of outer step o for the entry of index idx. -/
def OuterRec.landing (r : OuterRec) (s : State) (o idx : Nat) : Nat :=
  (lineW r.l1 7).toNat + ((o % (s.stale + 1)) * s.hx.peers.length + entryRank s idx) * imageBytes r.scount

/-- The areas of a record but its landing slots, and the landing slots for a table of e entries. -/
def OuterRec.areas (r : OuterRec) (s : State) : List (Nat × Nat) :=
  [(r.addr, 128), (r.theta 0, 2 * setBytes r.count), (r.offs 0, 2 * setBytes r.count),
   (r.snap 0, (s.stale + 1) * setBytes r.count), (r.work, setBytes r.count + setBytes r.scount),
   (r.mom 0, 2 * setBytes r.scount), (r.resid 0, 2 * setBytes r.scount)]
def OuterRec.landArea (r : OuterRec) (s : State) (e : Nat) : Nat × Nat :=
  ((lineW r.l1 7).toNat, (s.stale + 1) * e * imageBytes r.scount)
def OuterRec.valid (r : OuterRec) : Bool := bitOf (lineW r.l0 0) 1

/-- Line 0 written with new step fields. -/
def writeOuter (r : OuterRec) (astep acur bstep rcur : Nat) (s : State) : State :=
  let w0 := setFld (setFld (lineW r.l0 0) 63 16 astep) 0 0 acur
  let w1 := setFld (setFld (lineW r.l0 1) 63 16 bstep) 0 0 rcur
  ctlWrite r.addr ((r.l0.set 0 w0).set 1 w1) 0 s

/-- Run an action for each record of the shard list, until one fails; `bad` is the failure of an unusable line. The position
of the failing shard is returned with the failure. -/
def eachOuter (f : Nat → OuterRec → State → State × Option EngFail) : Nat → List Word64 → State → State × Option (Nat × EngFail)
  | _, [], s => (s, none)
  | i, a :: t, s =>
    match outerRec a.toNat s with
    | (s, none) => (s, some (i, .poison))
    | (s, some r) => match f i r s with
      | (s, some e) => (s, some (i, e))
      | (s, none) => eachOuter f (i + 1) t s

/-- Run actions in order until one fails. -/
def runSteps : List (State → State × Option EngFail) → State → State × Option EngFail
  | [], s => (s, none)
  | f :: fs, s => match f s with
    | (s, some e) => (s, some e)
    | (s, none) => runSteps fs s

/-- The shard header that a record names. -/
def withHeader (r : OuterRec) (s : State) (k : List Word64 → State → State × Option EngFail) : State × Option EngFail :=
  match ctlLine r.hdr s with
  | (s, none) => (s, some .poison)
  | (s, some h) => k h s

end Sys2Proof.Machine
end

