-- ==== Sys2Proof/Machine/RecoveryOps.lean ====
section
/-! DEFINITION. Streams of segments between modules and with the store (R452 to R455, R460 to R464): senders, receivers,
answers and NAKs of RECOV packets. -/
namespace Sys2Proof.Machine

/-- A segment is 64 MiB (R452). -/
def segSize : Nat := 67108864

def segments (n : Nat) : Nat := max 1 ((n + segSize - 1) / segSize)
def segmentOf (bs : List Byte) (k : Nat) : List Byte := (bs.drop (k * segSize)).take segSize

/-! ## Storage ports (R461, R462) -/

def storeUp (s : State) (k : Fin 2) : Bool :=
  (s.port (8 + k.val)).state == .up && storeKnown s k

def anyStore (s : State) : Bool := storeUp s 0 || storeUp s 1

/-- Even segments go out on S0, odd ones on S1; all on the other port while one is down (R462). With neither in use the
packet waits for its resend. DESIGN CHOICE, log entry 67. -/
def storeFor (s : State) (seg : Nat) : Fin 2 :=
  let k : Fin 2 := ⟨seg % 2, Nat.mod_lt _ (by decide)⟩
  if storeUp s k then k else if storeUp s (k + 1) then k + 1 else k

/-- SRC and DST of a packet from the store carry the module's strap node. -/
def fromStore (s : State) (p : Packet) : Bool := p.src == s.strapNode && p.dst == s.strapNode

/-! ## Answers -/

/-- WACK of a RECOV packet. DESIGN CHOICE, log entry 67. -/
def recovAnswer (p : Packet) (s : State) : State :=
  if fromStore s p then
    toStore (storeFor s (recovHdr p).seg) { Packet.blank with typ := 2, dst := s.strapNode, tag := p.tag } s
  else answerWrite p none s

/-- NAK, which itself is not answered. -/
def recovNakTo (p : Packet) (cause : Nat) (s : State) : State :=
  let h := recovHdr p
  inject { recovPacket { h with rop := 10, cause := cause } p.src [] with tag := p.tag } s

/-- A RECOV packet of a kind that has reached this module. -/
def recovFor (s : State) (rop : Nat) (p : Packet) : Bool :=
  s.isReady && p.typ == 5 && (recovHdr p).rop == rop && isFor s p

/-! ## Senders -/

def setSender (x : SegSender) (s : State) : State :=
  { s with ckp := { s.ckp with senders := s.ckp.senders.map fun y => if y.kind = x.kind ∧ y.rid = x.rid then x else y } }

def dropSender (x : SegSender) (s : State) : State :=
  { s with ckp := { s.ckp with senders := s.ckp.senders.filter fun y => !(y.kind == x.kind && y.rid == x.rid) } }

def ckpFail (s : State) : State :=
  match s.ckp.run with
  | none => s
  | some r =>
    sendEvent 0x0066 2 (r.id.zeroExtend 32) r.step 0 0
      { s with ckp := { s.ckp with run := none, senders := s.ckp.senders.filter fun x => x.kind != 3 } }

/-- The last segment is answered: the digests of a refill follow, the stand-in of an evacuation is ready, or SEAL is sent. -/
def finishSender (x : SegSender) (s : State) : State :=
  match x.kind with
  | 1 => (dropSender x s).emit (.digestList x.dst x.step x.digests)
  | 2 =>
    let s := setSender x s
    if s.ckp.evacTo.isSome then s
    else sendEvent 0x0062 0 (x.dst.zeroExtend 32) 0 0 0 { s with ckp := { s.ckp with evacTo := some x.dst } }
  | 3 =>
    let body := beBytes 2 x.rid.toNat ++ beBytes 6 x.step.toNat ++ beBytes 4 (segments x.bytes.length) ++
      x.digests.flatMap fun d => beBytes 16 d.toNat
    let s := keepSeal x.rid x.digests (sendRecov ⟨x.rid, 4, true, 0, 0, 0⟩ 0 (some (storeFor s 0)) body (dropSender x s)).1
    { s with ckp := { s.ckp with run := s.ckp.run.map fun r => { r with sealAt := some s.ckpBeat } } }
  | _ => dropSender x s

/-- Send the next packet of a stream, or end it. A sender of kind 4 or 5 sends one segment only; SEG_DONE of the last segment
of a whole stream carries END. DESIGN CHOICE, log entry 67. -/
def senderStep (x : SegSender) (s : State) : State :=
  let one := decide (4 ≤ x.kind)
  let n := segments x.bytes.length
  let whole := segmentOf x.bytes x.seg
  let passed := x.doneSent && decide (whole.length ≤ x.off)
  if passed && one then finishSender x s
  else
    let x := if passed then { x with seg := x.seg + 1, off := 0, doneSent := false } else x
    if n ≤ x.seg then finishSender x s
    else
      let seg := segmentOf x.bytes x.seg
      let store := if x.kind = 3 then some (storeFor s x.seg) else none
      if x.off < seg.length then
        let bs := (seg.drop x.off).take 4096
        let last := decide (seg.length ≤ x.off + bs.length)
        let (s, t) := sendRecov ⟨x.rid, 1, last, x.seg, 0, x.off⟩ x.dst store bs s
        setSender { x with off := x.off + bs.length, tag := t } s
      else
        let last := x.kind != 4 && decide (x.seg + 1 = n)
        let (s, t) := sendRecov ⟨x.rid, 3, last, x.seg, 0, 0⟩ x.dst store (beBytes 16 (digestOf seg).toNat) s
        setSender { x with doneSent := true, tag := t } s

def startSender (x : SegSender) (s : State) : State :=
  senderStep x { s with ckp := { s.ckp with senders := s.ckp.senders ++ [x] } }

/-! ## Receivers -/

def setReceiver (r : SegReceiver) (s : State) : State :=
  { s with ckp := { s.ckp with receivers := s.ckp.receivers.map fun y => if y.kind = r.kind ∧ y.rid = r.rid then r else y } }

def dropReceiver (r : SegReceiver) (s : State) : State :=
  { s with ckp := { s.ckp with receivers := s.ckp.receivers.filter fun y => !(y.kind == r.kind && y.rid == r.rid) } }

/-- Ask for the present segment with SEG_READ; it carries the bobbin-set records that the refill wants.
DESIGN CHOICE, log entry 64. -/
def askSegment (r : SegReceiver) (s : State) : State :=
  let body := r.sets.flatMap fun a => beBytes 8 a.toNat
  let store := if r.kind = 3 then some (storeFor s r.seg) else none
  (sendRecov ⟨r.rid, 2, true, r.seg, 0, 0⟩ (r.second.getD r.buddy) store body s).1

def refillFail (r : SegReceiver) (s : State) : State :=
  sendEvent 0x0061 2 (r.rid.zeroExtend 32) 0 0 (xWord (BitVec.ofNat 32 r.seg)) (dropReceiver r s)

/-- A stream that cannot be completed ends: REFILL_FAIL, or CKP_FAIL for a restore. -/
def receiverFail (r : SegReceiver) (s : State) : State :=
  match r.kind with
  | 1 => refillFail r s
  | 3 => sendEvent 0x0066 2 (r.rid.zeroExtend 32) 0 0 0 (dropReceiver r s)
  | _ => dropReceiver r s

/-- The first stand-in answers no more, or holds no more segments: the rest comes from the buddy. -/
def leaveSecond (r : SegReceiver) (fromStart : Bool) (s : State) : State :=
  let r := { r with second := none, bytes := [], asks := 0, seg := if fromStart then 0 else r.seg,
                    image := if fromStart then [] else r.image }
  askSegment r (setReceiver r s)

def receiverOf (s : State) (p : Packet) : Option SegReceiver :=
  s.ckp.receivers.find? fun r => r.rid == (recovHdr p).rid &&
    (if r.kind = 3 then fromStore s p else !fromStore s p && p.src == r.second.getD r.buddy)

end Sys2Proof.Machine
end

