-- ==== Sys2Proof/Machine/Recovery.lean ====
section
/-! DEFINITION. Failure paths (ch. 10): reload of a line (R445, R446), refill (R452 to R459), evacuation (R460), checkpoints
(R461 to R466). -/
namespace Sys2Proof.Machine

/-! ## The rind as its buddy holds it -/

/-- The committed rind image; the NAK cause where there is none. -/
def rindImage (s : State) : State × Except Nat (BitVec 48 × List Byte) :=
  if !(s.cfgReg 0x030004).getLsbD 30 then (s, .error 2)
  else match ctlLine (rindBase s) s with
    | (s, none) => (s, .error 3)
    | (s, some h) =>
      if fld (lineW h 0) 1 1 = 0 then (s, .error 2)
      else
        let g := engRead (rindBase s + 64 + fld (lineW h 0) 0 0 * ((rindSize s - 64) / 2)) (fld (lineW h 2) 47 0) s
        match g.fail with
        | none => (g.s, .ok ((lineW h 0).extractLsb' 16 48, g.bytes))
        | some _ => (g.s, .error 3)

/-- Read a span by its address, version and length as a stream carries them: 16 bytes and the contents. -/
def spanHead (a : Nat) (ver : BitVec 7) (n : Nat) : List Byte := beBytes 8 a ++ [ver.zeroExtend 8] ++ beBytes 7 n

/-- Write what such spans carry, each as an engine writes (R195, R196).
DESIGN CHOICE, log entry 64. DESIGN CHOICE, log entry 65. -/
def placeSpans : Nat → List Byte → State → State × Option EngFail
  | 0, _, s => (s, none)
  | fuel + 1, bs, s =>
    if bs.length < 16 then (s, none)
    else
      let n := beNat ((bs.drop 9).take 7)
      match engWrite (beNat (bs.take 8)) ((bs.drop 16).take n) ((bs.getD 8 0).extractLsb' 0 7) s with
      | (s, some e) => (s, some e)
      | (s, none) => placeSpans fuel (bs.drop (16 + n)) s

/-- The LIVE slot of highest STEP of a bobbin set. -/
def liveSlot (b : List Word64) : Option Nat :=
  pickSlot b (fun x y => decide (y < x)) ((List.range (bsetSlots b)).filter fun k => slotState b k == 2)

def slotSpan (b : List Word64) (k : Nat) : Nat × Nat := ((lineW b 0).toNat + k * bsetStride b, bsetStride b)

/-- Part 2 of a refill: the live slots of the named sets, each with its address, at which the stand-in writes it (R452).
DESIGN CHOICE, log entry 64. -/
def liveBytes : List Word64 → State → State × Except Nat (List Byte)
  | [], s => (s, .ok [])
  | a :: t, s =>
    match ctlLine a.toNat s with
    | (s, none) => (s, .error 3)
    | (s, some b) =>
      let (s, head) := match liveSlot b with
        | none => (s, Except.ok [])
        | some k =>
          let g := engRead (slotSpan b k).1 (slotSpan b k).2 s
          (g.s, if g.fail.isSome then .error 3
            else .ok (spanHead (slotSpan b k).1 ((slotStep b k).extractLsb' 0 7) (slotSpan b k).2 ++ g.bytes))
      match head, liveBytes t s with
      | .error c, _ => (s, .error c)
      | .ok _, (s, .error c) => (s, .error c)
      | .ok x, (s, .ok y) => (s, .ok (x ++ y))

/-- Digests of the masters of a rind image, one shard after another. -/
def imageDigests : Nat → List Byte → List (BitVec 128)
  | 0, _ => []
  | fuel + 1, bs =>
    if bs.length < 256 then []
    else
      let h := (List.range 8).map fun i => BitVec.ofNat 64 (leNat ((bs.drop (8 * i)).take 8))
      let n := 4 * hdrCount h
      let set := padTo 256 n
      digestOf ((bs.drop 256).take n) :: imageDigests fuel (bs.drop (256 + set * (1 + min 2 (hdrNmom h))))

/-- The whole stream of a refill: step, bytes, digests of the masters. -/
def refillStream (sets : List Word64) (s : State) : State × Except Nat (BitVec 48 × List Byte × List (BitVec 128)) :=
  match rindImage s with
  | (s, .error c) => (s, .error c)
  | (s, .ok (st, img)) =>
    match liveBytes sets s with
    | (s, .error c) => (s, .error c)
    | (s, .ok live) => (s, .ok (st, img ++ live, imageDigests (img.length / 256 + 1) img))

def refilling (s : State) : Bool := (s.ckp.senders.any fun x => x.kind == 1) || (s.ckp.receivers.any fun r => r.kind == 1)

/-! ## SEG_READ -/

def setsOf (bs : List Byte) : List Word64 :=
  (List.range (bs.length / 8)).map fun i => BitVec.ofNat 64 (beNat ((bs.drop (8 * i)).take 8))

/-- A module asks for a segment (R454, R455): of a stream in progress, of what this module has itself recorded of the same
refill, or of the rind that it holds. -/
def segReadIn (p : Packet) (s : State) : State :=
  if !recovFor s 2 p then s
  else
    let h := recovHdr p
    let s := recovAnswer p s
    match s.ckp.senders.find? fun x => x.rid == h.rid && decide (x.kind ≤ 3) && (x.dst == p.src || (x.kind == 3 && fromStore s p)) with
    | some x => senderStep { x with seg := h.seg, off := 0, doneSent := false } s
    | none =>
      match s.ckp.receivers.find? fun r => r.kind == 1 && r.rid == h.rid with
      | some r =>
        if r.seg ≤ h.seg then recovNakTo p 1 s
        else
          let kind := if r.finished ∧ h.seg + 1 = r.seg then 5 else 4
          startSender ⟨kind, h.rid, p.src, r.image, h.seg, 0, false, 0, 0, []⟩ s
      | none =>
        if refilling s then recovNakTo p 4 s
        else match refillStream (setsOf p.payload) s with
          | (s, .error c) => recovNakTo p c s
          | (s, .ok (st, bs, ds)) => startSender ⟨1, h.rid, p.src, bs, h.seg, 0, false, 0, st, ds⟩ s

def execSegRead (p : Packet) (s : State) : Out := .next (segReadIn p (takeLocal p s))

/-! ## REFILL -/

/-- The first stand-in of a resumed refill: the redirect target of the module's own job node, when it is another module.
DESIGN CHOICE, log entry 64. -/
def firstStandIn (s : State) : Option Node :=
  let n := redirected s s.inj s.jobNode
  if isOwn s n then none else some n

def refill (buddy : Node) (rid : BitVec 16) (resume : Bool) (sets : List Word64) (s : State) : HRes :=
  .orElse (refilling s) .busyRefill (
    let r : SegReceiver := ⟨1, rid, buddy, if resume then firstStandIn s else none, 0, [], [], 0, sets, false⟩
    let s := { s with ckp := { s.ckp with unverified := true, restoredRecs := none, refillSeg := 0, receivers := s.ckp.receivers ++ [r] } }
    .ok (askSegment r s))

/-- A header as R452 rebuilds it: CUR = 0, STEP = the step of the image, SEQ = 0, PVALID = 0.
DEDUCED, log entry 69. -/
def rebuiltHdr (h : List Word64) (st : BitVec 48) : List Word64 :=
  (h.set 0 (setFld (setFld (setFld (lineW h 0) 0 0 0) 15 8 0) 63 16 st.toNat)).set 1 (setFld (lineW h 1) 0 0 0)

def headerOf (bs : List Byte) : List Word64 := (List.range 8).map fun i => BitVec.ofNat 64 (leNat ((bs.drop (8 * i)).take 8))

/-- The moments of a shard, from the front of a byte string that holds them `set` bytes apart. -/
def placeMoments (h : List Word64) (ver : BitVec 7) (n set : Nat) : Nat → Nat → List Byte → State → State × Option EngFail
  | 0, _, _, s => (s, none)
  | k + 1, j, bs, s =>
    match engWrite (hdrMoment h 0 j) (bs.take n) ver s with
    | (s, some e) => (s, some e)
    | (s, none) => placeMoments h ver n set k (j + 1) (bs.drop set) s

/-- Place the shards of an image (R452): headers at the module's own commit-list addresses, images in set A; the bytes left,
or why an access was refused. DESIGN CHOICE, log entry 63. -/
def placeShards : List Nat → List Byte → State → State × Except EngFail (List Byte)
  | [], bs, s => (s, .ok bs)
  | a :: t, bs, s =>
    let h := headerOf bs
    let st := (lineW h 1).extractLsb' 16 48
    let ver := st.extractLsb' 0 7
    let n := 4 * hdrCount h
    let set := padTo 256 n
    let body := bs.drop 256
    match engLine a (rebuiltHdr h st) st s with
    | (s, some e) => (s, .error e)
    | (s, none) =>
      match engWrite (hdrMaster h 0) (body.take n) ver s with
      | (s, some e) => (s, .error e)
      | (s, none) =>
        match placeMoments h ver n set (min 2 (hdrNmom h)) 0 (body.drop set) s with
        | (s, some e) => (s, .error e)
        | (s, none) => placeShards t (body.drop (set * (1 + min 2 (hdrNmom h)))) s

/-- R459: each current C as round(master − P̃). -/
def rewriteOffsets (s : State) : State :=
  if !s.hx.configured then s
  else (eachOuter (fun _ r s => withHeader r s fun h s =>
    engZip f32Sub (hdrMaster h (hdrCur h)) (r.snapOf s r.bstep) r.count (r.offs r.acur) 0 s) 0 s.hx.shards s).1

/-- The end of a refill (R454): the image is placed, and REFILL_DONE sent when the digests that the buddy has sent match
those of the written masters; lists of other modules are compared with the new list of the step (R288). It waits for the
buddy's. DESIGN CHOICE, log entry 63. DEDUCED, log entry 69. -/
def refillEnd (s : State) : State :=
  match s.ckp.receivers.find? fun r => r.kind == 1 && r.finished with
  | none => s
  | some r =>
    let st := (lineW (headerOf r.image) 1).extractLsb' 16 48
    match s.ckp.rxDigests.find? fun e => e.1 == st && e.2.1 == r.buddy with
    | none => s
    | some sent =>
      match stepRec s with
      | (s, none) => refillFail r s
      | (s, some l) =>
        match commitList l s with
        | (s, none) => refillFail r s
        | (s, some as) =>
          match placeShards as r.image s with
          | (s, .error _) => refillFail r s
          | (s, .ok rest) =>
            match placeSpans (rest.length / 16 + 1) rest s with
            | (s, some _) => refillFail r s
            | (s, none) =>
              match listDigests s with
              | (s, none) => refillFail r s
              | (s, some ds) =>
                let s := { s with ckp := { s.ckp with rxDigests := eraseFirst (fun e => decide (e = sent)) s.ckp.rxDigests } }
                if ds = sent.2.2 then
                  let s := { s with ckp := { s.ckp with restoredStep := st, unverified := s.cfgReg 0x050008 != 0 } }
                  sendEvent 0x0060 0 (r.rid.zeroExtend 32) 0 0 0 (rewriteOffsets (dropReceiver r (ownList st ds s)))
                else refillFail r s

def execRefillDone (s : State) : Out := .next (if s.isReady then refillEnd s else s)

/-! ## EVACUATE (R460) -/

/-- Spans of the module's committed training state. -/
def trainSpans (s : State) : List (Nat × Nat) :=
  match stepRec s with
  | (_, none) => []
  | (s, some l) =>
    (s.stepAddr, 64) :: match jobHeaders l s with
      | (_, none) => []
      | (_, some hs) => hs.flatMap fun (a, h) =>
        [(a, 64), (hdrMaster h (hdrCur h), 4 * hdrCount h)] ++
          (List.range (min 2 (hdrNmom h))).map fun j => (hdrMoment h (hdrCur h) j, 4 * hdrCount h)

/-- The records of the bobbin sets and every LIVE slot of each. -/
def bobbinSpans (s : State) : List (Nat × Nat) :=
  s.col.bsets.flatMap fun a => (a.toNat, 64) :: match ctlLine a.toNat s with
    | (_, some b) => ((List.range (bsetSlots b)).filter fun k => slotState b k == 2).map (slotSpan b)
    | (_, none) => []

def rindSpans (s : State) : List (Nat × Nat) :=
  if !(s.cfgReg 0x030004).getLsbD 30 then []
  else match ctlLine (rindBase s) s with
    | (_, none) => []
    | (_, some h) =>
      [(rindBase s, 64), (rindBase s + 64 + fld (lineW h 0) 0 0 * ((rindSize s - 64) / 2), fld (lineW h 2) 47 0)]

def outerSpans (s : State) : List (Nat × Nat) :=
  s.hx.shards.flatMap fun a => match outerRec a.toNat s with
    | (_, none) => []
    | (_, some r) =>
      r.areas s ++ [r.landArea s s.hx.peers.length]

/-- One span as the stream carries it: address, version, length, bytes. A span that holds poison is left out.
DESIGN CHOICE, log entry 65. -/
def spanBytes (x : Nat × Nat) (s : State) : State × List Byte :=
  let g := engRead x.1 x.2 s
  if g.fail.isSome || x.2 = 0 then (g.s, [])
  else (g.s, spanHead x.1 (g.s.version (x.1 / 64 * 64)) x.2 ++ g.bytes)

def spansBytes : List (Nat × Nat) → State → State × List Byte
  | [], s => (s, [])
  | x :: t, s =>
    let (s, a) := spanBytes x s
    let (s, b) := spansBytes t s
    (s, a ++ b)

/-- DESIGN CHOICE, log entry 65. -/
def evacuate (n : Node) (s : State) : HRes :=
  let (s, bs) := spansBytes (trainSpans s ++ bobbinSpans s ++ rindSpans s ++ outerSpans s) s
  let s := { s with ckp := { s.ckp with senders := s.ckp.senders.filter (fun x => x.kind != 2), evacTo := none } }
  .ok (startSender ⟨2, 0, n, bs, 0, 0, false, 0, 0, []⟩ s)

/-- Zero in every DRAM line: poison and versions go with it. -/
def zeroDram (s : State) : State :=
  { s with mem := s.mem.filter (fun e => decide (8 * dramWindow ≤ e.1)), lineTags := [],
           upsets := s.upsets.filter fun e => match e.loc with
             | .dram _ => false
             | _ => true }

/-- Once the host has taken the module out of its slice, the evacuated module clears its lines.
DESIGN CHOICE, log entry 65. -/
def evacuatedEnd (s : State) : State :=
  match s.ckp.evacTo with
  | none => s
  | some n =>
    if s.sliceTag ≠ 0 then s
    else
      let s := zeroDram s
      let s := { s with ckp := { s.ckp with evacTo := none, senders := s.ckp.senders.filter fun x => x.kind != 2 } }
      sendEvent 0x0063 0 (n.zeroExtend 32) 0 0 0 s

def execEvacuated (s : State) : Out := .next (if s.isReady then evacuatedEnd s else s)

/-! ## CHECKPOINT (R462 to R464) -/

/-- RANK of a tensor, 1 to 6. -/
def tensorRank (t : BitVec 16) : Nat := 1 + (Config.tensorRank t).toNat % 6

/-- DIM0 to DIM5, zero at and above RANK (R290). -/
def tensorDims (t : BitVec 16) : List Byte :=
  (beBytes 108 (Config.tensorDims t).toNat).take (18 * tensorRank t) ++ List.replicate (108 - 18 * tensorRank t) 0

/-- An export header record (Table 6.6) of an F32 payload of `count` elements from element `off` of the module's shard.
DESIGN CHOICE, log entry 23. -/
def exportHeader (tensor : Nat) (step : BitVec 48) (kind off count : Nat) (d : BitVec 128) : List Byte :=
  let t : BitVec 16 := BitVec.ofNat 16 tensor
  let lo := (Config.tensorLo t).toNat + off
  let body := beBytes 4 0x44525348 ++ beBytes 2 1 ++ beBytes 2 256 ++ beBytes 8 (Config.tensorId t).toNat ++
    beBytes 6 step.toNat ++ [0, 0, BitVec.ofNat 8 kind, BitVec.ofNat 8 (tensorRank t)] ++ List.replicate 6 0 ++
    tensorDims t ++ beBytes 6 lo ++ beBytes 6 (lo + count) ++ beBytes 4 0x3F800000 ++
    beBytes 8 (4 * count) ++ beBytes 16 d.toNat ++ List.replicate 68 0
  body ++ beBytes 8 (crc64 body).toNat

/-- One array that a checkpoint exports: KIND, first element within the shard, address, values. -/
structure Export where
  kind : Nat
  off : Nat
  addr : Nat
  count : Nat
  deriving DecidableEq, Repr

/-- An export record, with its digest. STEP is that of the shard's committed state. -/
def exportRec (tensor : Nat) (step : BitVec 48) (x : Export) (s : State) : State × List Byte × List (BitVec 128) × Option EngFail :=
  let g := engRead x.addr (4 * x.count) s
  match g.fail with
  | some e => (g.s, [], [], some e)
  | none =>
    let d := digestOf g.bytes
    (g.s, exportHeader tensor step x.kind x.off x.count d ++ g.bytes, [d], none)

/-- What a checkpoint exports of one shard; the outer momentum and residual hold the slice from SLO. -/
def shardExports (h : List Word64) (r : Option OuterRec) : List Export :=
  let c := hdrCur h
  let n := hdrCount h
  [⟨0, 0, hdrMaster h c, n⟩] ++ (List.range (min 2 (hdrNmom h))).map (fun j => ⟨1 + j, 0, hdrMoment h c j, n⟩) ++
    match r with
    | none => []
    | some r => [⟨5, 0, r.theta r.acur, r.count⟩, ⟨6, r.slo, r.mom r.acur, r.scount⟩, ⟨4, r.slo, r.resid r.rcur, r.scount⟩]

/-- The outer record of the shard whose header lies at a. -/
def outerOf (a : Nat) (s : State) : Option OuterRec :=
  if !s.hx.configured then none
  else s.hx.shards.findSome? fun w => match outerRec w.toNat s with
    | (_, some r) => if r.hdr = a then some r else none
    | (_, none) => none

def exportAll : List (List Word64 × Export) → State → State × List Byte × List (BitVec 128) × Option EngFail
  | [], s => (s, [], [], none)
  | (h, x) :: rest, s =>
    match exportRec (hdrTensor h) (hdrStep h) x s with
    | (s, _, _, some e) => (s, [], [], some e)
    | (s, bs, ds, none) =>
      match exportAll rest s with
      | (s, _, _, some e) => (s, [], [], some e)
      | (s, cs, es, none) => (s, bs ++ cs, ds ++ es, none)

/-- Line 0 of each outer record, and each bobbin-set record, as the module record holds them; none where a line may not be
used. DESIGN CHOICE, log entry 66. -/
def ctlBytes : List Nat → State → State × Option (List Byte)
  | [], s => (s, some [])
  | a :: t, s =>
    match ctlLine a s with
    | (s, none) => (s, none)
    | (s, some l) =>
      match ctlBytes t s with
      | (s, none) => (s, none)
      | (s, some bs) => (s, some (l.flatMap (fun w => leBytes 8 w.toNat) ++ bs))

/-- The 4 KiB module record: control lines first; its last ten bytes number them and give the step.
DESIGN CHOICE, log entry 66. -/
def moduleRecord (l : List Word64) (step : BitVec 48) (s : State) : State × Option (List Byte) :=
  match ctlBytes (s.col.bsets.map BitVec.toNat ++ s.hx.shards.map BitVec.toNat) s with
  | (s, none) => (s, none)
  | (s, some bs) =>
    let body := (l.flatMap (fun w => leBytes 8 w.toNat) ++ bs).take 4086
    (s, some (body ++ List.replicate (4086 - body.length) 0 ++ beBytes 2 s.col.bsets.length ++ beBytes 2 s.hx.shards.length ++
      beBytes 6 step.toNat))

def ckpBusy (s : State) : Bool := s.ckp.run.isSome || s.ckp.receivers.any fun r => r.kind == 3

def checkpoint (step : BitVec 48) (id : BitVec 16) (s : State) : HRes :=
  if !anyStore s then .refuse .storeDown 0
  else match stepRec s with
    | (_, none) => .refuse .ckpOrder 0
    | (s, some l) =>
      if ckpBusy s || recStep l != step || !finalOutcome (recOutcome l) then .refuse .ckpOrder 0
      else
        let s := { s with ckp := { s.ckp with run := some ⟨step, id, s.ckpBeat, none⟩ } }
        match jobHeaders l s with
        | (s, none) => .ok (ckpFail s)
        | (s, some hs) =>
          match moduleRecord l step s with
          | (s, none) => .ok (ckpFail s)
          | (s, some mrec) =>
            let items := hs.flatMap fun (a, h) => (shardExports h (outerOf a s)).map fun x => (h, x)
            match exportAll items s with
            | (s, _, _, some _) => .ok (ckpFail s)
            | (s, bs, ds, none) => .ok (startSender ⟨3, id, 0, mrec ++ bs, 0, 0, false, 0, step, ds⟩ s)

/-- WACK of a packet that came through storage port k (R453). -/
def storeAnswer (k : Fin 2) (tag : Word32) (s : State) : State :=
  sendStore (8 + k.val) { Packet.blank with typ := 2, dst := s.strapNode, tag := tag } s

/-- SEALED (R464). -/
def sealedIn (m : StoreSealed) (s : State) : State :=
  let id := m.id
  let s := if s.isReady then storeAnswer m.port m.tag (takeStore m.port 5 m.tag s) else s
  match s.ckp.run with
  | none => s
  | some r =>
    if !s.isReady || r.id != id || r.sealAt.isNone then s
    else
      let ms := beatsSince s.ckpBeat r.begun * 256 / 1000000
      let s := { s with ckp := { s.ckp with
        run := none, lastId := id, lastStep := r.step, cost := BitVec.ofNat 32 ms, hasCost := true, lastDone := s.ckpBeat,
        dueSent := false } }
      sendEvent 0x0065 0 (id.zeroExtend 32) r.step 0 0 s.newInterval

def execSealed (id : StoreSealed) (s : State) : Out := .next (sealedIn id s)

/-- 30 s without SEALED: 117,187,500 beats. -/
def sealTimeout (s : State) : State :=
  match s.ckp.run with
  | none => s
  | some r => match r.sealAt with
    | none => s
    | some b => if s.isReady && decide (117187500 ≤ beatsSince s.ckpBeat b) then ckpFail s else s

def execCkpSealTimeout (s : State) : Out := .next (sealTimeout s)

/-- CKP_INTERVAL has passed since the last CKP_DONE. DEDUCED, log entry 68. -/
def ckpDue (s : State) : State :=
  if s.isReady && s.ckp.hasCost && !s.ckp.dueSent && decide (beatsOfMs s.ckp.interval.toNat ≤ beatsSince s.ckpBeat s.ckp.lastDone) then
    sendEvent 0x0067 0 0 0 0 0 { s with ckp := { s.ckp with dueSent := true } }
  else s

def execCkpDue (s : State) : Out := .next (ckpDue s)

def execCkpInterval (s : State) : Out := .next (if s.isReady then s.newInterval else s)

/-! ## RESTORE (R465) -/

/-- RESTORE: every unit is IDLE, no collective is open, a store answers (R465). While a checkpoint or a restore runs it
is CKP_ORDER, as a CHECKPOINT is (R462). DESIGN CHOICE, log entry 108. -/
def restore (id : BitVec 16) (s : State) : HRes :=
  if s.units.any fun e => e.2.status == .armed || e.2.status == .running then .refuse .busyUnit 0
  else if !s.col.opens.isEmpty then .refuse .busyColl 0
  else if !anyStore s then .refuse .storeDown 0
  else if ckpBusy s then .refuse .ckpOrder 0
  else
    let r : SegReceiver := ⟨3, id, s.strapNode, none, 0, [], [], 0, [], false⟩
    .ok (askSegment r { s with ckp := { s.ckp with unverified := true, restoredRecs := none, receivers := s.ckp.receivers ++ [r] } })

/-- One export record at the front of a byte string, verified under R290: kind, step, payload, rest. -/
def takeExport (bs : List Byte) : Option (Nat × BitVec 48 × List Byte × List Byte) :=
  let h := bs.take 256
  let n := beNat ((h.drop 156).take 8)
  let pay := (bs.drop 256).take n
  if h.length = 256 ∧ beNat (h.take 4) = 0x44525348 ∧ beNat ((h.drop 4).take 2) = 1 ∧ beNat ((h.drop 6).take 2) = 256 ∧
      beNat (h.drop 248) = (crc64 (h.take 248)).toNat ∧ pay.length = n ∧ beNat ((h.drop 164).take 16) = (digestOf pay).toNat then
    some ((h.getD 24 0).toNat, BitVec.ofNat 48 (beNat ((h.drop 16).take 6)), pay, bs.drop (256 + n))
  else none

/-- The records of one shard: its master (KIND 0) and those that follow it up to the next master (R462, Table 6.6). -/
def takeExports : Nat → Bool → List Byte → Option (List (Nat × BitVec 48 × List Byte) × List Byte)
  | 0, _, bs => some ([], bs)
  | n + 1, first, bs =>
    if bs.isEmpty ∧ !first then some ([], bs)
    else match takeExport bs with
      | none => none
      | some (k, st, pay, rest) =>
        if first then
          if k = 0 then (takeExports n false rest).map fun (l, r) => ((k, st, pay) :: l, r) else none
        else if k = 0 then some ([], bs)
        else (takeExports n false rest).map fun (l, r) => ((k, st, pay) :: l, r)

/-- Verify the records of every shard before any is written. The outer state of a shard is there where θ is in the image
(R465). -/
def takeShards : List (Nat × List Word64) → List Byte → State →
    Option (List (Nat × List Word64 × Option OuterRec × List (Nat × BitVec 48 × List Byte)))
  | [], _, _ => some []
  | (a, h) :: t, bs, s =>
    match takeExports (bs.length / 256 + 1) true bs with
    | none => none
    | some (l, rest) => (takeShards t rest s).map ((a, h, if l.any (fun x => x.1 == 5) then outerOf a s else none, l) :: ·)

def payOf (l : List (Nat × BitVec 48 × List Byte)) (kind : Nat) : Option (List Byte) :=
  (l.find? fun x => x.1 == kind).map (·.2.2)

/-- ASTEP of the outer record at a list position, as the module record holds it. DESIGN CHOICE, log entry 66. -/
def recordAstep (rec : List Byte) (i : Nat) : Nat :=
  let nb := beNat ((rec.drop 4086).take 2)
  leNat ((rec.drop (64 * (1 + nb + i) + 2)).take 6)

/-- Writes in order, each as an engine writes; the first that is refused ends them. -/
def putAllSpans (ver : BitVec 7) : List (Nat × Option (List Byte)) → State → State × Option EngFail
  | [], s => (s, none)
  | (_, none) :: t, s => putAllSpans ver t s
  | (a, some bs) :: t, s =>
    match engWrite a bs ver s with
    | (s, some e) => (s, some e)
    | (s, none) => putAllSpans ver t s

/-- Write one restored shard: set A, header, and the outer state where θ is present; `astep` comes from the module record. -/
def restoreShard (a : Nat) (h : List Word64) (r : Option OuterRec) (l : List (Nat × BitVec 48 × List Byte)) (astep : Nat)
    (s : State) : State × Option EngFail :=
  let st : BitVec 48 := (l.head?.map (·.2.1)).getD 0
  let inner := (hdrMaster h 0, payOf l 0) :: (List.range (min 2 (hdrNmom h))).map fun j => (hdrMoment h 0 j, payOf l (1 + j))
  let outer := match r with
    | none => []
    | some r => (r.theta r.acur, payOf l 5) :: (List.range (s.stale + 1)).map (fun k => (r.snap k, payOf l 5)) ++
        [(r.mom r.acur, payOf l 6), (r.resid r.rcur, payOf l 4)]
  match putAllSpans (st.extractLsb' 0 7) (inner ++ outer) (ctlWrite a (rebuiltHdr h st) st s) with
  | (s, some e) => (s, some e)
  | (s, none) =>
    match r with
    | none => (s, none)
    | some r =>
      match engZip f32Sub (hdrMaster h 0) (r.theta r.acur) r.count (r.offs r.acur) 0 s with
      | (s, some e) => (s, some e)
      | (s, none) => (writeOuter r astep r.acur astep r.rcur s, none)

/-- Every shard of a restore. -/
def restoreShards (rec0 : List Byte) :
    List (Nat × List Word64 × Option OuterRec × List (Nat × BitVec 48 × List Byte)) → State → State × Option EngFail
  | [], s => (s, none)
  | (a, h, o, l) :: t, s =>
    let i := match o with
      | some q => (s.hx.shards.findIdx? fun w => w.toNat == q.addr).getD 0
      | none => 0
    match restoreShard a h o l (recordAstep rec0 i) s with
    | (s, some e) => (s, some e)
    | (s, none) => restoreShards rec0 t s

/-- The image is complete: the step record first, then every shard of its commit list; the seal of the checkpoint
verifies it where the job has no replica (R458). DEDUCED, log entry 69. -/
def restoreWrite (r : SegReceiver) (s : State) : State :=
  let rec0 := r.image.take 4096
  let l := headerOf rec0
  let step : BitVec 48 := BitVec.ofNat 48 (beNat (rec0.drop 4090))
  match jobHeaders l s with
  | (s, none) => receiverFail r s
  | (s, some hs) =>
    match takeShards hs (r.image.drop 4096) s with
    | none => receiverFail r s
    | some xs =>
      match engLine s.stepAddr l step s with
      | (s, some _) => receiverFail r s
      | (s, none) =>
      match restoreShards rec0 xs s with
      | (s, some _) => receiverFail r s
      | (s, none) =>
        let recs := xs.flatMap fun (_, _, _, l) => l.map fun x => digestOf x.2.2
        let s := checkSeal { s with ckp := { s.ckp with restoredStep := step, restoredRecs := some (r.rid, recs) } }
        match listDigests s with
        | (s, some ds) => dropReceiver r (ownList step ds s)
        | (s, none) => dropReceiver r s

/-! ## Segments received (R453, R454) -/

/-- A packet of the present segment is taken in; each is answered. The first packet of an evacuation opens its receiver. -/
def segDataIn (p : Packet) (s : State) : State :=
  if !recovFor s 1 p then s
  else
    let h := recovHdr p
    let s := recovAnswer p s
    let s := if h.rid = 0 ∧ h.seg = 0 ∧ h.soff = 0 ∧ (receiverOf s p).isNone then
        { s with ckp := { s.ckp with receivers := s.ckp.receivers ++ [SegReceiver.mk 2 0 p.src none 0 [] [] 0 [] false] } }
      else s
    match receiverOf s p with
    | none => s
    | some r => if h.seg = r.seg ∧ h.soff = r.bytes.length ∧ !r.finished then setReceiver { r with bytes := r.bytes ++ p.payload } s else s

def execSegData (p : Packet) (s : State) : Out := .next (segDataIn p (takeLocal p s))

/-- The whole stream has come. -/
def streamDone (r : SegReceiver) (s : State) : State :=
  match r.kind with
  | 2 => dropReceiver r (placeSpans (r.image.length / 16 + 1) r.image s).1
  | 3 => restoreWrite r s
  | _ => s

/-- SEG_DONE: the segment is recorded when the digests agree, or asked for again up to three times.
DESIGN CHOICE, log entry 63. -/
def segDoneIn (p : Packet) (s : State) : State :=
  if !recovFor s 3 p then s
  else
    let h := recovHdr p
    let s := recovAnswer p s
    match receiverOf s p with
    | none => s
    | some r =>
      if h.seg ≠ r.seg ∨ r.finished then s
      else if beNat (p.payload.take 16) = (digestOf r.bytes).toNat then
        let r := { r with seg := r.seg + 1, image := r.image ++ r.bytes, bytes := [], asks := 0, finished := h.fin }
        let s := setReceiver r s
        let s := if r.kind = 1 then { s with ckp := { s.ckp with refillSeg := BitVec.ofNat 32 r.seg } } else s
        if h.fin then streamDone r s
        else if r.kind = 3 ∨ r.second.isSome then askSegment r s
        else s
      else if r.asks < 3 then
        let r := { r with asks := r.asks + 1, bytes := [] }
        askSegment r (setReceiver r s)
      else receiverFail r s

def execSegDone (p : Packet) (s : State) : Out := .next (segDoneIn p (takeLocal p s))

/-! ## Reload of a line (R445, R446) -/

/-- Granule of a line in the rind image, and STEP of its shard, when the line lies in a set named by CUR. -/
def rindPlace (line : Nat) : List (Nat × List Word64) → Nat → Option (Nat × BitVec 48)
  | [], _ => none
  | (_, h) :: t, base =>
    let n := padTo 256 (4 * hdrCount h)
    let sets := hdrMaster h (hdrCur h) :: (List.range (min 2 (hdrNmom h))).map (hdrMoment h (hdrCur h))
    match sets.findIdx? fun a => decide (a ≤ line) && decide (line < a + n) with
    | some i => some ((base + 256 + i * n + (line - sets.getD i 0)) / 256, hdrStep h)
    | none => rindPlace line t (base + 256 + sets.length * n)

def reloadFail (line : Word64) (s : State) : State :=
  sendEvent 0x0023 2 0 0 0 (xAddr line.toNat)
    { s with ckp := { s.ckp with reloads := s.ckp.reloads.filter fun x => x.line != line } }

/-- Firmware reloads a poisoned committed line; a commit pass ends first. DEDUCED, log entry 68. -/
def memReload (line : Word64) (s : State) : State :=
  let a := line.toNat / 64 * 64
  if !s.isReady || !s.linePoison a || s.ckp.reloads.any (fun x => x.line == BitVec.ofNat 64 a) then s
  else match stepRec s with
    | (s, none) => s
    | (s, some l) =>
      if recOutcome l = outDecided then s
      else match jobHeaders l s with
        | (s, none) => s
        | (s, some hs) =>
          match rindPlace a hs 0 with
          | none => s
          | some (g, st) =>
            let x : Reload := ⟨BitVec.ofNat 64 a, st, BitVec.ofNat 26 g⟩
            if !(s.cfgReg 0x030004).getLsbD 31 then reloadFail x.line s
            else
              let s := { s with ckp := { s.ckp with reloads := s.ckp.reloads ++ [x] } }
              (sendRecov ⟨0, 8, true, st.toNat % 2 ^ 32, 0, g⟩ (neighbour s (fld (s.cfgReg 0x030004) 3 0)) none [] s).1

def execMemReload (line : Word64) (s : State) : Out := .next (memReload line s)

/-- LINE_READ at the buddy. -/
def lineReadIn (p : Packet) (s : State) : State :=
  if !recovFor s 8 p then s
  else
    let h := recovHdr p
    let s := recovAnswer p s
    if !(s.cfgReg 0x030004).getLsbD 30 then recovNakTo p 2 s
    else match ctlLine (rindBase s) s with
      | (s, none) => recovNakTo p 3 s
      | (s, some hd) =>
        if fld (lineW hd 0) 1 1 = 0 then recovNakTo p 2 s
        else if fld (lineW hd 0) 47 16 ≠ h.seg then recovNakTo p 1 s
        else
          let g := engRead (rindBase s + 64 + fld (lineW hd 0) 0 0 * ((rindSize s - 64) / 2) + 256 * h.soff) 256 s
          match g.fail with
          | some _ => recovNakTo p 3 g.s
          | none => (sendRecov { h with rop := 9, fin := true, cause := 0 } p.src none g.bytes g.s).1

def execLineRead (p : Packet) (s : State) : Out := .next (lineReadIn p (takeLocal p s))

def reloadOf (s : State) (h : RecovHdr) : Option Reload :=
  s.ckp.reloads.find? fun x => x.offset.toNat == h.soff && x.step.toNat % 2 ^ 32 == h.seg

/-- LINE_DATA: the whole granule is written, with the version of its step. -/
def lineDataIn (p : Packet) (s : State) : State :=
  if !recovFor s 9 p then s
  else
    let s := recovAnswer p s
    match reloadOf s (recovHdr p) with
    | none => s
    | some x =>
      let s := writeMem (x.line.toNat / 256 * 256) (p.payload.take 256) (x.step.extractLsb' 0 7) s
      sendEvent 0x0022 0 0 0 0 (xAddr x.line.toNat) { s with ckp := { s.ckp with reloads := s.ckp.reloads.filter (· != x) } }

def execLineData (p : Packet) (s : State) : Out := .next (lineDataIn p (takeLocal p s))

/-! ## NAK, WACK and resends -/

def recovNakIn (p : Packet) (s : State) : State :=
  if !recovFor s 10 p then s
  else
    let h := recovHdr p
    let s := { s with ckp := { s.ckp with unanswered := s.ckp.unanswered.filter fun x => x.tag != p.tag } }
    if h.rid = 0 then
      match reloadOf s h with
      | some x => reloadFail x.line s
      | none => s
    else match s.ckp.receivers.find? fun r => r.rid == h.rid && (r.kind == 1 || (r.kind == 3 && fromStore s p)) with
      | some r => if r.kind = 1 ∧ r.second.isSome then leaveSecond r false s else receiverFail r s
      | none => if fromStore s p && s.ckp.run.any (fun r => r.id == h.rid) then ckpFail s else s

def execRecovNak (p : Packet) (s : State) : Out := .next (recovNakIn p (takeLocal p s))

/-- WACK: the sender of the packet goes on. -/
def recovWackIn (p : Packet) (s : State) : State :=
  if !(s.isReady && p.typ == 2 && isFor s p) then s
  else match s.ckp.unanswered.find? fun x => x.tag == p.tag && (x.store.isSome || answersFor s x.pkt.dst p.src) with
    | none => s
    | some x =>
      let s := { s with ckp := { s.ckp with unanswered := s.ckp.unanswered.filter fun y => y.tag != x.tag } }
      match s.ckp.senders.find? fun y => y.tag == x.tag && decide (y.seg < segments y.bytes.length) with
      | some y => senderStep y s
      | none => s

def execRecovWack (p : Packet) (s : State) : Out := .next (recovWackIn p (takeAnswer p s))

/-- A RECOV packet whose retries are used up is given up with what it was for (R327, R446, R455, R464). -/
def recovGiveUp (x : RecovSend) (s : State) : State :=
  let h := recovHdr x.pkt
  let s := { s with ckp := { s.ckp with unanswered := s.ckp.unanswered.filter fun y => y.tag != x.tag } }
  match h.rop with
  | 1 | 3 => match s.ckp.senders.find? fun y => y.tag == x.tag with
    | some y => if y.kind = 3 then ckpFail s else dropSender y s
    | none => s
  | 2 => match s.ckp.receivers.find? fun r => r.rid == h.rid with
    | some r => if r.second.isSome then leaveSecond r true s else receiverFail r s
    | none => s
  | 4 => ckpFail s
  | 8 => match reloadOf s h with
    | some y => reloadFail y.line s
    | none => s
  | _ => s

def recovResend (tag : Word32) (s : State) : State :=
  match s.ckp.unanswered.find? fun x => x.tag == tag with
  | none => s
  | some x =>
    if !s.isReady || decide (beatsSince s.ckpBeat x.sentAt < (s.cfgReg 0x02008C).toNat) then s
    else if (s.cfgReg 0x020090).toNat ≤ x.resends then recovGiveUp x s
    else
      let store := x.store.map fun k => if (recovHdr x.pkt).rop = 6 then k else storeFor s (recovHdr x.pkt).seg
      let y := { x with resends := x.resends + 1, sentAt := s.ckpBeat, store := store }
      let s := { s with ckp := { s.ckp with unanswered := s.ckp.unanswered.map fun z => if z.tag = tag then y else z } }
      match store with
      | some k => toStore k x.pkt s
      | none => inject x.pkt s

def execRecovResendTimeout (tag : Word32) (s : State) : Out := .next (recovResend tag s)

/-! ## HELLO_REPLY (R461) -/

def helloReply (port : Fin 2) (id : Word64) (m : StoreHello) (s : State) : State :=
  if !s.isReady || (s.port (8 + port.val)).state != .up then s
  else
    let s := storeAnswer port m.tag (takeStore port 7 m.tag s)
    if m.rev ≠ 1 then s
    else
    let ckp := if port.val = 0 then { s.ckp with store0 := some id } else { s.ckp with store1 := some id }
    let ckp := { ckp with unanswered := ckp.unanswered.filter fun x => !(x.store == some port && (recovHdr x.pkt).rop == 6) }
    sendEvent 0x0064 0 (BitVec.ofNat 32 (8 + port.val)) 0 0 0 { s with ckp := ckp }

def execHelloReply (port : Fin 2) (id : Word64) (rev : StoreHello) (s : State) : Out := .next (helloReply port id rev s)

end Sys2Proof.Machine
end

