-- ==== Sys2Proof/Machine/Press.lean ====
section
/-! DEFINITION. The press (R468, R469), lane retrain (R308, R471), and ripening records (R472 to R475). -/
namespace Sys2Proof.Machine

/-! ## Leases -/

def actScrub : Nat := 1
def actRipen : Nat := 2
def actRetrain : Nat := 3
def actOptcal : Nat := 4
def actFwstage : Nat := 5
def actSparetest : Nat := 6
def actRekey : Nat := 7
def actParity : Nat := 8

/-- Pairs of different activities that Table 10.5 does not allow together, lower code first. -/
def pressClash : List (Nat × Nat) :=
  [(1, 2), (2, 3), (2, 4), (2, 6), (3, 4), (3, 8), (4, 8), (5, 7), (6, 8)]

/-- Table 10.5 for a lease held and an activity asked for. -/
def pressOk (l : Lease) (act : Nat) (ports : BitVec 10) : Bool :=
  let a := l.activity.toNat
  if a = act then (act == actRetrain || act == actOptcal) && (l.ports &&& ports) == 0
  else !pressClash.contains (min a act, max a act)

/-- A lease of an activity is held; for an activity on ports, one that names the port. -/
def hasLease (s : State) (act : Nat) : Bool := s.press.leases.any fun l => l.activity.toNat == act
def portLease (s : State) (act : Nat) (q : Nat) : Bool :=
  s.press.leases.any fun l => l.activity.toNat == act && l.ports.getLsbD q

/-- Lanes of a port that are not active. -/
def droppedLanes (s : State) (q : Nat) : List (Fin 4) :=
  if (s.port q).state = .up then (List.finRange 4).filter fun k => !(s.port q).lanes.getLsbD k.val else []

/-- This end asks the peer to retrain a lane (R471). -/
def requestLane (q : Nat) (lane : Fin 4) (s : State) : State :=
  sendCtl q (.retrain lane) (s.modPort q fun x => { x with asked := tput none lane.val (some (s.portBeat q)) x.asked })

/-- A RETRAIN lease asks the peer of each of its ports for the lanes that are dropped there.
DESIGN CHOICE, log entry 70. -/
def askRetrain (ports : BitVec 10) (s : State) : State :=
  (List.finRange 10).foldl (fun s q =>
    if ports.getLsbD q.val then (droppedLanes s q.val).foldl (fun s k => requestLane q.val k s) s else s) s

/-- DESIGN CHOICE, log entry 70. -/
def pressAcquire (act : BitVec 8) (ports : BitVec 10) (seconds : Word32) (s : State) : HRes :=
  match s.press.leases.find? fun l => !pressOk l act.toNat ports with
  | some l => .refuse .busyPress l.num.toNat
  | none =>
    let n := s.press.nextNum
    let s := { s with press :=
      ⟨s.press.leases ++ [⟨n, act, ports, s.beat, seconds⟩], n + 1, s.press.ripened || act.toNat == actRipen,
        if act.toNat = actParity then [] else s.press.found⟩ }
    .done (if act.toNat = actRetrain then askRetrain ports s else s) (beBytes 4 n.toNat) 0

/-- A lease is gone: the activity that needed it stops. A lane retrain agreed under it is agreed no more (R471). What was staged
under it is abandoned (R546). -/
def endLease (num : Word32) (s : State) : State :=
  let gone := s.press.leases.filter fun l => l.num == num && l.activity.toNat == actRetrain
  let s := { s with press := { s.press with leases := s.press.leases.filter fun l => l.num != num } }
  (List.range 10).foldl (fun s q =>
    if gone.any fun l => l.ports.getLsbD q then s.modPort q fun x => { x with retrain := none } else s) s

def pressRelease (num : Word32) (s : State) : HRes :=
  if s.press.leases.any (fun l => l.num == num) then .ok (endLease num s) else .refuse .pressUnknown 0

/-- Beats of a number of seconds. DEDUCED, log entry 7. -/
def beatsOfS (n : Nat) : Nat := n * 3906250

def pressExpired (num : Word32) (s : State) : State :=
  match s.press.leases.find? fun l => l.num == num with
  | none => s
  | some l =>
    if !s.isReady || decide (beatsSince s.beat l.since < beatsOfS l.seconds.toNat) then s
    else sendEvent 0x0070 0 num 0 (l.activity.zeroExtend 16) 0 (endLease num s)

def execPressExpired (num : Word32) (s : State) : Out := .next (pressExpired num s)

/-! ## Lane retrain -/

/-- The peer asks to retrain a lane: accepted only under a lease for this port. -/
def retrainRequest (q : Fin 10) (lane : Fin 4) (s : State) : State :=
  if !s.isReady || (s.port q.val).state != .up then s
  else if portLease s actRetrain q.val then
    sendCtl q.val (.retrainAnswer lane true) (s.modPort q.val fun x => { x with retrain := some lane })
  else sendCtl q.val (.retrainAnswer lane false) s

def execLaneRetrainRequest (q : Fin 10) (lane : Fin 4) (s : State) : Out := .next (retrainRequest q lane s)

/-- The lane returns to the port's active lanes. Both modules hold the press: the peer has asked for this lane, or has accepted
this module's own request (R308, R471). -/
def retrainDone (q : Fin 10) (lane : Fin 4) (s : State) : State :=
  let x := s.port q.val
  if !s.isReady || x.state != .up || !portLease s actRetrain q.val || x.retrain != some lane || x.lanes.getLsbD lane.val then s
  else s.setPort q.val { x with lanes := x.lanes ||| laneBit lane, retrain := none }

def execLaneRetrainDone (q : Fin 10) (lane : Fin 4) (s : State) : Out := .next (retrainDone q lane s)

/-- The request for a lane that is still dropped, and that the peer has not accepted, goes out again 100 ms after the last.
DESIGN CHOICE, log entry 70. -/
def retrainRetry (q : Fin 10) (lane : Fin 4) (s : State) : State :=
  let x := s.port q.val
  let due := match tget none x.asked lane.val with
    | some b => decide (beatsOfMs 100 ≤ beatsSince (s.portBeat q.val) b)
    | none => true
  if s.isReady && portLease s actRetrain q.val && (droppedLanes s q.val).contains lane && x.retrain != some lane && due then
    requestLane q.val lane s
  else s

def execLaneRetrainRetry (q : Fin 10) (lane : Fin 4) (s : State) : Out := .next (retrainRetry q lane s)

/-! ## Ripening -/

/-- LIMIT of a class (Table 10.6), as F32; none of any other class. -/
def ripLimit (cls : Nat) : Option Word32 :=
  match cls with
  | 1 => some 0x40A00000
  | 2 => some 0x41200000
  | 3 => some 0x42480000
  | 4 => some 0x40800000
  | 5 => some 0x40000000
  | 6 => some 0x42B40000
  | 7 => some 0x40400000
  | 8 => some 0x42C80000
  | 9 => some 0x41700000
  | 10 => some 0x41F00000
  | _ => none

/-- Instances of a class. -/
def ripCount (cls : Nat) : Nat :=
  match cls with
  | 1 => 40 | 2 => 24 | 3 => 40 | 4 => 192 | 5 => 40 | 6 => 40 | 7 => 10 | 8 => 16 | 9 => 16 | 10 => 1 | _ => 0

/-- Classes measured only under a RIPEN lease. -/
def needsRipen (cls : Nat) : Bool := cls == 3 || cls == 6

/-- A finite F32 as numerator over 2^149. -/
def ratNum (w : Word32) : Int :=
  match f32 w with
  | .fin neg m e => (if neg then -1 else 1) * (m * 2 ^ (e + 149).toNat : Nat)
  | _ => 0

/-- The quotient of two integers as a value. -/
def quotient (a b : Int) : Val := (Val.ofInt a).div (Val.ofInt b)

def sumInt (l : List Int) : Int := l.foldl (· + ·) 0

def infF32 : Word32 := 0x7F800000

/-- One-sided 90 % quantiles of Student's t with 12 to 88 degrees of freedom, in units of 10⁻⁹ (R474). -/
def studentTs : List Nat :=
  [1356217334, 1350171289, 1345030374, 1340605608, 1336757167, 1333379390, 1330390944, 1327728209, 1325340707, 1323187874,
    1321236742, 1319460240, 1317835934, 1316345073, 1314971864, 1313702913, 1312526782, 1311433647, 1310415025, 1309463549] ++
  [1308572793, 1307737124, 1306951587, 1306211802, 1305513886, 1304854381, 1304230204, 1303638589, 1303077053, 1302543359,
    1302035487, 1301551608, 1301090060, 1300649332, 1300228048, 1299824947, 1299438879, 1299068785, 1298713694, 1298372713] ++
  [1298045016, 1297729843, 1297426488, 1297134300, 1296852673, 1296581044, 1296318890, 1296065725, 1295821094, 1295584571,
    1295355762, 1295134294, 1294919820, 1294712013, 1294510568, 1294315197, 1294125629, 1293941609, 1293762898, 1293589269] ++
  [1293420507, 1293256413, 1293096793, 1292941469, 1292790268, 1292643029, 1292499597, 1292359828, 1292223583, 1292090730,
    1291961144, 1291834705, 1291711301, 1291590824, 1291473171, 1291358243, 1291245948]

/-- The quantile with n degrees of freedom. DESIGN CHOICE, log entry 22. -/
def studentT (n : Nat) : Nat := studentTs.getD (n - 12) 0

/-- The routine of R474 over (day, value) samples, newest first, in exact arithmetic with one rounding to F32 of each result:
b, EOL, LOW. DESIGN CHOICE, log entry 22. -/
def ripFit (samples : List (Nat × Word32)) (limit : Word32) : Word32 × Word32 × Word32 :=
  let n : Int := samples.length
  let xs := samples.map fun p => (p.1 : Int)
  let ys := samples.map fun p => ratNum p.2
  let sx := sumInt xs
  let sy := sumInt ys
  let sxx := n * sumInt (xs.map fun x => x * x) - sx * sx
  let sxy := n * sumInt ((xs.zip ys).map fun (x, y) => x * y) - sx * sy
  let syy := n * sumInt (ys.map fun y => y * y) - sy * sy
  -- b = sxy / sxx in units of 2^-149; the residual sum is (syy - sxy² / sxx) / n
  let b := quotient sxy (sxx * 2 ^ 149)
  let slope := if sxx = 0 then 0 else toF32 b
  if samples.length < 14 ∨ sxx = 0 ∨ sxy ≤ 0 then (slope, infF32, infF32)
  else
    let last := (xs.head?).getD 0
    -- now = (sy + b (n xlast - sx)) / n
    let now := sy * sxx + sxy * (n * last - sx)
    let left := ratNum limit * n * sxx - now
    if left ≤ 0 then (slope, 0, 0)
    else
      let eol := quotient left (n * sxy)
      let se2 := quotient (syy * sxx - sxy * sxy) (sxx * sxx * (n - 2) * 2 ^ 298)
      let t := quotient (studentT (samples.length - 2)) 1000000000
      let den := b.add (t.mul se2.sqrt)
      (slope, toF32 eol, toF32 ((quotient left (n * sxx * 2 ^ 149)).div den))

/-- The measure of Table 10.6 for a monitor's value, given its first-day value: a drop or a rise in per cent, a rise, a drop of a
level in dBm, or the value itself (R472, R560). DESIGN CHOICE, log entry 96. -/
def ripDrift (cls : Nat) (base v : Word32) : Word32 :=
  let diff := fun a b : Word32 => (f32 a).add (f32 b).negate
  let pct := fun d : Val => toF32 ((d.mul (.ofInt 100)).div (f32 base))
  match cls with
  | 1 => pct (diff base v)
  | 2 | 8 | 10 => pct (diff v base)
  | 3 | 9 => toF32 (diff v base)
  | 5 | 7 => toF32 (diff base v)
  | _ => v

/-- Update one record with a monitor's value of this day. -/
def ripMeasure (r : RipRecord) (day : Nat) (v : Word32) (hours : Word32) : RipRecord :=
  let base := if r.samples.isEmpty then v else r.baseline
  let samples := ((day, ripDrift r.cls.toNat base v) :: r.samples).take 90
  let limit := (ripLimit r.cls.toNat).getD 0
  let (b, eol, low) := ripFit samples limit
  { r with samples := samples, partialMark := false, baseline := base, slope := b, eol := eol,
           low := low, hours := hours }

def ripBlank (cls : BitVec 8) (inst : BitVec 16) : RipRecord :=
  { cls := cls, inst := inst, alert := false, partialMark := false, samples := [], baseline := 0, slope := 0, eol := infF32,
    low := infF32, hours := 0 }

/-- Position of a record in the order of class and instance. -/
def ripBefore (a b : RipRecord) : Bool :=
  decide (a.cls.toNat < b.cls.toNat) || (a.cls == b.cls && decide (a.inst.toNat < b.inst.toNat))

def ripInsert (r : RipRecord) : List RipRecord → List RipRecord
  | [] => [r]
  | x :: t => if ripBefore r x then r :: x :: t else if ripBefore x r then x :: ripInsert r t else r :: t

/-- RIP_ALERT once, when LOW falls below RIP_ALERT_DAYS. -/
def ripAlert (r : RipRecord) (s : State) : RipRecord × State :=
  let days := Val.ofInt (fld (s.cfgReg 0x080000) 15 0)
  if !r.alert && (f32 r.low).lt days then
    ({ r with alert := true }, sendEvent 0x0071 2 (BitVec.ofNat 32 (r.cls.toNat * 2 ^ 24 + r.inst.toNat * 256)) 0 0 (xWord r.low) s)
  else (r, s)

def ripOne (day : Nat) (s : State) (m : RipMeasure) : State :=
  if decide (ripCount m.cls.toNat ≤ m.inst.toNat) || (needsRipen m.cls.toNat && !s.press.ripened) then s
  else
    let old := (s.nv.rip.find? fun r => r.cls == m.cls && r.inst == m.inst).getD (ripBlank m.cls m.inst)
    let (new, s) := ripAlert (ripMeasure old day m.value s.onHours) s
    { s with nv := { s.nv with rip := ripInsert new s.nv.rip } }

/-- With no RIPEN lease held during the day the records of classes 3 and 6 keep their values and set PARTIAL (R473). -/
def ripPartial (s : State) : State :=
  if s.press.ripened then s
  else
    let keys := [(3 : Nat), 6].flatMap fun c => (List.range (ripCount c)).map fun i => (BitVec.ofNat 8 c, BitVec.ofNat 16 i)
    let rip := keys.foldl (fun l (c, i) =>
      let old := (l.find? fun (r : RipRecord) => r.cls == c && r.inst == i).getD (ripBlank c i)
      ripInsert { old with partialMark := true } l) s.nv.rip
    { s with nv := { s.nv with rip := rip } }

/-- Beats in 24 h. -/
def dayBeats : Nat := 337500000000

/-- A new day of power-on time has begun: every record is updated once in it (R473). -/
def ripeningUpdate (ms : List RipMeasure) (s : State) : State :=
  let day := s.onTime / dayBeats
  if !s.isReady || decide (day ≤ s.nv.ripDay) then s
  else
    let s := { s with nv := { s.nv with onBeats := s.onTime, onSince := s.beat, ripDay := day } }
    let s := ripPartial (ms.foldl (ripOne day) s)
    { s with press := { s.press with ripened := hasLease s actRipen } }

def execRipeningUpdate (ms : List RipMeasure) (s : State) : Out := .next (ripeningUpdate ms s)

/-- Latest measure. -/
def ripValue (r : RipRecord) : Nat := match r.samples with
  | [] => 0
  | x :: _ => x.2.toNat

def ripBytes (r : RipRecord) : List Byte :=
  [r.cls, BitVec.ofNat 8 (2 * r.alert.toNat + r.partialMark.toNat)] ++ beBytes 2 r.inst.toNat ++ beBytes 2 r.samples.length ++
    [0, 0] ++ beBytes 4 (ripValue r) ++ beBytes 4 r.baseline.toNat ++
    beBytes 4 ((ripLimit r.cls.toNat).getD 0).toNat ++ beBytes 4 r.slope.toNat ++ beBytes 4 r.eol.toNat ++
    beBytes 4 r.low.toNat ++ beBytes 4 r.hours.toNat ++ List.replicate 4 0

/-- Every record of Table 10.6 in the order of class and instance; one not yet measured is blank. -/
def ripRecords (s : State) : List RipRecord :=
  (List.range 10).flatMap fun c => (List.range (ripCount (c + 1))).map fun i =>
    let b := ripBlank (BitVec.ofNat 8 (c + 1)) (BitVec.ofNat 16 i)
    (s.nv.rip.find? fun r => r.cls == b.cls && r.inst == b.inst).getD b

def ripRead (first n : BitVec 16) (s : State) : HRes :=
  .done s ((((ripRecords s).drop first.toNat).take n.toNat).flatMap ripBytes) 0

end Sys2Proof.Machine
end

