-- ==== Sys2Proof/Machine/HxLink.lean ====
section
/-! DEFINITION. HX packets between two modules: sessions, sending, delivery in sequence, acknowledgement, round trips and
timers, paths (R407 to R421), key epochs (R422 to R432). -/
namespace Sys2Proof.Machine

/-! ## Sessions -/

def State.setSession (s : State) (i : Nat) (x : Session) : State :=
  { s with hx := { s.hx with sessions := tput .reset i x s.hx.sessions } }
def State.modSession (s : State) (i : Nat) (f : Session → Session) : State := s.setSession i (f (s.session i))

def Session.net (x : Session) (n : Fin 2) : HxNet := if n.val = 0 then x.netA else x.netB
def Session.setNet (x : Session) (n : Fin 2) (v : HxNet) : Session := if n.val = 0 then { x with netA := v } else { x with netB := v }
def Session.modNet (x : Session) (n : Fin 2) (f : HxNet → HxNet) : Session := x.setNet n (f (x.net n))

/-- The entry of an index, and the module's own entry. -/
def peerOf (s : State) (i : Nat) : Option PeerEntry := s.hx.peers.find? fun e => e.index.toNat == i
/-- DEDUCED, log entry 71. -/
def selfEntry (s : State) : Option PeerEntry := s.hx.peers.find? fun e => e.node == s.strapNode
def isSelf (s : State) (i : Nat) : Bool := (peerOf s i).any fun e => e.node == s.strapNode
/-- An entry of another module. -/
def isPeer (s : State) (i : Nat) : Bool := (peerOf s i).any fun e => e.node != s.strapNode
def hxPeers (s : State) : List Nat := (s.hx.peers.filter fun e => e.node != s.strapNode).map fun e => e.index.toNat

/-- The module has the lower NODE of the pair (R422). -/
def initiates (s : State) (i : Nat) : Bool := (peerOf s i).any fun e => decide (s.strapNode.toNat < e.node.toNat)

def pmaxBytes (s : State) : Nat := 1024 * fld (s.cfgReg 0x040000) 15 12
def svcNormal (s : State) : Bool := fld (s.cfgReg 0x040000) 31 30 == 0

/-- Beats in a number of nanoseconds, and nanoseconds in beats. DEDUCED, log entry 7. -/
def nsOf (beats : Nat) : Nat := 256 * beats

/-! ## What may be sent (R414, R427) -/

/-- The epoch in use has passed its 600 s. -/
def Session.worn (x : Session) (s : State) : Bool := x.keys.any fun k => decide (beatsOfMs 600000 ≤ beatsSince s.hxBeat k.since)

/-- A packet may be encrypted now: no counter of the key is spent (R427). -/
def Session.maySend (x : Session) (s : State) : Bool :=
  x.keys.isSome && !x.ended && x.stall.isNone && !x.worn s && decide (max x.netA.pctr x.netB.pctr < 2 ^ 32)

/-- Port k mod 4 of a network; a port that is down is skipped. -/
def hxPort (s : State) (n : Fin 2) (k : Nat) : Option (Fin 4) :=
  let at4 := fun (j : Nat) => (⟨(k + j) % 4, Nat.mod_lt _ (by decide)⟩ : Fin 4)
  ([at4 0, at4 1, at4 2, at4 3]).find? fun p => s.ethUp (4 * n.val + p.val)

/-- The port of the next packet on a network. -/
def Session.portOn (x : Session) (s : State) (n : Fin 2) : Option (Fin 4) := hxPort s n (x.net n).count

/-- The network of the next packet: in proportion to the rates among those that carry a path and have a port up. With no
path on either, sending goes on over both (R421). DEDUCED, log entry 72. -/
def pickNet (x : Session) (s : State) : Option (Fin 2 × Fin 4) :=
  let paths := x.netA.path || x.netB.path
  let can := fun (n : Fin 2) => (!paths || (x.net n).path) && (hxPort s n 0).isSome
  let ra := (s.cfgReg 0x040018).toNat
  let rb := (s.cfgReg 0x04001C).toNat
  let pick : Option (Fin 2) :=
    if can 0 && can 1 then some (if x.netA.count * rb ≤ x.netB.count * ra then 0 else 1)
    else if can 0 then some 0
    else if can 1 then some 1
    else none
  pick.bind fun n => (x.portOn s n).map fun p => (n, p)

/-- Bytes of ciphertext in the send buffer. -/
def sendBytes (s : State) : Nat :=
  s.hx.sessions.foldl (fun k e => k + e.2.sendBuf.foldl (fun j h => j + h.bytes.length + 16) 0) 0

def Session.epoch (x : Session) : Word32 := (x.keys.map Keys.epoch).getD 0

/-! ## Datagrams (R407 to R410) -/

/-- The address of a port of an entry: index k of the four on its network. -/
def entryAddr (e : PeerEntry) (n : Fin 2) (k : Fin 4) : BitVec 128 := (if n.val = 0 then e.addrA else e.addrB).getD k.val 0

/-- The datagram of a UDP payload to an entry, from a port to the same port of the peer. -/
def hxDatagram (s : State) (i : Nat) (n : Fin 2) (p : Fin 4) (bs : List Byte) : HxDatagram :=
  let v4 := bitOf (s.cfgReg 0x040000) 17
  let addr := fun (e : Option PeerEntry) => (e.map fun e => entryAddr e n p).getD 0
  { peer := BitVec.ofNat 6 i, port := ⟨4 * n.val + p.val, by have := n.isLt; have := p.isLt; omega⟩, vid := s.vid, ipv4 := v4,
    src := addr (selfEntry s), dst := addr (peerOf s i), dontFragment := v4, udp := (s.cfgReg 0x040014).extractLsb' 0 16,
    length := (if v4 then 20 else 40) + 8 + bs.length, bytes := bs }

/-- A packet leaves: it is packet k of its network. -/
def sendOn (i : Nat) (n : Fin 2) (p : Fin 4) (bs : List Byte) (s : State) : State :=
  (s.modSession i fun x => x.modNet n fun v => { v with count := v.count + 1 }).emit (.hx (hxDatagram s i n p bs))

/-- The header of a packet that the module sends to an entry now. -/
def hxHead (s : State) (i : Nat) (n : Fin 2) (typ len : Nat) : HxHead :=
  { typ := typ, resent := false, net := n, job := s.hx.general.job, src := s.strapNode, dst := ((peerOf s i).map (·.node)).getD 0,
    seq := 0, kepoch := 0, pctr := 0, tstamp := s.hxBeat, len := len, ostep := 0, kind := 0, midx := 0, offset := 0 }

/-- The key for packets to an entry, and for packets from it (R424). -/
def txKey (s : State) (i : Nat) (k : Keys) : BitVec 256 := if initiates s i then k.ir else k.ri
def rxKey (s : State) (i : Nat) (k : Keys) : BitVec 256 := if initiates s i then k.ri else k.ir

/-- A header under the key in use, with a fresh counter. -/
def HxHead.fresh (h : HxHead) (x : Session) : HxHead := { h with kepoch := x.epoch, pctr := BitVec.ofNat 32 (x.net h.net).pctr }

/-- A packet encrypted under the key in use. -/
def encryptNow (s : State) (i : Nat) (h : HxHead) (plain : List Byte) : List Byte :=
  let x := s.session i
  (h.fresh x).encrypted ((x.keys.map (txKey s i)).getD 0) plain

/-- A packet counter is used (R426). -/
def Session.useCtr (x : Session) (n : Fin 2) (beat : Beat) : Session :=
  { x.modNet n fun v => { v with pctr := v.pctr + 1 } with firstSent := x.firstSent <|> some beat }

/-- Encrypt a packet afresh and send it. -/
def sendFresh (i : Nat) (n : Fin 2) (p : Fin 4) (h : HxHead) (plain : List Byte) (s : State) : State :=
  sendOn i n p (encryptNow s i h plain) (s.modSession i fun x => x.useCtr n s.hxBeat)

/-- The header of a DATA packet. -/
def HxHeld.head (h : HxHeld) (s : State) (i : Nat) (n : Fin 2) (again : Bool) : HxHead :=
  { hxHead s i n 1 h.bytes.length with
      resent := again, seq := h.seq, ostep := h.ostep, kind := h.kind, midx := h.midx, offset := h.offset }

/-- Send the first waiting DATA packet of a session, where the conditions of R414 hold. -/
def sendNext (i : Nat) (s : State) : State × Bool :=
  let x := s.session i
  match x.queue with
  | [] => (s, false)
  | h :: t =>
    if !x.maySend s ∨ x.window.toNat ≤ h.seq.toNat ∨ s.hx.general.sbufSize.toNat < sendBytes s + h.bytes.length + 16 then (s, false)
    else match pickNet x s with
      | none => (s, false)
      | some (n, p) =>
        let d := h.head s i n false
        let h := { h with net := n, sentAt := s.hxBeat, firstNet := n, kepoch := x.epoch, asSent := encryptNow s i d h.bytes }
        let s := sendFresh i n p d h.bytes s
        (s.modSession i fun x => { x.modNet n fun v => { v with lastData := s.hxBeat } with queue := t, sendBuf := x.sendBuf ++ [h] }, true)

/-- One packet to each peer in turn, until none can be sent (R410). -/
def pumpRounds : Nat → State → State
  | 0, s => s
  | k + 1, s =>
    let (s, some?) := (hxPeers s).foldl (fun (s, b) i =>
      let (s, c) := sendNext i s
      (s, b || c)) (s, false)
    if some? then pumpRounds k s else s

def hxPump (s : State) : State :=
  pumpRounds (s.hx.sessions.foldl (fun k e => k + e.2.queue.length) 0) s

/-- DATA packets of the part of an object that begins at an offset; an empty part is one empty packet. -/
def objectPackets (kind : Nat) (o : BitVec 48) (midx off pmax seq : Nat) (bs : List Byte) : List HxHeld :=
  let parts := match blockList pmax bs with
    | [] => [[]]
    | l => l
  parts.mapIdx fun k b =>
    { seq := BitVec.ofNat 48 (seq + k), kind := BitVec.ofNat 8 kind, ostep := o.extractLsb' 0 32, midx := BitVec.ofNat 6 midx,
      offset := BitVec.ofNat 48 (off + k * pmax), bytes := b, net := 0, sentAt := 0, firstNet := 0, kepoch := 0, asSent := [],
      resends := 0, after := 0, fastAt := none }

/-- Queue a part of an object for a peer. DEDUCED, log entry 72. -/
def queuePart (i kind : Nat) (o : BitVec 48) (midx off : Nat) (bs : List Byte) (s : State) : State :=
  if !isPeer s i then s
  else s.modSession i fun x =>
    let ps := objectPackets kind o midx off (pmaxBytes s) x.nextSeq.toNat bs
    { x with queue := x.queue ++ ps, nextSeq := x.nextSeq + BitVec.ofNat 48 ps.length }

def queueObject (i kind : Nat) (o : BitVec 48) (midx : Nat) (bs : List Byte) (s : State) : State := queuePart i kind o midx 0 bs s

def sendObject (i kind : Nat) (o : BitVec 48) (midx : Nat) (bs : List Byte) (s : State) : State :=
  hxPump (queueObject i kind o midx bs s)

/-! ## Round trips (R415, R416) -/

/-- RTO of R416 in nanoseconds. DEDUCED, log entry 73. -/
def rtoOf (s : State) (v : HxNet) : Nat :=
  if v.sampled then min 4000000000 (max (1000 * (s.cfgReg 0x040020).toNat) (v.srtt + 4 * v.rttvar)) else 1000000000

/-- The retransmit time that stands: a back-off until R417 ends it. DEDUCED, log entry 73. -/
def rtoNow (s : State) (v : HxNet) : Nat := v.backed.getD (rtoOf s v)

/-- One sample of r nanoseconds. DEDUCED, log entry 73. -/
def HxNet.sample (v : HxNet) (r : Nat) : HxNet :=
  if v.sampled then
    let d := if r ≤ v.srtt then v.srtt - r else r - v.srtt
    { v with rttvar := (3 * v.rttvar + d) / 4, srtt := (7 * v.srtt + r) / 8 }
  else { v with srtt := r, rttvar := r / 2, sampled := true }

/-- ETS and HOLD of an ACK or ECHO. DEDUCED, log entry 73. -/
def rttSample (i : Nat) (n : Fin 2) (ets : Beat) (hold : Word32) (s : State) : State :=
  if ets = 0 then s
  else s.modSession i fun x => x.modNet n fun v => v.sample (nsOf ((s.hxBeat - ets).toNat - hold.toNat))

/-! ## Arrival (R409, R421, R431) -/

/-- Epochs whose packets a session accepts (R428, R429). -/
def Session.accepts (x : Session) (e : Word32) : Bool :=
  x.keys.any (fun k => k.epoch == e) || x.oldKeys.any (fun k => k.epoch == e) || x.nextKeys.any (fun k => k.epoch == e)

def Session.newest (x : Session) : Option Word32 := ((x.nextKeys <|> x.keys)).map Keys.epoch

/-- The highest counter authenticated under an epoch, plus one; 0 for none. -/
def seenTop (l : List (Word32 × Word32)) (e : Word32) : Nat :=
  l.foldl (fun m (x : Word32 × Word32) => if x.1 == e then max m (x.2.toNat + 1) else m) 0

/-- The counter lies below the window of 4,096 values. -/
def belowWindow (l : List (Word32 × Word32)) (e c : Word32) : Bool := decide (c.toNat + 4096 < seenTop l e)

def noteSeen (l : List (Word32 × Word32)) (e c : Word32) : List (Word32 × Word32) :=
  let l := (e, c) :: l
  let top := seenTop l e
  l.filter fun x => x.1 != e || decide (top ≤ x.2.toNat + 4096)

/-- The peer is heard: the path stands again and a loss ends (R421, R400). -/
def heard (i : Nat) (n : Fin 2) (e : Word32) (s : State) : State :=
  let x := s.session i
  let fresh := (x.oldKeys.isSome || (x.nextKeys.isSome && x.keys.isSome)) && x.newest == some e
  let x1 := x.modNet n fun v => { v with lastRx := s.hxBeat, path := true }
  let s1 := s.setSession i
    { x1 with lost := x.lostKey, firstNew := if fresh then x.firstNew <|> some s.hxBeat else x.firstNew }
  if x.lost && !x.lostKey && !(hxPeers s1).any (fun j => (s1.session j).lost && !(s1.session j).lostKey) then hxUnpause 2 s1 else s1

/-- The header of a received packet. -/
def pktHead (p : HxPkt) (typ len : Nat) : HxHead :=
  ⟨typ, p.resent, p.net, p.job, p.src, p.dst, p.seq, p.kepoch, p.pctr, p.tstamp, len, p.ostep, p.kind, p.midx, p.offset⟩

/-- The keys of an epoch whose packets a session accepts (R428, R429). -/
def Session.keysOf (x : Session) (e : Word32) : Option Keys :=
  ((x.keys.toList ++ x.oldKeys.toList ++ x.nextKeys.toList).find? fun k => k.epoch == e)

/-- The tag of a received packet is that of its header and payload (R409). -/
def authentic (s : State) (i : Nat) (p : HxPkt) (typ : Nat) (plain : List Byte) : Bool :=
  ((s.session i).keysOf p.kepoch).any fun k => p.tag == (pktHead p typ plain.length).tag (rxKey s i k) plain

/-- The datagram is for this module, and both its UDP ports are HX_UDP (R407, R478, R479). -/
def hxUdp (s : State) (p : HxPkt) : Bool :=
  takesUdp s p.eth ((s.cfgReg 0x040014).extractLsb' 0 16) && p.srcUdp == (s.cfgReg 0x040014).extractLsb' 0 16

/-- A packet of a TYPE reaches the module: the entry that sent it, where it is accepted. -/
def hxAccept (typ : Nat) (plain : List Byte) (p : HxPkt) (s : State) : State × Option Nat :=
  match s.hx.peers.find? fun e => e.node == p.src with
  | none => (s, none)
  | some e =>
    let i := e.index.toNat
    let x := s.session i
    let seen := (x.net p.net).seen
    if !s.isReady || !s.hx.configured || !hxUdp s p || p.job != s.hx.general.job || p.dst != s.strapNode || !isPeer s i then (s, none)
    else if x.ended || !x.accepts p.kepoch then (s.bump 0x040040 1, none)
    else if seen.contains (p.kepoch, p.pctr) then (s.bump 0x040044 1, none)
    else if !authentic s i p typ plain then (s.bump 0x040040 1, none)
    else
      let new := typ == 1 && decide (x.cum.toNat ≤ p.seq.toNat) && !x.heldRx.any fun h => h.seq == p.seq
      if belowWindow seen p.kepoch p.pctr then
        if new then (heard i p.net p.kepoch s, some i) else (s.bump 0x040044 1, none)
      else
        let s := s.modSession i fun x => x.modNet p.net fun v => { v with seen := noteSeen v.seen p.kepoch p.pctr }
        (heard i p.net p.kepoch s, some i)

/-! ## ACK (R413) -/

/-- Bytes held out of sequence in the receive buffer. -/
def heldBytes (s : State) : Nat :=
  s.hx.sessions.foldl (fun k e => k + e.2.heldRx.foldl (fun j p => j + p.payload.length) 0) 0

/-- Packets that the free receive buffer admits. -/
def freePackets (s : State) : Nat := (s.hx.general.rbufSize.toNat - heldBytes s) / max 1 (pmaxBytes s)

/-- Ranges of held sequence numbers, given in rising order. -/
def rangesOf : List Nat → List (BitVec 48 × BitVec 48)
  | [] => []
  | a :: t => match rangesOf t with
    | (f, l) :: r => if f.toNat = a + 1 then (BitVec.ofNat 48 a, l) :: r else (BitVec.ofNat 48 a, BitVec.ofNat 48 a) :: (f, l) :: r
    | [] => [(BitVec.ofNat 48 a, BitVec.ofNat 48 a)]

def insertNat (a : Nat) : List Nat → List Nat
  | [] => [a]
  | b :: t => if a ≤ b then a :: b :: t else b :: insertNat a t

def sortNats (l : List Nat) : List Nat := l.foldr insertNat []

/-- The ACK that is due to an entry on a network. -/
def ackOf (s : State) (i : Nat) (n : Fin 2) : HxAck :=
  let x := s.session i
  let v := x.net n
  let held := sortNats (x.heldRx.map fun p => p.seq.toNat)
  ⟨x.cum, x.cum + BitVec.ofNat 48 (freePackets s), v.lastEts, if v.lastEts = 0 then 0 else (s.hxBeat - v.lastEtsAt).truncate 32,
    (rangesOf held).take 64⟩

def sendAck (i : Nat) (n : Fin 2) (s : State) : State :=
  let x := s.session i
  match x.portOn s n with
  | none => s
  | some p =>
    if !x.maySend s then s
    else
      let bs := ackBytes (ackOf s i n)
      (sendFresh i n p (hxHead s i n 2 bs.length) bs s).modSession i fun x =>
        x.modNet n fun v => { v with unacked := 0, firstUnacked := none }

/-! ## Delivery (R412) -/

/-- The outer step whose low bits a header gives, nearest to a base (R408). DEDUCED, log entry 74. -/
def stepNear (base : Nat) (low : Word32) : BitVec 48 :=
  BitVec.ofInt 48 ((base : Int) + (low - BitVec.ofNat 32 base).toInt)

/-- The engine stops at a shard (R195, R402): a poisoned line, or a refused access, which ends a pass the same way. -/
def hxStop (k : Nat) (o : BitVec 48) (s : State) : State := hxPause 6 (BitVec.ofNat 32 k) o s

/-- Write bytes at an offset of an object that runs through the landing slots of the records in list order; k counts the records.
False where a line stops the engine. -/
def writeLanding (o : BitVec 48) (idx : Nat) : Nat → List Word64 → Nat → List Byte → State → State × Bool
  | _, [], _, _, s => (s, true)
  | k, a :: t, off, bs, s =>
    if bs.isEmpty then (s, true)
    else match outerRec a.toNat s with
      | (s, none) => (hxStop k o s, false)
      | (s, some r) =>
        let n := imageBytes r.scount
        if n ≤ off then writeLanding o idx (k + 1) t (off - n) bs s
        else
          let m := min (n - off) bs.length
          match engWrite (r.landing s o.toNat idx + off) (bs.take m) 0 s with
          | (s, some _) => (hxStop k o s, false)
          | (s, none) => writeLanding o idx (k + 1) t 0 (bs.drop m) s

/-- The bytes that the images of some shards take together, or the position of the first record that may not be read; k counts the
records. DEDUCED, log entry 74. -/
def imagesBytes : Nat → List Word64 → State → State × (Nat ⊕ Nat)
  | _, [], s => (s, .inl 0)
  | k, a :: t, s => match outerRec a.toNat s with
    | (s, none) => (s, .inr k)
    | (s, some r) => match imagesBytes (k + 1) t s with
      | (s, .inl n) => (s, .inl (imageBytes r.scount + n))
      | (s, .inr j) => (s, .inr j)

/-- Bytes of a whole IMAGE object. -/
def objectBytes (s : State) : State × (Nat ⊕ Nat) := imagesBytes 0 s.hx.shards s

def landedBytes (s : State) (o : BitVec 48) (idx : BitVec 6) : Nat :=
  match s.hx.landing.find? fun (a, b, _) => a == o && b == idx with
  | some (_, _, n) => n
  | none => 0

/-- Images of other outer steps that stood in the same landing slot are gone. -/
def takeSlot (o : BitVec 48) (idx : BitVec 6) (s : State) : State :=
  let m := s.stale + 1
  let other := fun (a : BitVec 48) (b : BitVec 6) => !(b == idx && a != o && a.toNat % m == o.toNat % m)
  { s with hx := { s.hx with landing := s.hx.landing.filter fun (a, b, _) => other a b,
                             landed := s.hx.landed.filter fun (a, b) => other a b } }

/-- Payload of an IMAGE packet; one of a step whose result is applied is not written (its slot serves a later step). False where
the write stops. DEDUCED, log entry 74. -/
def imagePayload (i : Nat) (p : HxPkt) (s : State) : State × Bool :=
  match outerSteps s with
  | none => if s.hx.shards.isEmpty then (s, true) else (hxStop 0 0 s, false)
  | some (astep, bstep) =>
    let o := stepNear bstep p.ostep
    if o.toNat ≤ astep ∨ s.hx.landed.contains (o, p.midx) ∨ p.midx.toNat ≠ i then (s, true)
    else
      let s := takeSlot o p.midx s
      match writeLanding o i 0 s.hx.shards p.offset.toNat p.payload s with
      | (s, false) => (s, false)
      | (s, true) =>
        let before := if p.offset = 0 then 0 else landedBytes s o p.midx
        let rest := s.hx.landing.filter fun (a, b, _) => !(a == o && b == p.midx)
        ({ s with hx := { s.hx with landing := (o, p.midx, before + p.payload.length) :: rest } }, true)

/-- Objects come from this entry by a FETCH of a joiner, or of HX_FETCH. -/
def fetchesFrom (i : BitVec 6) (s : State) : Bool := s.hx.fetching == some i || s.hx.joining.any fun j => j.source == some i

/-- Where the bytes of a fetched object of a shard go (R435). -/
def fetchedTargets (p : HxPkt) (r : OuterRec) (h : List Word64) (s : State) : List (Nat × BitVec 7) :=
  if p.kind = 6 then
    [(r.theta r.acur, 0), (hdrMaster h (hdrCur h), (hdrStep h).extractLsb' 0 7)] ++
      (List.range (s.stale + 1)).map fun k => (r.snap k, (0 : BitVec 7))
  else if p.kind = 7 then [(r.mom r.acur, 0)]
  else [(r.landing s (stepNear r.bstep p.ostep).toNat p.midx.toNat, 0)]

def writeAll (off : Nat) (bs : List Byte) : List (Nat × BitVec 7) → State → State × Option EngFail
  | [], s => (s, none)
  | (a, v) :: t, s => match engWrite (a + off) bs v s with
    | (s, some e) => (s, some e)
    | (s, none) => writeAll off bs t s

/-- Payload of a STATE, MOMENTUM or IMAGE_FWD packet: written in place at once (R412); objects of one kind come shard by shard, in
list order. DEDUCED, log entry 74. -/
def fetchedPayload (i : Nat) (p : HxPkt) (s : State) : State × Bool :=
  let n := tget 0 (s.session i).begun p.kind.toNat
  let n := if p.offset = 0 then n + 1 else n
  let k := (n - 1) % max 1 s.hx.shards.length
  match s.hx.shards[k]? with
  | none => (s, true)
  | some a =>
    if !fetchesFrom (BitVec.ofNat 6 i) s then (s, true)
    else match outerRec a.toNat s with
      | (s, none) => (hxStop k 0 s, false)
      | (s, some r) =>
        let put := fun (h : List Word64) (s : State) =>
          let s := if p.kind = 8 then takeSlot (stepNear r.bstep p.ostep) p.midx s else s
          writeAll p.offset.toNat p.payload (fetchedTargets p r h s) s
        match withHeader r s put with
        | (s, some _) => (hxStop k 0 s, false)
        | (s, none) => (s.modSession i fun x => { x with begun := tput 0 p.kind.toNat n x.begun }, true)

/-- A packet in sequence: bytes that go to memory are written; what an object does when complete is given by its row. -/
def writeData (i : Nat) (p : HxPkt) (s : State) : State × Bool :=
  if p.kind = 1 then imagePayload i p s
  else if p.kind = 6 ∨ p.kind = 7 ∨ p.kind = 8 then fetchedPayload i p s
  else (s, true)

/-- The packet goes on from the end of an object. -/
def goesOn (p : HxPkt) (q : RxObject) : Bool :=
  q.kind == p.kind && q.ostep == p.ostep && q.midx == p.midx && q.bytes.length == p.offset.toNat

/-- The bytes of a packet that goes on are added to the newest object that they fit. DESIGN CHOICE, log entry 105. -/
def appendObject (p : HxPkt) : List RxObject → List RxObject
  | [] => []
  | q :: t =>
    if !t.any (goesOn p) && goesOn p q then { q with bytes := q.bytes ++ p.payload } :: t else q :: appendObject p t

/-- What the objects of a peer become with a packet in sequence; OFFSET 0 begins one. An IMAGE is kept in its landing
slots alone. -/
def noteObject (p : HxPkt) (l : List RxObject) : List RxObject :=
  if p.kind.toNat < 2 ∨ 8 < p.kind.toNat then l
  else if p.offset = 0 then l ++ [⟨p.kind, p.ostep, p.midx, p.payload⟩]
  else appendObject p l

/-- The object is of this kind and holds these bytes whole; where its row names an outer step or a member, it is of these. -/
def RxObject.isWhole (kind : Nat) (o : Option (BitVec 48)) (m : Option (BitVec 6)) (bs : List Byte) (q : RxObject) : Bool :=
  q.kind.toNat == kind && o.all (fun o => q.ostep == o.extractLsb' 0 32) && m.all (fun m => q.midx == m) && q.bytes == bs

/-- Packets of an object of this kind have come from a peer, and its row has not. -/
def Session.expects (x : Session) (kind : Nat) : Bool :=
  x.objects.any (fun q => q.kind.toNat == kind) || x.heldRx.any fun p => p.kind.toNat == kind

/-- Deliver held packets that have come into sequence; one whose write stops the engine stays held. -/
def deliverHeld (i : Nat) : Nat → State → State
  | 0, s => s
  | k + 1, s =>
    let x := s.session i
    match x.heldRx.find? fun h => h.seq == x.cum with
    | none => s
    | some h => match writeData i h s with
      | (s, false) => s
      | (s, true) => deliverHeld i k (s.modSession i fun x =>
          { x with cum := x.cum + 1, heldRx := x.heldRx.filter (fun g => g.seq != h.seq), objects := noteObject h x.objects })

/-- Count a DATA arrival, and acknowledge after 32. -/
def countArrival (i : Nat) (p : HxPkt) (s : State) : State :=
  let s := s.modSession i fun x => x.modNet p.net fun v =>
    let v := { v with unacked := v.unacked + 1, firstUnacked := v.firstUnacked <|> some s.hxBeat }
    if p.resent then v else { v with lastEts := p.tstamp, lastEtsAt := s.hxBeat }
  if 32 ≤ ((s.session i).net p.net).unacked then sendAck i p.net s else s

/-- A packet beyond what the receive buffer admits is dropped. DEDUCED, log entry 74. -/
def dataIntake (p : HxPkt) (s : State) : State :=
  match hxAccept 1 p.payload p s with
  | (s, none) => s
  | (s, some i) =>
    let x := s.session i
    if p.seq.toNat < x.cum.toNat ∨ x.heldRx.any (fun h => h.seq == p.seq) then countArrival i p s
    else if p.seq = x.cum ∨ p.seq.toNat < x.cum.toNat + freePackets s then
      countArrival i p (deliverHeld i (x.heldRx.length + 1) (s.setSession i { x with heldRx := x.heldRx ++ [p] }))
    else s

def execHxDataReceive (p : HxPkt) (s : State) : Out := .next (dataIntake p s)

/-- Timers act only on peers of a module in READY state. DESIGN CHOICE, log entry 6. -/
def live (s : State) (i : Nat) : Bool := s.isReady && s.hx.configured && isPeer s i

/-- What an object does, by its row: it acts when CUM has passed its last packet (R412), and is taken. A row of which no packet is
known acts as it comes. DESIGN CHOICE, log entry 105. -/
def withObject (i kind : Nat) (o : Option (BitVec 48)) (m : Option (BitVec 6)) (bs : List Byte) (f : State → State) (s : State) : State :=
  let x := s.session i
  let whole := RxObject.isWhole kind o m bs
  if !live s i then s
  else if x.objects.any whole then f (s.setSession i { x with objects := x.objects.eraseP whole })
  else if x.expects kind then s
  else f s

def ackTimer (i : Nat) (n : Fin 2) (s : State) : State :=
  match ((s.session i).net n).firstUnacked with
  | some b => if live s i && decide (beatsOfUs 50 ≤ beatsSince s.hxBeat b) then sendAck i n s else s
  | none => s

def execHxAckTimer (peer : BitVec 6) (net : Fin 2) (s : State) : Out := .next (ackTimer peer.toNat net s)

/-! ## Resends (R417, R418, R430) -/

/-- The packet may go again byte for byte on a network: that of its first sending, which carries a path; first sent under the
present epoch, or under the one before within the sender's retire window, which opens with the first packet under the
present epoch. DEDUCED, log entry 75. -/
def resendAsSent (x : Session) (s : State) (n : Fin 2) (h : HxHeld) : Bool :=
  n == h.firstNet && (x.net n).path &&
    (h.kepoch == x.epoch ||
      (x.oldKeys.any (fun k => k.epoch == h.kepoch) &&
        x.firstSent.all fun b => decide (nsOf (beatsSince s.hxBeat b) ≤ max (2 * max x.netA.srtt x.netB.srtt) 4000000000)))

def setHeld (x : Session) (h : HxHeld) : Session :=
  { x with sendBuf := x.sendBuf.map fun g => if g.seq == h.seq then h else g }

/-- The network of a resend: that of the first sending, or the other where that carries no path and the other does.
DEDUCED, log entry 75. -/
def resendNet (x : Session) (h : HxHeld) : Fin 2 :=
  if (x.net h.firstNet).path || !(x.net (otherNet h.firstNet)).path then h.firstNet else otherNet h.firstNet

/-- Resend one packet of the send buffer; `fast`: under R418. DEDUCED, log entry 75. -/
def resend (i : Nat) (fast : Bool) (h : HxHeld) (s : State) : State :=
  let x := s.session i
  let n := resendNet x h
  match x.portOn s n with
  | none => s
  | some p =>
    if !x.maySend s then s
    else
      let g := { h with net := n, resends := h.resends + 1, sentAt := s.hxBeat, fastAt := if fast then some s.hxBeat else h.fastAt }
      let s := s.modSession i fun x => setHeld (x.modNet n fun v => { v with lastData := s.hxBeat }) g
      if resendAsSent x s n h then sendOn i n p (markResent h.asSent) s
      else sendFresh i n p (h.head s i n true) h.bytes s

def rtoExpire (i : Nat) (n : Fin 2) (s : State) : State :=
  let x := s.session i
  match x.sendBuf.find? fun h => h.net == n with
  | none => s
  | some h =>
    if live s i && decide (rtoNow s (x.net n) ≤ nsOf (beatsSince s.hxBeat h.sentAt)) && x.maySend s then
      resend i false h (s.modSession i fun x => x.modNet n fun v => { v with backed := some (min 4000000000 (2 * rtoNow s v)) })
    else s

def execHxRtoExpire (peer : BitVec 6) (net : Fin 2) (s : State) : Out := .next (rtoExpire peer.toNat net s)

/-- The ACK reports a packet as received. -/
def ackCovers (a : HxAck) (q : BitVec 48) : Bool :=
  decide (q.toNat < a.cum.toNat) || a.ranges.any fun r => decide (r.1.toNat ≤ q.toNat) && decide (q.toNat ≤ r.2.toNat)

/-- Packet g was sent after packet h. -/
def sentAfter (g h : HxHeld) : Bool := later g.sentAt h.sentAt || (g.sentAt == h.sentAt && decide (h.seq.toNat < g.seq.toNat))

/-- Packets of which 64 later ones have been reported: resent, once per RTO at most under this rule.
DEDUCED, log entry 75. -/
def fastResends (i : Nat) (s : State) : State :=
  let x := s.session i
  let due := x.sendBuf.filter fun h => decide (64 ≤ h.after) &&
    h.fastAt.all fun b => decide (rtoNow s (x.net h.net) ≤ nsOf (beatsSince s.hxBeat b))
  due.foldl (fun s h => resend i true h s) s

def takeAck (i : Nat) (a : HxAck) (s : State) : State :=
  let x := s.session i
  let got := x.sendBuf.filter fun h => ackCovers a h.seq
  let keep := (x.sendBuf.filter fun h => !ackCovers a h.seq).map fun h =>
    { h with after := h.after + (got.filter fun g => g.net == h.net && sentAfter g h).length }
  let calm := fun (n : Fin 2) (x : Session) =>
    if got.any fun h => h.net == n && h.resends == 0 then x.modNet n fun v => { v with backed := none } else x
  s.setSession i (calm 1 (calm 0 { x with sendBuf := keep, window := a.win }))

def ackIntake (p : HxPkt) (a : HxAck) (s : State) : State :=
  match hxAccept 2 (ackBytes a) p s with
  | (s, none) => s
  | (s, some i) => hxPump (fastResends i (takeAck i a (rttSample i p.net a.ets a.hold s)))

def execHxAckReceive (p : HxPkt) (a : HxAck) (s : State) : Out := .next (ackIntake p a s)

/-! ## Probes and paths (R420, R421, R433) -/

def probeTimer (i : Nat) (n : Fin 2) (s : State) : State :=
  let x := s.session i
  match x.portOn s n with
  | none => s
  | some p =>
    if live s i && x.maySend s && decide (beatsOfMs 10 ≤ beatsSince s.hxBeat (x.net n).lastData) then
      sendFresh i n p (hxHead s i n 3 0) [] (s.modSession i fun x => x.modNet n fun v => { v with lastData := s.hxBeat })
    else s

def execHxProbeTimer (peer : BitVec 6) (net : Fin 2) (s : State) : Out := .next (probeTimer peer.toNat net s)

/-- ECHO: the TSTAMP of the PROBE comes back, with a HOLD of 0, since it is answered at once. -/
def sendEcho (i : Nat) (n : Fin 2) (ets : Beat) (s : State) : State :=
  match (s.session i).portOn s n with
  | none => s
  | some p =>
    let bs := echoBytes ets 0
    if (s.session i).maySend s then sendFresh i n p (hxHead s i n 4 bs.length) bs s else s

def probeIntake (p : HxPkt) (s : State) : State :=
  match hxAccept 3 [] p s with
  | (s, none) => s
  | (s, some i) => sendEcho i p.net p.tstamp s

def execHxProbeReceive (p : HxPkt) (s : State) : Out := .next (probeIntake p s)

def echoIntake (p : HxPkt) (ets : Beat) (hold : Word32) (s : State) : State :=
  match hxAccept 4 (echoBytes ets hold) p s with
  | (s, none) => s
  | (s, some i) => hxPump (rttSample i p.net ets hold s)

def execHxEchoReceive (p : HxPkt) (ets : Beat) (hold : Word32) (s : State) : Out := .next (echoIntake p ets hold s)

def entryWord (i : Nat) : Word32 := BitVec.ofNat 32 i

def pathDown (i : Nat) (n : Fin 2) (s : State) : State :=
  let v := (s.session i).net n
  if live s i && v.path && decide (beatsOfMs (s.cfgReg 0x040024).toNat ≤ beatsSince s.hxBeat v.lastRx) then
    hxPump (sendEvent 0x0052 1 (entryWord i) 0 (BitVec.ofNat 16 n.val) 0
      (s.modSession i fun x => x.modNet n fun v => { v with path := false }))
  else s

def execHxPathDown (peer : BitVec 6) (net : Fin 2) (s : State) : Out := .next (pathDown peer.toNat net s)

/-- DEDUCED, log entry 76. -/
def peerLost (i : Nat) (s : State) : State :=
  let x := s.session i
  let quiet := fun (v : HxNet) => decide (beatsOfMs (s.cfgReg 0x040028).toNat ≤ beatsSince s.hxBeat v.lastRx)
  if live s i && !x.lost && quiet x.netA && quiet x.netB then
    let s := sendEvent 0x0053 2 (entryWord i) 0 0 0 (s.setSession i { x with lost := true })
    if svcNormal s then hxPause 2 0 0 s else s
  else s

def execHxPeerLost (peer : BitVec 6) (s : State) : Out := .next (peerLost peer.toNat s)

/-! ## Key epochs (R422 to R429) -/

/-- A KEYX message goes out in fragments that fit PMAX, over the networks in their turn (R425). The spec names no network for
it. DEDUCED, log entry 78. -/
def sendKeyx (i msg : Nat) (epoch : Word32) (again : Bool) (bs : List Byte) (s : State) : State :=
  (keyxFragments epoch (pmaxBytes s - 12) bs).foldl (fun s m => match pickNet (s.session i) s with
    | none => s
    | some (n, p) =>
      let b := keyxBytes msg m
      sendOn i n p ({ hxHead s i n 5 b.length with resent := again }.bytes ++ b) s) s

/-- A fragment of a message is kept; the whole message once every fragment has come. -/
def gather (i msg : Nat) (m : KeyxMsg) (s : State) : State × Option (List Byte) :=
  let same := fun (e : Nat × KeyxMsg) => e.1 == msg && e.2.epoch == m.epoch && e.2.nfrag == m.nfrag && e.2.mlen == m.mlen
  let l := (msg, m) :: ((s.session i).frags.filter fun e => same e && e.2.frag != m.frag)
  let at? := fun (k : Nat) => l.find? fun e => e.2.frag.toNat == k
  let parts := (List.range m.nfrag.toNat).filterMap at?
  if parts.length = m.nfrag.toNat then
    (s.modSession i fun x => { x with frags := [] }, some (parts.flatMap fun e => e.2.bytes))
  else (s.modSession i fun x => { x with frags := l }, none)

/-- A fragment of a live peer's message: what follows once the message is whole. -/
def onMessage (i msg : Nat) (m : KeyxMsg) (f : List Byte → State → State) (s : State) : State :=
  if !live s i then s
  else match gather i msg m s with
    | (s, none) => s
    | (s, some bs) => f bs s

/-- Keys of an epoch from the shared secret, OFFER and REPLY (R424). -/
def deriveKeys (s : State) (epoch : Word32) (shared : BitVec 256) (offer reply : List Byte) : Keys :=
  let info := fun (l : List Byte) => ([0x48, 0x58, 0x31] : List Byte) ++ beBytes 2 s.hx.general.job.toNat ++ beBytes 4 epoch.toNat ++ l
  let k := fun (l : List Byte) =>
    BitVec.ofNat 256 (beNat (madeBytes 32 (Config.hkdf (beBytes 32 shared.toNat) (sha256Bytes (offer ++ reply)) (info l))))
  ⟨epoch, k [0x69, 0x3E, 0x72], k [0x72, 0x3E, 0x69], k [0x63, 0x66], s.hxBeat⟩

def hmacBytes (k : Keys) (b : Byte) : List Byte := beBytes 32 (Config.hmac k.cf [b]).toNat

/-- The certificate goes with OFFER and REPLY at epoch 0 only (R422). -/
def certPart (s : State) (epoch : Word32) : List Byte := if epoch = 0 then ownCert s else []
def certLen (epoch : Word32) : Nat := if epoch = 0 then certSize else 0

/-- The peer's key after OFFER or REPLY, whose certificate stands at byte 1,600: at epoch 0 that of a good certificate, later
the one accepted then (R423). -/
def peerKeyFrom (s : State) (i : Nat) (epoch : Word32) (bs : List Byte) : Option (List Byte) :=
  if epoch ≠ 0 then some (s.session i).peerKey
  else
    let c := part bs 1600 certSize
    if (peerOf s i).any fun e => peerCertGood s e c then some (certKey c) else none

/-- Begin a setup: OFFER (R422), with a fresh random value and a fresh ML-KEM key from random bytes. -/
def startSetup (i : Nat) (epoch : Word32) (s : State) : State :=
  let (s, rnd) := freeBytes 32 s
  let (s, seed) := freeBytes 64 s
  let m := rnd ++ madeBytes 1568 (Config.kemKey seed) ++ certPart s epoch
  sendKeyx i 1 epoch false m (s.modSession i fun x =>
    { x with setup := some ⟨epoch, true, 1, m, 0, s.hxBeat, m, [], seed, none⟩, rekey := false })

/-- A setup ends without keys. -/
def Session.dropSetup (x : Session) : Session :=
  { x with setup := none, nextKeys := none, firstNew := if x.oldKeys.isSome then x.firstNew else none }

/-- A setup fails: ABORT, the counter, the event (R423). -/
def failSetup (i : Nat) (epoch : Word32) (s : State) : State :=
  let s := s.modSession i (·.dropSetup)
  sendEvent 0x0054 2 (entryWord i) 0 0 0 ((sendKeyx i 5 epoch false [] s).bump 0x040048 1)

/-- The epoch that the next setup is of. -/
def Session.nextEpoch (x : Session) : Word32 := match x.keys with
  | none => 0
  | some k => k.epoch + 1

/-- The session sends and receives under a new epoch from now on. -/
def Session.switch (x : Session) (k : Keys) (beat : Beat) : Session :=
  let z := fun (v : HxNet) => { v with pctr := 0 }
  { x with keys := some { k with since := beat }, oldKeys := x.keys, nextKeys := none, setup := none, firstSent := none,
           stall := none, netA := z x.netA, netB := z x.netB }

/-- REPLY to an OFFER whose sender has been accepted: the responder's random value, ciphertext, certificate and signature, and
the keys that follow. -/
def replyTo (i : Nat) (epoch : Word32) (offer : List Byte) (s : State) : State :=
  let (s, rnd) := freeBytes 32 s
  let (s, m) := freeBytes 32 s
  let ek := part offer 32 1568
  let front := rnd ++ madeBytes 1568 (Config.kemCipher ek m) ++ certPart s epoch
  let reply := front ++ idSign s (sha256Bytes (offer ++ front))
  let k := deriveKeys s epoch (Config.kemShared ek m) offer reply
  sendKeyx i 2 epoch false reply (s.modSession i fun x =>
    { x with setup := some ⟨epoch, false, 2, reply, 0, s.hxBeat, offer, reply, [], some k⟩ })

def offerIntake (i : Nat) (epoch : Word32) (bs : List Byte) (s : State) : State :=
  let x := s.session i
  if initiates s i || x.ended || epoch != x.nextEpoch then s
  else match x.setup with
    | some st => if st.epoch = epoch then sendKeyx i st.lastMsg epoch true st.mine s else s
    | none =>
      if bs.length ≠ 1600 + certLen epoch then failSetup i epoch s
      else match peerKeyFrom s i epoch bs with
        | none => failSetup i epoch s
        | some k => replyTo i epoch bs (s.modSession i fun x => { x with peerKey := k })

def execKeyxOffer (peer : BitVec 6) (m : KeyxMsg) (s : State) : Out :=
  .next (onMessage peer.toNat 1 m (offerIntake peer.toNat m.epoch) s)

/-- The setup in progress with a peer, of an epoch. -/
def setupFor (i : Nat) (epoch : Word32) (s : State) : Option KeySetup := (s.session i).setup.filter fun st => st.epoch == epoch

/-- CONFIRM after a good REPLY: the keys are derived, and the private key is erased (R424). -/
def confirmTo (i : Nat) (st : KeySetup) (reply : List Byte) (s : State) : State :=
  let k := deriveKeys s st.epoch (Config.kemOpen st.secret (part reply 32 1568)) st.offer reply
  let m := idSign s (sha256Bytes (st.offer ++ reply)) ++ hmacBytes k 0x43
  sendKeyx i 3 st.epoch false m (s.modSession i fun x =>
    { x with nextKeys := some k,
             setup := some { st with lastMsg := 3, mine := m, resends := 0, sentAt := s.hxBeat, reply := reply, secret := [] } })

def replyIntake (i : Nat) (epoch : Word32) (bs : List Byte) (s : State) : State :=
  match setupFor i epoch s with
  | none => s
  | some st =>
    let n := 1600 + certLen epoch
    if !st.initiator then s
    else if st.lastMsg = 3 then sendKeyx i 3 epoch true st.mine s
    else if bs.length ≠ n + 17088 then failSetup i epoch s
    else match peerKeyFrom s i epoch bs with
      | none => failSetup i epoch s
      | some pk =>
        if !Config.slhVerify128f pk (sha256Bytes (st.offer ++ bs.take n)) (bs.drop n) then failSetup i epoch s
        else confirmTo i st bs (s.modSession i fun x => { x with peerKey := pk })

def execKeyxReply (peer : BitVec 6) (m : KeyxMsg) (s : State) : Out :=
  .next (onMessage peer.toNat 2 m (replyIntake peer.toNat m.epoch) s)

/-- DONE: the responder's HMAC under the keys of an epoch. -/
def sendDone (i : Nat) (k : Keys) (again : Bool) (s : State) : State := sendKeyx i 4 k.epoch again (hmacBytes k 0x44) s

def confirmIntake (i : Nat) (epoch : Word32) (bs : List Byte) (s : State) : State :=
  let x := s.session i
  match setupFor i epoch s with
  | none => match x.keys with
    | some k => if !initiates s i && k.epoch == epoch then sendDone i k true s else s
    | none => s
  | some st => match st.keys with
    | none => s
    | some k =>
      if bs.length ≠ 17088 + 32 || !Config.slhVerify128f x.peerKey (sha256Bytes (st.offer ++ st.reply)) (bs.take 17088) ||
          bs.drop 17088 != hmacBytes k 0x43 then failSetup i epoch s
      else hxPump (sendDone i k false (s.setSession i { x.switch k s.hxBeat with firstNew := none }))

def execKeyxConfirm (peer : BitVec 6) (m : KeyxMsg) (s : State) : Out :=
  .next (onMessage peer.toNat 3 m (confirmIntake peer.toNat m.epoch) s)

def doneIntake (i : Nat) (epoch : Word32) (bs : List Byte) (s : State) : State :=
  match setupFor i epoch s, (s.session i).nextKeys with
  | some st, some k =>
    if !st.initiator || st.lastMsg != 3 then s
    else if bs != hmacBytes k 0x44 then failSetup i epoch s
    else hxPump (s.modSession i fun x => x.switch k s.hxBeat)
  | _, _ => s

def execKeyxDone (peer : BitVec 6) (m : KeyxMsg) (s : State) : Out :=
  .next (onMessage peer.toNat 4 m (doneIntake peer.toNat m.epoch) s)

def abortIntake (i : Nat) (epoch : Word32) (s : State) : State :=
  match setupFor i epoch s with
  | none => s
  | some _ => s.modSession i (·.dropSetup)

def execKeyxAbort (peer : BitVec 6) (m : KeyxMsg) (s : State) : Out :=
  .next (onMessage peer.toNat 5 m (fun _ s => abortIntake peer.toNat m.epoch s) s)

def keyxResend (i : Nat) (s : State) : State :=
  match (s.session i).setup with
  | none => s
  | some st =>
    if !live s i || decide (beatsSince s.hxBeat st.sentAt < beatsOfMs 250) then s
    else if 8 ≤ st.resends then failSetup i st.epoch s
    else sendKeyx i st.lastMsg st.epoch true st.mine
      (s.modSession i fun x => { x with setup := some { st with resends := st.resends + 1, sentAt := s.hxBeat } })

def execKeyxResend (peer : BitVec 6) (s : State) : Out := .next (keyxResend peer.toNat s)

/-- A setup of the next epoch can begin: the module initiates, none is in progress, no epoch is inside a retire window.
DEDUCED, log entry 78. -/
def mayRoll (i : Nat) (s : State) : Bool :=
  let x := s.session i
  live s i && initiates s i && x.keys.isSome && x.setup.isNone && x.oldKeys.isNone && !x.ended

def rollStart (i : Nat) (s : State) : State :=
  let x := s.session i
  let old := x.keys.any fun k => decide (beatsOfMs 540000 ≤ beatsSince s.hxBeat k.since)
  if mayRoll i s && (old || x.rekey || decide (2 ^ 31 ≤ max x.netA.pctr x.netB.pctr)) then startSetup i x.nextEpoch s else s

def execKeyRollStart (peer : BitVec 6) (s : State) : Out := .next (rollStart peer.toNat s)

def keyStall (i : Nat) (s : State) : State :=
  let x := s.session i
  if live s i && x.keys.isSome && x.stall.isNone && (x.worn s || decide (2 ^ 32 ≤ max x.netA.pctr x.netB.pctr)) then
    sendEvent 0x0055 1 (entryWord i) 0 0 0 (s.setSession i { x with stall := some s.hxBeat })
  else s

def execHxKeyStall (peer : BitVec 6) (s : State) : Out := .next (keyStall peer.toNat s)

/-- DEDUCED, log entry 76. -/
def stallEnd (i : Nat) (s : State) : State :=
  let x := s.session i
  match x.stall with
  | none => s
  | some b =>
    if live s i && decide (beatsOfMs 60000 ≤ beatsSince s.hxBeat b) then
      let s := s.setSession i
        { x with ended := true, lost := true, lostKey := true, keys := none, oldKeys := none, nextKeys := none, setup := none,
                 stall := none }
      hxPause 5 0 0 (sendEvent 0x0053 2 (entryWord i) 0 5 0 s)
    else s

def execKeyStallEnd (peer : BitVec 6) (s : State) : Out := .next (stallEnd peer.toNat s)

/-- A new epoch that HX_REKEY has asked for starts as soon as a setup may begin (R427, R432). -/
def rekeyNow (i : Nat) (s : State) : State :=
  if mayRoll i s && (s.session i).rekey then startSetup i (s.session i).nextEpoch s else s

def keyRetire (i : Nat) (s : State) : State :=
  let x := s.session i
  match x.oldKeys, x.firstNew with
  | some k, some b =>
    if live s i && decide (max (4 * max x.netA.srtt x.netB.srtt) 8000000000 ≤ nsOf (beatsSince s.hxBeat b)) then
      let z := fun (v : HxNet) => { v with seen := v.seen.filter fun e => e.1 != k.epoch }
      rekeyNow i (s.setSession i { x with oldKeys := none, firstNew := none, netA := z x.netA, netB := z x.netB })
    else s
  | _, _ => s

def execKeyRetire (peer : BitVec 6) (s : State) : Out := .next (keyRetire peer.toNat s)

end Sys2Proof.Machine
end

