-- ==== Sys2Proof/Machine/HxCompute.lean ====
section
/-! DEFINITION. The HX engine: configuration (R384, R385, R405, R500), the outer boundary (R389 to R391, R399 to R403), merge
and outer optimiser (R392, R393, R404), digests (R394, R437), applying a result (R395), pauses by command (R501),
HX_REKEY (R432). -/
namespace Sys2Proof.Machine

/-! ## Modes -/

def deepBuffer (s : State) : Bool := bitOf (s.cfgReg 0x040000) 29
def rAxis (s : State) : Fin 4 := ⟨fld (s.cfgReg 0x040000) 25 24 % 4, Nat.mod_lt _ (by decide)⟩
/-- R_s. -/
def siteReplicas (s : State) : Nat := fld (s.cfgReg 0x040000) 23 20 + 1
/-- The replica axis reduces and gathers (R403). -/
def onAxis (s : State) : Bool := !deepBuffer s && decide (1 < siteReplicas s)

/-! ## HX_CONFIG -/

def hxGeneralWrite (p : HxGeneral) (s : State) : HRes :=
  .ok { s with hx := { s.hx with pend := { s.hx.pend with general := some p } } }

def hxShardsWrite (first : BitVec 16) (recs : List Word64) (s : State) : HRes :=
  let put := fun (x : Tab Word64 × Nat) (a : Word64) => (tins x.2 a x.1, x.2 + 1)
  .ok { s with hx := { s.hx with pend := { s.hx.pend with shards := (recs.foldl put (s.hx.pend.shards, first.toNat)).1 } } }

/-- An entry of an index that an earlier command wrote is replaced; two within one command are found at the commit.
DEDUCED, log entry 77. -/
def hxPeersWrite (ps : List PeerEntry) (s : State) : HRes :=
  let old := s.hx.pend.peers.filter fun e => !ps.any fun p => p.index == e.index
  .ok { s with hx := { s.hx with pend := { s.hx.pend with peers := old ++ ps } } }

def hxMemberWrite (mask : Word64) (s : State) : HRes :=
  if outerOpen s && s.hx.pauses == 0 then .refuse .hxField 0
  else .ok { s with hx := { s.hx with peers := s.hx.peers.map fun e => { e with member := mask.getLsbD e.index.toNat } } }

def allDistinct {α : Type} [DecidableEq α] : List α → Bool
  | [] => true
  | a :: t => !t.contains a && allDistinct t

/-- A buffer of R405: in DRAM, 64 MiB to 4 GiB, a multiple of 1 MiB. DEDUCED, log entry 77. -/
def bufferOk (a n : Word64) : Bool :=
  decide (67108864 ≤ n.toNat) && decide (n.toNat ≤ 4294967296) && n.toNat % 1048576 == 0 &&
    match regionOf a.toNat n.toNat with
    | some (.dram _) => true
    | _ => false

/-- The shard list of a pending configuration; none while a position has no address. -/
def pendShards (s : State) (n : Nat) : Option (List Word64) :=
  let l := if s.hx.pend.shards.isEmpty then s.hx.shards.mapIdx fun i a => (i, a) else s.hx.pend.shards
  let at? := fun (i : Nat) => (l.find? fun (e : Nat × Word64) => e.1 == i).map fun e => e.2
  let got := (List.range n).filterMap at?
  if got.length = n then some got else none

/-- Landing slots as large as Table 9.2 requires for a table of e entries: they lie in DRAM and share no byte with another area
of the records. A record that is not yet initialised is not judged (R388). DEDUCED, log entry 77. -/
def landingOk (l : List Word64) (e : Nat) (s : State) : Bool :=
  let recs := l.filterMap fun a => (outerRec a.toNat s).2.filter OuterRec.valid
  let areas := recs.map fun r => (r.landArea s e, r.areas s)
  let apart := fun (x y : Nat × Nat) => decide (x.1 + x.2 ≤ y.1) || decide (y.1 + y.2 ≤ x.1)
  let inDram := fun (x : Nat × Nat) => x.2 == 0 || match regionOf x.1 x.2 with
    | some (.dram _) => true
    | _ => false
  areas.mapIdx (fun i x => (i, x)) |>.all fun (i, (land, _)) =>
    inDram land && (areas.mapIdx fun j y => (y.2 ++ if i == j then [] else [y.1]).all (apart land)).all id

def noPending (s : State) : Bool := s.hx.pend.general.isNone && s.hx.pend.shards.isEmpty && s.hx.pend.peers.isEmpty

/-- The pending peers differ from the present ones in MEMBER bits alone. -/
def onlyMembers (s : State) : Bool :=
  (s.hx.pend.peers.map fun e => { e with member := false }) == (s.hx.peers.map fun e => { e with member := false })

/-- DEDUCED, log entry 77. -/
def tableBad (ps : List PeerEntry) (s : State) : Bool :=
  !allDistinct (ps.map (·.index)) || !allDistinct (ps.map (·.node)) || !ps.any (fun e => e.node == s.strapNode) ||
    (!deepBuffer s && decide (16 < ps.length))

/-- A session at its start: every DATA packet that the receive buffer holds may be sent before the first ACK.
DEDUCED, log entry 72. -/
def freshSession (s : State) (rbuf : Nat) : Session :=
  let v := { HxNet.reset with lastRx := s.hxBeat, lastData := s.hxBeat }
  { Session.reset with netA := v, netB := v, window := BitVec.ofNat 48 (rbuf / max 1 (pmaxBytes s)) }

/-- The outer step that a joiner names first. DEDUCED, log entry 79. -/
def joinFirst (s : State) : BitVec 48 := match outerSteps s with
  | some (_, b) => BitVec.ofNat 48 (b + 1)
  | none => 1

/-- DESIGN CHOICE, log entry 110. -/
def sendJoin (j : BitVec 48) (s : State) : State :=
  let dst := (s.hx.peers.filter fun e => e.member && e.node != s.strapNode).map fun e => e.index.toNat
  hxPump (dst.foldl (fun s i => queueObject i 3 j 0 (beBytes 6 j.toNat) s) s)

/-- A module outside NORMAL service whose own entry has no MEMBER bit asks to join (R435). -/
def beginJoin (s : State) : State :=
  if svcNormal s || (selfEntry s).any (·.member) then s
  else
    let j := joinFirst s
    sendJoin j { s with hx := { s.hx with joining := some ⟨j, [], 0, none, 0, [], []⟩ } }

/-- Sessions of a new table: those of the same index and NODE go on, the others begin. DEDUCED, log entry 71. -/
def newSessions (g : HxGeneral) (ps : List PeerEntry) (s : State) : Tab Session :=
  (sortNats (ps.map fun e => e.index.toNat)).map fun i =>
    let same := g.job == s.hx.general.job && (ps.find? fun e => e.index.toNat == i).map (·.node) == (peerOf s i).map (·.node)
    (i, if same && !(s.session i).ended then s.session i else freshSession s g.rbufSize.toNat)

def startKeys (s : State) (i : Nat) : State :=
  let x := s.session i
  if initiates s i && x.keys.isNone && x.setup.isNone then startSetup i 0 s else s

def installHx (g : HxGeneral) (shards : List Word64) (ps : List PeerEntry) (s : State) : State :=
  let ss := newSessions g ps s
  let s := { s with hx := { s.hx with
    configured := true, general := g, shards := shards, peers := ps, sessions := ss, pend := ⟨none, [], []⟩ } }
  beginJoin ((hxPeers s).foldl startKeys s)

/-- DEDUCED, log entry 77. -/
def hxCommit (s : State) : HRes :=
  if noPending s then .ok s
  else
    let g := s.hx.pend.general.getD s.hx.general
    let ps := if s.hx.pend.peers.isEmpty then s.hx.peers else s.hx.pend.peers
    let writes := !s.hx.pend.peers.isEmpty
    if tableBad ps s || !bufferOk g.sbuf g.sbufSize || !bufferOk g.rbuf g.rbufSize then .refuse .hxField 0
    else if writes && outerOpen s && !(onlyMembers s && s.hx.pauses != 0) then .refuse .hxField 0
    else match pendShards s g.nshard.toNat with
      | none => .refuse .hxField 0
      | some l => if landingOk l ps.length s then .ok (installHx g l ps s) else .refuse .hxField 0

/-! ## Outer steps -/

def stepOf (s : State) (o : BitVec 48) : Option OuterStep := s.hx.steps.find? fun x => x.o == o
def setStep (x : OuterStep) (s : State) : State :=
  { s with hx := { s.hx with steps := s.hx.steps.map fun y => if y.o == x.o then x else y } }

/-- ASTEP and BSTEP of every record; none where a line may not be used. -/
def allSteps (s : State) : Option (List (Nat × Nat)) :=
  s.hx.shards.mapM fun a => match ctlLine a.toNat s with
    | (_, some l) => some (fld (lineW l 0) 63 16, fld (lineW l 1) 63 16)
    | (_, none) => none

/-- OUTCOME of the step record is one that ends its step; OSTEP beside it. -/
def closedStep (s : State) : Option (BitVec 48) :=
  match stepRec s with
  | (_, some l) => if finalOutcome (recOutcome l) then some (recStep l) else none
  | (_, none) => none

/-- Entries dropped and not yet back. -/
def isDropped (s : State) (i : BitVec 6) : Bool := s.hx.dropped.any fun d => d.2 == i

/-- A joiner that was accepted for step j. -/
def joinerOf (s : State) (i : BitVec 6) : Option (BitVec 48) := (s.session i.toNat).listener

/-- From boundary j on a joiner is a member (R435): as boundary o begins, joiners of steps up to o get their MEMBER bit, and one
that was dropped is back. DEDUCED, log entry 79. -/
def seatJoiners (o : BitVec 48) (s : State) : State :=
  let due := fun (i : BitVec 6) => (joinerOf s i).any fun j => decide (j.toNat ≤ o.toNat)
  let ids := (s.hx.peers.map (·.index)).filter due
  let s := { s with hx := { s.hx with
    peers := s.hx.peers.map fun e => if due e.index then { e with member := true } else e,
    dropped := s.hx.dropped.filter fun d => !ids.contains d.2 } }
  ids.foldl (fun s i => s.modSession i.toNat fun x => { x with listener := none }) s

/-- The member set of a boundary as it begins (R386): entries with MEMBER, but those that are dropped and not yet back. -/
def memberSet (s : State) : List (BitVec 6) :=
  let is := fun (e : PeerEntry) => e.member && !isDropped s e.index && (joinerOf s e.index).isNone
  let l := sortNats ((s.hx.peers.filter is).map fun e => e.index.toNat)
  l.map (BitVec.ofNat 6)

def maskOf (l : List (BitVec 6)) : Word64 := l.foldl (fun m i => m ||| ((1 : Word64) <<< i.toNat)) 0

def selfIndex (s : State) : BitVec 6 := ((selfEntry s).map (·.index)).getD 0

/-- A pass of step o ends. -/
def haltPass (o : BitVec 48) (s : State) : State := match stepOf s o with
  | some x => setStep { x with halted := true, waitColl := false } s
  | none => s

/-- A pass of step o ends at a shard, for a poisoned line or a refused access (R195, R402). DEDUCED, log entry 81. -/
def haltStep (o : BitVec 48) (k : Nat) (s : State) : State := hxStop k o (haltPass o s)

/-- Steps 1 and 2 of R390: the snapshot and the difference of a shard. -/
def diffShard (o : Nat) (r : OuterRec) (s : State) : State × Option EngFail :=
  withHeader r s fun h s =>
    match engWords (hdrMaster h (hdrCur h)) r.count s with
    | (s, _, some e) => (s, some e)
    | (s, ms, none) => match engWords (r.offs r.acur) r.count s with
      | (s, _, some e) => (s, some e)
      | (s, cs, none) => match engWords (r.snapOf s (o - 1)) r.count s with
        | (s, _, some e) => (s, some e)
        | (s, old, none) =>
          let p := (ms.zip cs).map fun x => f32Sub x.1 x.2
          let d := (old.zip p).map fun x => f32Sub x.1 x.2
          let s := noteNf ((ms ++ cs ++ old ++ p ++ d).any f32Special) s
          runSteps [engPutWords (r.snapOf s o) p 0, engPutWords r.work d 0] s

/-- T2 codes, scales and new residuals of a slice, block by block (R83). -/
def t2Blocks (draws : Nat → Option (BitVec 16)) : Nat → Nat → List Word32 → List Word32 → List Nat × List Byte × List Word32 × Bool
  | 0, _, _, _ => ([], [], [], false)
  | k + 1, i, xs, fs =>
    if xs.isEmpty then ([], [], [], false)
    else
      let x := xs.take 32
      let f := fs.take 32
      let pad := List.replicate (32 - x.length) (0 : Word32)
      let t := encT2 ((x ++ pad).map f32) (f ++ pad) fun j => draws (i + j)
      let (cs, ss, rs, nf) := t2Blocks draws k (i + 32) (xs.drop 32) (fs.drop 32)
      (t.codes.take x.length ++ cs, t.x8 :: ss, (t.resid.getD f).take x.length ++ rs, t.nf || nf)

/-- The bytes of an image (R387): the last block is padded with elements +0 (R63); what fills up to 256 bytes is not stated.
DESIGN CHOICE, log entry 83. -/
def imageOf (n : Nat) (codes : List Nat) (scales : List Byte) (s : State) : State × List Byte :=
  let a := packCodes 2 (codes ++ List.replicate (32 * ((n + 31) / 32) - codes.length) 0)
  let (s, p) := freeBytes (t2Bytes n - a.length) s
  let (s, q) := freeBytes (imageBytes n - t2Bytes n - scales.length) s
  (s, a ++ p ++ scales ++ q)

/-- Step 4: compress the slice that stands at `src`, write image and residual. -/
def compressShard (o : BitVec 48) (src : Nat) (r : OuterRec) (s : State) : State × Option EngFail :=
  match engWords src r.scount s with
  | (s, _, some e) => (s, some e)
  | (s, xs, none) => match engWords (r.resid r.rcur) r.scount s with
    | (s, _, some e) => (s, some e)
    | (s, fs, none) =>
      let draws := fun (i : Nat) =>
        if bitOf (s.cfgReg 0x040000) 19 then some (drawAt s (o.extractLsb' 0 32) r.stream 2 (BitVec.ofNat 48 (r.slo + i))) else none
      let (cs, ss, rs, nf) := t2Blocks draws (r.scount / 32 + 1) 0 xs fs
      let (s, img) := imageOf r.scount cs ss (noteNf (nf || xs.any f32Special) s)
      let put := fun (s : State) => engWrite (r.landing s o.toNat (selfIndex s).toNat) img 0 s
      runSteps [put, engPutWords (r.resid (1 - r.rcur)) rs 0] s

/-- Each element of the slice divided by R_s (R403). -/
def divideSlice (r : OuterRec) (s : State) : State × Option EngFail :=
  let d := toF32 (.ofInt (siteReplicas s))
  match engWords r.slice r.scount s with
  | (s, _, some e) => (s, some e)
  | (s, xs, none) =>
    let ys := xs.map fun x => f32Div x d
    engPutWords r.slice ys 0 (noteNf ((xs ++ ys).any f32Special) s)

/-- Steps 4 and 5 of one shard. -/
def closeShard (o : BitVec 48) (r : OuterRec) (s : State) : State × Option EngFail :=
  let fin := fun (s : State) => (writeOuter r r.astep r.acur o.toNat (1 - r.rcur) s, (none : Option EngFail))
  if onAxis s then runSteps [divideSlice r, compressShard o r.slice r, fin] s
  else runSteps [compressShard o (r.work + 4 * r.slo) r, fin] s

/-- A collective of the HX engine: sum reduce-scatter or all-gather, F32, on the replica axis. -/
def hxColl (opid : BitVec 16) (src dst count : Nat) (s : State) : CollReq :=
  { axis := rAxis s, redMax := false, accum := false, close := 0, opid := opid, sfmt := 0, wfmt := 0, dfmt := 0, root := 0,
    hidUp := 0, hidDown := 0, src := BitVec.ofNat 64 src, dst := BitVec.ofNat 64 dst, total := BitVec.ofNat 48 count,
    counts := none, step := 0, srec := 0, bset := 0, sem := none }

/-- Start a collective for step o; a refusal ends the pass (R403). -/
def startHxColl (op : CollOp) (q : CollReq) (x : OuterStep) (s : State) : State :=
  match acceptColl op q none false true s with
  | .ok s => setStep { x with waitColl := true } s
  | _ => hxPause 1 0 x.o (setStep { x with halted := true, failed := true, waitColl := false } s)

/-- Other members and listeners of an outer step. -/
def imageTargets (x : OuterStep) (s : State) : List Nat :=
  (hxPeers s).filter fun i => x.members.contains (BitVec.ofNat 6 i) ||
    (s.session i).listener.any fun j => decide (x.o.toNat < j.toNat)

/-- Step 6 for one shard: its image goes to the others in round robin. It stands in the IMAGE object after those of the
shards before it in list order. A line that may not be read ends the pass at its shard. DEDUCED, log entry 74. -/
def sendImage (x : OuterStep) (r : OuterRec) (s : State) : State × Option Nat :=
  let me := (selfIndex s).toNat
  let g := engRead (r.landing s x.o.toNat me) (imageBytes r.scount) s
  match g.fail with
  | some _ => (g.s, some x.next)
  | none => match imagesBytes 0 (g.s.hx.shards.take x.next) g.s with
    | (s, .inr k) => (s, some k)
    | (s, .inl off) => (hxPump ((imageTargets x s).foldl (fun s i => queuePart i 1 x.o me off g.bytes s) s), none)

/-- The own image of a step has landed. -/
def ownLanded (o : BitVec 48) (s : State) : State :=
  let s := takeSlot o (selfIndex s) s
  { s with hx := { s.hx with landed := (o, selfIndex s) :: s.hx.landed } }

/-- One shard is done: its image is sent; after the last the own image stands whole. -/
def boundaryNext (x : OuterStep) (r : OuterRec) (s : State) : State :=
  match sendImage x r s with
  | (s, some k) => haltStep x.o k s
  | (s, none) =>
    let x := { x with next := x.next + 1, worked := false, waitColl := false }
    let s := setStep x s
    if x.next = s.hx.shards.length then ownLanded x.o s else s

/-- Run boundary o from its next shard; n bounds the shards left. -/
def boundaryRun (o : BitVec 48) : Nat → State → State
  | 0, s => s
  | n + 1, s =>
    match stepOf s o with
    | none => s
    | some x =>
      if x.halted || x.waitColl then s
      else match s.hx.shards[x.next]? with
        | none => s
        | some a => match outerRec a.toNat s with
          | (s, none) => haltStep o x.next s
          | (s, some r) =>
            if r.bstep = o.toNat then boundaryRun o n (boundaryNext x r s)
            else match (if x.worked then (s, none) else diffShard o.toNat r s) with
              | (s, some e) => haltStep o x.next s
              | (s, none) =>
                let x := { x with worked := true }
                let s := setStep x s
                if onAxis s then
                  startHxColl .rs (hxColl (x.opid0 + BitVec.ofNat 16 (2 * x.next)) r.work r.slice r.count s) x s
                else match closeShard o r s with
                  | (s, some e) => haltStep o x.next s
                  | (s, none) => boundaryRun o n (boundaryNext x r s)

/-- The reduce-scatter that a boundary waited for has completed. -/
def boundaryReduced (x : OuterStep) (s : State) : State :=
  match s.hx.shards[x.next]? with
  | none => s
  | some a => match outerRec a.toNat s with
    | (s, none) => haltStep x.o x.next s
    | (s, some r) => match closeShard x.o r s with
      | (s, some e) => haltStep x.o x.next s
      | (s, none) => boundaryRun x.o s.hx.shards.length (boundaryNext x r s)

/-- Result o' is not ready and not applied. -/
def resultMissing (s : State) (o : Nat) : Bool := s.hx.steps.any fun x => x.o.toNat == o && !x.isReady

/-- The collective of a pass has ended. -/
def collOver (s : State) (opid : BitVec 16) : Bool := (s.coll opid).isNone

/-- HX_BOUNDARY_DONE: a boundary that waits goes on; one whose shards are all done is complete, and LATE stands where the
result due is missing (R400). -/
def boundaryDone (s : State) : State :=
  match s.hx.steps.find? fun x => !x.boundary with
  | none => s
  | some x =>
    if !s.isReady || x.halted then s
    else
      let s := if x.waitColl && collOver s (x.opid0 + BitVec.ofNat 16 (2 * x.next)) then boundaryReduced x s else s
      match stepOf s x.o with
      | none => s
      | some x =>
        if x.halted || x.waitColl || decide (x.next < s.hx.shards.length) then s
        else
          let s := setStep { x with boundary := true } s
          if s.stale ≤ x.o.toNat && resultMissing s (x.o.toNat - s.stale) then hxPause 1 0 (x.o - BitVec.ofNat 48 s.stale) s else s

def execHxBoundaryDone (s : State) : Out := .next (boundaryDone s)

/-! ## HX_OUTER -/

/-- A boundary o + S is complete whose result o is not ready (R400). -/
def lateDue (s : State) : Bool :=
  s.hx.steps.any fun x => x.boundary && decide (s.stale ≤ x.o.toNat) && resultMissing s (x.o.toNat - s.stale)

/-- LATE has a cause: such a boundary, or a pass that a collective ended (R403). DEDUCED, log entry 81. -/
def lateStands (s : State) : Bool := s.hx.steps.any (·.failed) || lateDue s

/-- The conditions of R389 apart from PAUSED. -/
def outerOrder (o : BitVec 48) (s : State) : Bool :=
  match allSteps s with
  | none => false
  | some l =>
    hxDue s && (l.all fun (a, b) => b + 1 == o.toNat && decide (o.toNat ≤ a + 1 + s.stale)) && (closedStep s).isSome

/-- A pass of step o that was interrupted. DEDUCED, log entry 81. -/
def outerAgain (o : BitVec 48) (s : State) : Option OuterStep :=
  match stepOf s o, closedStep s with
  | some x, some _ => if x.halted && !x.merged then some x else none
  | _, _ => none

def newStep (o : BitVec 48) (opid0 : BitVec 16) (s : State) : OuterStep :=
  { o := o, opid0 := opid0, members := memberSet s, next := 0, worked := false, waitColl := false, halted := false, failed := false,
    boundary := false, mergeNext := 0, merging := false, merged := false, digests := [], isReady := false }

/-- An HX_OUTER that is issued again goes on, and clears LATE unless another cause of it stands (R391, R400, R403). With
no exchange configured no step is the next one: HX_ORDER. DESIGN CHOICE, log entry 109. -/
def hxOuter (o : BitVec 48) (opid0 : BitVec 16) (s : State) : HRes :=
  if !s.hx.configured then .refuse .hxOrder 0
  else match outerAgain o s with
    | some x =>
      if s.hx.pauses &&& ~~~(2 : BitVec 7) ≠ 0 then .refuse .hxPaused 0
      else
        let s := setStep { x with halted := false, failed := false, opid0 := opid0 } s
        .ok (boundaryRun o s.hx.shards.length (if lateStands s then s else hxUnpause 1 s))
    | none =>
      if !outerOrder o s then .refuse .hxOrder 0
      else if s.hx.pauses ≠ 0 then .refuse .hxPaused 0
      else
        let s := seatJoiners o s
        let s := { s with hx := { s.hx with inner := 0, boundaryAccepted := o, anyAccepted := true,
                                            steps := s.hx.steps ++ [newStep o opid0 s] } }
        .ok (boundaryRun o s.hx.shards.length s)

/-! ## Digests (R437) and readiness (R394) -/

/-- A DIGEST object (R437). -/
def digestBytes (o : BitVec 48) (mask : Word64) (ds : List (BitVec 128)) : List Byte :=
  beBytes 6 o.toNat ++ beBytes 8 mask.toNat ++ ds.flatMap fun d => beBytes 16 d.toNat

/-- The first position at which two digest lists differ; lists that agree (their masks differ) name a position that the
spec does not state. DESIGN CHOICE, log entry 82. -/
def firstDiffers (a b : List (BitVec 128)) (s : State) : State × BitVec 16 :=
  match differing a b with
  | k :: _ => (s, BitVec.ofNat 16 k)
  | [] => (useFree s, (freeWord s).extractLsb' 0 16)

/-- DESIGN CHOICE, log entry 82. -/
def hxMismatch (o : BitVec 48) (i : BitVec 6) (own rx : List (BitVec 128)) (s : State) : State :=
  let (s, k) := firstDiffers own rx s
  sendEvent 0x0058 2 (i.zeroExtend 32) o k 0 (hxPause 3 0 o s)

def digestFrom (s : State) (o : BitVec 48) (i : BitVec 6) : Option (Word64 × List (BitVec 128)) :=
  (s.hx.digestsRx.find? fun (a, b, _, _) => a == o && b == i).map fun (_, _, m, d) => (m, d)

def agrees (x : OuterStep) (m : Word64) (d : List (BitVec 128)) : Bool := m == maskOf x.members && d == x.digests

/-- Members other than the module. -/
def otherMembers (x : OuterStep) (s : State) : List (BitVec 6) := x.members.filter (· != selfIndex s)

/-- Every member's DIGEST has come and equals the own: the result is ready. LATE clears unless another cause of it
stands. A joiner exchanges no digests for a step of which it is no member. -/
def checkReady (o : BitVec 48) (s : State) : State :=
  match stepOf s o with
  | none => s
  | some x =>
    let all := !x.members.contains (selfIndex s) ||
      (otherMembers x s).all fun i => (digestFrom s o i).any fun (m, d) => agrees x m d
    if !x.merged || x.isReady || !all then s
    else
      let s := sendEvent 0x0050 0 0 o 0 0 (setStep { x with isReady := true } s)
      if lateStands s then s else hxUnpause 1 s

/-- Compare the digests that came before the merge was done. -/
def compareHeld (x : OuterStep) (s : State) : State :=
  (otherMembers x s).foldl (fun s i => match digestFrom s x.o i with
    | some (m, d) => if agrees x m d then s else hxMismatch x.o i x.digests d s
    | none => s) s

def digestObjectIn (i : BitVec 6) (o : BitVec 48) (mask : Word64) (ds : List (BitVec 128)) (s : State) : State :=
  if !live s i.toNat then s
  else match stepOf s o with
    | some x =>
      if !x.members.contains i then s
      else
        let rest := s.hx.digestsRx.filter fun (a, b, _, _) => !(a == o && b == i)
        let s := { s with hx := { s.hx with digestsRx := (o, i, mask, ds) :: rest } }
        if !x.merged then s
        else if agrees x mask ds then checkReady o s
        else hxMismatch o i x.digests ds s
    | none =>
      match outerSteps s with
      | some (a, _) =>
        if o.toNat ≤ a then s
        else { s with hx := { s.hx with digestsRx := (o, i, mask, ds) :: s.hx.digestsRx } }
      | none => s

def execHxDigest (peer : BitVec 6) (o : BitVec 48) (mask : Word64) (ds : List (BitVec 128)) (s : State) : Out :=
  .next (withObject peer.toNat 2 (some o) none (digestBytes o mask ds) (digestObjectIn peer o mask ds) s)

/-! ## Merge (R392, R393) -/

/-- An IMAGE object is complete in its landing slots. A record that may not be read leaves it open and stops the engine (R402). -/
def imageDone (i : BitVec 6) (o : BitVec 48) (s : State) : State :=
  if !live s i.toNat || s.hx.landed.contains (o, i) || landedBytes s o i == 0 then s
  else match objectBytes s with
    | (s, .inr k) => hxStop k o s
    | (s, .inl n) =>
      if landedBytes s o i ≠ n then s
      else { s with hx := { s.hx with landed := (o, i) :: s.hx.landed,
                                      landing := s.hx.landing.filter fun (a, b, _) => !(a == o && b == i) } }

def execHxImage (peer : BitVec 6) (o : BitVec 48) (s : State) : Out := .next (imageDone peer o s)

/-- The values of one image (Table 2.8). -/
def imageVals (a n : Nat) (s : State) : State × List Val × Option EngFail :=
  let g := engRead a (t2Bytes n + (n + 31) / 32) s
  match g.fail with
  | some e => (g.s, [], some e)
  | none =>
    let sc := g.bytes.drop (t2Bytes n)
    (g.s, (elemsOf 2 n (g.bytes.take ((n + 3) / 4))).mapIdx fun i c => blockVal 13 c (sc.getD (i / 32) 0), none)

/-- The sum of the members' images in ascending index, from +0. -/
def sumImages (o : Nat) (r : OuterRec) : List (BitVec 6) → List Word32 → State → State × List Word32 × Option EngFail
  | [], acc, s => (s, acc, none)
  | i :: t, acc, s =>
    match imageVals (r.landing s o i.toNat) r.scount s with
    | (s, _, some e) => (s, [], some e)
    | (s, vs, none) => sumImages o r t ((acc.zip vs).map fun x => toF32 ((f32 x.1).add x.2)) s

/-- The outer optimiser on one element: m1 and t1. -/
def nesterov (mu eta d m theta : Word32) : Word32 × Word32 :=
  let m1 := f32Fma mu m d
  let u := f32Fma mu m1 d
  (m1, f32Fma (f32Neg eta) u theta)

def mergeShard (x : OuterStep) (r : OuterRec) (s : State) : State × Option EngFail :=
  match sumImages x.o.toNat r x.members (List.replicate r.scount 0) s with
  | (s, _, some e) => (s, some e)
  | (s, sum, none) => match engWords (r.mom r.acur) r.scount s with
    | (s, _, some e) => (s, some e)
    | (s, ms, none) => match engWords (r.theta r.acur + 4 * r.slo) r.scount s with
      | (s, _, some e) => (s, some e)
      | (s, ts, none) =>
        let n := toF32 (.ofInt x.members.length)
        let mu := s.cfgReg 0x04000C
        let eta := s.cfgReg 0x040010
        let out := (sum.zip (ms.zip ts)).map fun z => nesterov mu eta (f32Div z.1 n) z.2.1 z.2.2
        let s := noteNf ((sum ++ ms ++ ts).any f32Special || out.any fun z => f32Special z.1 || f32Special z.2) s
        runSteps [engPutWords (r.mom (1 - r.acur)) (out.map (·.1)) 0,
          engPutWords (r.theta (1 - r.acur) + 4 * r.slo) (out.map (·.2)) 0] s

/-- Digests of the new θ of every shard, or the position of one that may not be read. -/
def thetaDigests : Nat → List Word64 → State → State × (List (BitVec 128) ⊕ Nat)
  | _, [], s => (s, .inl [])
  | k, a :: t, s => match outerRec a.toNat s with
    | (s, none) => (s, .inr k)
    | (s, some r) =>
      let g := engRead (r.theta (1 - r.acur)) (4 * r.count) s
      if g.fail.isSome then (g.s, .inr k)
      else match thetaDigests (k + 1) t g.s with
        | (s, .inl ds) => (s, .inl (digestOf g.bytes :: ds))
        | e => e

/-- The merge is complete: digests are formed, sent to the other members, and compared with those that have come. -/
def mergeEnd (x : OuterStep) (s : State) : State :=
  match thetaDigests 0 s.hx.shards s with
  | (s, .inr k) => haltStep x.o k s
  | (s, .inl ds) =>
    let x := { x with merged := true, digests := ds, waitColl := false }
    let bs := digestBytes x.o (maskOf x.members) ds
    let dst := if x.members.contains (selfIndex s) then otherMembers x s else []
    let s := dst.foldl (fun s i => queueObject i.toNat 2 x.o 0 bs s) (setStep x s)
    checkReady x.o (compareHeld x (hxPump s))

/-- Merge from the next shard on. -/
def mergeRun (o : BitVec 48) : Nat → State → State
  | 0, s => s
  | n + 1, s =>
    match stepOf s o with
    | none => s
    | some x =>
      match s.hx.shards[x.mergeNext]? with
      | none => mergeEnd x s
      | some a => match outerRec a.toNat s with
        | (s, none) => haltStep o x.mergeNext s
        | (s, some r) => match mergeShard x r s with
          | (s, some e) => haltStep o x.mergeNext s
          | (s, none) =>
            if onAxis s then
              let t := r.theta (1 - r.acur)
              startHxColl .ag (hxColl (x.opid0 + BitVec.ofNat 16 (2 * x.mergeNext + 1)) (t + 4 * r.slo) t r.count s) x s
            else mergeRun o n (setStep { x with mergeNext := x.mergeNext + 1 } s)

/-- The step that can be merged: its boundary is complete, ASTEP is the step before it, every member's image has landed. -/
def mergeable (s : State) : Option OuterStep :=
  match allSteps s with
  | none => none
  | some l => s.hx.steps.find? fun x =>
      x.boundary && !x.merged && !x.halted && (l.all fun (a, _) => a + 1 == x.o.toNat) &&
        x.members.all fun i => s.hx.landed.contains (x.o, i)

/-- The first record that may not be read. -/
def badRecord (s : State) : Option Nat := s.hx.shards.findIdx? fun a => (ctlLine a.toNat s).2.isNone

/-- A merge that waits to begin or to go on. -/
def mergeWaits (x : OuterStep) : Bool := x.boundary && !x.merged && !x.halted

def hxMerge (s : State) : State :=
  if !s.isReady then s
  else match badRecord s, s.hx.steps.find? mergeWaits with
    | some k, some x => haltStep x.o k s
    | _, _ => match mergeable s with
      | none => s
      | some x =>
        if !x.waitColl then mergeRun x.o (s.hx.shards.length + 1) (setStep { x with merging := true } s)
        else if collOver s (x.opid0 + BitVec.ofNat 16 (2 * x.mergeNext + 1)) then
          mergeRun x.o (s.hx.shards.length + 1) (setStep { x with waitColl := false, mergeNext := x.mergeNext + 1 } s)
        else s

def execHxMerge (s : State) : Out := .next (hxMerge s)

/-! ## HX_APPLY (R395) -/

def applyOrder (o st : BitVec 48) (s : State) : Bool :=
  match allSteps s with
  | none => false
  | some l =>
    (l.all fun (a, b) => a + 1 == o.toNat && decide (o.toNat + s.stale ≤ b)) && closedStep s == some (st - 1)

def resultReady (o : BitVec 48) (s : State) : Bool := (stepOf s o).any (·.isReady)

/-- Moments of the set not named by CUR: a copy, or +0 under MRESET. -/
def applyMoments (h : List Word64) (n : Nat) (ver : BitVec 7) (s : State) : State × Option EngFail :=
  let zero := bitOf (s.cfgReg 0x040000) 18
  let c := hdrCur h
  runSteps ((List.range (min 2 (hdrNmom h))).map fun j =>
    if zero then engZero (hdrMoment h (1 - c) j) n ver else engMove (hdrMoment h c j) n (hdrMoment h (1 - c) j) ver) s

def applyShard (o : Nat) (ver : BitVec 7) (r : OuterRec) (s : State) : State × Option EngFail :=
  withHeader r s fun h s =>
    let c' := r.offs (1 - r.acur)
    runSteps [engZip f32Sub (r.theta (1 - r.acur)) (r.snapOf s o) r.count c' 0,
      engZip f32Add (r.snapOf s (o + s.stale)) c' r.count (hdrMaster h (1 - hdrCur h)) ver,
      applyMoments h r.count ver] s

def hxApply (o st : BitVec 48) (sem : Option (UnitId × Fin 16)) (s : State) : HRes :=
  if !applyOrder o st s then .refuse .hxOrder 0
  else if !resultReady o s then .refuse .hxNotReady 0
  else
    let s := { s with hx := { s.hx with applying := some (o, st, sem, false) } }
    match eachOuter (fun _ r s => applyShard o.toNat (st.extractLsb' 0 7) r s) 0 s.hx.shards s with
    | (s, none) => .ok s
    | (s, some (k, _)) => .ok (hxStop k o { s with hx := { s.hx with applying := none } })

def applyDone (s : State) : State := if s.isReady then signalApply s else s

def execHxApplyDone (s : State) : Out := .next (applyDone s)

/-! ## Pauses, fetch, keys by command -/

/-- A pass that POISON stopped goes on; one that a collective ended waits for HX_OUTER (R403).
DEDUCED, log entry 81. -/
def unhalt (x : OuterStep) : OuterStep := { x with halted := x.failed }

/-- The boundary that is not complete goes on. -/
def goOn (s : State) : State :=
  match s.hx.steps.find? fun (x : OuterStep) => !x.boundary with
  | some x => boundaryRun x.o s.hx.shards.length s
  | none => s

/-- Packets whose write stopped the engine are written now. -/
def writeWaiting (s : State) : State := (hxPeers s).foldl (fun s i => deliverHeld i (s.session i).heldRx.length s) s

/-- HX_RESUME; after POISON the engine goes on where it stopped. DEDUCED, log entry 81. -/
def hxResume (cause : BitVec 8) (s : State) : HRes :=
  if cause.toNat = 1 || !s.hx.pauses.getLsbD cause.toNat then .refuse .hxOrder 0
  else
    let s := hxUnpause cause.toNat s
    .ok (if cause.toNat = 6 then writeWaiting (goOn { s with hx := { s.hx with steps := s.hx.steps.map unhalt } }) else s)

/-- Ask an entry for its state: what it sends begins with the first shard. -/
def sendFetch (i : Nat) (o : BitVec 48) (s : State) : State :=
  sendObject i 5 o 0 [] (s.modSession i fun x => { x with begun := [] })

def hxFetch (idx : BitVec 8) (s : State) : HRes :=
  if s.hx.pauses = 0 then .refuse .hxOrder 0
  else .ok (sendFetch idx.toNat 0 { s with hx := { s.hx with fetching := some (idx.truncate 6) } })

/-- HX_REKEY: every session is to have a new epoch; where the module initiates, its setup starts as soon as one may begin (R422,
R427). DEDUCED, log entry 78. -/
def hxRekey (s : State) : HRes :=
  if !hasLease s actRekey then .refuse .noPress 0
  else .ok ((hxPeers s).foldl (fun s i =>
    rekeyNow i (s.modSession i fun x => { x with rekey := x.keys.isSome && !x.ended })) s)

/-! ## HX_DROPPED (R434) -/

/-- A member is dropped from a step: it is lost, or its image is incomplete HX_DROP_WAIT after LATE. -/
def dropDue (s : State) (i : BitVec 6) (x : OuterStep) : Bool :=
  let late := s.hx.pauses.getLsbD 1 && s.hx.lateSince.any fun b => decide (beatsOfMs (s.cfgReg 0x04002C).toNat ≤ beatsSince s.hxBeat b)
  x.members.contains i && !x.merging && !x.merged &&
    ((s.session i.toNat).lost || (late && !s.hx.landed.contains (x.o, i)))

def dropFrom (i : BitVec 6) (s : State) (x : OuterStep) : State :=
  let s := setStep { x with members := x.members.filter (· != i) } s
  let s := { s with hx := { s.hx with dropped := (x.o, i) :: s.hx.dropped } }
  sendEvent 0x0056 1 (i.zeroExtend 32) x.o 0 0 (s.modSession i.toNat fun x => { x with listener := none })

def hxDropped (i : BitVec 6) (s : State) : State :=
  if !live s i.toNat || svcNormal s then s
  else (s.hx.steps.filter (dropDue s i)).foldl (dropFrom i) s

def execHxDropped (peer : BitVec 6) (s : State) : Out := .next (hxDropped peer s)

end Sys2Proof.Machine
end

