-- ==== Sys2Proof/Machine/HxJoin.lean ====
section
/-! DEFINITION. Joining and fetching (R435, R436, R501), and the decisions of a step that a waiting FETCH follows. -/
namespace Sys2Proof.Machine

/-! ## At a member -/

/-- Boundary j has begun. -/
def boundaryBegun (s : State) (j : BitVec 48) : Bool :=
  (s.hx.anyAccepted && decide (j.toNat ≤ s.hx.boundaryAccepted.toNat)) ||
    match outerSteps s with
    | some (_, b) => decide (j.toNat ≤ b)
    | none => false

def ownBstep (s : State) : Nat := match outerSteps s with
  | some (_, b) => b
  | none => 0

/-- The payload of JOIN_REPLY: whether the joiner is accepted, and the sender's BSTEP. DESIGN CHOICE, log entry 110. -/
def joinReplyBytes (ok : Bool) (b : Nat) : List Byte := (if ok then 1 else 0) :: beBytes 6 b

/-- A JOIN of step j: a module in NORMAL service refuses it, and one that has begun boundary j. -/
def joinIn (i : Nat) (j : BitVec 48) (s : State) : State :=
  if !live s i then s
  else
    let ok := !svcNormal s && (selfEntry s).any (·.member) && !boundaryBegun s j
    let s := if ok then s.modSession i fun x => { x with listener := some j } else s
    sendObject i 4 j 0 (joinReplyBytes ok (ownBstep s)) s

def execJoin (peer : BitVec 6) (j : BitVec 48) (s : State) : Out := 
  .next (withObject peer.toNat 3 (some j) none (beBytes 6 j.toNat) (joinIn peer.toNat j) s)

/-- STATE and MOMENTUM of one shard for a peer; a poisoned line is not sent (R402). -/
def sendShardState (i k : Nat) (a : Word64) (s : State) : State × Bool :=
  match outerRec a.toNat s with
  | (s, none) => (hxStop k 0 s, false)
  | (s, some r) =>
    let g := engRead (r.theta r.acur) (4 * r.count) s
    let m := engRead (r.mom r.acur) (4 * r.scount) g.s
    if g.fail.isSome || m.fail.isSome then (hxStop k 0 m.s, false)
    else
      let o := BitVec.ofNat 48 r.astep
      (queueObject i 7 o 0 m.bytes (queueObject i 6 o 0 g.bytes m.s), true)

def sendStates (i : Nat) : Nat → List Word64 → State → State × Bool
  | _, [], s => (s, true)
  | k, a :: t, s => match sendShardState i k a s with
    | (s, false) => (s, false)
    | (s, true) => sendStates i (k + 1) t s

/-- A landed image, one object for each shard; false where a line may not be read (R402). -/
def sendForward (i : Nat) (o : BitVec 48) (idx : BitVec 6) : Nat → List Word64 → State → State × Bool
  | _, [], s => (s, true)
  | k, a :: t, s => match outerRec a.toNat s with
    | (s, none) => (hxStop k o s, false)
    | (s, some r) =>
      let g := engRead (r.landing s o.toNat idx.toNat) (imageBytes r.scount) s
      if g.fail.isSome then (hxStop k o g.s, false)
      else sendForward i o idx (k + 1) t (queueObject i 8 o idx.toNat g.bytes g.s)

def sendForwards (i : Nat) : List (BitVec 48 × BitVec 6) → State → State
  | [], s => s
  | x :: t, s => match sendForward i x.1 x.2 0 s.hx.shards s with
    | (s, false) => s
    | (s, true) => sendForwards i t s

/-- Serve a FETCH from the committed sets. -/
def serveFetch (i : Nat) (s : State) : State :=
  match sendStates i 0 s.hx.shards s with
  | (s, false) => hxPump s
  | (s, true) =>
    match outerSteps s with
    | none => hxPump s
    | some (a, b) =>
      hxPump (sendForwards i (s.hx.landed.reverse.filter fun (o, _) => decide (a < o.toNat) && decide (o.toNat ≤ b)) s)

def fetchIn (i : Nat) (s : State) : State :=
  if !live s i then s
  else if s.hx.applying.isSome then
    { s with hx := { s.hx with waitingFetch := s.hx.waitingFetch ++ [BitVec.ofNat 6 i] } }
  else serveFetch i s

def execFetch (peer : BitVec 6) (s : State) : Out := .next (withObject peer.toNat 5 none none [] (fetchIn peer.toNat) s)

/-- Once no apply step is open, the FETCHes that waited are served (R436). -/
def serveFetches (s : State) : State :=
  if s.hx.applying.isSome || s.hx.waitingFetch.isEmpty then s
  else
    let l := s.hx.waitingFetch
    l.foldl (fun s i => serveFetch i.toNat s) { s with hx := { s.hx with waitingFetch := [] } }

def execGradFlagDone (opid : BitVec 16) (s : State) : Out := .next (serveFetches (gradDone opid s))
def execUpdateFlagDone (opid : BitVec 16) (s : State) : Out := .next (serveFetches (updateDone opid s))
def execCommitResume (s : State) : Out := .next (serveFetches (commitResume s))

/-! ## At the joiner -/

def setJoin (j : Joining) (s : State) : State := { s with hx := { s.hx with joining := some j } }

/-- Members that a joiner asks: other entries with MEMBER that are not lost. -/
def joinTargets (s : State) : List (BitVec 6) :=
  ((s.hx.peers.filter fun e => e.member && e.node != s.strapNode).map (·.index)).filter fun i => !(s.session i.toNat).lost

/-- The lowest of a list of entries. -/
def lowest (l : List (BitVec 6)) : Option (BitVec 6) := (sortNats (l.map BitVec.toNat)).head?.map (BitVec.ofNat 6)

def joinReplyIn (i : BitVec 6) (accepted : Bool) (b : BitVec 48) (s : State) : State :=
  match s.hx.joining with
  | none => s
  | some j =>
    if !live s i.toNat || j.source.isSome then s
    else if accepted then
      let acc := if j.accepted.contains i then j.accepted else i :: j.accepted
      if (joinTargets s).all fun k => acc.contains k then
        match lowest acc with
        | some k => sendFetch k.toNat j.j (setJoin { j with accepted := acc, source := some k } s)
        | none => s
      else setJoin { j with accepted := acc } s
    else
      let top : BitVec 48 := if j.refusedAt.toNat < b.toNat then b else j.refusedAt
      sendJoin (top + 1) (setJoin { j with j := top + 1, accepted := [], refusedAt := top } s)

def execJoinReply (peer : BitVec 6) (accepted : Bool) (bstep : BitVec 48) (s : State) : Out :=
  .next (withObject peer.toNat 4 none none (joinReplyBytes accepted bstep.toNat) (joinReplyIn peer accepted bstep) s)

/-- Outer steps that a joiner takes over: those after ASTEP and before j (R435 step 4). DEDUCED, log entry 79. -/
def joinSteps (a : Nat) (j : BitVec 48) (s : State) : State :=
  let members := sortNats ((s.hx.peers.filter fun e => e.member && e.node != s.strapNode).map fun e => e.index.toNat)
  let mk := fun (o : Nat) =>
    ({ newStep (BitVec.ofNat 48 o) 0 s with
        members := members.map (BitVec.ofNat 6), next := s.hx.shards.length, boundary := true } : OuterStep)
  let os := (List.range (min (s.stale + 1) (j.toNat - 1 - a))).map fun k => a + 1 + k
  { s with hx := { s.hx with
      steps := s.hx.steps ++ (os.filter fun o => !s.hx.steps.any fun x => x.o.toNat == o).map mk } }

/-- θ into the current θ set, the master and every snapshot slot; +0 into C and f; ASTEP and BSTEP.
DEDUCED, log entry 79. -/
def takeState (r : OuterRec) (a b : Nat) (ws : List Word32) (s : State) : State × Option EngFail :=
  withHeader r s fun h s =>
    runSteps ([engPutWords (r.theta r.acur) ws 0, engPutWords (hdrMaster h (hdrCur h)) ws ((hdrStep h).extractLsb' 0 7),
        engZero (r.offs r.acur) r.count 0, engZero (r.resid r.rcur) r.scount 0] ++
      (List.range (s.stale + 1)).map (fun k => engPutWords (r.snap k) ws 0) ++
      [fun s => (writeOuter r a r.acur b r.rcur s, none)]) s

def stateIn (i : BitVec 6) (shard : BitVec 8) (a : BitVec 48) (bs : List Byte) (s : State) : State :=
  match s.hx.shards[shard.toNat]? with
  | none => s
  | some at' =>
    if !live s i.toNat || !fetchesFrom i s then s
    else match outerRec at'.toNat s with
      | (s, none) => hxStop shard.toNat 0 s
      | (s, some r) =>
        if bs.length ≠ 4 * r.count then s
        else withObject i.toNat 6 (some a) none bs (fun s =>
          let b := match s.hx.joining with
            | some j => j.j.toNat - 1
            | none => max r.bstep a.toNat
          match takeState r a.toNat b (wordsOf r.count bs) s with
          | (s, some _) => hxStop shard.toNat 0 s
          | (s, none) => match s.hx.joining with
            | some j => joinSteps a.toNat j.j (setJoin { j with astep := a, gotState := shard.toNat :: j.gotState } s)
            | none => s) s

def execState (peer : BitVec 6) (shard : BitVec 8) (astep : BitVec 48) (bytes : List Byte) (s : State) : Out :=
  .next (stateIn peer shard astep bytes s)

def momentumIn (i : BitVec 6) (shard : BitVec 8) (bs : List Byte) (s : State) : State :=
  match s.hx.shards[shard.toNat]? with
  | none => s
  | some at' =>
    if !live s i.toNat || !fetchesFrom i s then s
    else match outerRec at'.toNat s with
      | (s, none) => hxStop shard.toNat 0 s
      | (s, some r) =>
        if bs.length ≠ 4 * r.scount then s
        else withObject i.toNat 7 none none bs (fun s =>
          match engPutWords (r.mom r.acur) (wordsOf r.scount bs) 0 s with
          | (s, some _) => hxStop shard.toNat 0 s
          | (s, none) => match s.hx.joining with
            | some j => setJoin { j with gotMomentum := shard.toNat :: j.gotMomentum } s
            | none => s) s

def execMomentum (peer : BitVec 6) (shard : BitVec 8) (bytes : List Byte) (s : State) : Out :=
  .next (momentumIn peer shard bytes s)

/-- A forwarded image of one shard: it has landed when every shard's has come. -/
def imageFwdIn (i m : BitVec 6) (o : BitVec 48) (shard : BitVec 8) (bs : List Byte) (s : State) : State :=
  match s.hx.shards[shard.toNat]? with
  | none => s
  | some at' =>
    if !live s i.toNat || !fetchesFrom i s || s.hx.landed.contains (o, m) then s
    else match outerRec at'.toNat s with
      | (s, none) => hxStop shard.toNat o s
      | (s, some r) =>
        if bs.length ≠ imageBytes r.scount then s
        else withObject i.toNat 8 (some o) (some m) bs (fun s =>
          match engWrite (r.landing s o.toNat m.toNat) bs 0 (takeSlot o m s) with
          | (s, some _) => hxStop shard.toNat o s
          | (s, none) =>
          let got := (s.hx.forwarded.filter fun (a, b, k) => a == o && b == m && k != shard.toNat).length + 1
          let fwd := (o, m, shard.toNat) :: s.hx.forwarded.filter fun x => x != (o, m, shard.toNat)
          if got = s.hx.shards.length then
            { s with hx := { s.hx with landed := (o, m) :: s.hx.landed,
                                       forwarded := fwd.filter fun (a, b, _) => !(a == o && b == m) } }
          else { s with hx := { s.hx with forwarded := fwd } }) s

def execImageFwd (peer midx : BitVec 6) (o : BitVec 48) (shard : BitVec 8) (bytes : List Byte) (s : State) : Out :=
  .next (imageFwdIn peer midx o shard bytes s)

/-- Everything has been fetched and every fetched result due before boundary j has been applied.
DEDUCED, log entry 79. -/
def joinComplete (j : Joining) (s : State) : Bool :=
  j.source.isSome && ((List.range s.hx.shards.length).all fun k => j.gotState.contains k && j.gotMomentum.contains k) &&
    !s.hx.steps.any fun x => decide (x.o.toNat + s.stale < j.j.toNat)

def hxJoined (s : State) : State :=
  match s.hx.joining with
  | none => s
  | some j =>
    if s.isReady && joinComplete j s then
      let me := fun (e : PeerEntry) => if e.node == s.strapNode then { e with member := true } else e
      sendEvent 0x0057 0 ((selfIndex s).zeroExtend 32) j.j 0 0
        { s with hx := { s.hx with joining := none, peers := s.hx.peers.map me } }
    else s

def execHxJoined (s : State) : Out := .next (hxJoined s)

end Sys2Proof.Machine
end

