-- ==== Sys2Proof/Machine/Firmware.lean ====
section
/-! DEFINITION. Flash images and their verification (R530 to R534), the second image (R533), quotes (R541 to R543), staging,
commit and recovery of firmware (R536, R544 to R548). -/
namespace Sys2Proof.Machine

/-! ## Verification (R532) -/

def imageMax : Nat := 33554432

/-! Fields of an image (Table 13.4). -/

def imageVersion (f : List Byte) : Word32 := BitVec.ofNat 32 (partNat f 8 4)
def imageSvn (f : List Byte) : Nat := partNat f 12 4
/-- Bytes that the signature covers: header and body. -/
def imageSigned (f : List Byte) : Nat := 128 + partNat f 16 4
/-- All bytes of an image (R541). -/
def imageWhole (f : List Byte) : List Byte := f.take (imageSigned f + 29792)

/-- The FORMAT check of R532. -/
def imageForm (f : List Byte) : Bool :=
  partNat f 0 4 == 0x44524657 && partNat f 4 2 == 1 && partNat f 6 2 == 128 && partNat f 20 2 == 0x2460 &&
    decide (partNat f 22 1 ≤ 0xB0) && decide (imageSigned f + 29792 ≤ imageMax)

/-- The check code of the first check that an image fails (R532). -/
def imageFails (s : State) (f : List Byte) (v : ImageVerdict) : Option Nat :=
  let key := part f 64 64
  if !v.readOk then some 1
  else if !imageForm f then some 2
  else if Config.sha256 key != s.otp.vendorHash then some 3
  else if imageSvn f < s.otp.svnFuses then some 4
  else if !Config.slhVerify256s key (f.take (imageSigned f)) (part f (imageSigned f) 29792) then some 5
  else none

/-- Image 0 is A, image 1 is B. -/
def State.image (s : State) (k : Fin 2) : List Byte := if k.val = 0 then s.flash.imageA else s.flash.imageB
def State.record (s : State) (k : Fin 2) : List Byte := if k.val = 0 then s.flash.recA else s.flash.recB

def setImage (k : Fin 2) (f : List Byte) (s : State) : State :=
  { s with flash := if k.val = 0 then { s.flash with imageA := f } else { s.flash with imageB := f } }
def setRecord (k : Fin 2) (r : List Byte) (s : State) : State :=
  { s with flash := if k.val = 0 then { s.flash with recA := r } else { s.flash with recB := r } }
def setVer (k : Fin 2) (v : Word32) (s : State) : State :=
  { s with sec := if k.val = 0 then { s.sec with verA := v } else { s.sec with verB := v } }
def State.ver (s : State) (k : Fin 2) : Word32 := if k.val = 0 then s.sec.verA else s.sec.verB

/-- A commit record (R531): MAGIC, number, VERSION, zeros, CRC-32. -/
def commitRecord (number : Nat) (version : Word32) : List Byte :=
  let l := beBytes 4 0x4452434D ++ beBytes 4 number ++ beBytes 4 version.toNat ++ List.replicate 240 0
  l ++ beBytes 4 (crc32 l).toNat

/-- A record whose MAGIC or CRC does not match counts as commit number 0 (R531). -/
def commitNumber (r : List Byte) : Nat :=
  if partNat r 0 4 = 0x4452434D ∧ partNat r 252 4 = (crc32 (part r 0 252)).toNat then partNat r 4 4 else 0
def preferred (s : State) : Fin 2 := if commitNumber s.flash.recA < commitNumber s.flash.recB then 1 else 0
def otherImage (k : Fin 2) : Fin 2 := if k.val = 0 then 1 else 0

/-- A commit record for an image, numbered one above the larger of the two. -/
def writeRecord (k : Fin 2) (version : Word32) (s : State) : State :=
  setRecord k (commitRecord (max (commitNumber s.flash.recA) (commitNumber s.flash.recB) + 1) version) s

def imageCode (k : Fin 2) : Nat := k.val + 1

/-- Phase 5: the preferred image, then the other; both failing is the recovery state (R533, R535). -/
def bootImages (va vb : ImageVerdict) (s : State) : State :=
  let verdict := fun (k : Fin 2) => if k.val = 0 then va else vb
  let p := preferred s
  let o := otherImage p
  let run := fun (k : Fin 2) (s : State) =>
    setVer k (imageVersion (s.image k)) { s with sec := { s.sec with running := if k.val = 0 then 1 else 2 } }
  match imageFails s (s.image p) (verdict p) with
  | none => run p s
  | some c => match imageFails s (s.image o) (verdict o) with
    | none => run o { s with sec := { s.sec with fallback := some (p, c) } }
    | some _ => { s with sec := { s.sec with running := 0 }, boot := { s.boot with state := .recovery } }

/-- The running image. -/
def runningImage (s : State) : Option (Fin 2) := if s.sec.running = 0 then none else if s.sec.running = 1 then some 0 else some 1

/-- Verification of the image that did not run. -/
def secondImage (v : ImageVerdict) (s : State) : State :=
  match runningImage s with
  | none => s
  | some k =>
    if !s.isReady || s.sec.secondDone then s
    else
      let o := otherImage k
      let s := { s with sec := { s.sec with secondDone := true } }
      if (imageFails s (s.image o) v).isNone then setVer o (imageVersion (s.image o)) s else setVer o 0 s

def execSecondImageVerify (v : ImageVerdict) (s : State) : Out := .next (secondImage v s)

/-! ## Quotes (R541 to R543) -/

/-- Configuration registers (R517) in ascending offset. DEDUCED, log entry 24. -/
def cfgOffsets : List Nat :=
  let words := fun (lo n : Nat) => (List.range n).map fun i => lo + 4 * i
  [0x18, 0x1C, 0x24, 0x28, 0x2C] ++ words 0x40 5 ++ words 0x60 5 ++
    (((List.range 8).flatMap fun p => words (0x100 + 0x40 * p) 10).filter fun o => !inRange 0x200 28 o) ++
    [0x300] ++ words 0x010000 3 ++ words 0x020040 10 ++ words 0x020080 6 ++ words 0x0200C0 3 ++ words 0x030004 8 ++
    [0x040000] ++ words 0x040008 10 ++ [0x050004, 0x050008, 0x050028, 0x070000, 0x080000] ++
    ((List.range 40).map fun c => 0x100000 + 0x1000 * c) ++
    (((List.range 160).flatMap fun u => words (0x400000 + 0x1000 * u + 0x40) 8) ++ [0x4FF000] ++
      ((List.range 160).flatMap fun u => words (0x500000 + 0x1000 * u + 0x40) 8))

def routeBytes (s : State) (bank : Nat) : List Byte :=
  (List.range 64).flatMap fun i => beBytes 2 (tget (0xFF : BitVec 16) s.fab.routes (64 * bank + i)).toNat

def measureCfg (s : State) : BitVec 256 :=
  Config.sha256 ((cfgOffsets.flatMap fun o => beBytes 4 (regValue s o).toNat) ++ routeBytes s 0 ++ routeBytes s 1)

/-- M_CFG over zeroed state: as many bytes, each zero. DEDUCED, log entry 42. -/
def zeroedCfg : BitVec 256 := Config.sha256 (List.replicate (4 * cfgOffsets.length + 256) 0)

def measureProg (s : State) : BitVec 256 :=
  Config.sha256 (allUnits.flatMap fun u =>
    beBytes 32 (Config.sha256 ((List.range 4096).flatMap fun i => leBytes 16 (s.instr u i).toNat)).toNat)

def quoteSize : Nat := 47184
def partSize : Nat := 8184

/-- The quote body of Table 13.6. In recovery both hashes are taken over zeroed state. DEDUCED, log entry 42. -/
def quoteBody (nonce : BitVec 256) (s : State) : List Byte :=
  let rec? := s.boot.state == .recovery
  let img := (runningImage s).map s.image
  beBytes 4 0x44525154 ++ beBytes 2 1 ++ beBytes 2 176 ++ beBytes 32 nonce.toNat ++ beBytes 6 s.beat.toNat ++
    [((topState s).toNat / 2 ^ 29 : Nat), s.sec.running.val].map (BitVec.ofNat 8) ++
    beBytes 4 (topStrap s).toNat ++ beBytes 4 (s.cfgReg 0x0200C8).toNat ++ part (ownCert s) 8 8 ++
    beBytes 4 ((img.map imageVersion).getD 0).toNat ++ beBytes 4 s.otp.svnFuses ++
    ((img.map fun f => sha256Bytes (imageWhole f)).getD (List.replicate 32 0)) ++
    beBytes 32 (if rec? then zeroedCfg else measureCfg s).toNat ++ beBytes 32 (measureProg (if rec? then State.reset else s)).toNat ++
    List.replicate 8 0

/-- n bytes of a quote from an offset: the body, its signature, the certificate. -/
def quoteBytes (q : Quote) (off n : Nat) (s : State) : List Byte := part (q.body ++ idSign s q.body ++ ownCert s) off n

def modQuote (nonce : BitVec 256) (f : Quote → Quote) (s : State) : State :=
  { s with sec := { s.sec with quotes := s.sec.quotes.map fun q => if q.nonce == nonce then f q else q } }

/-- DEDUCED, log entry 42. -/
def attest (nonce : BitVec 256) (s : State) : HRes :=
  match s.sec.quotes.find? fun q => q.nonce == nonce with
  | none =>
    let q : Quote := ⟨nonce, quoteBody nonce s, false, 0⟩
    .done ({ s with sec := { s.sec with quotes := (q :: s.sec.quotes).take 16 } }.bump 0x060060 1) (List.replicate 8 0) 0
  | some q =>
    if !q.isReady then .done s (List.replicate 8 0) 0
    else
      let n := min partSize (quoteSize - q.pos)
      let next := if quoteSize ≤ q.pos + partSize then 0 else q.pos + partSize
      .done (modQuote nonce (fun q => { q with pos := next }) s) (beBytes 4 quoteSize ++ beBytes 4 q.pos ++ quoteBytes q q.pos n s) 0

def execQuoteSigned (nonce : BitVec 256) (s : State) : Out := .next (modQuote nonce (fun q => { q with isReady := true }) s)

/-! ## Staging (R544 to R546) -/

def xPair (a b : Word32) : BitVec 96 := a ++ b ++ (0 : BitVec 32)

/-- FW_REJECTED: image, cause, bytes received. -/
def fwRejected (g : Staging) (cause : Nat) (s : State) : State :=
  sendEvent 0x0082 1 (BitVec.ofNat 32 (imageCode g.target)) 0 (BitVec.ofNat 16 cause) (xWord (BitVec.ofNat 32 g.bytes.length))
    { s with sec := { s.sec with staging := none } }

/-- A later segment continues a staging. -/
def continues (h : Hdr) (src : Source) (p : FwSegment) (g : Staging) : Bool :=
  g.chain == h.chain && decide (g.src = src) && !g.whole && !g.cut && p.offset.toNat == g.bytes.length &&
    p.total.toNat == g.total && decide (g.bytes.length + p.bytes.length ≤ g.total)

/-- CLAST brings the bytes received to TOTAL. -/
def lastOk (h : Hdr) (p : FwSegment) (n : Nat) : Bool := !h.clast || n + p.bytes.length == p.total.toNat

/-- What a new staging does to its target (R545): commit record and first sector erased, SEC_FW_VER 0. Erased bytes read 0xFF; how
long a sector is the spec does not say. DESIGN CHOICE, log entry 84. -/
def eraseTarget (k : Fin 2) (s : State) : State :=
  let n := 128 + Config.sectorRest
  setVer k 0 (setRecord k (List.replicate 256 0xFF) (setImage k (List.replicate n 0xFF ++ (s.image k).drop n) s))

/-- A segment of either command. `fresh` begins a staging. -/
def fwSegment (h : Hdr) (src : Source) (p : FwSegment) (fresh : State → State) (target : Fin 2) (lease : Word32) (s : State) : HRes :=
  if h.chain = 0 then .refuse .fwOrder 0
  else if h.cfirst then
    match s.sec.staging with
    | some g =>
      if g.whole || p.offset != 0 || !lastOk h p 0 || decide (p.total.toNat < p.bytes.length) then .refuse .fwOrder 0
      else
        let s := fresh (fwRejected g 7 s)
        .ok { s with sec := { s.sec with staging := some ⟨target, h.chain, src, p.total.toNat, p.bytes.reverse, h.clast, false, lease⟩ } }
    | none =>
      if p.offset != 0 || !lastOk h p 0 || decide (p.total.toNat < p.bytes.length) then .refuse .fwOrder 0
      else
        let s := fresh s
        .ok { s with sec := { s.sec with staging := some ⟨target, h.chain, src, p.total.toNat, p.bytes.reverse, h.clast, false, lease⟩ } }
  else match s.sec.staging with
    | none => .refuse .fwOrder 0
    | some g =>
      if !continues h src p g || !lastOk h p g.bytes.length then .refuse .fwOrder 0
      else .ok { s with sec := { s.sec with staging := some { g with bytes := p.bytes.reverse ++ g.bytes, whole := h.clast } } }

def fwLease (s : State) : Option Word32 := (s.press.leases.find? fun l => l.activity.toNat == actFwstage).map (·.num)

def fwStage (h : Hdr) (src : Source) (p : FwSegment) (s : State) : HRes :=
  match fwLease s, runningImage s with
  | none, _ => .refuse .noPress 0
  | some _, none => .refuse .fwOrder 0
  | some l, some k => fwSegment h src p (eraseTarget (otherImage k)) (otherImage k) l s

/-- Verify the buffer, program and read back the target. DESIGN CHOICE, log entry 84. -/
def fwStageDone (v : ImageVerdict) (readback : Bool) (s : State) : State :=
  match s.sec.staging with
  | none => s
  | some g =>
    if !s.isReady || !g.whole || !s.press.leases.any (fun l => l.num == g.lease) then s
    else
      let f := g.bytes.reverse
      match imageFails s f v with
      | some c => fwRejected g c s
      | none =>
        if !readback then fwRejected g 6 s
        else
          let s := setVer g.target (imageVersion f) (setImage g.target f { s with sec := { s.sec with staging := none } })
          sendEvent 0x0080 0 (BitVec.ofNat 32 (imageCode g.target)) 0 0 (xPair (imageVersion f) (BitVec.ofNat 32 (imageSvn f))) s

def execFwStageDone (v : ImageVerdict) (readback : Bool) (s : State) : Out := .next (fwStageDone v readback s)

/-- The chain of a staging is open. -/
def stagingChain (s : State) (g : Staging) : Bool := !g.cut && s.host.chains.any fun c => c.id == g.chain && decide (c.src = g.src)

/-- A staging is abandoned: its chain closed without CLAST, its lease is gone, or the module is in the fault state. -/
def abandoned (s : State) (g : Staging) : Bool :=
  (!g.whole && !stagingChain s g) || s.isFault ||
    (s.boot.state != .recovery && !s.press.leases.any fun l => l.num == g.lease)

/-- DEDUCED, log entry 40. -/
def fwAbandon (s : State) : State :=
  match s.sec.staging with
  | some g => if abandoned s g then fwRejected g 7 s else s
  | none => s

def execFwStageAbandon (s : State) : Out := .next (fwAbandon s)

/-! ## Commit and recovery (R536, R547) -/

def fwCommit (image : BitVec 8) (advance : Bool) (version : Word32) (s : State) : HRes :=
  let k : Fin 2 := if image = 1 then 0 else 1
  if (fwLease s).isNone then .refuse .noPress 0
  else if s.ver k = 0 then .refuse .sigInvalid 0
  else if s.ver k ≠ version ∨ s.sec.staging.isSome then .refuse .fwOrder 0
  else
    let s := writeRecord k version s
    let s := if advance then { s with otp := { s.otp with svnFuses := max s.otp.svnFuses (min 64 (imageSvn (s.image k))) } } else s
    .ok (sendEvent 0x0081 0 (BitVec.ofNat 32 (imageCode k)) 0 0 (xPair version (BitVec.ofNat 32 (commitNumber (s.record k)))) s)

/-- FW_RECOVER has effect in the recovery state alone. DEDUCED, log entry 40. -/
def fwRecover (h : Hdr) (src : Source) (p : FwSegment) (s : State) : HRes :=
  if s.boot.state ≠ .recovery then .refuse .fwOrder 0 else fwSegment h src p id 0 0 s

end Sys2Proof.Machine
end

