-- ==== Sys2Proof/Machine/Boot.lean ====
section
/-! DEFINITION. Power cycles and start-up (Tables 13.1, 13.2; R525 to R529, R549, R550, R554, R567), the Ethernet ports' own work
(R477 to R479). -/
namespace Sys2Proof.Machine

/-! ## Power cycles (R529, R550) -/

/-- Everything but OTP, flash and the housekeeping controller's non-volatile store is lost. DEDUCED, log entry 37. -/
def powerLost (s : State) : State :=
  { State.reset with pending := s.pending, nv := { s.nv with onBeats := s.onTime, onSince := 0 }, flash := s.flash, otp := s.otp, sent := s.sent, free := s.free }

/-- Every rail is removed and the hot-swap switch opens. -/
def switchOff (mv : Word32) (s : State) : State :=
  let t := powerLost s
  { t with boot := { t.boot with rails := 0, resetN := s.boot.resetN }, pwr := { t.pwr with vin := mv } }

/-- Every rail is removed and phase 2 is to begin again, once RESET_N is high. DEDUCED, log entry 37. -/
def resetCycle (low : Bool) (s : State) : State :=
  let t := powerLost s
  { t with boot := { t.boot with phase := if low then .input else .rails, switchClosed := true, resetN := !low } }

def execInputUndervoltage (mv : Word32) (s : State) : Out :=
  .next (if s.boot.switchClosed && decide (mv.toNat < 50000) then switchOff mv s else s)

def execInputOvervoltage (mv : Word32) (s : State) : Out :=
  .next (if s.boot.switchClosed && decide (74000 < mv.toNat) then switchOff mv s else s)

/-- Phase 1 ends: the switch is closed. -/
def switchClose (mv : Word32) (s : State) : State :=
  if s.boot.phase ≠ .input ∨ s.boot.switchClosed ∨ mv.toNat < 54000 ∨ 74000 < mv.toNat then s
  else
    { s with boot := { s.boot with switchClosed := true, rails := 1, phase := if s.boot.resetN then .rails else .input },
             pwr := { s.pwr with vin := mv } }

def execInputSwitchClose (mv : Word32) (s : State) : Out := .next (switchClose mv s)

/-- Phase 2 has ended well. DEDUCED, log entry 37. -/
def afterRails (s : State) : Bool :=
  match s.boot.phase with
  | .input | .rails | .dead => false
  | _ => true

/-- RESET_N acts once phase 2 has ended, well or not, while the housekeeping controller has its rail. DEDUCED, log entry 37. -/
def resetLow (ns : Nat) (s : State) : State :=
  if ns < 10000 then s
  else if afterRails s || (s.boot.phase == .dead && s.boot.rails.getLsbD 0) then resetCycle true s
  else { s with boot := { s.boot with resetN := false } }

def execResetNAssert (ns : Nat) (s : State) : Out := .next (resetLow ns s)

def resetHigh (s : State) : State :=
  { s with boot := { s.boot with
      resetN := true, phase := if s.boot.phase = .input ∧ s.boot.switchClosed then .rails else s.boot.phase } }

def execResetNRelease (s : State) : Out := .next (resetHigh s)

/-! ## Phases 2 to 9 -/

def setPhase (p : Phase) (s : State) : State := { s with boot := { s.boot with phase := p } }

/-- A phase is running and start-up has not ended in the fault state. -/
def inPhase (s : State) (p : Phase) : Bool := s.boot.phase == p && !s.isFault

def railsDone (good : Bool) (s : State) : State :=
  if !inPhase s .rails || !s.boot.resetN then s
  else if good then { s with boot := { s.boot with rails := 0x7FFF, phase := .clock } }
  else if s.boot.railRetried then { s with boot := { s.boot with rails := 1, phase := .dead } }
  else { s with boot := { s.boot with rails := 1, railRetried := true } }

def execRailSequenceDone (good : Bool) (s : State) : Out := .next (railsDone good s)

/-- A field of a strap sample has an odd number of ones. -/
def oddOnes (x n : Nat) : Bool := popcount x n % 2 == 1

/-- The parity checks of R315. -/
def strapBad (w : BitVec 22) : Bool :=
  oddOnes (fld w 21 10 + 4096 * fld w 1 1) 13 || oddOnes (fld w 9 2 + 256 * fld w 0 0) 9

/-- Phase 3: straps sampled, PLL locked, beat counter cleared (R28, R316). -/
def resetRelease (strap : BitVec 22) (s : State) : State :=
  if !inPhase s .clock then s
  else
    let s := { s with beat := 0, boot := { s.boot with
      phase := .clear, strap := strap, strapErr := strapBad strap, regionBeats := List.replicate 8 0,
      fabBeats := List.replicate 14 0 } }
    if strapBad strap then (List.range 10).foldl (fun s q => s.modPort q fun x => { x with cause := 9 }) s else s

def execResetRelease (strap : BitVec 22) (s : State) : Out := .next (resetRelease strap s)

def execRootPllLockTimeout (refClock : Bool) (s : State) : Out :=
  .next (if inPhase s .clock then enterFault (if refClock then 2 else 1) s else s)

/-- Phase 4 (R205): unit memories and unit state; owner codes to UNIT, semaphores and counters to zero. -/
def sramCleared (s : State) : State :=
  { s with units := [], clusters := [], shuttles := [], store := [], images := [], poison := [], storePoison := [],
           struck := s.struck.filter fun e => !(decide (0x400000 ≤ e.1) && decide (e.1 < 0x600000)) || e.1 == 0x4FF000,
           counters := [], mem := s.mem.filter fun c => decide (c.1 < unitBase), upsets := [] }

def execSramClearDone (s : State) : Out := .next (if inPhase s .clear then setPhase .verify (sramCleared s) else s)

/-- Phase 5: images and certificate (R533, R539). In the recovery state start-up ends with the Ethernet ports alone (R535).
DEDUCED, log entry 39. -/
def bootVerify (va vb : ImageVerdict) (certs : CertRead) (s : State) : State :=
  if !inPhase s .verify then s
  else
    let s := bootImages va vb { s with sec := { s.sec with cert := chooseCert certs s } }
    setPhase (if s.boot.state = .recovery then .done else .train) s

def execBootVerify (va vb : ImageVerdict) (certs : CertRead) (s : State) : Out := .next (bootVerify va vb certs s)

/-- Phase 6 (R216, R528). DEDUCED, log entry 39. -/
def trainingDone (failed : Option (Fin 192)) (s : State) : State :=
  if !inPhase s .train then s
  else match failed with
    | none => setPhase .zero { s with memc := { s.memc with speedNow := s.nv.speed } }
    | some _ => enterFault 4 (setPhase .eth { s with boot := { s.boot with trainFault := true } })

def execMemTrainingDone (failed : Option (Fin 192)) (s : State) : Out := .next (trainingDone failed s)

/-- Phase 8 begins: every enabled port trains (R310). -/
def beginTraining (s : State) : State :=
  (List.range 10).foldl (fun s q => if mayTrain q s then s.modPort q fun x => { x with state := .training } else s) s

/-- Phase 7 (R215). -/
def dramZeroed (s : State) : State :=
  { s with mem := s.mem.filter fun c => decide (unitBase ≤ c.1), lineTags := [],
           upsets := s.upsets.filter fun e => match e.loc with
             | .dram _ => false
             | _ => true }

def execDramZeroDone (s : State) : Out := .next (if inPhase s .zero then beginTraining (setPhase .eth (dramZeroed s)) else s)

/-- Band of Table 14.1 in which PWR_INPUT is sent: 1 low, 2 high. DESIGN CHOICE, log entry 85. -/
def inputBand (mv : Nat) : Nat := if 50000 ≤ mv ∧ mv < 56000 then 1 else if 70000 < mv ∧ mv ≤ 74000 then 2 else 0

def wattsOf (mv ma : Word32) : BitVec 12 := BitVec.ofNat 12 (min 4095 (mv.toNat * ma.toNat / 1000000))

/-- A measurement of the input; one outside the band of the last PWR_INPUT ends its excursion. -/
def measure (mv ma : Word32) (s : State) : State :=
  { s with pwr := { s.pwr with vin := mv, iin := ma, watts := wattsOf mv ma, band := if inputBand mv.toNat = s.pwr.band then s.pwr.band else 0 } }

/-- Events that wait for READY: strap parity (R316), the image that failed (R533), the certificate (R539).
DEDUCED, log entry 36. -/
def readyEvents (s : State) : State :=
  let s := if s.boot.strapErr then sendEvent 0x0002 2 (topStrap s) 0 0 0 s else s
  let s := match s.sec.fallback with
    | some (k, c) => sendEvent 0x0083 2 (BitVec.ofNat 32 (imageCode k)) 0 (BitVec.ofNat 16 c) 0 s
    | none => s
  if s.sec.cert.isSome then s else sendEvent 0x0084 2 0 0 0 0 s

/-- Phase 9 ends: READY, or, after failed memory training, the fault state with its commands answered.
DEDUCED, log entry 39. -/
def becomeReady (mv ma : Word32) (s : State) : State :=
  if s.boot.phase ≠ .eth then s
  else if s.boot.trainFault then setPhase .done (measure mv ma s)
  else if s.isFault then s
  else
    let s := measure mv ma s
    readyEvents { s with boot := { s.boot with phase := .done, state := .ready } }

def execReady (mv ma : Word32) (s : State) : Out := .next (becomeReady mv ma s)

end Sys2Proof.Machine
end

