-- ==== Sys2Proof/Machine/Payload.lean ====
section
/-! DEFINITION. The payload of a request as its bytes spell it (R6, R481, R544, R547, Tables 11.4, 11.7 to 11.10): multi-byte fields
most significant byte first, data images, instruction words and unit masks least significant first. -/
namespace Sys2Proof.Machine

/-- A payload of an opcode of Table 11.4: an operation, or what check 12, 13 or 14 finds in it before it spells one. -/
inductive Parsed where
  | op (o : HostOp)
  | badLen
  | badField (off : Nat)
  | badCount
  deriving DecidableEq, Repr

/-- The field of n bytes at offset o, as a number. -/
def field (pay : List Byte) (o n : Nat) : Nat := beNat ((pay.drop o).take n)

/-- k entries of n bytes from offset o on. -/
def entries (pay : List Byte) (o n k : Nat) : List (List Byte) := (List.range k).map fun i => (pay.drop (o + n * i)).take n

/-- A unit mask (R496). -/
def maskField (pay : List Byte) : BitVec 320 := BitVec.ofNat 320 (leNat (pay.take 40))

/-- SEMV, DIE, UNIT and SEM (Table 11.9) at offset o. -/
def semField (pay : List Byte) (o : Nat) : Option (UnitId × Fin 16) :=
  if h : field pay (o + 1) 1 < 160 then
    if 128 ≤ field pay o 1 then some (⟨⟨field pay o 1 % 2, by omega⟩, ⟨field pay (o + 1) 1, h⟩⟩, ⟨field pay (o + 2) 1 % 16, by omega⟩) else none
  else none

/-- UNIT of a valid SEM names no unit. -/
def badSem (pay : List Byte) (o : Nat) : Bool := decide (128 ≤ field pay o 1) && decide (159 < field pay (o + 1) 1)

def collOpOf : Nat → Option CollOp
  | 1 => some .rs | 2 => some .ag | 3 => some .ar | 4 => some .bc | 5 => some .a2a
  | _ => none

/-- COLLECTIVE (Table 11.9). -/
def parseColl (len : Nat) (pay : List Byte) : Parsed :=
  let f := field pay
  let q : CollReq :=
    { axis := ⟨f 1 1 / 64 % 4, by omega⟩, redMax := f 1 1 / 32 % 2 == 1, accum := f 1 1 / 16 % 2 == 1, close := BitVec.ofNat 2 (f 1 1 / 4)
      opid := BitVec.ofNat 16 (f 2 2), sfmt := BitVec.ofNat 4 (f 4 1 / 16), wfmt := BitVec.ofNat 4 (f 4 1)
      dfmt := BitVec.ofNat 4 (f 5 1 / 16), root := BitVec.ofNat 4 (f 5 1), hidUp := BitVec.ofNat 8 (f 6 1), hidDown := BitVec.ofNat 8 (f 7 1)
      src := BitVec.ofNat 64 (f 8 8), dst := BitVec.ofNat 64 (f 16 8), total := BitVec.ofNat 48 (f 24 6)
      counts := if f 1 1 / 2 % 2 = 1 then some ((entries pay 64 5 ((len - 64) / 5)).map fun e => BitVec.ofNat 38 (beNat e)) else none
      step := BitVec.ofNat 48 (f 30 6), srec := BitVec.ofNat 64 (f 36 8), bset := BitVec.ofNat 64 (f 44 8), sem := semField pay 52 }
  if badSem pay 52 then .badField 53
  else match collOpOf (f 0 1) with
    | some o => .op (.collective o q)
    | none => .op (.collReserved len q.sfmt q.wfmt q.dfmt)

/-- SET_ROUTE (Table 11.8). -/
def parseRoute (pay : List Byte) : Parsed :=
  let f := field pay
  let bank : Fin 2 := ⟨f 1 1 % 2, by omega⟩
  let node := fun (bs : List Byte) (o : Nat) => BitVec.ofNat 20 (field bs o 4)
  match f 0 1 with
  | 1 => .op (.setRouteWrite ⟨bank, (entries pay 4 2 64).map fun e => BitVec.ofNat 16 (beNat e),
      (entries pay 136 8 (f 132 1)).map fun e => (node e 0, node e 4)⟩)
  | 2 => .op (.setRouteSwitch bank)
  | _ => .badField 0

/-- SET_HEDDLE (Table 11.8). -/
def parseHeddle (pay : List Byte) : Parsed :=
  let f := field pay
  match f 0 1 with
  | 1 => .op (.setHeddleInstall ⟨BitVec.ofNat 8 (f 1 1), BitVec.ofNat 4 (f 2 1 / 16), BitVec.ofNat 4 (f 2 1), BitVec.ofNat 48 (f 4 6),
      BitVec.ofNat 16 (f 10 2), BitVec.ofNat 24 (f 12 3), BitVec.ofNat 16 (f 16 2)⟩)
  | 2 => .op (.setHeddleRemove (BitVec.ofNat 8 (f 1 1)))
  | _ => .badField 0

/-- A peer-table entry (Table 11.10). -/
def peerEntry (e : List Byte) : PeerEntry :=
  let addrs := fun (o : Nat) => (entries e o 16 4).map fun a => BitVec.ofNat 128 (beNat a)
  ⟨BitVec.ofNat 6 (field e 0 1), field e 1 1 % 2 == 1, BitVec.ofNat 20 (field e 4 4), addrs 8, addrs 72, BitVec.ofNat 256 (field e 136 32)⟩

/-- Bytes of an entry of a section of HX_CONFIG. -/
def hxEntryBytes : Nat → Nat
  | 1 => 40 | 2 => 8 | 3 => 168 | 4 => 8
  | _ => 0

/-- HX_CONFIG (Table 11.10). -/
def parseHxConfig (pay : List Byte) : Parsed :=
  let f := field pay
  let n := f 4 2
  let word := fun (o : Nat) => BitVec.ofNat 64 (f o 8)
  match f 0 1 with
  | 1 =>
    match (List.range n).find? fun k => 256 < f (8 + 40 * k + 2) 2 with
    | some k => .badField (8 + 40 * k + 2)
    | none =>
      if n ≠ 1 then .badCount
      else .op (.hxGeneral ⟨BitVec.ofNat 16 (f 8 2), BitVec.ofNat 16 (f 10 2), word 16, word 24, word 32, word 40⟩)
  | 2 => .op (.hxShards (BitVec.ofNat 16 (f 2 2)) ((entries pay 8 8 n).map fun e => BitVec.ofNat 64 (beNat e)))
  | 3 =>
    match (List.range n).find? fun k => 63 < f (8 + 168 * k) 1 with
    | some k => .badField (8 + 168 * k)
    | none => .op (.hxPeers ((entries pay 8 168 n).map peerEntry))
  | 4 => if n ≠ 1 then .badCount else .op (.hxMember (word 8))
  | 5 => if n ≠ 0 then .badCount else .op .hxCommit
  | _ => .badField 0

/-- LEN is one that an opcode of Table 11.4 permits (R485, R499). DEDUCED, log entry 56. -/
def lenPermitted (code : Nat) (len : Nat) (pay : List Byte) : Bool :=
  let f := field pay
  if [0x01, 0x04, 0x22, 0x55].contains code then len == 0
  else if len = 0 then false
  else if code = 0x02 then len % 4 == 0
  else if code = 0x03 then len % 8 == 0
  else if code = 0x05 then len == 16
  else if code = 0x06 then decide (16 ≤ len)
  else if code = 0x10 then len == 48 + 16 * f 42 2
  else if code = 0x11 then len == 112
  else if code = 0x12 then len == 40
  else if code = 0x20 then
    let write := len == 136 + 8 * f 132 1
    match f 0 1 with
    | 1 => write
    | 2 => len == 4
    | _ => len == 4 || write
  else if code = 0x21 then len == 24
  else if code = 0x30 then collLen len
  else if code = 0x42 then len == 8 + 8 * f 7 1
  else if code = 0x50 then
    if f 0 1 = 0 ∨ 5 < f 0 1 then decide (8 ≤ len) else len == 8 + f 4 2 * hxEntryBytes (f 0 1)
  else if code = 0x52 then len == 16
  else if code = 0x68 then len == 32
  else if code = 0x69 ∨ code = 0x6B then decide (16 ≤ len)
  else if [0x08, 0x13, 0x41, 0x43, 0x49, 0x53, 0x54, 0x60].contains code then len == 4
  else len == 8

def knownOpcode (code : Nat) : Bool :=
  [0x01, 0x02, 0x03, 0x04, 0x05, 0x06, 0x07, 0x08, 0x10, 0x11, 0x12, 0x13, 0x20, 0x21, 0x22, 0x30, 0x31, 0x32, 0x40, 0x41, 0x42,
    0x43, 0x48, 0x49, 0x50, 0x51, 0x52, 0x53, 0x54, 0x55, 0x60, 0x68, 0x69, 0x6A, 0x6B].contains code

/-- An entry of REG_READ: [23:0] offset. -/
def regOffset (e : List Byte) : BitVec 24 := BitVec.ofNat 24 (field e 0 4)

/-- An entry of REG_WRITE: offset, then the value (R6). -/
def regEntry (e : List Byte) : BitVec 24 × Word32 := (regOffset e, BitVec.ofNat 32 (field e 4 4))

def fwField (pay : List Byte) : FwSegment := ⟨BitVec.ofNat 32 (field pay 0 4), BitVec.ofNat 32 (field pay 4 4), pay.drop 16⟩

/-- The payload of `len` bytes of an opcode of Table 11.4. DEDUCED, log entry 57. -/
def readPayload (code len : Nat) (bytes : List Byte) : Parsed :=
  let pay := bytes.take len
  let f := field pay
  let step := BitVec.ofNat 48 (f 0 6)
  if !lenPermitted code len pay then .badLen
  else match code with
    | 0x01 => .op .ping
    | 0x02 => .op (.regRead ((entries pay 0 4 (len / 4)).map regOffset))
    | 0x03 => .op (.regWrite ((entries pay 0 8 (len / 8)).map regEntry))
    | 0x04 => .op .snapshot
    | 0x05 => .op (.memRead (BitVec.ofNat 64 (f 0 8)) (BitVec.ofNat 32 (f 8 4)))
    | 0x06 => .op (.memWrite (BitVec.ofNat 64 (f 0 8)) (decide (128 ≤ f 8 1)) (BitVec.ofNat 7 (f 8 1)) (pay.drop 16))
    | 0x07 => .op (.evtRead (BitVec.ofNat 8 (f 0 1)) (BitVec.ofNat 32 (f 4 4)))
    | 0x08 => .op (.jnlRead (BitVec.ofNat 32 (f 0 4)))
    | 0x10 => .op (.loadProgram ⟨maskField pay, BitVec.ofNat 16 (f 40 2), (entries pay 48 16 (f 42 2)).map fun e => BitVec.ofNat 128 (leNat e)⟩)
    | 0x11 => .op (.launch ⟨maskField pay, BitVec.ofNat 12 (f 40 2), f 42 1 / 2 % 2 == 1, f 42 1 % 2 == 1,
        (entries pay 48 8 8).map fun e => BitVec.ofNat 64 (beNat e)⟩)
    | 0x12 => .op (.halt (maskField pay))
    | 0x13 => .op (.unitRetire (BitVec.ofNat 8 (f 0 1)) (BitVec.ofNat 8 (f 1 1)))
    | 0x20 => parseRoute pay
    | 0x21 => parseHeddle pay
    | 0x22 => .op .cmapRead
    | 0x30 => parseColl len pay
    | 0x31 => .op (.stepResolve step (BitVec.ofNat 8 (f 6 1)))
    | 0x32 => .op (.digest step)
    | 0x40 => .op (.checkpoint step (BitVec.ofNat 16 (f 6 2)))
    | 0x41 => .op (.restore (BitVec.ofNat 16 (f 0 2)))
    | 0x42 => .op (.refill (BitVec.ofNat 20 (f 0 4)) (BitVec.ofNat 16 (f 4 2)) (f 6 1 % 2 == 1)
        ((entries pay 8 8 (f 7 1)).map fun e => BitVec.ofNat 64 (beNat e)))
    | 0x43 => .op (.evacuate (BitVec.ofNat 20 (f 0 4)))
    | 0x48 => .op (.pressAcquire (BitVec.ofNat 8 (f 0 1)) (BitVec.ofNat 10 (f 2 2)) (BitVec.ofNat 32 (f 4 4)))
    | 0x49 => .op (.pressRelease (BitVec.ofNat 32 (f 0 4)))
    | 0x50 => parseHxConfig pay
    | 0x51 => .op (.hxOuter step (BitVec.ofNat 16 (f 6 2)))
    | 0x52 => if badSem pay 12 then .badField 13 else .op (.hxApply step (BitVec.ofNat 48 (f 6 6)) (semField pay 12))
    | 0x53 => .op (.hxFetch (BitVec.ofNat 8 (f 0 1)))
    | 0x54 => .op (.hxResume (BitVec.ofNat 8 (f 0 1)))
    | 0x55 => .op .hxRekey
    | 0x60 => .op (.ripRead (BitVec.ofNat 16 (f 0 2)) (BitVec.ofNat 16 (f 2 2)))
    | 0x68 => .op (.attest (BitVec.ofNat 256 (f 0 32)))
    | 0x69 => .op (.fwStage (fwField pay))
    | 0x6A => .op (.fwCommit (BitVec.ofNat 8 (f 0 1)) (f 1 1 % 2 == 1) (BitVec.ofNat 32 (f 4 4)))
    | 0x6B => .op (.fwRecover (fwField pay))
    | _ => .badLen

end Sys2Proof.Machine
end

