-- ==== Sys2Proof/Machine/Power.lean ====
section
/-! DEFINITION. Input bands, rails, throttle, thermal and laser limits, boundary scan (R550, R555 to R563, R568, R570), and the
configuration parity sweep (R517, R518). -/
namespace Sys2Proof.Machine

/-! ## Input and throttle -/

/-- The input has stayed 1 ms in its band. DESIGN CHOICE, log entry 85. -/
def pwrInput (mv : Word32) (s : State) : State :=
  if !s.boot.switchClosed then s
  else
    let b := inputBand mv.toNat
    let t := { s with pwr := { s.pwr with vin := mv, band := b } }
    if b = 0 ∨ b = s.pwr.band then t else sendEvent 0x0090 1 mv 0 (BitVec.ofNat 16 b) 0 t

def execPwrInput (mv : Word32) (s : State) : Out := .next (pwrInput mv s)

def dieCode : Die → Nat
  | .d0 => 0
  | .d1 => 1
  | .f => 2

/-- The level that the cap requires after an interval (R556, R557): above the cap a level over the present one, and at least the
one that the controller finds (`need`); within it, none above the present one. DEDUCED, log entry 104. -/
def capLevel (s : State) (watts : BitVec 12) (need : Nat) : Nat :=
  if fld (s.cfgReg 0x070000) 11 0 < watts.toNat then max need (min 63 (s.pwr.level + 1)) else min need s.pwr.level

/-- The level that thermal protection requires after an interval (R559): it raises L by one step, or lowers it by one
until the cap alone decides. DEDUCED, log entry 104. -/
def thermalStep (t cap : Nat) (p : Power) : Nat :=
  if 105 ≤ t then min 63 (p.level + 1)
  else if 100 < t then p.thermalLevel
  else if p.thermalLevel = 0 ∨ p.level - 1 ≤ cap then 0
  else p.level - 1

/-- The controller's work of one 1 ms interval: `need` is the level that it finds for the cap, `temp` the hottest sensor
and `die` its die. -/
def throttle (mv ma : Word32) (need : Fin 64) (temp : BitVec 12) (die : Die) (s : State) : State :=
  if !afterRails s then s
  else
    let cap := capLevel s (wattsOf mv ma) need.val
    let th := thermalStep temp.toNat cap s.pwr
    let was := s.pwr.thermal
    let s := measure mv ma s
    let s := { s with pwr := { s.pwr with
      temp := temp, thermalLevel := th, level := max cap th, capping := cap != 0, thermal := th != 0 } }
    if th != 0 && !was then sendEvent 0x0091 1 (BitVec.ofNat 32 (dieCode die)) 0 (temp.zeroExtend 16) 0 s else s

def execThrottleUpdate (mv ma : Word32) (need : Fin 64) (temp : BitVec 12) (die : Die) (s : State) : Out :=
  .next (throttle mv ma need temp die s)

/-! ## Power and thermal faults (Table 14.5) -/

/-- A rail's place in `Boot.rails`. -/
def railNo : Rail → Nat
  | .hk => 0 | .vbus => 1 | .vddF => 2 | .vddD0 => 3 | .vddD1 => 4 | .vddmD0 => 5 | .vddmD1 => 6 | .vddioF => 7 | .vddEth => 8
  | .vdd1 => 9 | .vdd2h => 10 | .vdd2l => 11 | .vddq => 12 | .opt1v2 => 13 | .opt3v3 => 14

def railBit (r : Rail) : BitVec 15 := 1 <<< railNo r

/-- The rails that stay when a rail is removed with its dependants: the bus feeds every rail below it; without 3V3_HK the
housekeeping controller holds none. DEDUCED, log entry 38. -/
def railKeep (r : Rail) : BitVec 15 :=
  match r with
  | .hk => 0
  | .vbus => railBit .hk
  | _ => ~~~railBit r

/-- The rails that stay when those of a die are removed: of F every one but 3V3_HK goes (R559). -/
def dieKeep : Die → BitVec 15
  | .d0 => ~~~(railBit .vddD0 ||| railBit .vddmD0)
  | .d1 => ~~~(railBit .vddD1 ||| railBit .vddmD1)
  | .f => railBit .hk

/-- F has its rails: the bus, its logic, its I/O and the Ethernet lanes. DEDUCED, log entry 38. -/
def fabricUp (rails : BitVec 15) : Bool := [Rail.vbus, .vddF, .vddioF, .vddEth].all fun r => rails.getLsbD (railNo r)

/-- Rails are removed. Without those of F the module answers nothing. DEDUCED, log entry 38. -/
def loseRails (keep : BitVec 15) (s : State) : State :=
  let s := { s with boot := { s.boot with rails := s.boot.rails &&& keep } }
  if fabricUp s.boot.rails then s
  else { s with boot := { s.boot with phase := .dead }, host := { s.host with eth := [] } }

/-- The rails are up: phase 2 has ended. -/
def faultIf (cause : BitVec 8) (s : State) : State := if afterRails s then enterFault cause s else s

def railFault (r : Rail) (ovp : Bool) (s : State) : State :=
  if !s.isReady then s
  else if ovp then loseRails (railKeep r) (enterFault 0x11 s)
  else enterFault 0x10 s

def execRailFault (rail : Rail) (ovp : Bool) (s : State) : Out := .next (railFault rail ovp s)

def execInputOc (ma : Word32) (s : State) : Out :=
  .next (if 40000 < ma.toNat then faultIf 0x12 s else s)

def dieHot (d : Die) (s : State) : State :=
  if !afterRails s then s else loseRails (dieKeep d) (enterFault (if d = .f then 0x14 else 0x13) s)

def execDieHot (die : Die) (s : State) : Out := .next (dieHot die s)

def execBoardHot (s : State) : Out := .next (if afterRails s then loseRails (railBit .hk) (enterFault 0x15 s) else s)

/-- PWR_COOL takes a measurement; one at or below 42 °C ends a warm excursion. -/
def setCoolant (inlet outlet : BitVec 16) (s : State) : State :=
  { s with pwr := { s.pwr with inlet := inlet, outlet := outlet, warm := s.pwr.warm && decide (420 < inlet.toInt) } }

/-- The inlet has been above 42 °C for 10 s. DESIGN CHOICE, log entry 85. -/
def coolantWarm (inlet outlet : BitVec 16) (s : State) : State :=
  if !afterRails s then s
  else
    let hot := decide (420 < inlet.toInt)
    let was := s.pwr.warm
    let s := setCoolant inlet outlet s
    let s := { s with pwr := { s.pwr with warm := hot } }
    if hot && !was then sendEvent 0x0092 1 (inlet.zeroExtend 32) 0 0 0 s else s

def execCoolantWarm (inlet outlet : BitVec 16) (s : State) : Out := .next (coolantWarm inlet outlet s)

/-- The inlet has been above 45 °C for 10 s. -/
def execCoolantFault (inlet outlet : BitVec 16) (s : State) : Out :=
  .next (if !afterRails s then s
    else
      let s := setCoolant inlet outlet s
      if 450 < inlet.toInt then enterFault 0x16 s else s)

def execHkLinkLoss (s : State) : Out := .next (faultIf 0x17 s)

/-! ## Boundary scan (R568) -/

/-- The 8-bit code of an instruction; IEEE 1149.1 gives BYPASS ones. -/
def tapCode (ir : TapIr) : BitVec 8 := if ir = .bypass then 0xFF else Config.tapCode ir

def drivesPins : TapIr → Bool
  | .extest | .clamp | .highz => true
  | _ => false

/-- The identification that a die shifts out (R568): version 0x2, part 0x2460 or 0x2461, manufacturer field 0x4F3. -/
def idcode : Die → Word32
  | .f => 0x224609E7
  | _ => 0x224619E7

/-- The instruction that a die's register holds. -/
def State.tapIr (s : State) (d : Die) : TapIr := tget .bypass s.pwr.tap (dieCode d)

/-- The level of a pin: the straps as sampled, RESET_N and ALERT_N as they stand, any other one free. DESIGN CHOICE,
log entry 103. -/
def pinLevel (s : State) : Pin → Bool
  | .strap i => s.boot.strap.getLsbD i.val
  | .resetN => s.boot.resetN
  | .alertN => !s.trayAlert
  | p => Config.pinLevel s.free p

/-- A die's boundary register captures its pins. DESIGN CHOICE, log entry 103. -/
def samplePins (d : Die) (s : State) : State :=
  { s with pwr := { s.pwr with boundary := tput [] (dieCode d) ((Config.boundary d).map (pinLevel s)) s.pwr.boundary }, free := s.free + 1 }

/-- The data register that a die's instruction selects, least significant bit first: one bit of BYPASS, the identification, or the
boundary register. -/
def tapData (s : State) (d : Die) : List Bool :=
  match s.tapIr d with
  | .idcode => (List.range 32).map (idcode d).getLsbD
  | .bypass | .clamp | .highz => [false]
  | .sample | .extest => tget [] s.pwr.boundary (dieCode d)

/-- What leaves at TDO as the chain TDI, F, D0, D1, TDO is shifted, D1's register first; before phase 2 ends TDO is high
impedance. -/
def tapOut (s : State) : Option (List Bool) :=
  if afterRails s then some (tapData s .d1 ++ tapData s .d0 ++ tapData s .f) else none

/-- The instruction codes that leave at TDO as the three instruction registers are shifted. -/
def tapIrOut (s : State) : Option (List (BitVec 8)) :=
  if afterRails s then some ([Die.d1, .d0, .f].map fun d => tapCode (s.tapIr d)) else none

/-- An instruction is loaded into a die's register. -/
def scanIn (die : Die) (ir : TapIr) (s : State) : State :=
  if !afterRails s then s
  else
    let s := { s with pwr := { s.pwr with tap := tput .bypass (dieCode die) ir s.pwr.tap } }
    if drivesPins ir then enterFault 0x18 s else if ir = .sample then samplePins die s else s

def execScanInstruction (die : Die) (ir : TapIr) (s : State) : Out := .next (scanIn die ir s)

/-! ## Laser inputs (R570) -/

/-- Power in dBm, F32, of a value in 0.01 dBm. -/
def dBm (p : BitVec 16) : Word32 := toF32 ((Val.ofInt p.toInt).div (.ofInt 100))

/-- Band of a laser input: 1 below +15 dBm, 2 above +21.5 dBm. -/
def laserBandOf (p : BitVec 16) : Nat := if p.toInt < 1500 then 1 else if 2150 < p.toInt then 2 else 0

/-- A measurement that has held for 10 ms; `band` is the excursion that the command reports.
DESIGN CHOICE, log entry 85. -/
def laserIn (band code : Nat) (sev : BitVec 8) (f : Fin 10) (p : BitVec 16) (s : State) : State :=
  if !afterRails s then s
  else
    let was := tget 0 s.pwr.laserBand f.val
    let now := laserBandOf p
    let s := { s with pwr := { s.pwr with
      laser := tput 0 f.val p s.pwr.laser
      laserBand := tput 0 f.val (if now = band ∨ now = was then now else 0) s.pwr.laserBand } }
    if now = band ∧ was ≠ band then
      sendEvent (BitVec.ofNat 16 code) sev (BitVec.ofNat 32 f.val) 0 0 (xWord (dBm p)) s
    else s

def execLaserLow (fibre : Fin 10) (power : BitVec 16) (s : State) : Out := .next (laserIn 1 0x0093 1 fibre power s)
def execLaserHigh (fibre : Fin 10) (power : BitVec 16) (s : State) : Out := .next (laserIn 2 0x0094 2 fibre power s)

/-! ## Configuration parity (R517, R518) -/

/-- Keys of configuration values: of entry k of the route tables, bank 0 first, of a heddle entry, and of a register, a
two-word one at its low word. DESIGN CHOICE, log entry 25. -/
def routeKey (k : Nat) : Nat := 0x1000000 + k
def heddleKey (hid : BitVec 8) : Nat := 0x2000000 + hid.toNat

def regKey (off : Nat) : Nat := if 4 ≤ off ∧ isWide (off - 4) then off - 4 else off

def isConfig (off : Nat) : Bool := cfgOffsets.contains off

/-- Flip bits of the stored value of a configuration register. -/
def flipReg (off : Nat) (x : Word32) (s : State) : State :=
  if off = 0x010000 then { s with nv := { s.nv with speed := s.nv.speed ^^^ x.extractLsb' 0 2 } }
  else match blockOf off with
    | .unit u => s.modUnit u fun v =>
        (List.range 4).foldl (fun v i =>
          let b := 4 * ((within off - 0x40) / 4) + i
          v.setOwner b (v.owner b ^^^ x.extractLsb' (4 * i) 4)) v
    | _ =>
      let v := s.cfgReg off ^^^ x
      { s with cfg := if v = cfgReset off then tdel off s.cfg else tins off v s.cfg }

/-- Bits of a value flip: it differs from what was written in these bits too. DESIGN CHOICE, log entry 25. -/
def strikeCfg (k : Nat) (bits : Nat) (s : State) : State := { s with struck := tput 0 k (tget 0 s.struck k ^^^ bits) s.struck }

/-- Keys of the values whose stored parity bit disagrees: an odd number of their bits differs.
DESIGN CHOICE, log entry 25. -/
def State.badParity (s : State) : List Nat := (s.struck.filter fun e => oddOnes e.2 64).map (·.1)

/-- Bits that have flipped since the last sweep: at a configuration register's offset its flipped bits; at FAB_EPOCH [31:16]
the flipped bits of an entry of a route table, [6] its bank, [5:0] its place; at FAB_HEDDLE_COUNT [7:0] a HID, [31:16] the
flipped bits of the entry's LEN. DESIGN CHOICE, log entry 41. -/
def struckReg (off : BitVec 24) (x : Word32) (s : State) : State :=
  let o := off.toNat
  if o = 0x0200A0 then
    let k := fld x 6 0
    let y : BitVec 16 := x.extractLsb' 16 16
    strikeCfg (routeKey k) y.toNat
      { s with fab := { s.fab with routes := tput 0xFF k (tget 0xFF s.fab.routes k ^^^ y) s.fab.routes } }
  else if o = 0x020098 then
    match findHeddle s (x.extractLsb' 0 8) with
    | none => s
    | some h => strikeCfg (heddleKey h.hid) (fld x 31 16) (setHeddle { h with len := h.len ^^^ x.extractLsb' 16 16 } s)
  else if isConfig o then strikeCfg (regKey o) (x.toNat <<< (8 * (o - regKey o))) (flipReg o x s)
  else s

/-- Block number b of an offset (TOP, UNIT, CLU, MEM, SHT, FAB, COL, HX, CKP, SEC, PWR, RIP, JNL).
DESIGN CHOICE, log entry 41. -/
def parityBlock (off : Nat) : Nat :=
  match blockOf off with
  | .flat 0 => 0
  | .flat 1 => 3
  | .flat n => n + 3
  | .clu _ => 2
  | .sht _ => 4
  | _ => 1

/-- The offset at which a mismatch is reported. -/
def parityOffset (k : Nat) : Nat := if 0x2000000 ≤ k then 0x020098 else if 0x1000000 ≤ k then 0x0200A0 else k

/-- RESET of Table 12.3. -/
def parityReset (k : Nat) (s : State) : State :=
  let s := { s with struck := s.struck.filter (·.1 != k) }
  if 0x2000000 ≤ k then
    let hid := BitVec.ofNat 8 (k - 0x2000000)
    match findHeddle s hid with
    | some h => sendEvent 0x0033 1 (BitVec.ofNat 32 h.outp.toNat) 0 (hid.zeroExtend 16) 0 (removeHeddle hid s)
    | none => s
  else if 0x1000000 ≤ k then setValid (if k < 0x1000040 then 0 else 1) false s
  else if k = 0x010000 then { s with nv := { s.nv with speed := 0 } }
  else match blockOf k with
    | .unit u => s.modUnit u fun v => (List.range 4).foldl (fun v i => v.setOwner (4 * ((within k - 0x40) / 4) + i) 0) v
    | _ => if isWide k then (s.setCfg k (cfgReset k)).setCfg (k + 4) (cfgReset (k + 4)) else s.setCfg k (cfgReset k)

/-- The entry is still there: a heddle may have been removed since. -/
def parityLive (s : State) (k : Nat) : Bool := decide (k < 0x2000000) || (findHeddle s (BitVec.ofNat 8 (k - 0x2000000))).isSome

/-- One mismatch that the sweep finds. -/
def parityFound (s : State) (k : Nat) : State :=
  if !parityLive s k then { s with struck := s.struck.filter (·.1 != k) } else
  let off := parityOffset k
  let b := parityBlock off
  let s := s.bump 0x20C 1
  let last := s.cfgReg 0x304
  let s := if last.getLsbD 31 then s
    else { s with cfg := tput 0 0x304 (BitVec.ofNat 32 (2 ^ 31 + b * 2 ^ 24 + off)) s.cfg }
  let act := fld (s.cfgReg 0x300) (2 * b + 1) (2 * b)
  let s := sendEvent 0x0003 1 (BitVec.ofNat 32 b) 0 0 (xWord (BitVec.ofNat 32 off)) s
  if act = 1 then parityReset k s else if act = 2 then enterFault 6 s else s

/-- The configuration exists once the dies are out of reset, and the sweep runs from then on. DESIGN CHOICE, log entry 41. -/
def sweepRuns (s : State) : Bool :=
  match s.boot.phase with
  | .input | .rails | .clock | .dead => false
  | _ => true

/-- The PARITY activity of the press compares every value with the value last written, and so finds what keeps its
parity too; it does so with each sweep under its lease. DESIGN CHOICE, log entry 107. -/
def parityCompare (s : State) : State :=
  if s.press.leases.any fun l => l.activity == 8 then
    let new := s.struck.filter fun e => e.2 != 0 && parityLive s e.1 && !s.press.found.contains e.1
    { s with press := { s.press with found := s.press.found ++ new.map (·.1) } }
  else s

/-- DESIGN CHOICE, log entry 41. -/
def paritySweep (struck : List (BitVec 24 × Word32)) (s : State) : State :=
  if !sweepRuns s then s
  else
    let s := struck.foldl (fun s (x : BitVec 24 × Word32) => struckReg x.1 x.2 s) s
    let s := parityCompare s
    (sortNats s.badParity).foldl parityFound s

def execParitySweep (struck : List (BitVec 24 × Word32)) (s : State) : Out := .next (paritySweep struck s)

end Sys2Proof.Machine
end

