-- ==== Sys2Proof/Machine/Host.lean ====
section
/-! DEFINITION. Command datagrams: the checks of Table 11.3 in their order, outstanding commands (R487), the commands of a chain
(R490), and every row that is a command of the host. -/
namespace Sys2Proof.Machine

/-! ## Effects -/

/-- Check 17 and the effect of a command. -/
def runOp (h : Hdr) (op : HostOp) (s : State) : HRes :=
  match op with
  | .ping => ping s
  | .regRead l => regRead l s
  | .regWrite l => regWrite l s
  | .snapshot => snapshot h s
  | .memRead a c => memRead a c s
  | .memWrite a v n d => memWrite a v n d s
  | .evtRead n f => evtRead n f s
  | .jnlRead f => jnlRead f s
  | .loadProgram p => loadProgram p s
  | .launch p => launch h p s
  | .halt m => halt m s
  | .unitRetire d u => unitRetire d u s
  | .setRouteWrite p => setRouteWrite h p s
  | .setRouteSwitch b => setRouteSwitch h b s
  | .setHeddleInstall p => setHeddleInstall p s
  | .setHeddleRemove i => setHeddleRemove i s
  | .cmapRead => cmapReadOp s
  | .collective o p => collective h o p s
  | .collReserved _ _ _ _ => collReserved h s
  | .stepResolve n a =>
    match stepResolve n a s with
    | .done s p d => .done (serveFetches s) p d
    | r => r
  | .digest n => digestCmd n s
  | .checkpoint n i => checkpoint n i s
  | .restore i => restore i s
  | .refill b r m l => refill b r m l s
  | .evacuate n => evacuate n s
  | .pressAcquire a p d => pressAcquire a p d s
  | .pressRelease l => pressRelease l s
  | .hxGeneral p => hxGeneralWrite p s
  | .hxShards f l => hxShardsWrite f l s
  | .hxPeers l => hxPeersWrite l s
  | .hxMember m => hxMemberWrite m s
  | .hxCommit => hxCommit s
  | .hxOuter o i => hxOuter o i s
  | .hxApply o n k => hxApply o n k s
  | .hxFetch i => hxFetch i s
  | .hxResume c => hxResume c s
  | .hxRekey => hxRekey s
  | .ripRead f n => ripRead f.toNat n.toNat s
  | .attest n => attest n s
  | .fwStage p => fwStage h (sourceOf h) p s
  | .fwCommit i a v => fwCommit i a v s
  | .fwRecover p => fwRecover h (sourceOf h) p s

/-- Ports of a network whose mode field has changed negotiate again, once the response has been sent (R510). -/
def ethModes (old new : Word32) (s : State) : State :=
  let drop := fun (hi lo : Nat) (n : Nat) (s : State) =>
    if fld old hi lo = fld new hi lo then s
    else (List.finRange 8).foldl (fun s p => if p.val / 4 = n then setEth p none s else s) s
  drop 27 24 1 (drop 31 28 0 s)

/-- A command is carried out, answered or kept as outstanding. -/
def carryOut (h : Hdr) (op : HostOp) (s : State) : Out :=
  let udp := s.cmdUdp
  let mode := s.cfgReg 0x2C
  match runOp h op s with
  | .done t p d => .next (let t := completeCmd h op udp p d t
      ethModes mode (t.cfgReg 0x2C) t)
  | .refuse st d => .next (refuseCmd h (cmdCode op) st d true s)
  | .poison t p d =>
    .next (chainDone h (sendResp (sourceOf h) (respOf h (cmdCode op) udp .dataPoison d p t.beat) true t))
  | .later t => .next { t with host := { t.host with outstanding := t.host.outstanding ++ [⟨h, op, false⟩] } }
  | .stop f => .fault f

/-! ## The checks of Table 11.3 -/

/-- Outstanding commands and held ones, as source, TAG and SEQ. -/
def waitingCmds (s : State) : List (Source × Word32 × Word32) :=
  (s.host.outstanding.map fun o => (sourceOf o.hdr, o.hdr.tag, o.hdr.seq)) ++
    s.host.chains.flatMap fun c => c.held.map fun x => (c.src, x.1.tag, x.1.seq)

/-- What checks 1 to 7 make of a header: gone on with, dropped with a new state, or answered and dropped. -/
inductive Front where
  | go
  | drop (s : State)

def frontChecks (h : Hdr) (code : BitVec 16) (s : State) : Front :=
  let src := sourceOf h
  if !takesUdp s h.net s.cmdUdp then .drop s
  else if h.udpLen < 40 then .drop (s.bump 0x200 1)
  else if h.rev = 0 ∨ 3 < h.rev.toNat then
    .drop (sendResp src (respOf { h with rev := 1 } code s.cmdUdp .badRev 0 [] s.beat) false s)
  else if 8192 < h.len.toNat then .drop (refuseCmd h code .lenTooLong 0 false s)
  else if 32 + h.len.toNat ≠ h.udpLen - 8 then .drop (refuseCmd h code .lenMismatch 0 false s)
  else match s.host.cache.find? fun e => decide (e.src = src) && e.tag == h.tag && e.seq == h.seq with
    | some e => .drop (sendResp src { e.resp with port := h.port, srcAddr := h.net.dst, dstAddr := h.srcAddr, dstUdp := h.srcUdp } false s)
    | none => match (waitingCmds s).find? fun w => decide (w.1 = src) && w.2.1 == h.tag with
      | some w => .drop (if w.2.2 = h.seq then s.bump 0x204 1 else refuseCmd h code .tagBusy 0 false s)
      | none => if 1024 ≤ (waitingCmds s).length then .drop (refuseCmd h code .busyQueue 0 false s) else .go

/-- NODE is neither the strap node nor the job node (check 8). -/
def badNode (h : Hdr) (s : State) : Bool :=
  h.nchk && h.node != s.strapNode && !((s.cfgReg 0x0200C8).getLsbD 31 && h.node == s.jobNode)

/-- Checks 10 and 11, which need the opcode alone. -/
def stateCheck (code : BitVec 16) (s : State) : Option Status :=
  if s.isFault && !markF code then some .faultState
  else if s.boot.state == .recovery && !markR code then some .recoveryState
  else none

/-- Check 15. SET_ROUTE goes on to its own refusal (R331). -/
def beatCheck (h : Hdr) (code : BitVec 16) (s : State) : Option Status :=
  if !h.lbv then none
  else if beatPassed s h.lbeat then some .beatPassed
  else if beatFar s h.lbeat then some .beatRange
  else if markL code || code == 0x20 then none
  else some .beatUnsupported

/-- Checks 8 to 15 with their DETAIL. DEDUCED, log entry 57. -/
def midChecks (h : Hdr) (op : HostOp) (s : State) : Option (Status × Nat) :=
  let code := cmdCode op
  if badNode h s then some (.nodeMismatch, 0)
  else match stateCheck code s with
    | some st => some (st, 0)
    | none =>
      if badLen h op then some (.lenInvalid, 0)
      else match badField op with
        | some off => some (.fieldInvalid, off)
        | none =>
          if badFormat op then some (.formatInvalid, 0)
          else if badCount op then some (.countRange, 0)
          else (beatCheck h code s).map fun st => (st, 0)

/-- Check 16 (R490): a command of a chain opens it, runs, is held, or is refused. DEDUCED, log entry 61. -/
def chainCheck (h : Hdr) (op : HostOp) (s : State) : Out :=
  let src := sourceOf h
  let code := cmdCode op
  if h.chain = 0 then carryOut h op s
  else if h.cfirst then
    let s := closeChain src h.chain s
    if 64 ≤ s.host.chains.length then .next (refuseCmd h code .busyQueue 0 true s)
    else carryOut h op { s with host := { s.host with chains := s.host.chains ++ [⟨src, h.chain, h.seq, true, []⟩] } }
  else match findChain s src h.chain with
    | none => .next (refuseCmd h code .chainOrder 0 true s)
    | some c =>
      if (h.seq - c.lastSeq).toInt ≤ 0 ∨ c.held.any (fun x => x.1.seq == h.seq) then .next (refuseCmd h code .chainOrder 0 true s)
      else if h.seq = c.lastSeq + 1 ∧ !c.busy then carryOut h op (setChain { c with lastSeq := h.seq, busy := true } s)
      else .next (setChain { c with held := c.held ++ [(h, op, s.beat)] } s)

/-- A request of Table 11.4 whose payload has been read. -/
def hostCmd (h : Hdr) (op : HostOp) (s : State) : Out :=
  let h := revHdr h
  match frontChecks h (cmdCode op) s with
  | .drop s => .next s
  | .go => match midChecks h op s with
    | some (st, d) => .next (refuseCmd h (cmdCode op) st d true s)
    | none => chainCheck h op s

/-! ## FW_RECOVER -/

/-- The last segment of a FW_RECOVER has been answered: the image is verified and programmed into A, its record written, and
power cycled; or it is rejected (R536). DEDUCED, log entry 40. -/
def recoverEnd (v : ImageVerdict) (s : State) : State :=
  match s.sec.staging with
  | none => s
  | some g =>
    if !g.whole || s.boot.state != .recovery then s
    else
      let f := g.bytes.reverse
      match imageFails s f v with
      | some c => fwRejected g c s
      | none => resetCycle false (writeRecord 0 (imageVersion f) (setImage 0 f { s with sec := { s.sec with staging := none } }))

/-- A FW_RECOVER that has been carried out may have been its chain's last. A held one, and one given as bytes, names no verdict of
reading its image: the image stands in the buffer on F, which has no read errors. DEDUCED, log entry 40. -/
def withRecovery (op : HostOp) (v : ImageVerdict) (r : Out) : Out :=
  match op, r with
  | .fwRecover _, .next t => .next (recoverEnd v t)
  | _, r => r

def execFwRecover (h : Hdr) (p : FwSegment) (v : ImageVerdict) (s : State) : Out := withRecovery (.fwRecover p) v (hostCmd h (.fwRecover p) s)

/-! ## Held commands -/

/-- The held command that comes next in a chain that waits for it. -/
def nextHeld (c : CmdChain) : Option (Hdr × HostOp) :=
  if c.busy then none
  else (c.held.find? fun x => x.1.seq == c.lastSeq + 1).map fun x => (x.1, x.2.1)

def execChainCommandRelease (chain : BitVec 16) (s : State) : Out :=
  match s.host.chains.find? fun c => c.id == chain && (nextHeld c).isSome with
  | none => .next s
  | some c => match nextHeld c with
    | none => .next s
    | some (h, op) =>
      withRecovery op ⟨true⟩
        (carryOut h op (setChain { c with lastSeq := h.seq, busy := true, held := eraseFirst (fun x => x.1.seq == h.seq) c.held } s))

/-- A command has been held for 1 ms: it and every other held command is answered, and the chain closes. While no beat counts, the
row tells of the 1 ms itself. DEDUCED, log entry 61. -/
def execChainHoldTimeout (chain : BitVec 16) (s : State) : Out :=
  let old := fun (x : Hdr × HostOp × Beat) => !clockRuns s || decide (beatsOfMs 1 ≤ beatsSince s.beat x.2.2)
  .next (match s.host.chains.find? fun c => c.id == chain && c.held.any old with
    | none => s
    | some c => closeChain c.src c.id s)

/-! ## Arming (R37) -/

/-- The commands whose answer says that their parties are armed. DEDUCED, log entry 28. -/
def arms (o : Outstanding) : Bool :=
  match o.op with
  | .launch _ | .setHeddleInstall _ => true
  | .collective _ _ | .snapshot => o.hdr.lbv
  | _ => false

/-- The parties of an arming have been reached: a unit without a launch beat that can start does so (R134).
DEDUCED, log entry 29. -/
def reachUnit (s : State) (u : UnitId) : State :=
  match (s.unit u).arming with
  | none => s
  | some a =>
    let a := { a with reached := true, reachedAt := s.unitBeat u }
    let s := s.modUnit u fun x => { x with arming := some a }
    if a.beat.isSome then s
    else if canStart s u then startProgram u a (s.unitBeat u) s
    else s.modUnit u fun x => { x with arming := some { a with late := true } }

def reachParties (op : HostOp) (s : State) : State :=
  match op with
  | .launch p => (maskUnits p.umask).foldl reachUnit s
  | _ => s

/-- Payload of an acknowledged arming: a SNAPSHOT names the beat of its copy. -/
def armedBytes (o : Outstanding) : List Byte :=
  match o.op with
  | .snapshot => snapBytes o.hdr.lbeat
  | _ => []

/-- The oldest outstanding arming has reached its parties: it is acknowledged. DEDUCED, log entry 28. -/
def armingDone (s : State) : State :=
  match s.host.outstanding.find? arms with
  | none => s
  | some o =>
    let s := { s with host := { s.host with outstanding := eraseFirst (fun x => decide (x = o)) s.host.outstanding } }
    completeKept o (armedBytes o) (reachParties o.op s)

def execArmingDone (s : State) : Out := .next (if s.isReady then armingDone s else s)

/-- The armed beat has come (R34): units and collectives. DEDUCED, log entry 28. -/
def launchAtBeat (s : State) : State :=
  (s.col.opens.map fun c => c.req.opid).foldl collAtBeat (allUnits.foldl unitAtBeat s)

def execLaunchAtBeat (s : State) : Out := .next (if s.isReady then launchAtBeat s else s)

/-! ## The beat (R26, R28, R33) -/

/-- The copies that fall on this beat boundary: those armed for it, and those that wait for the next one (R33, R515).
DEDUCED, log entry 28. -/
def snapsAtBeat (s : State) : State :=
  let due := s.snap.armed.filter (· == s.beat)
  let s := { s with snap := { s.snap with armed := s.snap.armed.filter (· != s.beat) } }
  answerSnaps (due.foldl (fun s _ => takeSnapshot s) s)

/-- A beat in which thermal protection or the cap withholds issue slots is counted (R26); router ports are sampled (R346);
a SCRUB lease sweeps on; running matrix instructions go on; SNAPSHOTs take their copies.
DESIGN CHOICE, log entry 10. DESIGN CHOICE, log entry 86. -/
def beatBoundary (s : State) : State :=
  if !clockRuns s then s
  else
    let s := advanceBeat s
    let s := if s.pwr.level = 0 then s else s.bump 0x070010 1
    snapsAtBeat (cmapSample (mxBeat (scrubBeat s)))

def execBeatBoundary (s : State) : Out := .next (beatBoundary s)

/-! ## Reads that latch (R32, R332) -/

/-- One entry of a REG_READ in progress; its value joins those already read. DESIGN CHOICE, log entry 26. -/
def readOne (off : Nat) (s : State) : State :=
  let (s, v) := readEntry off s
  { s with host := { s.host with readout := s.host.readout ++ [v] } }

def execTopBeatLoRead (s : State) : Out := .next (readOne 0x10 s)
def execFabEpochInRead (b : Fin 2) (s : State) : Out := .next (readOne (inOff (b.val == 1)) s)

/-! ## Datagrams given as bytes (checks 1 to 14) -/

/-- The header of Table 11.2 as 32 bytes give it. -/
def parseHdr (port : NetIn) (addr : BitVec 128) (udp : BitVec 16) (udpLen : Nat) (bs : List Byte) : Hdr :=
  let f := field bs
  { net := port, srcAddr := addr, srcUdp := udp, rev := BitVec.ofNat 4 (f 0 1 / 16), tag := BitVec.ofNat 32 (f 4 4),
    seq := BitVec.ofNat 32 (f 8 4), len := BitVec.ofNat 16 (f 12 2), udpLen := udpLen, hostid := BitVec.ofNat 16 (f 14 2),
    chain := BitVec.ofNat 16 (f 16 2), lbv := decide (128 ≤ f 18 1), nchk := f 18 1 / 64 % 2 == 1, cfirst := f 18 1 / 32 % 2 == 1,
    clast := f 18 1 / 16 % 2 == 1, node := BitVec.ofNat 20 (f 20 4), lbeat := BitVec.ofNat 48 (f 24 6) }

/-- The opcode of a datagram's bytes. -/
def opcodeOf (bs : List Byte) : BitVec 16 := BitVec.ofNat 16 (field bs 2 2)

/-- Checks 8 to 14 of a request that spells no operation: its opcode is outside Table 11.4, or what its payload is refused for. -/
def rawRefusal (h : Hdr) (code : BitVec 16) (p : Parsed) (s : State) : Status × Nat :=
  if badNode h s then (.nodeMismatch, 0)
  else if !knownOpcode code.toNat then (.badOpcode, 0)
  else match stateCheck code s with
    | some st => (st, 0)
    | none => match p with
      | .badField off => (.fieldInvalid, off)
      | .badCount => (.countRange, 0)
      | _ => (.lenInvalid, 0)

/-- A datagram as its bytes spell it: dropped, carried out as the command that it is, or refused. -/
def undecoded (port : NetIn) (addr : BitVec 128) (udp : BitVec 16) (udpLen : Nat) (bs : List Byte) (s : State) : Out :=
  let h := parseHdr port addr udp udpLen bs
  let code := opcodeOf bs
  if !takesUdp s port s.cmdUdp then .next s
  else if bs.length < 32 ∨ field bs 0 1 % 16 ≠ 1 then .next (s.bump 0x200 1)
  else match readPayload code.toNat h.len.toNat (bs.drop 32) with
    | .op op => withRecovery op ⟨true⟩ (hostCmd h op s)
    | p => match frontChecks (revHdr h) code s with
      | .drop s => .next s
      | .go =>
        let r := rawRefusal (revHdr h) code p s
        .next (refuseCmd (revHdr h) code r.1 r.2 true s)

def execUndecodedRequest (port : NetIn) (srcAddr : BitVec 128) (srcUdp : BitVec 16) (udpLen : Nat) (bytes : List Byte)
    (s : State) : Out := undecoded port srcAddr srcUdp udpLen bytes s

/-! ## The rows of Table 11.4 -/

def execPing (h : Hdr) (s : State) : Out := hostCmd h .ping s
def execRegRead (h : Hdr) (offs : List (BitVec 24)) (s : State) : Out := hostCmd h (.regRead offs) s
def execRegWrite (h : Hdr) (entries : List (BitVec 24 × Word32)) (s : State) : Out := hostCmd h (.regWrite entries) s
def execSnapshot (h : Hdr) (s : State) : Out := hostCmd h .snapshot s
def execMemRead (h : Hdr) (addr : Word64) (c : Word32) (s : State) : Out := hostCmd h (.memRead addr c) s
def execMemWrite (h : Hdr) (addr : Word64) (vset : Bool) (version : BitVec 7) (data : List Byte) (s : State) : Out :=
  hostCmd h (.memWrite addr vset version data) s
def execEvtRead (h : Hdr) (net : BitVec 8) (first : Word32) (s : State) : Out := hostCmd h (.evtRead net first) s
def execJnlRead (h : Hdr) (first : Word32) (s : State) : Out := hostCmd h (.jnlRead first) s
def execLoadProgram (h : Hdr) (p : LoadReq) (s : State) : Out := hostCmd h (.loadProgram p) s
def execLaunch (h : Hdr) (p : LaunchReq) (s : State) : Out := hostCmd h (.launch p) s
def execHalt (h : Hdr) (umask : BitVec 320) (s : State) : Out := hostCmd h (.halt umask) s
def execUnitRetire (h : Hdr) (die unit : BitVec 8) (s : State) : Out := hostCmd h (.unitRetire die unit) s
def execSetRouteWrite (h : Hdr) (p : RouteReq) (s : State) : Out := hostCmd h (.setRouteWrite p) s
def execSetRouteSwitch (h : Hdr) (bank : Fin 2) (s : State) : Out := hostCmd h (.setRouteSwitch bank) s
def execSetHeddleInstall (h : Hdr) (p : HeddleReq) (s : State) : Out := hostCmd h (.setHeddleInstall p) s
def execSetHeddleRemove (h : Hdr) (hid : BitVec 8) (s : State) : Out := hostCmd h (.setHeddleRemove hid) s
def execCmapRead (h : Hdr) (s : State) : Out := hostCmd h .cmapRead s
def execCollectiveRs (h : Hdr) (p : CollReq) (s : State) : Out := hostCmd h (.collective .rs p) s
def execCollectiveAg (h : Hdr) (p : CollReq) (s : State) : Out := hostCmd h (.collective .ag p) s
def execCollectiveAr (h : Hdr) (p : CollReq) (s : State) : Out := hostCmd h (.collective .ar p) s
def execCollectiveBc (h : Hdr) (p : CollReq) (s : State) : Out := hostCmd h (.collective .bc p) s
def execCollectiveA2a (h : Hdr) (p : CollReq) (s : State) : Out := hostCmd h (.collective .a2a p) s
def execStepResolveGradClear (h : Hdr) (step : BitVec 48) (s : State) : Out := hostCmd h (.stepResolve step 1) s
def execStepResolveSkipGrad (h : Hdr) (step : BitVec 48) (s : State) : Out := hostCmd h (.stepResolve step 2) s
def execStepResolveCommit (h : Hdr) (step : BitVec 48) (s : State) : Out := hostCmd h (.stepResolve step 3) s
def execStepResolveSkipUpdate (h : Hdr) (step : BitVec 48) (s : State) : Out := hostCmd h (.stepResolve step 4) s
def execDigest (h : Hdr) (step : BitVec 48) (s : State) : Out := hostCmd h (.digest step) s
def execCheckpoint (h : Hdr) (step : BitVec 48) (id : BitVec 16) (s : State) : Out := hostCmd h (.checkpoint step id) s
def execRestore (h : Hdr) (id : BitVec 16) (s : State) : Out := hostCmd h (.restore id) s
def execRefill (h : Hdr) (buddy : Node) (rid : BitVec 16) (resume : Bool) (sets : List Word64) (s : State) : Out :=
  hostCmd h (.refill buddy rid resume sets) s
def execEvacuate (h : Hdr) (node : Node) (s : State) : Out := hostCmd h (.evacuate node) s
def execPressAcquire (h : Hdr) (activity : BitVec 8) (ports : BitVec 10) (seconds : Word32) (s : State) : Out :=
  hostCmd h (.pressAcquire activity ports seconds) s
def execPressRelease (h : Hdr) (lease : Word32) (s : State) : Out := hostCmd h (.pressRelease lease) s
def execHxConfigGeneral (h : Hdr) (p : HxGeneral) (s : State) : Out := hostCmd h (.hxGeneral p) s
def execHxConfigShards (h : Hdr) (first : BitVec 16) (recs : List Word64) (s : State) : Out := hostCmd h (.hxShards first recs) s
def execHxConfigPeers (h : Hdr) (peers : List PeerEntry) (s : State) : Out := hostCmd h (.hxPeers peers) s
def execHxConfigMember (h : Hdr) (mask : Word64) (s : State) : Out := hostCmd h (.hxMember mask) s
def execHxConfigCommit (h : Hdr) (s : State) : Out := hostCmd h .hxCommit s
def execHxOuter (h : Hdr) (o : BitVec 48) (opid0 : BitVec 16) (s : State) : Out := hostCmd h (.hxOuter o opid0) s
def execHxApply (h : Hdr) (o st : BitVec 48) (sem : Option (UnitId × Fin 16)) (s : State) : Out := hostCmd h (.hxApply o st sem) s
def execHxFetch (h : Hdr) (idx : BitVec 8) (s : State) : Out := hostCmd h (.hxFetch idx) s
def execHxResume (h : Hdr) (cause : BitVec 8) (s : State) : Out := hostCmd h (.hxResume cause) s
def execHxRekey (h : Hdr) (s : State) : Out := hostCmd h .hxRekey s
def execRipRead (h : Hdr) (first n : BitVec 16) (s : State) : Out := hostCmd h (.ripRead first n) s
def execAttest (h : Hdr) (nonce : BitVec 256) (s : State) : Out := hostCmd h (.attest nonce) s
def execFwStage (h : Hdr) (p : FwSegment) (s : State) : Out := hostCmd h (.fwStage p) s
def execFwCommit (h : Hdr) (image : BitVec 8) (advance : Bool) (version : Word32) (s : State) : Out :=
  hostCmd h (.fwCommit image advance version) s

/-! ## Writes of single registers: a REG_WRITE with that entry -/

/-- A REG_WRITE of one word. DESIGN CHOICE, log entry 26. -/
def writeReg (h : Hdr) (off : Nat) (v : Word32) (s : State) : Out := hostCmd h (.regWrite [(BitVec.ofNat 24 off, v)]) s

/-- A REG_WRITE of both words of a two-word register, low word first. DESIGN CHOICE, log entry 26. -/
def writeReg2 (h : Hdr) (off : Nat) (lo hi : Word32) (s : State) : Out :=
  hostCmd h (.regWrite [(BitVec.ofNat 24 off, lo), (BitVec.ofNat 24 (off + 4), hi)]) s

def execTopSeedWrite (h : Hdr) (lo hi : Word32) (s : State) : Out := writeReg2 h 0x18 lo hi s
def execCounterWrite (h : Hdr) (off : BitVec 24) (v : Word32) (s : State) : Out := hostCmd h (.regWrite [(off, v)]) s
def execRegisterWrite (h : Hdr) (off : BitVec 24) (v : Word32) (s : State) : Out := hostCmd h (.regWrite [(off, v)]) s
def execUnitFaultClear (h : Hdr) (u : UnitId) (s : State) : Out := writeReg h (unitOff u 4) 0x80000000 s
def execUnitMxStatusWrite (h : Hdr) (u : UnitId) (v : Word32) (s : State) : Out := writeReg h (unitOff u 0x18) v s
def execUnitOwnWrite (h : Hdr) (u : UnitId) (n : Fin 8) (v : Word32) (s : State) : Out := writeReg h (unitOff u (0x40 + 4 * n.val)) v s
def execMemCfgWrite (h : Hdr) (v : Word32) (s : State) : Out := writeReg h 0x010000 v s
def execShtNfClear (h : Hdr) (c : ClusterId) (v : Word32) (s : State) : Out := writeReg h (shtOff c 0x40) v s
def execFabPortCtlWrite (h : Hdr) (port : Fin 10) (v : Word32) (s : State) : Out := writeReg h (0x020040 + 4 * port.val) v s
def execFabTorusSizeWrite (h : Hdr) (v : Word32) (s : State) : Out := writeReg h 0x020084 v s
def execFabSliceSizeWrite (h : Hdr) (v : Word32) (s : State) : Out := writeReg h 0x0200C4 v s
def execFabSlicePosWrite (h : Hdr) (v : Word32) (s : State) : Out := writeReg h 0x0200C0 v s
def execFabStandinWrite (h : Hdr) (v : Word32) (s : State) : Out := writeReg h 0x0200C8 v s
/-- `reg`: 0 COL_RIND_CTL, 1 COL_RIND_BASE, 2 COL_RIND_SIZE. -/
def execColRindCtlWrite (h : Hdr) (reg : Fin 3) (lo hi : Word32) (s : State) : Out :=
  if reg.val = 0 then writeReg h 0x030004 lo s
  else writeReg2 h (if reg.val = 1 then 0x030010 else 0x030018) lo hi s
def execColStepAddrWrite (h : Hdr) (lo hi : Word32) (s : State) : Out := writeReg2 h 0x030008 lo hi s
def execHxCfgWrite (h : Hdr) (v : Word32) (s : State) : Out := writeReg h 0x040000 v s
def execTopCmdUdpWrite (h : Hdr) (v : Word32) (s : State) : Out := writeReg h 0x28 v s
def execTopEthCfgWrite (h : Hdr) (v : Word32) (s : State) : Out := writeReg h 0x2C v s
def execTopAlertClear (h : Hdr) (v : Word32) (s : State) : Out := writeReg h 0x20 v s
def execPwrCapWrite (h : Hdr) (v : Word32) (s : State) : Out := writeReg h 0x070000 v s

end Sys2Proof.Machine
end

