-- ==== Sys2Proof/Machine/Special.lean ====
section
/-! DEFINITION. The special-function class (Tables 4.11, 4.12; R156). A function whose value R156 only bounds returns one of
the F32 codes within its bound: which one is fixed by the input bits alone (Config.pick), and nothing else is known of it. The
true value is computed in fixed point with 256 bits after the point. -/
namespace Sys2Proof.Machine

/-! ## Fixed-point constants and series -/

def fxBits : Nat := 256
def fxOne : Nat := 2 ^ fxBits

/-- Σ 1 / (k 2^k), k = 1 … n. -/
def ln2Sum : Nat → Nat
  | 0 => 0
  | n + 1 => fxOne / ((n + 1) * 2 ^ (n + 1)) + ln2Sum n

def fxLn2 : Nat := ln2Sum 255

/-- arctan(1 / q), terms from k on, with signs. -/
def atanInv (q : Nat) : Nat → Int
  | 0 => (fxOne / q : Nat)
  | k + 1 =>
    let t : Int := (fxOne / ((2 * (k + 1) + 1) * q ^ (2 * (k + 1) + 1)) : Nat)
    (if (k + 1) % 2 = 0 then t else -t) + atanInv q k

/-- π = 16 arctan(1/5) − 4 arctan(1/239). -/
def fxPi : Nat := (16 * atanInv 5 120 - 4 * atanInv 239 40).toNat

def fxMul (a b : Nat) : Nat := a * b / fxOne

/-- e^y for 0 ≤ y < 1: Σ y^k / k!. -/
def expSum (y : Nat) : Nat → Nat → Nat → Nat
  | 0, _, _ => 0
  | n + 1, k, t => t + expSum y n (k + 1) (fxMul t y / (k + 1))

/-- 2^f for 0 ≤ f < 1. -/
def fxExp2 (f : Nat) : Nat := expSum (fxMul f fxLn2) 60 0 fxOne

/-- Binary digits of log₂ m for 1 ≤ m < 2, by repeated squaring. -/
def log2Digits : Nat → Nat → Nat → Nat
  | 0, _, acc => acc
  | n + 1, m, acc =>
    let q := fxMul m m
    if 2 * fxOne ≤ q then log2Digits n (q / 2) (2 * acc + 1) else log2Digits n q (2 * acc)

/-- Σ (−1)^k y^k / ((2k + a)(2k + a − 1)) …: the alternating series of sine and cosine in y = (π r)². -/
def trigSum (y : Nat) : Nat → Nat → Nat → Int
  | 0, _, _ => 0
  | n + 1, d, t => (t : Int) - trigSum y n (d + 2) (fxMul t y / ((d + 1) * (d + 2)))

/-- Σ (−1)^k y^k / (k! (2k + 1)). -/
def erfSum (y : Nat) : Nat → Nat → Nat → Int
  | 0, _, _ => 0
  | n + 1, k, t => ((t / (2 * k + 1) : Nat) : Int) - erfSum y n (k + 1) (fxMul t y / (k + 1))

/-- A value in fixed point: |v| of a finite value, cut to fxBits after the point. -/
def fxOf : Val → Nat
  | .fin _ m e => if 0 ≤ e + fxBits then m * 2 ^ (e + fxBits).toNat else m / 2 ^ (-(e + fxBits)).toNat
  | _ => 0

def ofFx (neg : Bool) (x : Nat) : Val := .fin neg x (-(fxBits : Int))

/-! ## True values -/

/-- A function's value: exact, or a real number (known to well beyond F32) that the result lies within `ulps` of. -/
inductive Fun where
  | exact (v : Val)
  | near (ulps : Nat) (v : Val)

/-- Is a finite value an integer? -/
def isInt : Val → Bool
  | .fin _ m e => decide (0 ≤ e) || m % 2 ^ (-e).toNat == 0
  | _ => false

/-- e^v as ± nothing: 2^(v log₂ e), for |v| < 2^12. -/
def expVal (neg : Bool) (a : Nat) : Val :=
  let t := a * fxOne / fxLn2
  let k := t / fxOne
  let f := t % fxOne
  if neg then
    if f = 0 then .fin false 1 (-(k : Int)) else .fin false (fxExp2 (fxOne - f)) (-(k : Int) - 1 - fxBits)
  else .fin false (fxExp2 f) ((k : Int) - fxBits)

/-- A value just below v in magnitude: v (1 − 2^−100). -/
def justBelow : Val → Val
  | .fin neg m e => .fin neg (m * 2 ^ 100 - 1) (e - 100)
  | v => v

def funExp2 : Val → Fun
  | .nan => .exact .nan
  | .inf neg => .exact (if neg then .zero else .inf false)
  | .fin neg m e =>
    let v := Val.fin neg m e
    if m = 0 then .exact .one
    else if 12 < log2Floor v then .exact (if neg then .fin false 1 (-4096) else .inf false)
    else
      let x := fxOf v
      let k : Int := (x / fxOne : Nat)
      let f := x % fxOne
      if f = 0 then .exact (.fin false 1 (if neg then -k else k))
      else if neg then .near 1 (.fin false (fxExp2 (fxOne - f)) (-k - 1 - fxBits))
      else .near 1 (.fin false (fxExp2 f) (k - fxBits))

def funLog2 : Val → Fun
  | .nan => .exact .nan
  | .inf neg => .exact (if neg then .nan else .inf false)
  | .fin neg m e =>
    if m = 0 then .exact (.inf true)
    else if neg then .exact .nan
    else
      let k := Nat.log2 m
      let i : Int := (k : Int) + e
      if m = 2 ^ k then .exact (.ofInt i)
      else
        let d := log2Digits 200 (m * fxOne / 2 ^ k) 0
        let t : Int := i * (2 ^ 200 : Nat) + (d : Int)
        .near 1 (.fin (t < 0) (2 * t.natAbs + 1) (-201))

/-- sin(π r) for 0 ≤ r ≤ 1/4, r not zero: r × (π Σ …). -/
def sinSmall (neg : Bool) (m : Nat) (e : Int) : Val :=
  let r := fxOf (.fin false m e)
  let z := fxMul fxPi r
  let s := (trigSum (fxMul z z) 40 1 fxOne).toNat
  .fin neg (fxMul fxPi s * m) (e - fxBits)

def cosSmall (neg : Bool) (r : Nat) : Val :=
  let z := fxMul fxPi r
  ofFx neg (trigSum (fxMul z z) 40 0 fxOne).toNat

/-- sin(π x) and cos(π x) from x = n / 2^d exactly: the quarter of the turn, and the rest. A zero result has the sign of
IEEE 754 (R52): that of x for sin, plus for cos. -/
def funSin (cosine : Bool) : Val → Fun
  | .nan => .exact .nan
  | .inf _ => .exact .nan
  | .fin neg m e =>
    if 0 ≤ e ∨ m = 0 then
      let odd := decide (0 ≤ e) && (m * 2 ^ e.toNat) % 2 == 1
      .near 2 (if cosine then .fin odd 1 0 else .fin neg 0 0)
    else
      let d := (-e).toNat
      -- x mod 2, in units of 2^(e − 1): a full turn is 4 × 2^d units of quarter turns' 2^d
      let t := (2 * m) % 2 ^ (d + 2)
      let t := if cosine then (t + 2 ^ d) % 2 ^ (d + 2) else t
      -- sin of t quarter-turn units: the half turn gives the sign, the reflection the first quarter
      let flip := decide (2 ^ (d + 1) ≤ t)
      let t := t % 2 ^ (d + 1)
      let t := if 2 ^ d < t then 2 ^ (d + 1) - t else t
      let sg := if cosine then flip else (neg ^^ flip)
      if t = 0 then .near 2 (.fin (!cosine && neg) 0 0)
      else if t = 2 ^ d then .near 2 (.fin sg 1 0)
      else if 2 * t ≤ 2 ^ d then .near 2 (sinSmall sg t (e - 1))
      else .near 2 (cosSmall sg (fxOf (.fin false (2 ^ d - t) (e - 1))))

def funTanh : Val → Fun
  | .nan => .exact .nan
  | .inf neg => .exact (.fin neg 1 0)
  | .fin neg m e =>
    let v := Val.fin neg m e
    if m = 0 then .near 2 v
    else if log2Floor v < -60 then .near 2 (justBelow v)
    else if 6 ≤ log2Floor v then .near 2 (justBelow (.fin neg 1 0))
    else
      match expVal true (2 * fxOf v) with
      | .fin _ q f =>
        let x := fxOf (.fin false q f)
        .near 2 (ofFx neg ((fxOne - x) * fxOne / (fxOne + x)))
      | _ => .near 2 v

def funSigmoid : Val → Fun
  | .nan => .exact .nan
  | .inf neg => .exact (if neg then .zero else .one)
  | .fin neg m e =>
    let v := Val.fin neg m e
    if m = 0 then .near 2 (.fin false 1 (-1))
    else if 9 ≤ log2Floor v then .near 2 (if neg then .fin false 1 (-400) else justBelow .one)
    else
      match expVal true (fxOf v) with
      | .fin _ q f =>
        let x := fxOf (.fin false q f)
        if neg then .near 2 (.fin false (q * fxOne / (fxOne + x)) f)
        else .near 2 (ofFx false (fxOne * fxOne / (fxOne + x)))
      | w => .near 2 w

def funErf : Val → Fun
  | .nan => .exact .nan
  | .inf neg => .exact (.fin neg 1 0)
  | .fin neg m e =>
    let v := Val.fin neg m e
    if m = 0 then .near 2 v
    else if 2 ≤ log2Floor v then .near 2 (justBelow (.fin neg 1 0))
    else
      let y := fxMul (fxOf v) (fxOf v)
      let s := (erfSum y 200 0 fxOne).toNat
      let c := 2 * fxOne * 2 ^ 128 / isqrt (fxPi * 2 ^ 256)
      .near 2 (.fin neg (c * s / 2 ^ 128 * m) (e - fxBits))

/-! ## Results -/

/-- F32 codes within a bound of a value: with the code below it and the part left over, those whose distance is at most
`ulps`; signed codes as integers, so that zero's neighbours have both signs. DESIGN CHOICE, log entry 14. -/
def candidates (ulps : Nat) : Val → List Word32
  | .fin neg m e =>
    let (c, rest, _) := fmtF32.floorCode m e
    let lo : Int := if rest = 0 then (c : Int) - ulps else (c : Int) + 1 - ulps
    (List.range (if rest = 0 then 2 * ulps + 1 else 2 * ulps)).map fun (i : Nat) =>
      let k : Int := lo + (i : Int)
      BitVec.ofNat 32 (fmtF32.pack (neg ^^ decide (k < 0)) k.natAbs)
  | v => [toF32 v]

/-- The F32 result of function `op` for an input. DESIGN CHOICE, log entry 14. -/
def funResult (op : Nat) (x : Word32) : Fun → Word32
  | .exact v => toF32 v
  | .near k v => let l := candidates k v; l.getD (Config.pick op x % l.length) (toF32 v)

def funOf (op : Nat) (v : Val) : Fun :=
  match op with
  | 1 => funExp2 v
  | 2 => funLog2 v
  | 3 => .exact (Val.one.div v)
  | 4 => .exact v.rsqrt
  | 5 => .exact v.sqrt
  | 6 => funSin false v
  | 7 => funSin true v
  | 8 => funTanh v
  | 9 => funSigmoid v
  | _ => funErf v

/-- Function `op` on an F32 word; rows use it as well (R173). -/
def special32 (op : Nat) (x : Word32) : Word32 := funResult op x (funOf op (f32 x))

/-- On a B16 half: widened exactly, evaluated, rounded once (R156). -/
def special16 (op : Nat) (h : BitVec 16) : BitVec 16 :=
  match funOf op (b16 h) with
  | .exact v => toB16 v
  | .near k v => toB16 (f32 (funResult op (toF32 (b16 h)) (.near k v)))

def specialBody (op : Nat) (u : UnitId) (w : InstrWord) (s : State) : Done :=
  let x := s.unit u
  .ok (putLanes u (vD w) (fun i =>
    let v := x.lane (vA w) i
    if vType w = 0 then
      let r := special32 op v
      (r, nfWords [v, r])
    else
      let l := special16 op (lo16 v)
      let h := special16 op (hi16 v)
      (h ++ l, nfVals ([lo16 v, hi16 v, l, h].map b16))) s)

def execExp2 (u : UnitId) (s : State) : Out := .next (issueRow 4 0x01 u (specialBody 1 u) s)
def execLog2 (u : UnitId) (s : State) : Out := .next (issueRow 4 0x02 u (specialBody 2 u) s)
def execRcp (u : UnitId) (s : State) : Out := .next (issueRow 4 0x03 u (specialBody 3 u) s)
def execRsqrt (u : UnitId) (s : State) : Out := .next (issueRow 4 0x04 u (specialBody 4 u) s)
def execSqrt (u : UnitId) (s : State) : Out := .next (issueRow 4 0x05 u (specialBody 5 u) s)
def execSinpi (u : UnitId) (s : State) : Out := .next (issueRow 4 0x06 u (specialBody 6 u) s)
def execCospi (u : UnitId) (s : State) : Out := .next (issueRow 4 0x07 u (specialBody 7 u) s)
def execTanh (u : UnitId) (s : State) : Out := .next (issueRow 4 0x08 u (specialBody 8 u) s)
def execSigmoid (u : UnitId) (s : State) : Out := .next (issueRow 4 0x09 u (specialBody 9 u) s)
def execErf (u : UnitId) (s : State) : Out := .next (issueRow 4 0x0A u (specialBody 10 u) s)

end Sys2Proof.Machine
end

