-- ==== Sys2Proof/Machine/Row.lean ====
section
/-! DEFINITION. The row class (Tables 4.13, 4.18; R157, R172 to R178). -/
namespace Sys2Proof.Machine

/-! ## Sums in the order of R172 -/

/-- Lane j takes elements j, j + 128, … in order; then the tree over 128 lanes. -/
def laneFold (f : Word32 → Word32 → Word32) (l : List Word32) : Word32 :=
  f32Lane f l (List.replicate 128 0) (l.length / 128 + 1)
where
  f32Lane (f : Word32 → Word32 → Word32) (l acc : List Word32) : Nat → Word32
    | 0 => foldTree f32Add 0 7 acc
    | n + 1 =>
      let row := l.take 128
      let acc := (acc.zip (row.map some ++ List.replicate (128 - row.length) none)).map fun (a, v) =>
        match v with
        | some v => f a v
        | none => a
      f32Lane f (l.drop 128) acc n

def rowSum (v : List Word32) : Word32 := laneFold f32Add v

/-- rowdot: lane ← fma(a, b, lane). Elements travel as indices of a joined list, so that the order is rowsum's. -/
def dotFold (l : List (Word32 × Word32)) (acc : List Word32) : Nat → Word32
  | 0 => foldTree f32Add 0 7 acc
  | n + 1 =>
    let row := l.take 128
    let acc := (acc.zip (row.map some ++ List.replicate (128 - row.length) none)).map fun (a, v) =>
      match v with
      | some (p, q) => f32Fma p q a
      | none => a
    dotFold (l.drop 128) acc n

def rowDot (a b : List Word32) : Word32 := dotFold (a.zip b) (List.replicate 128 0) (a.length / 128 + 1)

def divL (v : Word32) (l : Nat) : Word32 := toF32 ((f32 v).div (.ofInt l))

/-! ## Parameters -/

structure RowParam where
  xfmt : Nat
  yfmt : Nat
  gx : Nat
  gdy : Nat
  gout : Nat
  gamma : Option Nat
  beta : Option Nat
  dgamma : Option Nat
  dbeta : Option Nat
  rows : Nat
  pitch : Nat
  len : Nat
  eps : Word32
  sb : Word32
  qpos : BitVec 48
  kpos : BitVec 48
  causal : Bool
  dgacc : Bool

def rowParam (x : UnitState) (w : InstrWord) : RowParam :=
  let g := fun (r : Nat) => if r < 32 then x.gpGet r else 0
  let par := fun (i : Nat) => let a := g (fld w 91 87 + i); if a = 0xFFFFFFFFFFFFFFFF then none else some a.toNat
  let shp := g (fld w 86 82)
  let sc := g (fld w 81 77)
  ⟨fld w 114 111, fld w 110 107, (g (fld w 106 102)).toNat, (g (fld w 101 97)).toNat, (g (fld w 96 92)).toNat,
    par 0, par 1, par 2, par 3, shp.toNat % 2 ^ 16, (shp.toNat / 2 ^ 16) % 2 ^ 32, (g (fld w 86 82 + 1)).toNat % 2 ^ 21,
    sc.extractLsb' 0 32, sc.extractLsb' 32 32, (g (fld w 81 77 + 1)).extractLsb' 0 48,
    (g (fld w 81 77 + 2)).extractLsb' 0 48, bitOf w 76, bitOf w 75⟩

/-- Element j of row r is masked (R175). -/
def rowMasked (p : RowParam) (r j : Nat) : Bool :=
  p.causal && decide ((p.qpos + BitVec.ofNat 48 r) < (p.kpos + BitVec.ofNat 48 j))

/-- The operations by OP: 1 ROWNORM.L, 2 ROWNORM.R, 3 ROWSMAX, 0x11 to 0x13 their ROWRECOMP. -/
def rowBackward (op : Nat) : Bool := op == 0x11 || op == 0x12 || op == 0x13
def rowNormL (op : Nat) : Bool := op == 1 || op == 0x11
def rowNormR (op : Nat) : Bool := op == 2 || op == 0x12

/-- Output and accumulations of one row, and whether a value it read or formed is not finite. Outputs are values before their
one rounding into YFMT (R173). -/
structure RowOut where
  y : List Val
  dg : List Word32
  db : List Word32
  nf : Bool

def anyNf (l : List Word32) : Bool := l.any f32Special

/-- x̂, q and v + ε of the normalising operations (Table 4.18). -/
def rowNorm (op : Nat) (p : RowParam) (x : List Word32) : List Word32 × Word32 × Word32 :=
  if rowNormL op then
    let mu := divL (rowSum x) p.len
    let d := x.map fun v => f32Sub v mu
    let v := divL (rowSum (d.map fun t => f32Mul t t)) p.len
    let q := special32 4 (f32Add v p.eps)
    (d.map fun t => f32Mul t q, q, f32Add v p.eps)
  else
    let v := divL (rowDot x x) p.len
    let q := special32 4 (f32Add v p.eps)
    (x.map fun t => f32Mul t q, q, f32Add v p.eps)

/-- y of the soft maximum over a row (R175): +0 at masked elements; a wholly masked row is +0 throughout. -/
def rowSoft (p : RowParam) (r : Nat) (z : List Word32) : List Word32 × Bool :=
  let us := z.mapIdx fun j v => if rowMasked p r j then none else some (f32Mul p.eps v)
  match us.filterMap id with
  | [] => (z.map fun _ => 0, false)
  | u :: t =>
    let m := t.foldl f32Max u
    let e := us.map fun v => match v with
      | some v => special32 1 (f32Sub v m)
      | none => 0
    let total := rowSum e
    (us.mapIdx fun j v => match v with
      | some _ => f32Div (e.getD j 0) total
      | none => 0, anyNf (u :: t) || anyNf ((u :: t).map (f32Sub · m)) || anyNf e || f32Special total)

def zip3 {α : Type} (f : Word32 → Word32 → Word32 → α) (a b c : List Word32) : List α :=
  (a.zip (b.zip c)).map fun (x, y, z) => f x y z

def rowCompute (op : Nat) (p : RowParam) (r : Nat) (x dy gamma beta : List Word32) : RowOut :=
  if rowNormL op || rowNormR op then
    let (xh, q, ve) := rowNorm op p x
    let inNf := anyNf x || anyNf xh || f32Special q || f32Special ve || anyNf gamma
    if !rowBackward op then
      let y := if rowNormL op then zip3 (fun g v b => ((f32 g).mul (f32 v)).add (f32 b)) gamma xh beta
        else (gamma.zip xh).map fun (g, v) => f32 (f32Mul g v)
      ⟨y, [], [], inNf || y.any (fun v => !v.finite) || anyNf beta⟩
    else
      let g := (gamma.zip dy).map fun (a, b) => f32Mul a b
      let b := divL (rowDot g xh) p.len
      let a := if rowNormL op then divL (rowSum g) p.len else 0
      let dx := (g.zip xh).map fun (gv, v) =>
        f32Mul q (f32Fma (f32Neg v) b (if rowNormL op then f32Sub gv a else gv))
      ⟨dx.map f32, (dy.zip xh).map fun (d, v) => f32Mul d v, dy, inNf || anyNf dy || anyNf g || anyNf dx⟩
  else
    let (y, nf) := rowSoft p r x
    if !rowBackward op then ⟨y.map f32, [], [], nf || anyNf y⟩
    else
      let dy := dy.mapIdx fun j d => if rowMasked p r j then 0 else d
      let c := rowDot dy y
      let dz := (dy.zip y).mapIdx fun j (d, v) => if rowMasked p r j then 0 else f32Mul p.sb (f32Mul v (f32Sub d c))
      ⟨dz.map f32, [], [], nf || anyNf dy || anyNf y || anyNf dz⟩

/-! ## Memory of a row instruction -/

/-- Elements of one row as F32 (R173). -/
def rowRead (s : State) (u : UnitId) (fmt a n : Nat) : List Word32 :=
  (elemsOf (fmtBits fmt) n (s.rawRead (unitAddr u a) (tensorBytes fmt n))).map fun c => toF32 (elemVal fmt c)

/-- Parameter vectors that the passes before the last read (Table 4.19): γ of a backward operation. -/
def rowEarly (op : Nat) (p : RowParam) : List Nat :=
  if rowBackward op && (rowNormL op || rowNormR op) then p.gamma.toList else []

/-- Parameter vectors that the last pass reads, beside the outputs that it writes. -/
def rowLate (op : Nat) (p : RowParam) : List Nat :=
  if op = 1 then p.gamma.toList ++ p.beta.toList
  else if op = 2 then p.gamma.toList
  else if p.dgacc && op = 0x11 then p.dgamma.toList ++ p.dbeta.toList
  else if p.dgacc && op = 0x12 then p.dgamma.toList
  else []

def rowVecs (p : RowParam) (l : List Nat) : List (Nat × Nat × Nat) := l.map fun a => (a, 4 * p.len, 4)

/-- What row r reads before its last pass. -/
def rowFirst (op : Nat) (p : RowParam) (r : Nat) : List (Nat × Nat × Nat) :=
  let elems := fun (a : Nat) => [(a + r * p.pitch, p.len * fmtBits p.xfmt / 8, fmtAlign p.xfmt)]
  elems p.gx ++ (if rowBackward op then elems p.gdy else []) ++ rowVecs p (rowEarly op p)

/-- What row r reads: its elements, and the parameter vectors. -/
def rowReads (op : Nat) (p : RowParam) (r : Nat) : List (Nat × Nat × Nat) := rowFirst op p r ++ rowVecs p (rowLate op p)

def rowWrites (p : RowParam) (r : Nat) : List (Nat × Nat × Nat) :=
  [(p.gout + r * p.pitch, p.len * fmtBits p.yfmt / 8, fmtAlign p.yfmt)]

/-- GOUT's rows share bytes with those of GX or GDY without being equal, which R177 leaves undefined. -/
def rowOverlap (op : Nat) (p : RowParam) : Bool :=
  let width := fun (f : Nat) => ((p.len * fmtBits f / 8 : Nat) : Int)
  -- rows i of GOUT and j of the input share a byte when (i − j) × pitch lies strictly between the two bounds
  let hit := fun (a f : Nat) =>
    let gap : Int := (a : Int) - p.gout
    let lo : Int := max ((gap - width p.yfmt) / p.pitch + 1) (1 - (p.rows : Int))
    let hi : Int := min ((gap + width f - 1) / p.pitch) ((p.rows : Int) - 1)
    p.gout != a && decide (lo ≤ hi)
  hit p.gx p.xfmt || (rowBackward op && hit p.gdy p.xfmt)

/-- Accumulate into a parameter gradient, one rounding per element (R176). -/
def accVec (u : UnitId) (o : Option Nat) (vs : List Word32) (s : State) : State × Bool :=
  match o with
  | none => (s, false)
  | some a =>
    let old := (elemsOf 32 vs.length (s.rawRead (unitAddr u a) (4 * vs.length))).map (BitVec.ofNat 32)
    let new := (old.zip vs).map fun (x, y) => f32Add x y
    (unitWrite u a (packCodes 32 (new.map BitVec.toNat)) s, anyNf old || anyNf new)

/-- A run of n free bytes (R177), drawn from the free values. DESIGN CHOICE, log entry 83. -/
def freeByteRun : Nat → State → State × List Byte
  | 0, s => (s, [])
  | n + 1, s =>
    let b : Byte := (freeWord s).extractLsb' 0 8
    let (s, t) := freeByteRun n (useFree s)
    (s, b :: t)

/-- The last pass of row r over its first k elements. -/
def rowStep (op : Nat) (p : RowParam) (u : UnitId) (k : Nat) (s : State) (r : Nat) : State :=
  let one := fun (o : Option Nat) (d : Word32) => match o with
    | some a => rowRead s u 0 a p.len
    | none => List.replicate p.len d
  let x := rowRead s u p.xfmt (p.gx + r * p.pitch) p.len
  let dy := if rowBackward op then rowRead s u p.xfmt (p.gdy + r * p.pitch) p.len else []
  let o := rowCompute op p r x dy (one p.gamma 0x3F800000) (one p.beta 0)
  let es := (o.y.take k).map (encElem p.yfmt none)
  let (s, bytes) := if rowOverlap op p then freeByteRun (tensorBytes p.yfmt k) s
    else (s, packCodes (fmtBits p.yfmt) (es.map (·.code)))
  let s := unitWrite u (p.gout + r * p.pitch) bytes s
  let acc := rowBackward op && p.dgacc
  let (s, n1) := if acc then accVec u (if rowNormL op || rowNormR op then p.dgamma else none) (o.dg.take k) s else (s, false)
  let (s, n2) := if acc && rowNormL op then accVec u p.dbeta (o.db.take k) s else (s, false)
  s.unitFlag u (.ofNf (o.nf || n1 || n2 || es.any (·.fl.nf)))

/-- Read spans: is a word of them poisoned? -/
def rowTouch (u : UnitId) (l : List (Nat × Nat × Nat)) (s : State) : State × Bool :=
  l.foldl (fun (s, bad) (a, len, _) =>
    let (s, _, b) := unitRead u a len s
    (s, bad || b)) (s, false)

/-- The first element of the last pass with a poisoned parameter word. DEDUCED, log entry 92. -/
def rowStop (op : Nat) (p : RowParam) (u : UnitId) (s : State) : Option Nat :=
  (List.range p.len).find? fun j => (rowLate op p).any fun a =>
    match localRegion u (a + 4 * j) 4 with
    | some r => s.anyPoison r (unitAddr u (a + 4 * j)) 4
    | none => false

/-- Rows in ascending order from row r. A poisoned word stops the instruction: one that an earlier pass reads before any write
of the row, one of the last pass with the elements before it written. PARTIAL records that words have been written
(R188). DEDUCED, log entry 92. -/
def rowRun (op : Nat) (p : RowParam) (u : UnitId) : Nat → Nat → State → Done
  | 0, _, s => .ok s
  | n + 1, r, s =>
    let stop := fun (s : State) (wrote : Bool) =>
      Done.fault (if wrote then s.modUnit u fun x => { x with mxPartial := true } else s) 0x06
    let (s, bad) := rowTouch u (rowFirst op p r) s
    if bad then stop s (r != 0)
    else
      let (s, late) := rowTouch u (rowVecs p (rowLate op p)) s
      match (if late then rowStop op p u s else none) with
      | some k => stop (if k = 0 then s else rowStep op p u k s r) (r != 0 || k != 0)
      | none => rowRun op p u n (r + 1) (rowStep op p u p.len s r)

def rowBody (op : Nat) (u : UnitId) (w : InstrWord) (s : State) : Done :=
  let p := rowParam (s.unit u) w
  let ok := fun (f : Nat) => f == 0 || f == 3
  if !ok p.xfmt || !ok p.yfmt then .fault s 0x20
  else if p.rows = 0 ∨ p.len = 0 ∨ 1048576 < p.len ∨ p.pitch % 4 ≠ 0 ∨ p.pitch < p.len * fmtBits p.xfmt / 8 ∨
      p.pitch < p.len * fmtBits p.yfmt / 8 then .fault s 0x23
  else
    withAccess u .vec ((List.range p.rows).flatMap fun r => rowReads op p r ++ rowWrites p r) s (rowRun op p u p.rows 0)

def execRownormL (u : UnitId) (s : State) : Out := .next (issueRow 5 0x01 u (rowBody 0x01 u) s)
def execRownormR (u : UnitId) (s : State) : Out := .next (issueRow 5 0x02 u (rowBody 0x02 u) s)
def execRowsmax (u : UnitId) (s : State) : Out := .next (issueRow 5 0x03 u (rowBody 0x03 u) s)
def execRowrecompL (u : UnitId) (s : State) : Out := .next (issueRow 5 0x11 u (rowBody 0x11 u) s)
def execRowrecompR (u : UnitId) (s : State) : Out := .next (issueRow 5 0x12 u (rowBody 0x12 u) s)
def execRowrecompS (u : UnitId) (s : State) : Out := .next (issueRow 5 0x13 u (rowBody 0x13 u) s)

end Sys2Proof.Machine
end

