-- ==== Sys2Proof/Machine/Dispatch.lean ====
section
/-! DEFINITION. The meaning of each command: one arm per constructor of Instr. -/
namespace Sys2Proof.Machine

open Sys2Proof

def exec (i : Instr) (s : State) : Host.Outcome State Fault Refusal :=
  match i with
  | .pllLockLoss refClock => Sys2Proof.Machine.execPllLockLoss refClock s
  | .beatBoundary => Sys2Proof.Machine.execBeatBoundary s
  | .beatSkewCheck upset => Sys2Proof.Machine.execBeatSkewCheck upset s
  | .launchAtBeat => Sys2Proof.Machine.execLaunchAtBeat s
  | .launchLate p => Sys2Proof.Machine.execLaunchLate p s
  | .armingDone => Sys2Proof.Machine.execArmingDone s
  | .unitRetirement u => Sys2Proof.Machine.execUnitRetirement u s
  | .ueLimitReached u => Sys2Proof.Machine.execUeLimitReached u s
  | .spareReplacementDone c => Sys2Proof.Machine.execSpareReplacementDone c s
  | .spareBad c => Sys2Proof.Machine.execSpareBad c s
  | .topBeatLoRead => Sys2Proof.Machine.execTopBeatLoRead s
  | .fabEpochInRead b => Sys2Proof.Machine.execFabEpochInRead b s
  | .topSeedWrite h lo hi => Sys2Proof.Machine.execTopSeedWrite h lo hi s
  | .counterWrite h off v => Sys2Proof.Machine.execCounterWrite h off v s
  | .registerWrite h off v => Sys2Proof.Machine.execRegisterWrite h off v s
  | .nop u => Sys2Proof.Machine.execNop u s
  | .li u => Sys2Proof.Machine.execLi u s
  | .add u => Sys2Proof.Machine.execAdd u s
  | .addi u => Sys2Proof.Machine.execAddi u s
  | .sub u => Sys2Proof.Machine.execSub u s
  | .mul u => Sys2Proof.Machine.execMul u s
  | .and u => Sys2Proof.Machine.execAnd u s
  | .or u => Sys2Proof.Machine.execOr u s
  | .xor u => Sys2Proof.Machine.execXor u s
  | .shl u => Sys2Proof.Machine.execShl u s
  | .shr u => Sys2Proof.Machine.execShr u s
  | .sra u => Sys2Proof.Machine.execSra u s
  | .slt u => Sys2Proof.Machine.execSlt u s
  | .sltu u => Sys2Proof.Machine.execSltu u s
  | .sld u => Sys2Proof.Machine.execSld u s
  | .sst u => Sys2Proof.Machine.execSst u s
  | .jmp u => Sys2Proof.Machine.execJmp u s
  | .beqz u => Sys2Proof.Machine.execBeqz u s
  | .bnez u => Sys2Proof.Machine.execBnez u s
  | .dbnz u => Sys2Proof.Machine.execDbnz u s
  | .call u => Sys2Proof.Machine.execCall u s
  | .ret u => Sys2Proof.Machine.execRet u s
  | .gets u => Sys2Proof.Machine.execGets u s
  | .flags u => Sys2Proof.Machine.execFlags u s
  | .whset u => Sys2Proof.Machine.execWhset u s
  | .whld u => Sys2Proof.Machine.execWhld u s
  | .endInstr u => Sys2Proof.Machine.execEndInstr u s
  | .programEnd u => Sys2Proof.Machine.execProgramEnd u s
  | .ifetchEcc u => Sys2Proof.Machine.execIfetchEcc u s
  | .mx u => Sys2Proof.Machine.execMx u s
  | .mxQueueJoin u => Sys2Proof.Machine.execMxQueueJoin u s
  | .mxStart u group => Sys2Proof.Machine.execMxStart u group s
  | .mxComplete u group => Sys2Proof.Machine.execMxComplete u group s
  | .vld u => Sys2Proof.Machine.execVld u s
  | .vst u => Sys2Proof.Machine.execVst u s
  | .vbcast u => Sys2Proof.Machine.execVbcast u s
  | .vadd u => Sys2Proof.Machine.execVadd u s
  | .vsub u => Sys2Proof.Machine.execVsub u s
  | .vmul u => Sys2Proof.Machine.execVmul u s
  | .vfma u => Sys2Proof.Machine.execVfma u s
  | .vmax u => Sys2Proof.Machine.execVmax u s
  | .vmin u => Sys2Proof.Machine.execVmin u s
  | .vabs u => Sys2Proof.Machine.execVabs u s
  | .vneg u => Sys2Proof.Machine.execVneg u s
  | .vand u => Sys2Proof.Machine.execVand u s
  | .vor u => Sys2Proof.Machine.execVor u s
  | .vxor u => Sys2Proof.Machine.execVxor u s
  | .vshl u => Sys2Proof.Machine.execVshl u s
  | .vshr u => Sys2Proof.Machine.execVshr u s
  | .vcmp u => Sys2Proof.Machine.execVcmp u s
  | .vsel u => Sys2Proof.Machine.execVsel u s
  | .vrsum u => Sys2Proof.Machine.execVrsum u s
  | .vrmax u => Sys2Proof.Machine.execVrmax u s
  | .vrmin u => Sys2Proof.Machine.execVrmin u s
  | .vdrop u => Sys2Proof.Machine.execVdrop u s
  | .acombine u => Sys2Proof.Machine.execAcombine u s
  | .cvt u => Sys2Proof.Machine.execCvt u s
  | .vcvt u => Sys2Proof.Machine.execVcvt u s
  | .exp2 u => Sys2Proof.Machine.execExp2 u s
  | .log2 u => Sys2Proof.Machine.execLog2 u s
  | .rcp u => Sys2Proof.Machine.execRcp u s
  | .rsqrt u => Sys2Proof.Machine.execRsqrt u s
  | .sqrt u => Sys2Proof.Machine.execSqrt u s
  | .sinpi u => Sys2Proof.Machine.execSinpi u s
  | .cospi u => Sys2Proof.Machine.execCospi u s
  | .tanh u => Sys2Proof.Machine.execTanh u s
  | .sigmoid u => Sys2Proof.Machine.execSigmoid u s
  | .erf u => Sys2Proof.Machine.execErf u s
  | .rownormL u => Sys2Proof.Machine.execRownormL u s
  | .rownormR u => Sys2Proof.Machine.execRownormR u s
  | .rowsmax u => Sys2Proof.Machine.execRowsmax u s
  | .rowrecompL u => Sys2Proof.Machine.execRowrecompL u s
  | .rowrecompR u => Sys2Proof.Machine.execRowrecompR u s
  | .rowrecompS u => Sys2Proof.Machine.execRowrecompS u s
  | .shissue u => Sys2Proof.Machine.execShissue u s
  | .shissueWaitEnd u => Sys2Proof.Machine.execShissueWaitEnd u s
  | .bwait u => Sys2Proof.Machine.execBwait u s
  | .bwaitComplete u => Sys2Proof.Machine.execBwaitComplete u s
  | .barrier u => Sys2Proof.Machine.execBarrier u s
  | .barTimeout u => Sys2Proof.Machine.execBarTimeout u s
  | .semwait u => Sys2Proof.Machine.execSemwait u s
  | .semwaitWake u => Sys2Proof.Machine.execSemwaitWake u s
  | .semsig u => Sys2Proof.Machine.execSemsig u s
  | .semsigArrival src tgt => Sys2Proof.Machine.execSemsigArrival src tgt s
  | .fence u => Sys2Proof.Machine.execFence u s
  | .fenceComplete u => Sys2Proof.Machine.execFenceComplete u s
  | .semset u => Sys2Proof.Machine.execSemset u s
  | .unitFaultClear h u => Sys2Proof.Machine.execUnitFaultClear h u s
  | .unitMxStatusWrite h u v => Sys2Proof.Machine.execUnitMxStatusWrite h u v s
  | .unitOwnWrite h u n v => Sys2Proof.Machine.execUnitOwnWrite h u n v s
  | .ownerChangeEffect u bank => Sys2Proof.Machine.execOwnerChangeEffect u bank s
  | .shuttleChainStart sh => Sys2Proof.Machine.execShuttleChainStart sh s
  | .copyDescriptor sh => Sys2Proof.Machine.execCopyDescriptor sh s
  | .ownDescriptor sh => Sys2Proof.Machine.execOwnDescriptor sh s
  | .fillDescriptor sh => Sys2Proof.Machine.execFillDescriptor sh s
  | .chainComplete sh => Sys2Proof.Machine.execChainComplete sh s
  | .memChannelFail ch => Sys2Proof.Machine.execMemChannelFail ch s
  | .dramPatrolVisit ch struck => Sys2Proof.Machine.execDramPatrolVisit ch struck s
  | .sramPatrol u struck => Sys2Proof.Machine.execSramPatrol u struck s
  | .sramPatrolForce u bank => Sys2Proof.Machine.execSramPatrolForce u bank s
  | .memCfgWrite h v => Sys2Proof.Machine.execMemCfgWrite h v s
  | .shtNfClear h c v => Sys2Proof.Machine.execShtNfClear h c v s
  | .flagPhaseBegin opid => Sys2Proof.Machine.execFlagPhaseBegin opid s
  | .gradFlagDone opid => Sys2Proof.Machine.execGradFlagDone opid s
  | .updateFlagDone opid => Sys2Proof.Machine.execUpdateFlagDone opid s
  | .commitResume => Sys2Proof.Machine.execCommitResume s
  | .bobbinClaim opid => Sys2Proof.Machine.execBobbinClaim opid s
  | .bobbinClaimRetry opid => Sys2Proof.Machine.execBobbinClaimRetry opid s
  | .bobbinStall opid => Sys2Proof.Machine.execBobbinStall opid s
  | .shardDigestDone => Sys2Proof.Machine.execShardDigestDone s
  | .digestListReceive step digests => Sys2Proof.Machine.execDigestListReceive step digests s
  | .laneDrop port lane cause => Sys2Proof.Machine.execLaneDrop port lane cause s
  | .laneRestripeDone port => Sys2Proof.Machine.execLaneRestripeDone port s
  | .portDown port cause => Sys2Proof.Machine.execPortDown port cause s
  | .portSilentTimeout port => Sys2Proof.Machine.execPortSilentTimeout port s
  | .portTrain port r => Sys2Proof.Machine.execPortTrain port r s
  | .portTrainRetry port r => Sys2Proof.Machine.execPortTrainRetry port r s
  | .frameReceive port f => Sys2Proof.Machine.execFrameReceive port f s
  | .retryTimeout port => Sys2Proof.Machine.execRetryTimeout port s
  | .packetRoute port p => Sys2Proof.Machine.execPacketRoute port p s
  | .remoteWriteReceive p => Sys2Proof.Machine.execRemoteWriteReceive p s
  | .wackReceive p => Sys2Proof.Machine.execWackReceive p s
  | .wnakReceive p => Sys2Proof.Machine.execWnakReceive p s
  | .e2eTimeout sh tag => Sys2Proof.Machine.execE2eTimeout sh tag s
  | .setRouteWrite h p => Sys2Proof.Machine.execSetRouteWrite h p s
  | .setRouteSwitch h bank => Sys2Proof.Machine.execSetRouteSwitch h bank s
  | .setHeddleInstall h p => Sys2Proof.Machine.execSetHeddleInstall h p s
  | .setHeddleRemove h hid => Sys2Proof.Machine.execSetHeddleRemove h hid s
  | .heddleWindowOpen hid => Sys2Proof.Machine.execHeddleWindowOpen hid s
  | .heddleWindowClose hid => Sys2Proof.Machine.execHeddleWindowClose hid s
  | .cmapIntervalClose => Sys2Proof.Machine.execCmapIntervalClose s
  | .cmapRead h => Sys2Proof.Machine.execCmapRead h s
  | .fabPortCtlWrite h port v => Sys2Proof.Machine.execFabPortCtlWrite h port v s
  | .fabTorusSizeWrite h v => Sys2Proof.Machine.execFabTorusSizeWrite h v s
  | .fabSliceSizeWrite h v => Sys2Proof.Machine.execFabSliceSizeWrite h v s
  | .fabSlicePosWrite h v => Sys2Proof.Machine.execFabSlicePosWrite h v s
  | .fabStandinWrite h v => Sys2Proof.Machine.execFabStandinWrite h v s
  | .collectiveRs h p => Sys2Proof.Machine.execCollectiveRs h p s
  | .collectiveAg h p => Sys2Proof.Machine.execCollectiveAg h p s
  | .collectiveAr h p => Sys2Proof.Machine.execCollectiveAr h p s
  | .collectiveBc h p => Sys2Proof.Machine.execCollectiveBc h p s
  | .collectiveA2a h p => Sys2Proof.Machine.execCollectiveA2a h p s
  | .collectiveStart opid => Sys2Proof.Machine.execCollectiveStart opid s
  | .collRsData p => Sys2Proof.Machine.execCollRsData p s
  | .collAgData p => Sys2Proof.Machine.execCollAgData p s
  | .collBcData p => Sys2Proof.Machine.execCollBcData p s
  | .collA2aData p => Sys2Proof.Machine.execCollA2aData p s
  | .collFlag p => Sys2Proof.Machine.execCollFlag p s
  | .collRind p => Sys2Proof.Machine.execCollRind p s
  | .collAbort p => Sys2Proof.Machine.execCollAbort p s
  | .collWackReceive p => Sys2Proof.Machine.execCollWackReceive p s
  | .collResendTimeout opid tag => Sys2Proof.Machine.execCollResendTimeout opid tag s
  | .collectiveComplete opid => Sys2Proof.Machine.execCollectiveComplete opid s
  | .colRindCtlWrite h reg lo hi => Sys2Proof.Machine.execColRindCtlWrite h reg lo hi s
  | .colStepAddrWrite h lo hi => Sys2Proof.Machine.execColStepAddrWrite h lo hi s
  | .hxConfigGeneral h p => Sys2Proof.Machine.execHxConfigGeneral h p s
  | .hxConfigShards h first recs => Sys2Proof.Machine.execHxConfigShards h first recs s
  | .hxConfigPeers h peers => Sys2Proof.Machine.execHxConfigPeers h peers s
  | .hxConfigMember h mask => Sys2Proof.Machine.execHxConfigMember h mask s
  | .hxConfigCommit h => Sys2Proof.Machine.execHxConfigCommit h s
  | .hxOuter h o opid0 => Sys2Proof.Machine.execHxOuter h o opid0 s
  | .hxBoundaryDone => Sys2Proof.Machine.execHxBoundaryDone s
  | .hxMerge => Sys2Proof.Machine.execHxMerge s
  | .hxImage peer o => Sys2Proof.Machine.execHxImage peer o s
  | .hxDigest peer o mask digests => Sys2Proof.Machine.execHxDigest peer o mask digests s
  | .hxApply h o step sem => Sys2Proof.Machine.execHxApply h o step sem s
  | .hxApplyDone => Sys2Proof.Machine.execHxApplyDone s
  | .hxFetch h idx => Sys2Proof.Machine.execHxFetch h idx s
  | .hxResume h cause => Sys2Proof.Machine.execHxResume h cause s
  | .hxRekey h => Sys2Proof.Machine.execHxRekey h s
  | .hxCfgWrite h v => Sys2Proof.Machine.execHxCfgWrite h v s
  | .hxDataReceive p => Sys2Proof.Machine.execHxDataReceive p s
  | .hxAckReceive p a => Sys2Proof.Machine.execHxAckReceive p a s
  | .hxAckTimer peer net => Sys2Proof.Machine.execHxAckTimer peer net s
  | .hxRtoExpire peer net => Sys2Proof.Machine.execHxRtoExpire peer net s
  | .hxProbeTimer peer net => Sys2Proof.Machine.execHxProbeTimer peer net s
  | .hxProbeReceive p => Sys2Proof.Machine.execHxProbeReceive p s
  | .hxEchoReceive p ets hold => Sys2Proof.Machine.execHxEchoReceive p ets hold s
  | .hxPathDown peer net => Sys2Proof.Machine.execHxPathDown peer net s
  | .hxPeerLost peer => Sys2Proof.Machine.execHxPeerLost peer s
  | .hxDropped peer => Sys2Proof.Machine.execHxDropped peer s
  | .keyxOffer peer m => Sys2Proof.Machine.execKeyxOffer peer m s
  | .keyxReply peer m => Sys2Proof.Machine.execKeyxReply peer m s
  | .keyxConfirm peer m => Sys2Proof.Machine.execKeyxConfirm peer m s
  | .keyxDone peer m => Sys2Proof.Machine.execKeyxDone peer m s
  | .keyxAbort peer m => Sys2Proof.Machine.execKeyxAbort peer m s
  | .keyxResend peer => Sys2Proof.Machine.execKeyxResend peer s
  | .keyRollStart peer => Sys2Proof.Machine.execKeyRollStart peer s
  | .hxKeyStall peer => Sys2Proof.Machine.execHxKeyStall peer s
  | .keyStallEnd peer => Sys2Proof.Machine.execKeyStallEnd peer s
  | .keyRetire peer => Sys2Proof.Machine.execKeyRetire peer s
  | .join peer j => Sys2Proof.Machine.execJoin peer j s
  | .joinReply peer accepted bstep => Sys2Proof.Machine.execJoinReply peer accepted bstep s
  | .fetch peer => Sys2Proof.Machine.execFetch peer s
  | .state peer shard astep bytes => Sys2Proof.Machine.execState peer shard astep bytes s
  | .momentum peer shard bytes => Sys2Proof.Machine.execMomentum peer shard bytes s
  | .imageFwd peer midx o shard bytes => Sys2Proof.Machine.execImageFwd peer midx o shard bytes s
  | .hxJoined => Sys2Proof.Machine.execHxJoined s
  | .stepResolveGradClear h step => Sys2Proof.Machine.execStepResolveGradClear h step s
  | .stepResolveSkipGrad h step => Sys2Proof.Machine.execStepResolveSkipGrad h step s
  | .stepResolveCommit h step => Sys2Proof.Machine.execStepResolveCommit h step s
  | .stepResolveSkipUpdate h step => Sys2Proof.Machine.execStepResolveSkipUpdate h step s
  | .memReload line => Sys2Proof.Machine.execMemReload line s
  | .lineRead p => Sys2Proof.Machine.execLineRead p s
  | .lineData p => Sys2Proof.Machine.execLineData p s
  | .recovNak p => Sys2Proof.Machine.execRecovNak p s
  | .refill h buddy rid resume sets => Sys2Proof.Machine.execRefill h buddy rid resume sets s
  | .segData p => Sys2Proof.Machine.execSegData p s
  | .segDone p => Sys2Proof.Machine.execSegDone p s
  | .segRead p => Sys2Proof.Machine.execSegRead p s
  | .refillDone => Sys2Proof.Machine.execRefillDone s
  | .evacuate h node => Sys2Proof.Machine.execEvacuate h node s
  | .evacuated => Sys2Proof.Machine.execEvacuated s
  | .helloReply port storeId rev => Sys2Proof.Machine.execHelloReply port storeId rev s
  | .checkpoint h step id => Sys2Proof.Machine.execCheckpoint h step id s
  | .sealed id => Sys2Proof.Machine.execSealed id s
  | .ckpSealTimeout => Sys2Proof.Machine.execCkpSealTimeout s
  | .restore h id => Sys2Proof.Machine.execRestore h id s
  | .ckpDue => Sys2Proof.Machine.execCkpDue s
  | .digest h step => Sys2Proof.Machine.execDigest h step s
  | .pressAcquire h activity ports seconds => Sys2Proof.Machine.execPressAcquire h activity ports seconds s
  | .pressRelease h lease => Sys2Proof.Machine.execPressRelease h lease s
  | .pressExpired lease => Sys2Proof.Machine.execPressExpired lease s
  | .laneRetrainRequest port lane => Sys2Proof.Machine.execLaneRetrainRequest port lane s
  | .ripeningUpdate measures => Sys2Proof.Machine.execRipeningUpdate measures s
  | .ripRead h first n => Sys2Proof.Machine.execRipRead h first n s
  | .ping h => Sys2Proof.Machine.execPing h s
  | .regRead h offs => Sys2Proof.Machine.execRegRead h offs s
  | .regWrite h entries => Sys2Proof.Machine.execRegWrite h entries s
  | .snapshot h => Sys2Proof.Machine.execSnapshot h s
  | .memRead h addr c => Sys2Proof.Machine.execMemRead h addr c s
  | .memWrite h addr vset version data => Sys2Proof.Machine.execMemWrite h addr vset version data s
  | .evtRead h net first => Sys2Proof.Machine.execEvtRead h net first s
  | .jnlRead h first => Sys2Proof.Machine.execJnlRead h first s
  | .loadProgram h p => Sys2Proof.Machine.execLoadProgram h p s
  | .launch h p => Sys2Proof.Machine.execLaunch h p s
  | .halt h umask => Sys2Proof.Machine.execHalt h umask s
  | .unitRetire h die unit => Sys2Proof.Machine.execUnitRetire h die unit s
  | .chainCommandRelease chain => Sys2Proof.Machine.execChainCommandRelease chain s
  | .chainHoldTimeout chain => Sys2Proof.Machine.execChainHoldTimeout chain s
  | .neighbourSolicitation port target => Sys2Proof.Machine.execNeighbourSolicitation port target s
  | .arpRequest port target => Sys2Proof.Machine.execArpRequest port target s
  | .echoRequest port v6 dst data => Sys2Proof.Machine.execEchoRequest port v6 dst data s
  | .ethPortNegotiate port mode => Sys2Proof.Machine.execEthPortNegotiate port mode s
  | .topCmdUdpWrite h v => Sys2Proof.Machine.execTopCmdUdpWrite h v s
  | .topEthCfgWrite h v => Sys2Proof.Machine.execTopEthCfgWrite h v s
  | .topAlertClear h v => Sys2Proof.Machine.execTopAlertClear h v s
  | .paritySweep struck => Sys2Proof.Machine.execParitySweep struck s
  | .attest h nonce => Sys2Proof.Machine.execAttest h nonce s
  | .quoteSigned nonce => Sys2Proof.Machine.execQuoteSigned nonce s
  | .fwStage h p => Sys2Proof.Machine.execFwStage h p s
  | .fwStageDone v readback => Sys2Proof.Machine.execFwStageDone v readback s
  | .fwStageAbandon => Sys2Proof.Machine.execFwStageAbandon s
  | .fwCommit h image advance version => Sys2Proof.Machine.execFwCommit h image advance version s
  | .fwRecover h p v => Sys2Proof.Machine.execFwRecover h p v s
  | .inputSwitchClose mv => Sys2Proof.Machine.execInputSwitchClose mv s
  | .railSequenceDone good => Sys2Proof.Machine.execRailSequenceDone good s
  | .resetRelease strap => Sys2Proof.Machine.execResetRelease strap s
  | .sramClearDone => Sys2Proof.Machine.execSramClearDone s
  | .bootVerify va vb certOk => Sys2Proof.Machine.execBootVerify va vb certOk s
  | .memTrainingDone failed => Sys2Proof.Machine.execMemTrainingDone failed s
  | .dramZeroDone => Sys2Proof.Machine.execDramZeroDone s
  | .ready mv ma => Sys2Proof.Machine.execReady mv ma s
  | .secondImageVerify v => Sys2Proof.Machine.execSecondImageVerify v s
  | .inputUndervoltage mv => Sys2Proof.Machine.execInputUndervoltage mv s
  | .inputOvervoltage mv => Sys2Proof.Machine.execInputOvervoltage mv s
  | .pwrInput mv => Sys2Proof.Machine.execPwrInput mv s
  | .resetNAssert ns => Sys2Proof.Machine.execResetNAssert ns s
  | .railFault rail ovp => Sys2Proof.Machine.execRailFault rail ovp s
  | .inputOc ma => Sys2Proof.Machine.execInputOc ma s
  | .throttleUpdate mv ma need temp die => Sys2Proof.Machine.execThrottleUpdate mv ma need temp die s
  | .pwrCapWrite h v => Sys2Proof.Machine.execPwrCapWrite h v s
  | .dieHot die => Sys2Proof.Machine.execDieHot die s
  | .boardHot => Sys2Proof.Machine.execBoardHot s
  | .coolantWarm inlet outlet => Sys2Proof.Machine.execCoolantWarm inlet outlet s
  | .coolantFault inlet outlet => Sys2Proof.Machine.execCoolantFault inlet outlet s
  | .hkLinkLoss => Sys2Proof.Machine.execHkLinkLoss s
  | .scanInstruction die ir => Sys2Proof.Machine.execScanInstruction die ir s
  | .laserLow fibre power => Sys2Proof.Machine.execLaserLow fibre power s
  | .laserHigh fibre power => Sys2Proof.Machine.execLaserHigh fibre power s
  | .recovWack p => Sys2Proof.Machine.execRecovWack p s
  | .recovResendTimeout tag => Sys2Proof.Machine.execRecovResendTimeout tag s
  | .collWnak p => Sys2Proof.Machine.execCollWnak p s
  | .ethernetPortDown port => Sys2Proof.Machine.execEthernetPortDown port s
  | .undecodedRequest port srcAddr srcUdp udpLen bytes => Sys2Proof.Machine.execUndecodedRequest port srcAddr srcUdp udpLen bytes s
  | .laneRetrainDone port lane => Sys2Proof.Machine.execLaneRetrainDone port lane s
  | .laneRetrainRetry port lane => Sys2Proof.Machine.execLaneRetrainRetry port lane s
  | .resetNRelease => Sys2Proof.Machine.execResetNRelease s
  | .rootPllLockTimeout refClock => Sys2Proof.Machine.execRootPllLockTimeout refClock s
  | .ckpInterval => Sys2Proof.Machine.execCkpInterval s

end Sys2Proof.Machine
end

