-- ==== Sys2Proof/Machine/Check.lean ====
section
/-! DEFINITION. The check code (R217) and the words as they are held with it: the 80 bits of an SRAM word (R207), the check
region of a line (R219, Table 5.8), and the bytes of a channel (R212). State holds data, tags and the bits that upsets have
flipped; the check bits follow from data and tags, since every write and every settled read recomputes them. -/
namespace Sys2Proof.Machine

/-! ## The code -/

/-- One message bit enters the remainder, the highest power first; 0x377 is g(x) without x^14. -/
def checkStep (r : BitVec 14) (b : Bool) : BitVec 14 :=
  let s := (r <<< 1)
  if r.getLsbD 13 != b then s ^^^ 0x377 else s

/-- c[13:0] of a message of k bits: (Σ b_i x^i) × x^14 mod g(x). -/
def checkRem (m : Nat) : Nat → BitVec 14 → BitVec 14
  | 0, r => r
  | k + 1, r => checkRem m k (checkStep r (m.testBit k))

/-- c[14:0] of a message m of k bits: the remainder, and the parity of all of it. -/
def checkBits (k m : Nat) : BitVec 15 :=
  let r := checkRem m k 0
  BitVec.ofBool ((popcount m k + popcount r.toNat 14) % 2 == 1) ++ r

/-- Check bits of an SRAM word: its data, and its poison bit as message bit 64. -/
def sramCheck (data : Word64) (poison : Bool) : BitVec 15 := checkBits 65 (data.toNat + 2 ^ 64 * poison.toNat)

/-- Check bits of word i of a DRAM line; word 0 covers the tag byte. -/
def dramCheck (i : Nat) (data : Word64) (tag : Byte) : BitVec 15 :=
  if i = 0 then checkBits 72 (data.toNat + 2 ^ 64 * tag.toNat) else checkBits 64 data.toNat

/-! ## SRAM words (R207) -/

/-- data in [63:0], check bits in [78:64], poison in [79], with the flips of the word's upsets. -/
def sramWord (data : Word64) (poison : Bool) (flips : BitVec 87) : BitVec 80 :=
  (BitVec.ofBool poison ^^^ flips.extractLsb' 64 1) ++ (sramCheck data poison ^^^ flips.extractLsb' 72 15) ++
    (data ^^^ flips.extractLsb' 0 64)

/-- A word of scratch or accumulator memory as it is held, by module address / 8. -/
def State.heldWord (s : State) (w : Nat) : BitVec 80 := sramWord (s.word64 (8 * w)) (s.wordPoison w) (s.flipsAt (.sram w))

/-- Half h of an instruction word as it is held. -/
def State.heldHalf (s : State) (u : UnitId) (idx h : Nat) : BitVec 80 :=
  sramWord ((s.instr u idx).extractLsb' (64 * h) 64) (tget false s.storePoison (8192 * u.key + 2 * idx + h))
    (s.flipsAt (.store u.key idx h))

/-! ## DRAM lines (R212, R219) -/

def State.lineWord (s : State) (line i : Nat) : Word64 := s.word64 (line + 8 * i)

/-- Word i of the line at `line` as it is held. -/
def State.heldData (s : State) (line i : Nat) : Word64 :=
  s.lineWord line i ^^^ (s.flipsAt (.dram (line / 8 + i))).extractLsb' 0 64

/-- CHKi of the line as it is held. -/
def State.heldCheck (s : State) (line i : Nat) : BitVec 15 :=
  dramCheck i (s.lineWord line i) (s.tag line) ^^^ (s.flipsAt (.dram (line / 8 + i))).extractLsb' 72 15

/-- The check region of Table 5.8: CHK0 to CHK7, POISON, VERSION. -/
def State.checkRegion (s : State) (line : Nat) : BitVec 128 :=
  (s.tag line ^^^ (s.flipsAt (.dram (line / 8))).extractLsb' 64 8) ++ s.heldCheck line 7 ++ s.heldCheck line 6 ++
    s.heldCheck line 5 ++ s.heldCheck line 4 ++ s.heldCheck line 3 ++ s.heldCheck line 2 ++ s.heldCheck line 1 ++
    s.heldCheck line 0

/-- Byte b of module channel ch: the lines of its granules, their check regions, or none in the unused rest. -/
def State.channelByte (s : State) (ch b : Nat) : Option Byte :=
  let j := b / 320
  let k := b % 320
  if channelGranules ≤ j then none
  else
    let a := granuleAddr ch j
    if k < 256 then some (BitVec.ofNat 8 ((s.heldData (a + k / 64 * 64) (k % 64 / 8)).toNat / 2 ^ (8 * (k % 8))))
    else some (BitVec.ofNat 8 ((s.checkRegion (a + (k - 256) / 16 * 64)).toNat / 2 ^ (8 * (k % 16))))

/-- Channel bytes of the data of the line at DRAM address a, and of its check region. -/
def lineAt (a : Nat) : Nat × Nat :=
  let j := a % dramWindow / 256 / 24
  let l := a % 256 / 64
  (320 * j + 64 * l, 320 * j + 256 + 16 * l)

end Sys2Proof.Machine
end

