-- ==== Sys2Proof/Safety.lean ====
section
/-! DEFINITION. What a state of the module must hold at all times, and the terms in which claims speak of a step. -/
namespace Sys2Proof.Machine

/-- Memory stands in its one canonical form: addresses strictly rising, no entry that reads as an unlisted one. -/
def State.memOk (s : State) : Prop := Memory.wf s.mem = true

/-- At most 4,096 events (R503) and 1,024 answers (R491) are kept, and at most 4,096 journal entries (R493). -/
def State.bounded (s : State) : Prop :=
  s.host.events.length ≤ 4096 ∧ s.host.cache.length ≤ 1024 ∧ s.host.journal.length ≤ 4096

/-! ## Unit programs -/

/-- t is s but for unit u, whose state becomes x: every other unit, all memory, every register outside unit u, every queue
and every status is as in s. -/
def onlyUnit (u : UnitId) (x : UnitState) (s t : State) : Prop :=
  t = { s with units := t.units } ∧ t.unit u = x ∧ ∀ v, v ≠ u → t.unit v = s.unit v

/-- The state after the fetch of unit u's next instruction: the fetch reads both halves of the word and settles upsets in
them (R207), and the first one of a LAUNCH without a beat fixes the launch beat (Table 4.5). -/
def fetched (s : State) (u : UnitId) : State := noteIssue u (touchInstr u (s.unit u).pc.toNat s).1

/-- The word that unit u fetches. -/
def fetchedWord (s : State) (u : UnitId) : InstrWord := (fetched s u).instr u (s.unit u).pc.toNat

/-- Unit u fetches a sound, legal word of class `cls` and operation `op` and issues it: the module is READY, the unit
RUNNING, and it waits for nothing or for a slot that has become free (R186 to R188). -/
structure Fetches (cls op : Nat) (u : UnitId) (s : State) : Prop where
  can : canIssue s u = true
  sound : (touchInstr u (s.unit u).pc.toNat s).2 = false
  legal : illegal (fetchedWord s u) = false
  cls_eq : opClass (fetchedWord s u) = cls
  op_eq : opCode (fetchedWord s u) = op

/-- In a replay an instruction with EFX set whose class R184 names is skipped. -/
def skipped (cls op : Nat) (u : UnitId) (s : State) : Bool :=
  ((fetched s u).unit u).replay && opEfx (fetchedWord s u) && replaySkips cls op

/-- Unit u issues a word of this class and operation, which no replay skips. -/
structure Issues (cls op : Nat) (u : UnitId) (s : State) : Prop extends Fetches cls op u s where
  whole : skipped cls op u s = false

/-- The state in which the issued instruction acts: after the fetch, with the unit's wait over. -/
def acting (s : State) (u : UnitId) : State := (fetched s u).modUnit u fun x => { x with wait := .none }

/-! ## Host commands -/

/-- The request passes checks 1 to 15 of Table 11.3 and comes outside a chain: the module takes the datagram, the header
is whole and of a known revision, the lengths agree, its source has sent no other command of this TAG that is in the
response cache with this SEQ or still waits, fewer than 1,024 commands wait, NODE, the module's state, the payload's
fields and counts and LBEAT are in order. The command's own conditions (check 17) come after these. -/
structure Passes (h : Hdr) (op : HostOp) (s : State) : Prop where
  takes : takesUdp s h.net s.cmdUdp = true
  whole : 40 ≤ h.udpLen
  rev : 1 ≤ h.rev.toNat ∧ h.rev.toNat ≤ 3
  lens : h.len.toNat ≤ 8192 ∧ 32 + h.len.toNat = h.udpLen - 8
  fresh : ∀ e ∈ s.host.cache, ¬(e.src = sourceOf (revHdr h) ∧ e.tag = h.tag ∧ e.seq = h.seq)
  alone : ∀ w ∈ waitingCmds s, ¬(w.1 = sourceOf (revHdr h) ∧ w.2.1 = h.tag)
  room : (waitingCmds s).length < 1024
  node : badNode (revHdr h) s = false
  state : stateCheck (cmdCode op) s = none
  form : badLen (revHdr h) op = false
  field : badField op = none
  format : badFormat op = false
  count : badCount op = false
  beat : beatCheck (revHdr h) (cmdCode op) s = none
  single : (revHdr h).chain = 0

/-- The response to a command outside a chain: it leaves by the port of the request and is kept for repeats (R483, R491). -/
def responded (h : Hdr) (op : HostOp) (st : Status) (detail : Nat) (pay : List Byte) (udp : BitVec 16) (x : State) : State :=
  let h := revHdr h
  let r := { respOf h (cmdCode op) udp st detail pay x.beat with vid := x.vid }
  { x with sent := .resp r :: x.sent,
           host := { x.host with cache := (CacheEntry.mk (sourceOf h) h.tag h.seq r :: x.host.cache).take 1024 } }

/-- What a completed command leaves: x is the state after its effect, with its change-journal entry where Table 11.4 marks it
with J (R493), and its response of status OK. -/
def answered (h : Hdr) (op : HostOp) (pay : List Byte) (detail : Nat) (s x : State) : State :=
  responded h op .ok detail pay s.cmdUdp (journal (revHdr h) (cmdCode op) x)

/-- What a refused command leaves: nothing but its response. -/
def turnedAway (h : Hdr) (op : HostOp) (st : Status) (detail : Nat) (s : State) : State :=
  responded h op st detail [] s.cmdUdp s

/-- What a command leaves that is answered once its parties are armed (R37). -/
def leftWaiting (h : Hdr) (op : HostOp) (x : State) : State :=
  { x with host := { x.host with outstanding := x.host.outstanding ++ [⟨revHdr h, op, false⟩] } }

end Sys2Proof.Machine
end

