-- ==== Sys2Proof/Certificates/Slice0/Obligations.lean ====
section
/-! DEFINITION. The statements for the provers, by chapter of the spec. The first part names the shapes that several
statements share. -/
namespace Sys2Proof.Claim

open Sys2Proof Sys2Proof.Machine

/-! ## Rows that act on one unit -/

/-- Command c of the row (cls, op): wherever the unit issues such a word and `ok` holds of the unit's state and the word, the
command answers a next state in which that unit is `f` and nothing else of the module has changed. -/
def changesUnit (c : UnitId → Instr) (cls op : Nat) (ok : UnitState → InstrWord → Prop)
    (f : UnitState → InstrWord → UnitState) : Prop :=
  ∀ (u : UnitId) (s : State), Issues cls op u s → ok ((fetched s u).unit u) (fetchedWord s u) →
    ∃ t, exec (c u) s = .next t ∧ onlyUnit u (f ((fetched s u).unit u) (fetchedWord s u)) (fetched s u) t

/-- The unit has moved to its next instruction. -/
def moved (x : UnitState) : UnitState := { x with pc := x.pc + 1, wait := .none }

/-- The unit has jumped. -/
def jumped (x : UnitState) (pc : BitVec 12) : UnitState := { x with pc := pc, wait := .none }

def notLast (x : UnitState) : Prop := x.pc ≠ 4095

/-- A row of the scalar class that makes GD the value f of GA, GB and IMM. GP0 still reads zero (Table 4.1). -/
def writesGd (c : UnitId → Instr) (op : Nat) (f : Word64 → Word64 → Word64 → Word64) : Prop :=
  ∀ (u : UnitId) (s : State), Issues 0 op u s →
    let x := (fetched s u).unit u
    let w := fetchedWord s u
    let v := f (x.gpGet (ga w)) (x.gpGet (gb w)) (imm64 w)
    notLast x → ∃ t, exec (c u) s = .next t ∧ onlyUnit u (moved (x.gpSet (gd w) v)) (fetched s u) t ∧
      (gd w ≠ 0 → (t.unit u).gpGet (gd w) = v) ∧ (∀ r, r ≠ gd w → (t.unit u).gpGet r = x.gpGet r) ∧
      (t.unit u).gpGet 0 = 0

/-! ## Vector rows -/

/-- The unit after a vector instruction that wrote `out` to vector register rd: it has moved on, the flags NONFINITE,
INT_OVF and INVALID are set where they were or where nf, ov and inv say, and nothing else of it has changed. -/
def vectorDone (x : UnitState) (rd : Nat) (out : Nat → Word32) (nf ov inv : Bool) (y : UnitState) : Prop :=
  (∀ i, i < 128 → y.lane rd i = out i) ∧ (∀ r i, i < 128 → r ≠ rd → y.lane r i = x.lane r i) ∧
  y = { moved x with vreg := y.vreg, nonfinite := x.nonfinite || nf, intOvf := x.intOvf || ov, invalid := x.invalid || inv }

def anyLane (p : Nat → Bool) : Bool := (List.range 128).any p

/-- A lane of B16×2 by an operation on its halves. -/
def halves (f : BitVec 16 → BitVec 16) (v : Word32) : Word32 := f (hi16 v) ++ f (lo16 v)

/-- The lanes of source registers A, B and C, of which an operation reads the first k. -/
def srcLanes (k : Nat) (x : UnitState) (w : InstrWord) (i : Nat) : List Word32 :=
  [x.lane (vA w) i, x.lane (vB w) i, x.lane (vC w) i].take k

/-- A row of lane-wise arithmetic (R147): F32 is computed exactly and rounded once; each B16 half likewise; I32 wraps and
sets INT_OVF (R58); a result or operand that is not finite sets NONFINITE (R77). -/
def laneArithmetic (c : UnitId → Instr) (op k : Nat) (f : Val → Val → Val → Val) (g : Int → Int → Int → Int) : Prop :=
  ∀ (u : UnitId) (s : State), Issues 2 op u s →
    let x := (fetched s u).unit u
    let w := fetchedWord s u
    let a := fun i => x.lane (vA w) i
    let b := fun i => x.lane (vB w) i
    let e := fun i => x.lane (vC w) i
    let asF := fun i => toF32 (f (f32 (a i)) (f32 (b i)) (f32 (e i)))
    let part := fun (h : Word32 → BitVec 16) i => toB16 (f (b16 (h (a i))) (b16 (h (b i))) (b16 (h (e i))))
    let exact := fun i => g (a i).toInt (b i).toInt (e i).toInt
    let badB := fun (v : Word32) => !(b16 (lo16 v)).finite || !(b16 (hi16 v)).finite
    notLast x →
    ∃ t y, exec (c u) s = .next t ∧ onlyUnit u y (fetched s u) t ∧
      (vType w = 0 → vectorDone x (vD w) asF
        (anyLane fun i => f32Special (asF i) || (srcLanes k x w i).any f32Special) false false y) ∧
      (vType w = 1 → vectorDone x (vD w) (fun i => part hi16 i ++ part lo16 i)
        (anyLane fun i => badB (part hi16 i ++ part lo16 i) || (srcLanes k x w i).any badB) false false y) ∧
      (vType w = 2 → vectorDone x (vD w) (fun i => BitVec.ofInt 32 (exact i)) false
        (anyLane fun i => decide (exact i < -2 ^ 31) || decide (2 ^ 31 ≤ exact i)) false y)

/-- A bitwise or shift row: I32 lanes only, and no flag (R147). -/
def laneBits (c : UnitId → Instr) (op : Nat) (f : Word32 → Word32 → Word32) : Prop :=
  ∀ (u : UnitId) (s : State), Issues 2 op u s →
    let x := (fetched s u).unit u
    let w := fetchedWord s u
    vType w = 2 → notLast x →
    ∃ t y, exec (c u) s = .next t ∧ onlyUnit u y (fetched s u) t ∧
      vectorDone x (vD w) (fun i => f (x.lane (vA w) i) (x.lane (vB w) i)) false false false y

/-- A special-function row on F32 lanes: an exact function gives the rounded value, another a code within its bound of the
exact value (Table 4.13). -/
def specialLanes (c : UnitId → Instr) (op : Nat) : Prop :=
  ∀ (u : UnitId) (s : State), Issues 4 op u s →
    let x := (fetched s u).unit u
    let w := fetchedWord s u
    notLast x →
    ∃ t y out nf, exec (c u) s = .next t ∧ onlyUnit u y (fetched s u) t ∧ vectorDone x (vD w) out nf false false y ∧
      (vType w = 0 → (∀ i, i < 128 → match funOf op (f32 (x.lane (vA w) i)) with
          | .exact v => out i = toF32 v
          | .near k v => out i ∈ candidates k v) ∧
        nf = anyLane fun i => f32Special (x.lane (vA w) i) || f32Special (out i)) ∧
      (vType w = 1 → ∀ i, i < 128 → ∀ h : Word32 → BitVec 16, h = lo16 ∨ h = hi16 →
        match funOf op (b16 (h (x.lane (vA w) i))) with
          | .exact v => h (out i) = toB16 v
          | .near k v => ∃ r ∈ candidates k v, h (out i) = toB16 (f32 r))

/-! ## Memory of a unit -/

/-- No stored word holds an upset or poison that a read could meet. -/
def clean (s : State) : Prop := s.upsets = [] ∧ s.poison = []

/-- Every byte outside these spans of unit u's memories (unit-local address, bytes) is as before. -/
def keepsOutside (u : UnitId) (spans : List (Nat × Nat)) (s t : State) : Prop :=
  ∀ j, (∀ e ∈ spans, j < unitAddr u e.1 ∨ unitAddr u e.1 + e.2 ≤ j) → t.readByte j = s.readByte j

/-- t differs from s only in unit u, in memory and in the poison bits of unit memory. -/
def onlyUnitMem (u : UnitId) (s t : State) : Prop :=
  t = { s with units := t.units, mem := t.mem, poison := t.poison } ∧ ∀ v, v ≠ u → t.unit v = s.unit v

/-- The accesses are aligned, in range and admitted by owner codes and slots (R139, R140, R188). -/
def admitted (s : State) (u : UnitId) (m : Master) (accs : List (Nat × Nat × Nat)) : Prop :=
  judgeAll s u m accs = .ok

/-- Nothing of the unit but its counter, wait and flags has changed. -/
def movedFlags (x y : UnitState) : Prop :=
  y = { moved x with nonfinite := y.nonfinite, intOvf := y.intOvf, invalid := y.invalid } ∧
  (x.nonfinite = true → y.nonfinite = true) ∧ (x.intOvf = true → y.intOvf = true) ∧ (x.invalid = true → y.invalid = true)

/-- What a unit that faults keeps and records (R186, R187), for a precise fault. -/
def faultedAt (u : UnitId) (cause : BitVec 7) (x : UnitState) (s t : State) : Prop :=
  t.unit u = { x with status := .faulted, arming := none, wait := .none, faultValid := true, faultCause := cause,
                      faultPc := x.pc, stopPc := x.pc, faultBeat := s.unitBeat u } ∧
  (∀ v, v ≠ u → t.unit v = (fetched s u).unit v) ∧ t.mem = (fetched s u).mem ∧ t.cfg = s.cfg ∧ t.store = (fetched s u).store ∧
  ∃ e, t.host.events.head? = some e ∧ e.code = 0x0012 ∧ e.p = BitVec.ofNat 32 u.key ∧ e.c = cause.zeroExtend 16

/-- A row instruction (R172 to R177): with its formats, shape and accesses in order and no poison, it completes, and writes
only its output rows and, where it accumulates, its parameter gradients. A single row that overlaps no source in part and
accumulates nothing writes what Table 4.18 gives, in the output format. -/
def rowCompletes (c : UnitId → Instr) (op : Nat) : Prop :=
  ∀ (u : UnitId) (s : State), Issues 5 op u s →
    let x := (fetched s u).unit u
    let p := rowParam x (fetchedWord s u)
    let vec := fun (o : Option Nat) => match o with
      | some a => [(a, 4 * p.len)]
      | none => []
    let one := fun (o : Option Nat) (d : Word32) => match o with
      | some a => rowRead (fetched s u) u 0 a p.len
      | none => List.replicate p.len d
    clean s → notLast x → (p.xfmt = 0 ∨ p.xfmt = 3) → (p.yfmt = 0 ∨ p.yfmt = 3) → 0 < p.rows → 0 < p.len → p.len ≤ 1048576 →
    p.pitch % 4 = 0 → p.len * fmtBits p.xfmt / 8 ≤ p.pitch → p.len * fmtBits p.yfmt / 8 ≤ p.pitch →
    admitted (acting s u) u .vec ((List.range p.rows).flatMap fun r => rowReads op p r ++ rowWrites p r) →
    ∃ t, exec (c u) s = .next t ∧ t = { fetched s u with units := t.units, mem := t.mem, poison := t.poison, free := t.free } ∧
      (∀ v, v ≠ u → t.unit v = (fetched s u).unit v) ∧ movedFlags x (t.unit u) ∧
      keepsOutside u (((List.range p.rows).map fun r => (p.gout + r * p.pitch, p.len * fmtBits p.yfmt / 8)) ++
        (if rowBackward op && p.dgacc then vec p.dgamma ++ vec p.dbeta else [])) s t ∧
      (p.rows = 1 → rowOverlap op p = false → (rowBackward op && p.dgacc) = false →
        t.rawRead (unitAddr u p.gout) (p.len * fmtBits p.yfmt / 8) =
          packCodes (fmtBits p.yfmt) (((rowCompute op p 0 (rowRead (fetched s u) u p.xfmt p.gx p.len)
            (if rowBackward op then rowRead (fetched s u) u p.xfmt p.gdy p.len else []) (one p.gamma 0x3F800000)
            (one p.beta 0)).y.map fun v => (encElem p.yfmt none v).code)))

end Sys2Proof.Claim

open Sys2Proof Sys2Proof.Machine Sys2Proof.Claim

/-! ## The block -/

/-- A step takes the command at the front of the queue and answers what the command does with the rest of the queue in
place; with an empty queue the block idles (the model's choice, log entry 21). -/
def Obligations.StepRunsFrontCommand : Prop :=
  (∀ (c : Instr) (rest : List Instr) (s : State), s.pending = c :: rest → step s = exec c { s with pending := rest }) ∧
  ∀ s : State, s.pending = [] → step s = .next s

/-! ## Unit programs: the scalar class (Tables 4.4, 4.5) -/

/-- LI to SLTU write GD from GA, GB and IMM as Table 4.4 says and move on; GP0 keeps reading zero (Table 4.1); nothing else
of the module changes. -/
def Obligations.ScalarArithmetic : Prop :=
  writesGd .li 0x02 (fun _ _ i => i) ∧ writesGd .add 0x03 (fun a b _ => a + b) ∧ writesGd .addi 0x04 (fun a _ i => a + i) ∧
  writesGd .sub 0x05 (fun a b _ => a - b) ∧ writesGd .mul 0x06 (fun a b _ => a * b) ∧
  writesGd .and 0x07 (fun a b _ => a &&& b) ∧ writesGd .or 0x08 (fun a b _ => a ||| b) ∧
  writesGd .xor 0x09 (fun a b _ => a ^^^ b) ∧ writesGd .shl 0x0A (fun a b _ => a <<< (b &&& 63).toNat) ∧
  writesGd .shr 0x0B (fun a b _ => a >>> (b &&& 63).toNat) ∧
  writesGd .sra 0x0C (fun a b _ => a.sshiftRight (b &&& 63).toNat) ∧
  writesGd .slt 0x0D (fun a b _ => if a.toInt < b.toInt then 1 else 0) ∧
  writesGd .sltu 0x0E (fun a b _ => if a.toNat < b.toNat then 1 else 0)

/-- NOP, jumps, CALL and RET move the counter as Table 4.4 says and change nothing but GA (DBNZ) and the call stack. -/
def Sys2Proof.Claim.ScalarControl : Prop :=
  changesUnit .nop 0 0x01 (fun x _ => notLast x) (fun x _ => moved x) ∧
  changesUnit .jmp 0 0x20 (fun _ _ => True) (fun x w => jumped x (w.extractLsb' 0 12)) ∧
  changesUnit .beqz 0 0x21 (fun x w => x.gpGet (ga w) = 0 ∨ notLast x)
    (fun x w => if x.gpGet (ga w) = 0 then jumped x (w.extractLsb' 0 12) else moved x) ∧
  changesUnit .bnez 0 0x22 (fun x w => x.gpGet (ga w) ≠ 0 ∨ notLast x)
    (fun x w => if x.gpGet (ga w) ≠ 0 then jumped x (w.extractLsb' 0 12) else moved x) ∧
  changesUnit .dbnz 0 0x23 (fun x w => (ga w ≠ 0 ∧ x.gpGet (ga w) ≠ 1) ∨ notLast x)
    (fun x w => if ga w ≠ 0 ∧ x.gpGet (ga w) ≠ 1 then jumped (x.gpSet (ga w) (x.gpGet (ga w) - 1)) (w.extractLsb' 0 12)
      else moved (x.gpSet (ga w) (x.gpGet (ga w) - 1))) ∧
  changesUnit .call 0 0x24 (fun x _ => x.calls.length < 8)
    (fun x w => jumped { x with calls := (x.pc + 1) :: x.calls } (w.extractLsb' 0 12)) ∧
  changesUnit .ret 0 0x25 (fun x _ => x.calls ≠ []) (fun x _ => jumped { x with calls := x.calls.tail } (x.calls.headD 0))

/-- WHSET writes a whey register, END stops issue until the program's work is complete (R136), and GETS reads the special
values of Table 4.5. -/
def Sys2Proof.Claim.ScalarSpecial : Prop :=
  changesUnit .whset 0 0x2A (fun x _ => notLast x)
    (fun x w => moved { x with wh := tput 0 (fld w 112 110) (x.gpGet (gb w) ++ x.gpGet (ga w)) x.wh }) ∧
  changesUnit .endInstr 0 0x3F (fun _ _ => True) (fun x w => { x with wait := .ended (w.getLsbD 0) }) ∧
  ∀ (u : UnitId) (s : State), Issues 0 0x28 u s →
    let x := (fetched s u).unit u
    let k := fld (fetchedWord s u) 7 0
    let v : Word64 :=
      if k = 0 then (s.unitBeat u).zeroExtend 64 else if k = 1 then x.launchBeat.zeroExtend 64
      else if k = 2 then BitVec.ofNat 64 (256 * u.die.val + u.num.val)
      else if k = 3 then BitVec.ofNat 64 (x.canon.toNat + 2 * x.replay.toNat)
      else if k = 4 then ((fetched s u).counter (unitOff u 0x34)).zeroExtend 64 else 0
    notLast x → ∃ t, exec (.gets u) s = .next t ∧ onlyUnit u (moved (x.gpSet (gd (fetchedWord s u)) v)) (fetched s u) t

/-- FLAGS reads the sticky flags of the unit and of SH0 to SH3 of its cluster into GD, and clears those that IMM[15:7]
names; it changes nothing else. -/
def Sys2Proof.Claim.FlagsReadsAndClears : Prop :=
  ∀ (u : UnitId) (s : State), Issues 0 0x29 u s →
    let x := (fetched s u).unit u
    let w := fetchedWord s u
    let nf := fun (k : Fin 8) => ((fetched s u).sh ⟨u.cluster, k⟩).nf
    let v := x.nonfinite.toNat * 2 ^ 7 + x.intOvf.toNat * 2 ^ 8 + x.invalid.toNat * 2 ^ 9 + x.lateWait.toNat * 2 ^ 10 +
      x.semOvf.toNat * 2 ^ 11 + (nf 0).toNat * 2 ^ 12 + (nf 1).toNat * 2 ^ 13 + (nf 2).toNat * 2 ^ 14 + (nf 3).toNat * 2 ^ 15
    notLast x →
    ∃ t, exec (.flags u) s = .next t ∧ t = { fetched s u with units := t.units, shuttles := t.shuttles } ∧
      (∀ o, o ≠ u → t.unit o = (fetched s u).unit o) ∧
      t.unit u = moved { x.gpSet (gd w) (BitVec.ofNat 64 v) with
        nonfinite := x.nonfinite && !w.getLsbD 7, intOvf := x.intOvf && !w.getLsbD 8, invalid := x.invalid && !w.getLsbD 9,
        lateWait := x.lateWait && !w.getLsbD 10, semOvf := x.semOvf && !w.getLsbD 11 } ∧
      (∀ k : Fin 8, k.val < 4 → t.sh ⟨u.cluster, k⟩ =
        { (fetched s u).sh ⟨u.cluster, k⟩ with nf := nf k && !w.getLsbD (12 + k.val) }) ∧
      (∀ h : ShuttleId, h.cluster ≠ u.cluster ∨ 4 ≤ h.k.val → t.sh h = (fetched s u).sh h)

/-- The loads of the scalar class and VLD: with the access admitted and no poison, the register takes the bytes (R7) and
nothing else changes. The effective address of SLD and WHLD is GA + IMM, that of a lane of VLD GA + IMM[31:0] + 4 i
IMM[47:32]. -/
def Sys2Proof.Claim.UnitLoads : Prop :=
  (∀ (u : UnitId) (s : State), Issues 0 0x10 u s →
    let x := (fetched s u).unit u
    let w := fetchedWord s u
    let a := (x.gpGet (ga w) + imm64 w).toNat
    clean s → notLast x → admitted (acting s u) u .scalar [(a, 8, 8)] →
    ∃ t, exec (.sld u) s = .next t ∧
      onlyUnit u (moved (x.gpSet (gd w) (BitVec.ofNat 64 (leNat (s.rawRead (unitAddr u a) 8))))) (fetched s u) t) ∧
  (∀ (u : UnitId) (s : State), Issues 0 0x2B u s →
    let x := (fetched s u).unit u
    let w := fetchedWord s u
    let a := (x.gpGet (ga w) + imm64 w).toNat
    clean s → notLast x → admitted (acting s u) u .scalar [(a, 16, 16)] →
    ∃ t, exec (.whld u) s = .next t ∧ onlyUnit u (moved { x with
      wh := tput 0 (fld w 112 110) (BitVec.ofNat 128 (leNat (s.rawRead (unitAddr u a) 16))) x.wh }) (fetched s u) t) ∧
  ∀ (u : UnitId) (s : State), Issues 2 0x01 u s →
    let x := (fetched s u).unit u
    let w := fetchedWord s u
    clean s → notLast x → admitted (acting s u) u .vec ((List.range 128).map fun i => (laneAddr x w i, 4, 4)) →
    ∃ t y, exec (.vld u) s = .next t ∧ onlyUnit u y (fetched s u) t ∧
      vectorDone x (vD w) (fun i => BitVec.ofNat 32 (leNat (s.rawRead (unitAddr u (laneAddr x w i)) 4))) false false false y

/-- The stores of the scalar class and VST: SST stores GB at GA + IMM; VST stores the lanes that whey does not protect
(R182), each at its own address, a later lane over an earlier one. Every other byte of memory and every register but the
counter keeps its value. -/
def Sys2Proof.Claim.UnitStores : Prop :=
  (∀ (u : UnitId) (s : State), Issues 0 0x11 u s →
    let x := (fetched s u).unit u
    let w := fetchedWord s u
    let a := (x.gpGet (ga w) + imm64 w).toNat
    notLast x → admitted (acting s u) u .scalar [(a, 8, 8)] →
    ∃ t, exec (.sst u) s = .next t ∧ (∀ v, v ≠ u → t.unit v = (fetched s u).unit v) ∧ t.unit u = moved x ∧
      t.rawRead (unitAddr u a) 8 = leBytes 8 (x.gpGet (gb w)).toNat ∧
      ∀ j, j < unitAddr u a ∨ unitAddr u a + 8 ≤ j → t.readByte j = (fetched s u).readByte j) ∧
  ∀ (u : UnitId) (s : State), Issues 2 0x02 u s →
    let x := (fetched s u).unit u
    let w := fetchedWord s u
    let stored := fun i => !(bitOf w 81 && (tget 0 x.wh (fld w 80 78)).getLsbD i)
    clean s → notLast x → admitted (acting s u) u .vec ((List.range 128).map fun i => (laneAddr x w i, 4, 4)) →
    ∃ t, exec (.vst u) s = .next t ∧ onlyUnitMem u (fetched s u) t ∧ t.unit u = moved x ∧
      (∀ i, i < 128 → stored i = true →
        (∀ k, i < k → k < 128 → stored k = true →
          laneAddr x w k + 4 ≤ laneAddr x w i ∨ laneAddr x w i + 4 ≤ laneAddr x w k) →
        t.rawRead (unitAddr u (laneAddr x w i)) 4 = leBytes 4 (x.lane (vA w) i).toNat) ∧
      keepsOutside u (((List.range 128).filter stored).map fun i => (laneAddr x w i, 4)) s t

/-! ## Unit programs: the vector engine (Tables 4.8 to 4.13) -/

/-- VADD, VSUB, VMUL, VFMA, VMAX, VMIN, VABS, VNEG (R147). -/
def Sys2Proof.Claim.VectorArithmetic : Prop :=
  laneArithmetic .vadd 0x10 2 (fun a b _ => a.add b) (fun a b _ => a + b) ∧
  laneArithmetic .vsub 0x11 2 (fun a b _ => a.sub b) (fun a b _ => a - b) ∧
  laneArithmetic .vmul 0x12 2 (fun a b _ => a.mul b) (fun a b _ => a * b) ∧
  laneArithmetic .vfma 0x13 3 (fun a b c => (a.mul b).add c) (fun a b c => a * b + c) ∧
  laneArithmetic .vmax 0x14 2 (fun a b _ => a.max b) (fun a b _ => if b ≤ a then a else b) ∧
  laneArithmetic .vmin 0x15 2 (fun a b _ => a.min b) (fun a b _ => if a ≤ b then a else b) ∧
  laneArithmetic .vabs 0x16 1 (fun a _ _ => a.abs) (fun a _ _ => if a < 0 then -a else a) ∧
  laneArithmetic .vneg 0x17 1 (fun a _ _ => a.negate) (fun a _ _ => -a)

/-- VAND, VOR, VXOR, VSHL, VSHR work on I32 lanes; with another type they fault with VX_FORMAT (0x20), and the unit keeps
every register (R147). -/
def Sys2Proof.Claim.VectorBits : Prop :=
  (laneBits .vand 0x20 (fun a b => a &&& b) ∧ laneBits .vor 0x21 (fun a b => a ||| b) ∧
    laneBits .vxor 0x22 (fun a b => a ^^^ b) ∧ laneBits .vshl 0x23 (fun a b => a <<< (b &&& 31).toNat) ∧
    laneBits .vshr 0x24 (fun a b => a >>> (b &&& 31).toNat)) ∧
  ∀ (c : UnitId → Instr) (op : Nat), (c, op) ∈ [(Instr.vand, 0x20), (Instr.vor, 0x21), (Instr.vxor, 0x22), (Instr.vshl, 0x23),
      (Instr.vshr, 0x24)] →
    ∀ (u : UnitId) (s : State), Issues 2 op u s → vType (fetchedWord s u) ≠ 2 →
      let x := (fetched s u).unit u
      ∃ t, exec (c u) s = .next t ∧ (∀ v, v ≠ u → t.unit v = (fetched s u).unit v) ∧ t.mem = (fetched s u).mem ∧
        t.unit u = { x with status := .faulted, arming := none, wait := .none, faultValid := true, faultCause := 0x20,
                            faultPc := x.pc, stopPc := x.pc, faultBeat := s.unitBeat u }

/-- VBCAST, VCMP, VSEL, the reductions and VDROP. A comparison sets bit i of the whey register to lane i's result, a
B16×2 lane's when either half's holds; a reduction leaves its result in lane 0 and zero elsewhere (R149); a dropped
element is +0 and any other is multiplied by the F32 in IMM[63:32] (R151): a lane, or in B16×2 each half of one. That
VBCAST and VSEL, which form no result, raise no flag is the model's reading (log entry 48). -/
def Obligations.VectorSelectAndReduce : Prop :=
  (∀ (u : UnitId) (s : State), Issues 2 0x03 u s → notLast ((fetched s u).unit u) →
    let x := (fetched s u).unit u
    let w := fetchedWord s u
    ∃ t y, exec (.vbcast u) s = .next t ∧ onlyUnit u y (fetched s u) t ∧
      vectorDone x (vD w) (fun _ => (x.gpGet (vGA w)).extractLsb' 0 32) false false false y) ∧
  (∀ (u : UnitId) (s : State), Issues 2 0x28 u s → notLast ((fetched s u).unit u) →
    let x := (fetched s u).unit u
    let w := fetchedWord s u
    let k := fld w 2 0
    ∃ t y, exec (.vcmp u) s = .next t ∧ onlyUnit u y (fetched s u) t ∧ movedFlags { x with wh := y.wh } y ∧
      (∀ r, r ≠ vWreg w → tget 0 y.wh r = tget 0 x.wh r) ∧
      (∀ i, i < 128 → (tget 0 y.wh (vWreg w)).getLsbD i = true ↔
        let a := x.lane (vA w) i
        let b := x.lane (vB w) i
        if vType w = 2 then (k = 0 ∧ a = b) ∨ (k = 1 ∧ a.toInt < b.toInt) ∨ (k = 2 ∧ a.toInt ≤ b.toInt)
        else if vType w = 0 then cmpVal k (f32 a) (f32 b) = true
        else cmpVal k (b16 (lo16 a)) (b16 (lo16 b)) = true ∨ cmpVal k (b16 (hi16 a)) (b16 (hi16 b)) = true)) ∧
  (∀ (u : UnitId) (s : State), Issues 2 0x29 u s → notLast ((fetched s u).unit u) →
    let x := (fetched s u).unit u
    let w := fetchedWord s u
    ∃ t y, exec (.vsel u) s = .next t ∧ onlyUnit u y (fetched s u) t ∧
      vectorDone x (vD w) (fun i => if (tget 0 x.wh (vWreg w)).getLsbD i then x.lane (vA w) i else x.lane (vB w) i)
        false false false y) ∧
  (∀ (c : UnitId → Instr) (op : Nat) (f : Word32 → Word32 → Word32) (g : Int → Int → Int),
    (c = Instr.vrsum ∧ op = 0x30 ∧ f = f32Add ∧ g = fun a b => a + b) ∨
      (c = Instr.vrmax ∧ op = 0x31 ∧ f = f32Max ∧ g = fun a b => max a b) ∨
      (c = Instr.vrmin ∧ op = 0x32 ∧ (f = fun a b => toF32 ((f32 a).min (f32 b))) ∧ g = fun a b => min a b) →
    ∀ (u : UnitId) (s : State), Issues 2 op u s → notLast ((fetched s u).unit u) →
      let x := (fetched s u).unit u
      let w := fetchedWord s u
      let ls := (List.range 128).map fun i => x.lane (vA w) i
      ∃ t y r nf ov, exec (c u) s = .next t ∧ onlyUnit u y (fetched s u) t ∧
        vectorDone x (vD w) (fun i => if i = 0 then r else 0) nf ov false y ∧
        (vType w = 0 → r = foldTree f 0 7 ls) ∧
        (vType w = 1 → r = foldTree f 0 8 (ls.flatMap fun v => [toF32 (b16 (lo16 v)), toF32 (b16 (hi16 v))])) ∧
        (vType w = 2 → r = foldTree (fun a b => BitVec.ofInt 32 (g a.toInt b.toInt)) 0 7 ls)) ∧
  (∀ (u : UnitId) (s : State), Issues 2 0x38 u s → notLast ((fetched s u).unit u) → vType (fetchedWord s u) ≠ 2 →
    let x := (fetched s u).unit u
    let w := fetchedWord s u
    let draw := fun (i : Nat) => drawAt s ((x.gpGet (vGA w)).extractLsb' 0 32) ((x.gpGet (vGA w)).extractLsb' 32 16) 1
      ((x.gpGet (vGB w)).extractLsb' 0 48 + BitVec.ofNat 48 i)
    ∃ t y nf, exec (.vdrop u) s = .next t ∧ onlyUnit u y (fetched s u) t ∧
      let kept := fun (n : Nat) => fld w 15 0 ≤ (draw n).toNat
      let half := fun (h : BitVec 16) (n : Nat) => if kept n then toB16 ((b16 h).mul (f32 (w.extractLsb' 32 32))) else 0
      vectorDone x (vD w) (fun i =>
        let v := x.lane (vA w) i
        if vType w = 0 then if kept i then toF32 ((f32 v).mul (f32 (w.extractLsb' 32 32))) else 0
        else half (hi16 v) (2 * i + 1) ++ half (lo16 v) (2 * i)) nf false false y)

/-- The special functions (Table 4.13). -/
def Sys2Proof.Claim.SpecialFunctions : Prop :=
  specialLanes .exp2 0x01 ∧ specialLanes .log2 0x02 ∧ specialLanes .rcp 0x03 ∧ specialLanes .rsqrt 0x04 ∧
  specialLanes .sqrt 0x05 ∧ specialLanes .sinpi 0x06 ∧ specialLanes .cospi 0x07 ∧ specialLanes .tanh 0x08 ∧
  specialLanes .sigmoid 0x09 ∧ specialLanes .erf 0x0A

/-- The row instructions (Table 4.18). -/
def Sys2Proof.Claim.RowInstructions : Prop :=
  rowCompletes .rownormL 0x01 ∧ rowCompletes .rownormR 0x02 ∧ rowCompletes .rowsmax 0x03 ∧ rowCompletes .rowrecompL 0x11 ∧
  rowCompletes .rowrecompR 0x12 ∧ rowCompletes .rowrecompS 0x13

/-- VCVT converts lanes between F32 and I32 (R154). CVT with unscaled formats, without stochastic rounding, converts GA's n
elements, each multiplied by 2 to the power EXP and rounded once to the destination format, writes them at the destination
and nothing else in memory; with n = 0 it writes nothing. -/
def Obligations.Conversions : Prop :=
  (∀ (u : UnitId) (s : State), Issues 3 0x02 u s →
    let x := (fetched s u).unit u
    let w := fetchedWord s u
    notLast x → ((cvSfmt w = 0 ∧ cvDfmt w = 9) ∨ (cvSfmt w = 9 ∧ cvDfmt w = 0)) → cvRnd w = false →
    ∃ t y nf ov inv, exec (.vcvt u) s = .next t ∧ onlyUnit u y (fetched s u) t ∧
      vectorDone x (fld w 96 92) (fun i => if cvDfmt w = 0 then toF32 (Val.ofInt (x.lane (fld w 101 97) i).toInt)
        else BitVec.ofNat 32 (encElem 9 none (f32 (x.lane (fld w 101 97) i))).code) nf ov inv y) ∧
  (∀ (u : UnitId) (s : State), Issues 3 0x01 u s →
    let x := (fetched s u).unit u
    let w := fetchedWord s u
    let a := cvtAddr x w
    let n := (x.gpGet (fld w 91 87)).toNat
    clean s → notLast x → cvSfmt w < 14 → cvDfmt w < 14 → rndOk (cvDfmt w) (cvRnd w) = true → n ≤ 16777216 →
    admitted (acting s u) u .vec (cvtReads a (cvSfmt w) (cvDfmt w) n ++ cvtWrites a (cvDfmt w) n) →
    ∃ t, exec (.cvt u) s = .next t ∧
      t = { fetched s u with units := t.units, mem := t.mem, poison := t.poison, counters := t.counters } ∧
      (∀ v, v ≠ u → t.unit v = (fetched s u).unit v) ∧ movedFlags x (t.unit u) ∧
      keepsOutside u (((a.dst, destBytes (cvDfmt w) n) :: (if fmtBlock (cvDfmt w) then [(a.dscale, blocksOf n)] else [])) ++
        (if cvDfmt w = 13 then [(a.resid, 4 * n)] else [])) s t ∧
      (fmtBlock (cvSfmt w) = false → fmtBlock (cvDfmt w) = false → cvRnd w = false →
        t.rawRead (unitAddr u a.dst) (tensorBytes (cvDfmt w) n) = packCodes (fmtBits (cvDfmt w))
          ((elemsOf (fmtBits (cvSfmt w)) n (s.rawRead (unitAddr u a.src) (tensorBytes (cvSfmt w) n))).map fun c =>
            (encElem (cvDfmt w) none ((elemVal (cvSfmt w) c).scale (cvExp w))).code)))

/-! ## Unit programs: the matrix class (Table 4.6) -/

/-- A matrix instruction that passes the checks of Table 3.9 joins its group's queue when no earlier one is queued on any of
its arrays (R86), with its whey register and scale bases as they stand; else it waits at issue. -/
def Sys2Proof.Claim.MatrixIssue : Prop :=
  (∀ (u : UnitId) (s : State), Issues 1 0x01 u s →
    let x := (fetched s u).unit u
    let w := fetchedWord s u
    let o : MxOp := ⟨x.pc, w, x.gpGet (fld w 67 63), tget 0 x.wh (fld w 70 68)⟩
    notLast x → mxCheck x w = 0 →
    ((∀ q ∈ x.mxQueue, ∀ a ∈ groupArrays (mxGroup q.word), a ∉ groupArrays (mxGroup w)) →
      ∃ t, exec (.mx u) s = .next t ∧ onlyUnit u (moved { x with mxQueue := x.mxQueue ++ [o] }) (fetched s u) t) ∧
    ((∃ q ∈ x.mxQueue, ∃ a ∈ groupArrays (mxGroup q.word), a ∈ groupArrays (mxGroup w)) →
      ∃ t, exec (.mx u) s = .next t ∧ onlyUnit u { x with wait := .mx o } (fetched s u) t)) ∧
  ∀ (u : UnitId) (s : State) (o : MxOp), s.isReady = true → (s.unit u).status = .running → (s.unit u).wait = .mx o →
    notLast (s.unit u) → (∀ q ∈ (s.unit u).mxQueue, ∀ a ∈ groupArrays (mxGroup q.word), a ∉ groupArrays (mxGroup o.word)) →
    ∃ t, exec (.mxQueueJoin u) s = .next t ∧
      onlyUnit u (moved { s.unit u with mxQueue := (s.unit u).mxQueue ++
        [⟨(s.unit u).pc, o.word, (s.unit u).gpGet (fld o.word 67 63), tget 0 (s.unit u).wh (fld o.word 70 68)⟩] }) s t

/-- Bytes of spans of unit u, as they stand in s. -/
def Sys2Proof.Claim.spanBytes (s : State) (u : UnitId) (sp : List (Nat × Nat)) : List Byte :=
  sp.flatMap fun e => s.rawRead (unitAddr u e.1) e.2

/-- The run of an instruction outside canonical mode that has made its first n steps over the memory of s. -/
def Sys2Proof.Claim.mxLoaded (s : State) (u : UnitId) (o : MxOp) (n : Nat) : MxRun :=
  let part := fun (p : MxPart) => (List.range n).flatMap fun i =>
    ((mxPlan o i).filter fun e => e.1 == p).map fun e => spanBytes s u e.2
  ⟨o, n, none, [], (s.unit u).openCanon (mxDst o.word), part .stat, part .sscale, part .aimg, part .ascale, part .qimg⟩

/-- Every read of the first n steps lies in scratch and is admitted by the owner codes in force (R95). -/
def Sys2Proof.Claim.mxFed (s : State) (u : UnitId) (o : MxOp) (n : Nat) : Prop :=
  ∀ i < n, ∀ e ∈ mxPlan o i, ∀ sp ∈ e.2, sp.1 + sp.2 ≤ 0x180000 ∧ refusedBank s u sp.1 sp.2 .feed = none

/-- The front instruction of a group's queue starts when no running one uses its arrays, and loads its first chunk (R575).
A running instruction in fast order whose reads are admitted and sound completes: it writes only its destination tile, where
every element that whey does not protect becomes the sum of R111 to R114 with its prior value. One that has made its steps
leaves the running ones, which frees its tile. As it begins its last chunk the instruction chained to it begins to load its
first (R100), one cell row with each step. When its reads take place, and that a completion makes no more steps than a beat has
(R557), are the model's choices (log entries 10, 101). -/
def Sys2Proof.Claim.MatrixRun : Prop :=
  (∀ (u : UnitId) (g : Fin 7) (s : State) (o : MxOp),
    let x := s.unit u
    s.isReady = true → clean s → (x.mxQueue.find? fun q => mxGroup q.word == g.val) = some o → mxCanon o.word = false →
    (∀ r ∈ x.mxRun, ∀ a ∈ groupArrays (mxGroup r.op.word), a ∉ groupArrays g.val) →
    mxFed s u o (mxFill o.word) →
    ((∀ q ∈ x.mxPre, q.op ≠ o) ∨ ∃ k, k ≤ mxFill o.word ∧ (x.mxPre.find? fun q => q.op == o) = some { mxLoaded s u o k with prev := none }) →
    ∃ t, exec (.mxStart u g) s = .next t ∧ onlyUnit u { x with
      mxQueue := eraseFirst (· == o) x.mxQueue, mxPre := x.mxPre.filter fun q => q.op != o,
      mxRun := x.mxRun ++ [mxLoaded s u o (mxFill o.word)] } s t) ∧
  (∀ (u : UnitId) (g : Fin 7) (s : State) (o : MxOp) (k : Nat) (p : Option Canon),
    let x := s.unit u
    let w := o.word
    let fmt := mxFmtC w
    s.isReady = true → clean s → (x.mxRun.find? fun q => mxGroup q.op.word == g.val) = some { mxLoaded s u o k with prev := p } →
    mxCanon w = false → pairOk (mxFmtS w) (mxFmtA w) fmt = true → mxDst w % tileSlots (mxGroup w) fmt = 0 →
    ((fmtBlock (mxFmtS w) || fmtBlock (mxFmtA w)) = true → mxK w % 32 = 0 ∧ mxDir w ≠ 2) →
    k < mxFill w + mxRowCount w → mxSteps w - k ≤ mxBeatSteps s.pwr.level w → mxFed s u o (mxSteps w) →
    (∀ q, q ∈ x.mxQueue ∨ q ∈ x.mxPre.map (·.op) → mxFed s u q (mxFill q.word)) →
    ∃ t, exec (.mxComplete u g) s = .next t ∧ onlyUnitMem u s t ∧
      t.unit u = { x with mxRun := x.mxRun.filter (·.op != o), mxPre := (t.unit u).mxPre, nonfinite := (t.unit u).nonfinite,
                          intOvf := (t.unit u).intOvf } ∧
      keepsOutside u [(0x200000 + 16384 * mxDst w, 16384 * tileSlots (mxGroup w) fmt)] s t ∧
      ∀ r n, r < groupEdge (mxGroup w) → n < groupCols (mxGroup w) →
        readElem t u (mxDst w) fmt (groupCols (mxGroup w)) r n =
          if isWhey (fld w 72 71) o.whey r n then readElem s u (mxDst w) fmt (groupCols (mxGroup w)) r n
          else
            let run := mxLoaded s u o (mxSteps w)
            (mxElement o ((List.range (mxK w)).map (mxA run r)) ((List.range (mxK w)).map fun i => mxS run i n)
              (readElem s u (mxDst w) fmt (groupCols (mxGroup w)) r n) []).1) ∧
  (∀ (u : UnitId) (g : Fin 7) (s : State) (r : MxRun), s.isReady = true →
    ((s.unit u).mxRun.find? fun q => mxGroup q.op.word == g.val) = some r → mxCanon r.op.word = false →
    mxSteps r.op.word ≤ r.step →
    ∃ t, exec (.mxComplete u g) s = .next t ∧
      onlyUnit u { s.unit u with mxRun := (s.unit u).mxRun.filter (·.op != r.op) } s t) ∧
  ∀ (u : UnitId) (r : MxRun) (o : MxOp) (k : Nat) (s : State),
    let x := s.unit u
    let run := { mxLoaded s u o k with prev := none }
    clean s → (x.mxPre.find? fun q => mxChains r.op.word q.op.word) = some run → mxFed s u o (mxFill o.word) →
    (mxFill r.op.word + mxLastChunk r.op.word ≤ r.step → r.step < mxFill r.op.word + mxRowCount r.op.word → k < mxFill o.word →
      onlyUnit u { x with mxPre := x.mxPre.map fun p => if p.op = o then { mxLoaded s u o (k + 1) with prev := none } else p } s
        (chainLoad u r s)) ∧
    (mxFill o.word ≤ k → chainLoad u r s = s)

/-- ACOMBINE outside canonical mode (R126): with its checks passed and its slots free and sound, it writes only its
destination tile, each element not protected by whey becoming the partial, added to the prior value unless this is a
first part under SET; FIRST and LAST open and close the combination on that tile. The causes of a part without an open
combination and of a source index, what a later part names, and the form of the result are the model's reading
(log entry 13). -/
def Obligations.Acombine : Prop :=
  ∀ (u : UnitId) (s : State), Issues 2 0x40 u s →
    let x := (fetched s u).unit u
    let w := fetchedWord s u
    let fmt := acFmt w
    clean s → notLast x → acCheck x w = 0 → x.mxQueue = [] → x.mxRun = [] → bitOf w 87 = false →
    ∃ t, exec (.acombine u) s = .next t ∧ onlyUnitMem u (fetched s u) t ∧ movedFlags { x with combs := (t.unit u).combs } (t.unit u) ∧
      (acLast w = true → ∀ c ∈ (t.unit u).combs, c.dst ≠ acDst w) ∧
      (acLast w = false → ∃ c ∈ (t.unit u).combs, c.dst = acDst w ∧ c.next = acPart w + 1) ∧
      keepsOutside u [(0x200000 + 16384 * acDst w, 16384 * acSlots w)] s t ∧
      ∀ r n, r < acRows w → n < acCols w →
        readElem t u (acDst w) fmt (acCols w) r n =
          if isWhey (fld w 78 77) (tget 0 x.wh (fld w 76 74)) r n then readElem s u (acDst w) fmt (acCols w) r n
          else (acElement fmt (!(acFirst w && acSet w)) (readElem s u (acDst w) fmt (acCols w) r n)
            (readElem s u (acSrc w) fmt (acCols w) r n) []).1

/-! ## Unit programs: shuttle issue and synchronisation (Tables 4.14, 4.15) -/

/-- SHISSUE hands the chain to its shuttle and counts it as outstanding (R158); the 33rd waits at issue and is handed over
once one has completed (R159). -/
def Sys2Proof.Claim.ShuttleIssue : Prop :=
  let chain := fun (u : UnitId) (x : UnitState) (w : InstrWord) =>
    (⟨u.slot, x.gpGet (fld w 111 107), fin16 (fld w 106 103), fin8 (fld w 102 100), x.replay⟩ : Chain)
  let handed := fun (u : UnitId) (x : UnitState) (w : InstrWord) (s t : State) =>
    t = { s with units := t.units, shuttles := t.shuttles } ∧ t.unit u = moved { x with shOut := x.shOut + 1 } ∧
    (∀ v, v ≠ u → t.unit v = s.unit v) ∧
    (let h : ShuttleId := ⟨u.cluster, fin8 (fld w 114 112)⟩
     t.sh h = { s.sh h with queue := (s.sh h).queue ++ [chain u x w] } ∧ ∀ k, k ≠ h → t.sh k = s.sh k)
  (∀ (u : UnitId) (s : State), Issues 6 0x01 u s →
    let x := (fetched s u).unit u
    notLast x → x.shOut < 32 → ∃ t, exec (.shissue u) s = .next t ∧ handed u x (fetchedWord s u) (fetched s u) t) ∧
  (∀ (u : UnitId) (s : State), Issues 6 0x01 u s → 32 ≤ ((fetched s u).unit u).shOut →
    ∃ t, exec (.shissue u) s = .next t ∧ onlyUnit u { (fetched s u).unit u with wait := .shissue } (fetched s u) t) ∧
  ∀ (u : UnitId) (s : State), s.isReady = true → (s.unit u).status = .running → (s.unit u).wait = .shissue →
    (s.unit u).shOut < 32 → notLast (s.unit u) →
    ∃ t, exec (.shissueWaitEnd u) s = .next t ∧ handed u (s.unit u) (s.instr u (s.unit u).pc.toNat) s t

/-- BWAIT for the present beat completes; for one that has passed (R31) it completes at once, sets LATE_WAIT and adds one to
the late counter (R42, R160); for a later one the unit waits, and BWAIT_COMPLETE lets it go on once the beat has come. -/
def Sys2Proof.Claim.BeatWait : Prop :=
  let beatOf := fun (x : UnitState) (w : InstrWord) =>
    if w.getLsbD 114 then x.launchBeat + w.extractLsb' 0 48 else (x.gpGet (fld w 113 109)).extractLsb' 0 48
  (∀ (u : UnitId) (s : State), Issues 7 0x01 u s →
    let x := (fetched s u).unit u
    let b := beatOf x (fetchedWord s u)
    (notLast x → (s.unitBeat u) = b → ∃ t, exec (.bwait u) s = .next t ∧ onlyUnit u (moved x) (fetched s u) t) ∧
    (notLast x → 0 < ((s.unitBeat u) - b).toInt → ∃ t, exec (.bwait u) s = .next t ∧
      t = { fetched s u with units := t.units, counters := t.counters } ∧ t.unit u = moved { x with lateWait := true } ∧
      (∀ v, v ≠ u → t.unit v = (fetched s u).unit v) ∧
      (t.counter (unitOff u 0x34)).toNat = min 0xFFFFFFFF (((fetched s u).counter (unitOff u 0x34)).toNat + 1)) ∧
    (((s.unitBeat u) - b).toInt < 0 → ∃ t, exec (.bwait u) s = .next t ∧ onlyUnit u { x with wait := .bwait b } (fetched s u) t)) ∧
  ∀ (u : UnitId) (b : Beat) (s : State), s.isReady = true → (s.unit u).status = .running → (s.unit u).wait = .bwait b →
    notLast (s.unit u) → (b - (s.unitBeat u)).toInt ≤ 0 →
    ∃ t, exec (.bwaitComplete u) s = .next t ∧ onlyUnit u (moved (s.unit u)) s t

/-- A barrier of the unit alone completes at once; the first member of a free barrier opens the episode and waits; the last
member to arrive lets every waiting member go on and frees the barrier (R161). A member that has waited CLU_BAR_TIMEOUT
beats faults with BAR_TIMEOUT (0x31), and the episode goes on without it (R162). -/
def Sys2Proof.Claim.Barriers : Prop :=
  (∀ (u : UnitId) (s : State), Issues 7 0x02 u s →
    let x := (fetched s u).unit u
    let w := fetchedWord s u
    let mask : BitVec 8 := w.extractLsb' 105 8
    let bit : BitVec 8 := 1 <<< u.slot.val
    let k := fld w 114 113
    (notLast x → mask = bit → s.episode u.cluster k = none →
      ∃ t, exec (.barrier u) s = .next t ∧ onlyUnit u (moved x) (fetched s u) t) ∧
    (mask ≠ bit → mask &&& bit ≠ 0 → s.episode u.cluster k = none →
      ∃ t, exec (.barrier u) s = .next t ∧ t = { fetched s u with units := t.units, clusters := t.clusters } ∧
        t.unit u = { x with wait := .barrier (fin4 k) (s.unitBeat u) } ∧ (∀ v, v ≠ u → t.unit v = (fetched s u).unit v) ∧
        t.episode u.cluster k = some ⟨mask, mask, bit⟩) ∧
    ∀ e, s.episode u.cluster k = some e → mask = e.mask → mask &&& bit ≠ 0 → e.need &&& ~~~(e.arrived ||| bit) = 0 →
      (∀ i : Fin 8, (e.arrived ||| bit).getLsbD i.val = true → notLast ((fetched s u).unit (u.cluster.unit i))) →
      ∃ t, exec (.barrier u) s = .next t ∧ t.episode u.cluster k = none ∧ t.unit u = moved x ∧
        ∀ i : Fin 8, u.cluster.unit i ≠ u → t.unit (u.cluster.unit i) =
          if e.arrived.getLsbD i.val && atBarrier s (u.cluster.unit i) k then moved (s.unit (u.cluster.unit i))
          else s.unit (u.cluster.unit i)) ∧
  ∀ (u : UnitId) (k : Fin 4) (b : Beat) (s : State), s.isReady = true → (s.unit u).status = .running →
    (s.unit u).wait = .barrier k b → (s.cfgReg (cluOff u.cluster 0)).toNat ≤ beatsSince (s.unitBeat u) b →
    (∀ e, s.episode u.cluster k.val = some e → e.need &&& ~~~e.arrived &&& ~~~((1 : BitVec 8) <<< u.slot.val) ≠ 0) →
    ∃ t, exec (.barTimeout u) s = .next t ∧ (∀ v, v ≠ u → t.unit v = s.unit v) ∧
      t.unit u = { s.unit u with status := .faulted, arming := none, wait := .none, faultValid := true, faultCause := 0x31,
                                 faultPc := (s.unit u).pc, stopPc := (s.unit u).pc, faultBeat := s.unitBeat u } ∧
      ∀ e, s.episode u.cluster k.val = some e → t.episode u.cluster k.val =
        some ⟨e.mask, e.need &&& ~~~((1 : BitVec 8) <<< u.slot.val), e.arrived &&& ~~~((1 : BitVec 8) <<< u.slot.val)⟩

/-- SEMWAIT subtracts its count from a semaphore that is at least that, waits below it, and faults on the error bit
(SH_ERROR, 0x33, the semaphore unchanged) or the overflow mark (SEM_OVF, 0x34, which it clears) (R163, R164); a waiting one
goes on once the count is there. SEMSET sets the count and clears both marks; SEMSIG sends its addition, which arrives in
issue order (R165) and stops at 65,535 with both overflow marks (R164). -/
def Sys2Proof.Claim.Semaphores : Prop :=
  (∀ (u : UnitId) (s : State), Issues 7 0x03 u s →
    let x := (fetched s u).unit u
    let w := fetchedWord s u
    let k := fld w 114 111
    let n := fld w 110 95
    let m := x.sem k
    (notLast x → m.err = false → m.ovf = false → n ≤ m.count.toNat →
      ∃ t, exec (.semwait u) s = .next t ∧
        onlyUnit u (moved (x.setSem k { m with count := m.count - BitVec.ofNat 16 n })) (fetched s u) t) ∧
    (m.err = false → m.ovf = false → m.count.toNat < n →
      ∃ t, exec (.semwait u) s = .next t ∧
        onlyUnit u { x with wait := .semwait (fin16 k) (BitVec.ofNat 16 n) } (fetched s u) t) ∧
    ((m.err = true ∨ m.ovf = true) → ∃ t, exec (.semwait u) s = .next t ∧ (t.unit u).status = .faulted ∧
      (t.unit u).faultCause = (if m.err then 0x33 else 0x34) ∧ (t.unit u).pc = x.pc ∧
      (t.unit u).sem k = (if m.err then m else { m with ovf := false }))) ∧
  (∀ (u : UnitId) (k : Fin 16) (n : BitVec 16) (s : State), s.isReady = true → (s.unit u).status = .running →
    (s.unit u).wait = .semwait k n → notLast (s.unit u) →
    let m := (s.unit u).sem k.val
    m.err = false → m.ovf = false → n.toNat ≤ m.count.toNat →
    ∃ t, exec (.semwaitWake u) s = .next t ∧
      onlyUnit u (moved ((s.unit u).setSem k.val { m with count := m.count - n })) s t) ∧
  changesUnit .semset 7 0x06 (fun x _ => notLast x)
    (fun x w => moved (x.setSem (fld w 114 111) ⟨(x.gpGet (fld w 110 106)).extractLsb' 0 16, false, false⟩)) ∧
  (∀ (u : UnitId) (s : State), Issues 7 0x04 u s → notLast ((fetched s u).unit u) →
    let w := fetchedWord s u
    ∃ t, exec (.semsig u) s = .next t ∧ t = { fetched s u with units := t.units, clusters := t.clusters } ∧
      t.unit u = moved ((fetched s u).unit u) ∧ (∀ v, v ≠ u → t.unit v = (fetched s u).unit v) ∧
      (t.clu u.cluster).sigs = (s.clu u.cluster).sigs ++
        [⟨u.slot, fin8 (fld w 110 108), fin16 (fld w 114 111), w.extractLsb' 92 16⟩]) ∧
  ∀ (src : UnitId) (tgt : Fin 8) (g : Sig) (pre post : List Sig) (s : State), s.isReady = true →
    (s.clu src.cluster).sigs = pre ++ g :: post → g.src = src.slot → g.tgt = tgt →
    (∀ q ∈ pre, q.src ≠ src.slot ∨ q.tgt ≠ tgt) →
    let v := src.cluster.unit tgt
    let m := (s.unit v).sem g.sem.val
    ∃ t, exec (.semsigArrival src tgt) s = .next t ∧ (t.clu src.cluster).sigs = pre ++ post ∧
      (t.unit v).sem g.sem.val = ⟨BitVec.ofNat 16 (min 65535 (m.count.toNat + g.count.toNat)), m.err,
        m.ovf || decide (65535 < m.count.toNat + g.count.toNat)⟩ ∧
      (t.unit v).semOvf = ((s.unit v).semOvf || decide (65535 < m.count.toNat + g.count.toNat)) ∧
      ∀ q, q ≠ v → t.unit q = s.unit q

/-- FENCE goes on at once when every class it names is complete, else it waits, and FENCE_COMPLETE lets it go on once they
are: the matrix queues and runs of the unit, its outstanding shuttle operations, its signals under way (R170). -/
def Sys2Proof.Claim.Fences : Prop :=
  let complete := fun (u : UnitId) (m : BitVec 4) (s : State) =>
    (m.getLsbD 0 = true → (s.unit u).mxQueue = [] ∧ (s.unit u).mxRun = []) ∧ (m.getLsbD 2 = true → (s.unit u).shOut = 0) ∧
    (m.getLsbD 3 = true → ∀ g ∈ (s.clu u.cluster).sigs, g.src ≠ u.slot)
  (∀ (u : UnitId) (s : State), Issues 7 0x05 u s →
    let x := (fetched s u).unit u
    let m : BitVec 4 := (fetchedWord s u).extractLsb' 111 4
    (notLast x → complete u m (fetched s u) → ∃ t, exec (.fence u) s = .next t ∧ onlyUnit u (moved x) (fetched s u) t) ∧
    (¬ complete u m (fetched s u) →
      ∃ t, exec (.fence u) s = .next t ∧ onlyUnit u { x with wait := .fence m } (fetched s u) t)) ∧
  ∀ (u : UnitId) (m : BitVec 4) (s : State), s.isReady = true → (s.unit u).status = .running → (s.unit u).wait = .fence m →
    notLast (s.unit u) → complete u m s →
    ∃ t, exec (.fenceComplete u) s = .next t ∧ onlyUnit u (moved (s.unit u)) s t

/-! ## Faults and the end of a program -/

/-- A word that R142 makes illegal faults with ILLEGAL (0x01) under a row of any class. The instruction at index 4,095 takes
effect before its PC_RANGE fault (0x02, R137). The ninth CALL and a RET from an empty stack fault with CALL_DEPTH (0x03,
R143), a load of a poisoned word with DATA_POISON (0x06, R188): in each case the unit keeps its registers. -/
def Sys2Proof.Claim.UnitFaults : Prop :=
  (∀ c ∈ [Instr.nop, Instr.mx, Instr.vadd, Instr.cvt, Instr.exp2, Instr.rowsmax, Instr.shissue, Instr.bwait],
    ∀ (u : UnitId) (s : State), canIssue s u = true → (touchInstr u (s.unit u).pc.toNat s).2 = false →
      illegal (fetchedWord s u) = true →
      ∃ t, exec (c u) s = .next t ∧ faultedAt u 0x01 ((fetched s u).unit u) s t) ∧
  (∀ (u : UnitId) (s : State), Issues 0 0x02 u s → ((fetched s u).unit u).pc = 4095 →
    ∃ t, exec (.li u) s = .next t ∧
      faultedAt u 0x02 (((fetched s u).unit u).gpSet (gd (fetchedWord s u)) (imm64 (fetchedWord s u))) s t) ∧
  (∀ (u : UnitId) (s : State), Issues 0 0x24 u s → 8 ≤ ((fetched s u).unit u).calls.length →
    ∃ t, exec (.call u) s = .next t ∧ faultedAt u 0x03 ((fetched s u).unit u) s t) ∧
  (∀ (u : UnitId) (s : State), Issues 0 0x25 u s → ((fetched s u).unit u).calls = [] →
    ∃ t, exec (.ret u) s = .next t ∧ faultedAt u 0x03 ((fetched s u).unit u) s t) ∧
  ∀ (u : UnitId) (s : State), Issues 0 0x10 u s → s.upsets = [] →
    let x := (fetched s u).unit u
    let a := (x.gpGet (ga (fetchedWord s u)) + imm64 (fetchedWord s u)).toNat
    admitted (acting s u) u .scalar [(a, 8, 8)] → s.wordPoison (unitAddr u a / 8) = true →
    ∃ t, exec (.sld u) s = .next t ∧ faultedAt u 0x06 x s t

/-- A fetch that finds an uncorrectable or poisoned half faults with IFETCH_ECC (0x05) before the word issues (R188), and the
unit keeps its registers. -/
def Sys2Proof.Claim.FetchFault : Prop :=
  ∀ (u : UnitId) (s : State), canIssue s u = true → (touchInstr u (s.unit u).pc.toNat s).2 = true →
    ∃ t, exec (.ifetchEcc u) s = .next t ∧
      faultedAt u 0x05 { (fetched s u).unit u with ifetchAt := (t.unit u).ifetchAt, ifetchTwice := (t.unit u).ifetchTwice } s t

/-- PROGRAM_END: once the matrix queues and runs and the outstanding shuttle operations of an ended program are done, the
unit records the beat and becomes IDLE, or ARMED when an arming waits; END with IMM[0] set in a launch that is no replay
sends PROGRAM_END with the unit and the launch beat (R136, R185). -/
def Sys2Proof.Claim.ProgramEnd : Prop :=
  ∀ (u : UnitId) (ev : Bool) (s : State), s.isReady = true → (s.unit u).status = .running → (s.unit u).wait = .ended ev →
    (s.unit u).mxQueue = [] → (s.unit u).mxRun = [] → (s.unit u).shOut = 0 →
    let x := s.unit u
    ∃ t, exec (.programEnd u) s = .next t ∧ (∀ v, v ≠ u → t.unit v = s.unit v) ∧ t.mem = s.mem ∧ t.cfg = s.cfg ∧
      t.unit u = { x with status := if x.arming.isSome then .armed else .idle, wait := .none, program := false,
                          endBeat := s.unitBeat u } ∧
      (ev = false ∨ x.replay = true → t = { s with units := t.units }) ∧
      (ev = true → x.replay = false → ∃ e, t.host.events.head? = some e ∧ e.code = 0x0010 ∧
        e.p = BitVec.ofNat 32 (256 * u.die.val + u.num.val) ∧ e.q = x.launchBeat)

/-- In a replay launch an instruction with EFX set of one of the rows of R184 retires without effect and adds one to
UNIT_SKIP_COUNT; a skipped SHISSUE adds one to its completion semaphore at once. -/
def Sys2Proof.Claim.ReplaySkips : Prop :=
  (∀ (c : UnitId → Instr) (cls op : Nat), (c, cls, op) ∈ [(Instr.mx, 1, 0x01), (Instr.vst, 2, 0x02), (Instr.acombine, 2, 0x40),
      (Instr.cvt, 3, 0x01), (Instr.rownormL, 5, 0x01), (Instr.rownormR, 5, 0x02), (Instr.rowsmax, 5, 0x03),
      (Instr.rowrecompL, 5, 0x11), (Instr.rowrecompR, 5, 0x12), (Instr.rowrecompS, 5, 0x13), (Instr.sst, 0, 0x11)] →
    ∀ (u : UnitId) (s : State), Fetches cls op u s → ((fetched s u).unit u).replay = true →
      (fetchedWord s u).getLsbD 115 = true → notLast ((fetched s u).unit u) →
      ∃ t, exec (c u) s = .next t ∧ t = { fetched s u with units := t.units, counters := t.counters } ∧
        t.unit u = moved ((fetched s u).unit u) ∧ (∀ v, v ≠ u → t.unit v = (fetched s u).unit v) ∧
        (t.counter (unitOff u 0x20)).toNat = min 0xFFFFFFFF (((fetched s u).counter (unitOff u 0x20)).toNat + 1)) ∧
  ∀ (u : UnitId) (s : State), Fetches 6 0x01 u s → ((fetched s u).unit u).replay = true →
    (fetchedWord s u).getLsbD 115 = true → notLast ((fetched s u).unit u) →
    let w := fetchedWord s u
    let v := u.cluster.unit (fin8 (fld w 102 100))
    let m := ((fetched s u).unit v).sem (fld w 106 103)
    m.count.toNat < 65535 →
    ∃ t, exec (.shissue u) s = .next t ∧ (t.unit u).pc = ((fetched s u).unit u).pc + 1 ∧ t.shuttles = s.shuttles ∧
      (t.unit v).sem (fld w 106 103) = ⟨m.count + 1, m.err, m.ovf⟩ ∧ (t.unit u).shOut = ((fetched s u).unit u).shOut

namespace Sys2Proof.Claim

/-! ## The whole module -/

/-- Commands that can reach the engine-queue range 0x2000_0000_0000, whose contents no chapter gives (Table 5.4). -/
def mayReachQueues : Instr → Prop
  | .memRead _ _ _ | .memWrite _ _ _ _ _ | .remoteWriteReceive _ | .copyDescriptor _ | .fillDescriptor _
  | .collectiveRs _ _ | .collectiveAg _ _ | .collectiveAr _ _ | .collectiveBc _ _ | .collectiveA2a _ _
  | .chainCommandRelease _ | .undecodedRequest _ _ _ _ _ => True
  | _ => False

/-- t differs from s only in the event log, its numbers, the alert bit, the datagrams sent and what R466 keeps of the
events that it counts. -/
def onlyEvents (s t : State) : Prop :=
  t = { s with
    sent := t.sent, ckp := { s.ckp with fails := t.ckp.fails, interval := t.ckp.interval },
    host := { s.host with events := t.host.events, esqA := t.host.esqA, esqB := t.host.esqB,
                          alertPending := t.host.alertPending } }

/-- The newest event of t has this code, severity, P, Q and C. -/
def newest (code : BitVec 16) (sev : BitVec 8) (p : Word32) (q : BitVec 48) (c : BitVec 16) (t : State) : Prop :=
  ∃ e, t.host.events.head? = some e ∧ e.code = code ∧ e.sev = sev ∧ e.p = p ∧ e.q = q ∧ e.c = c

/-- The module has entered the fault state (R27): no arming, heddle, lease or collective is left, the tray alert is up, and
memory and the beat counter keep their values. The event FAULT with the cause is the newest. -/
def faultLeft (cause : BitVec 8) (s t : State) : Prop :=
  t.boot.state = .fault ∧ t.boot.cause = cause ∧ t.beat = s.beat ∧ t.mem = s.mem ∧ t.trayAlert = true ∧
  (∀ u, (t.unit u).arming = none) ∧
  (∀ u, (s.unit u).arming.isSome = true → (s.unit u).status = .armed → (t.unit u).status = .idle) ∧
  t.fab.heddles = [] ∧ t.press.leases = [] ∧ t.snap.armed = [] ∧ t.col.opens = [] ∧
  newest 0x0001 2 0 0 (cause.zeroExtend 16) t

/-- The counter at an offset has gone up by n and stopped at 0xFFFF_FFFF (R513); every other counter is as before. -/
def counted (off n : Nat) (s t : State) : Prop :=
  (t.counter off).toNat = min 0xFFFFFFFF ((s.counter off).toNat + n) ∧ ∀ k, k ≠ off → t.counter k = s.counter k

/-- Unit state y is x after the start of a launched program: Table 4.1's values, GP1 to GP8 from the arguments (R133). -/
def startedAs (a : Arming) (n : Beat) (x y : UnitState) : Prop :=
  y = { x with status := .running, arming := none, canon := a.canon, replay := a.replay, launchBeat := n, pc := a.entry,
               gp := y.gp, vreg := [], wh := [], calls := [], wait := .none, unissued := a.beat.isNone, program := true } ∧
  ∀ r, y.gpGet r = if 1 ≤ r ∧ r ≤ 8 then a.args.getD (r - 1) 0 else 0

/-- A unit mask names unit u (R496). -/
abbrev named (m : BitVec 320) (u : UnitId) : Prop := m.getLsbD (160 * u.die.val + u.num.val) = true

/-- The module's memories of unit u, by address. -/
def inWindow (u : UnitId) (j : Nat) : Prop := unitAddr u 0 ≤ j ∧ j < unitAddr u 0 + 0x800000

/-! ## Host commands -/

/-- A command whose effect leads from s to x with payload and DETAIL as `post` says completes with status OK: the state after
it is x with the response and, where marked, the journal entry. -/
def completes (c : Instr) (h : Hdr) (op : HostOp) (own : State → Prop) (post : State → State → List Byte → Nat → Prop) : Prop :=
  ∀ s, Passes h op s → own s → ∃ x pay d, post s x pay d ∧ exec c s = .next (answered h op pay d s x)

/-- A command that meets this condition is refused with this status and DETAIL, and nothing of it is executed. -/
def refusesWith (c : Instr) (h : Hdr) (op : HostOp) (own : State → Prop) (st : Status) (d : Nat) : Prop :=
  ∀ s, Passes h op s → own s → exec c s = .next (turnedAway h op st d s)

/-- A command that completes with an empty payload, DETAIL 0 and the effect f. -/
def hasEffect (c : Instr) (h : Hdr) (op : HostOp) (own : State → Prop) (f : State → State) : Prop :=
  ∀ s, Passes h op s → own s → exec c s = .next (answered h op [] 0 s (f s))

end Sys2Proof.Claim

/-! ## The block as a whole -/

/-- No command is refused, and the only stop is the one at the engine queues. -/
def Sys2Proof.Claim.NoCommandRefused : Prop :=
  (∀ (c : Instr) (s : State) (r : Refusal), exec c s ≠ .refused r) ∧
  ∀ (c : Instr) (s : State) (f : Fault), exec c s = .fault f → mayReachQueues c

/-- A command takes nothing from the queue of waiting commands and puts nothing into it. -/
def Sys2Proof.Claim.QueueUntouched : Prop := ∀ (c : Instr) (s t : State), exec c s = .next t → t.pending = s.pending

/-- Every step keeps memory in its canonical form. The canonical form is the model's own (log entry 34); it makes equal
memories equal data. -/
def Obligations.MemoryStaysCanonical : Prop := ∀ s t : State, s.memOk → step s = .next t → t.memOk

/-- Every step keeps the newest 4,096 events (R503), 1,024 answers (R491) and 4,096 journal entries (R493) at most. -/
def Obligations.LogsStayBounded : Prop := ∀ s t : State, s.bounded → step s = .next t → t.bounded

/-- At reset memory is canonical and reads zero, the logs are empty, nothing waits, the beat counter is zero (R28), every unit
is IDLE, the module is in BOOT, every port DOWN, and the registers read the reset values of Tables 12.2 to 12.12 that are not
zero; the vendor key's hash is that of the factory image. That State.reset is the module as power is applied, what its OTP holds
and that memory reads zero before it is cleared are the model's choices (log entries 33, 34). -/
def Obligations.ResetState : Prop :=
  let s := State.reset
  s.memOk ∧ s.bounded ∧ s.pending = [] ∧ s.beat = 0 ∧ s.boot.state = .boot ∧ (∀ a, s.readByte a = 0) ∧
  (∀ u, (s.unit u).status = .idle ∧ (∀ b, (s.unit u).owner b = 0)) ∧ (∀ q, (s.port q).state = .down) ∧
  s.host.events = [] ∧ s.host.journal = [] ∧ s.host.outstanding = [] ∧
  (∀ e ∈ [(0x000000, (0x2460B000 : Word32)), (0x000024, 2), (0x000028, 47110), (0x000300, 0x0008A800), (0x010004, 0xC0180000),
      (0x010008, 64), (0x020080, 0x00100000), (0x020088, 0x00080201), (0x02008C, 3906), (0x020090, 3), (0x020094, 3906),
      (0x030020, 390625), (0x040000, 0x40008000), (0x040004, 0x007F0000), (0x040008, 1), (0x04000C, 0x3F666666),
      (0x040010, 0x3F333333), (0x040014, 47112), (0x040018, 491), (0x04001C, 491), (0x040020, 1000), (0x040024, 100),
      (0x040028, 2000), (0x04002C, 10000), (0x050024, 1800000), (0x070000, 1650), (0x080000, 30), (0x4FF000, 4)],
    regValue s e.1 = e.2) ∧
  (∀ q : Fin 10, regValue s (0x020040 + 4 * q.val) = 3) ∧ (∀ c : Fin 40, regValue s (0x100000 + 4096 * c.val) = 4194304) ∧
  s.otp.vendorHash = Config.sha256 (part Config.factoryImage 64 64)

/-- An event is numbered on each network, kept as the newest of at most 4,096, sets TOP_ALERT.PENDING where its severity is
ALERT, and changes nothing else but what R466 keeps; in BOOT none is sent (R503 to R505, R527). -/
def Obligations.Events : Prop :=
  ∀ (code : BitVec 16) (sev : BitVec 8) (p : Word32) (q : BitVec 48) (c : BitVec 16) (x : BitVec 96) (s : State),
    (s.boot.state = .boot → sendEvent code sev p q c x s = s) ∧
    (s.boot.state ≠ .boot →
      let t := sendEvent code sev p q c x s
      onlyEvents s t ∧ t.host.esqA = s.host.esqA + 1 ∧ t.host.esqB = s.host.esqB + 1 ∧
      t.host.alertPending = (s.host.alertPending || sev == 2) ∧
      t.host.events = (⟨(s.cfgReg 0x24).extractLsb' 0 4, code, sev, s.beat, p, q, c, x, s.host.esqA, s.host.esqB⟩ ::
        s.host.events).take 4096 ∧
      ∀ n : Fin 2, ∀ port, s.evtDest n = true → s.netPort n = some port →
        ∃ e, .event ⟨port, (s.cfgReg 0x2C).extractLsb' 0 12, s.evtAddr n, s.evtUdp n⟩ e ∈ t.sent ∧ e.code = code ∧ e.esqA = s.host.esqA ∧ e.esqB = s.host.esqB)

/-! ## Beats and the fault state (ch. 1) -/

/-- A beat boundary adds one to the beat counter and to every copy of it (R28, R29). With no matrix instruction running,
it changes nothing else but the counter of beats with withheld issue slots (R26), the samples of the router's ports
(R346) and the SNAPSHOTs of that beat: one that is armed for it, or that waits for a boundary, copies every counter and
names the beat (R33, R515). A SCRUB lease sweeps the DRAM granules in 60 s (R468): those due in a beat hold no upset
after it (their order is the model's choice, log entry 106). Without a running clock nothing happens. The copies move
with the master (log entry 88). -/
def Obligations.Beats : Prop :=
  let unswept := fun (s : State) => s.upsets = [] ∨ ∀ l ∈ s.press.leases, l.activity ≠ 1
  let copies := fun (s : State) =>
    { s.boot with regionBeats := s.boot.regionBeats.map (· + 1), fabBeats := s.boot.fabBeats.map (· + 1) }
  (∀ s : State, clockRuns s = true → ∃ t, exec .beatBoundary s = .next t ∧ t.beat = s.beat + 1 ∧ t.boot = copies s ∧
    t.fab.cmapNow.beats = s.fab.cmapNow.beats + 1) ∧
  (∀ s : State, clockRuns s = true → (∀ u, (s.unit u).mxRun = []) → unswept s → (∀ o ∈ s.host.outstanding, snapWaits o = false) →
    s.beat + 1 ∉ s.snap.armed →
    ∃ t, exec .beatBoundary s = .next t ∧
      t = { s with beat := s.beat + 1, boot := copies s, counters := t.counters,
                   fab := { s.fab with cmapNow := t.fab.cmapNow } } ∧
      (s.pwr.level = 0 → t.counters = s.counters) ∧ (s.pwr.level ≠ 0 → counted 0x070010 1 s t)) ∧
  (∀ s : State, clockRuns s = true → (∀ u, (s.unit u).mxRun = []) → s.beat + 1 ∈ s.snap.armed →
    ∃ t, exec .beatBoundary s = .next t ∧ t.snap.beat = s.beat + 1 ∧ t.snap.copies = t.counters ∧
      t.snap.armed = s.snap.armed.filter (· ≠ s.beat + 1)) ∧
  (∀ (s : State) (pre post : List Lease) (l : Lease), clockRuns s = true → s.press.leases = pre ++ l :: post →
    (∀ x ∈ pre, x.activity ≠ 1) → l.activity = 1 → ∃ t, exec .beatBoundary s = .next t ∧
      let n := (s.beat + 1 - l.since).toNat
      let swept := fun (k : Nat) => k * 5153960640 / 234375000
      ∀ g, swept (n - 1) ≤ g → g < swept n →
        let a := g % 192 / 24 * 0x4000000000 + (24 * (g / 192 % 26843545) + g % 192 % 24) * 256
        ∀ line ∈ [a, a + 64, a + 128, a + 192], s.linePoison line = false →
          ∀ e ∈ t.upsets, ∀ w, e.loc = .dram w → w < line / 8 ∨ line / 8 + 8 ≤ w) ∧
  (∀ (s : State) (o : Outstanding), clockRuns s = true → (∀ u, (s.unit u).mxRun = []) → unswept s →
    s.host.outstanding.filter snapWaits = [o] → o.hdr.chain = 0 → s.ethUp o.hdr.port.val = true →
    ∃ t r, exec .beatBoundary s = .next t ∧ t.snap.beat = s.beat + 1 ∧ t.snap.copies = t.counters ∧
      t.host.outstanding = s.host.outstanding.filter (fun o => !snapWaits o) ∧ t.sent = .resp r :: s.sent ∧ r.status = 0 ∧
      r.tag = o.hdr.tag ∧ r.seq = o.hdr.seq ∧ r.port = o.hdr.port ∧ r.payload = beBytes 6 (s.beat + 1).toNat ++ [0, 0]) ∧
  ∀ s : State, clockRuns s = false → exec .beatBoundary s = .next s

/-- Loss of a PLL's lock or of the reference clock, a region's copy of the beat counter that differs when it is checked every
4,096 beats (R30), and a memory channel past MEM_UE_LIMIT (R216) put the module into the fault state. Equal copies change
nothing. In the fault state these do nothing. -/
def Obligations.FaultState : Prop :=
  (∀ (ref : Bool) (s : State), clockRuns s = true →
    ∃ t, exec (.pllLockLoss ref) s = .next t ∧ faultLeft (if ref then 2 else 1) s t) ∧
  (∀ (up : Option (Fin 8 × Beat)) (s : State), clockRuns s = true → s.beat.toNat % 4096 = 0 →
    let copies := match up with
      | some (r, b) => s.boot.regionBeats.set r.val b
      | none => s.boot.regionBeats
    ((∀ b ∈ copies, b = s.beat) →
      exec (.beatSkewCheck up) s = .next { s with boot := { s.boot with regionBeats := copies } }) ∧
    ((∃ b ∈ copies, b ≠ s.beat) → ∃ t, exec (.beatSkewCheck up) s = .next t ∧ faultLeft 3 s t)) ∧
  (∀ (ch : Fin 192) (s : State), s.isReady = true →
    (s.cfgReg 0x010008).toNat % 65536 ≤
      ((tget [] s.memc.ueTimes ch.val).filter fun b => decide (beatsSince s.beat b ≤ 3906250)).length →
    ∃ t, exec (.memChannelFail ch) s = .next t ∧ faultLeft 5 s t) ∧
  ∀ (ref : Bool) (ch : Fin 192) (s : State), s.isFault = true →
    exec (.pllLockLoss ref) s = .next s ∧ exec (.beatSkewCheck none) s = .next s ∧ exec (.memChannelFail ch) s = .next s

/-! ## Launches (ch. 1, 4, 11) -/

/-- LAUNCH arms every named unit, with LBEAT as its launch beat or with none, and its answer waits (R37, R134). A unit that
holds an arming or is FAULTED refuses it, the first in mask order deciding (R38, R498); an unverified restore refuses all
(R458). -/
def Sys2Proof.Claim.Launch : Prop :=
  ∀ (h : Hdr) (p : LaunchReq) (s : State), Passes h (.launch p) s →
    let beat := if (revHdr h).lbv then some (revHdr h).lbeat else none
    (s.ckp.unverified = false → (∀ u, named p.umask u → (s.unit u).arming = none ∧ (s.unit u).status ≠ .faulted) →
      ∃ x, exec (.launch h p) s = .next (leftWaiting h (.launch p) x) ∧ x = { s with units := x.units } ∧
        (∀ u, ¬named p.umask u → x.unit u = s.unit u) ∧
        ∀ u, named p.umask u → x.unit u = { s.unit u with
          arming := some ⟨beat, false, 0, false, p.entry, p.replay, p.canon, p.args⟩,
          status := if (s.unit u).status = .idle then .armed else (s.unit u).status }) ∧
    (s.ckp.unverified = true → exec (.launch h p) s = .next (turnedAway h (.launch p) .unverified 0 s)) ∧
    ∀ u, s.ckp.unverified = false → named p.umask u →
      (∀ v, named p.umask v → v.key < u.key → (s.unit v).arming = none ∧ (s.unit v).status ≠ .faulted) →
      ((s.unit u).arming.isSome = true → exec (.launch h p) s = .next (turnedAway h (.launch p) .launchConflict 0 s)) ∧
      ((s.unit u).arming = none → (s.unit u).status = .faulted →
        exec (.launch h p) s = .next (turnedAway h (.launch p) .unitFaulted 0 s))

/-- ARMING_DONE acknowledges the oldest command that waits for its arming (R37). Of a LAUNCH with a launch beat the named
units hold the beat at which they were reached; without one, a unit that can start does so at once, and another is late
(R134). The answer to a SNAPSHOT names its beat. -/
def Sys2Proof.Claim.ArmingDone : Prop :=
  ∀ (pre post : List Outstanding) (o : Outstanding) (s : State), s.isReady = true → s.host.outstanding = pre ++ o :: post →
    (∀ q ∈ pre, arms q = false) → arms o = true → o.hdr.chain = 0 → s.ethUp o.hdr.port.val = true →
    ∃ t r, exec .armingDone s = .next t ∧ t.host.outstanding = pre ++ post ∧ t.sent = .resp r :: s.sent ∧ r.status = 0 ∧
      r.opcode = cmdCode o.op ∧ r.tag = o.hdr.tag ∧ r.seq = o.hdr.seq ∧ r.port = o.hdr.port ∧
      r.payload = (match o.op with
        | .snapshot => beBytes 6 o.hdr.lbeat.toNat ++ [0, 0]
        | _ => []) ∧
      t = { s with
        units := t.units, sent := t.sent,
        host := { s.host with outstanding := t.host.outstanding, cache := t.host.cache, journal := t.host.journal,
                              jnlHead := s.host.jnlHead + if markJ (cmdCode o.op) then 1 else 0 } } ∧
      ((∀ p, o.op ≠ .launch p) → t.units = s.units) ∧
      ∀ p, o.op = .launch p → (∀ u, ¬named p.umask u → t.unit u = s.unit u) ∧ ∀ u a, named p.umask u → (s.unit u).arming = some a →
        let a' := { a with reached := true, reachedAt := s.unitBeat u }
        (a.beat.isSome = true → t.unit u = { s.unit u with arming := some a' }) ∧
        (a.beat = none → canStart s u = true → startedAs a (s.unitBeat u) (s.unit u) (t.unit u)) ∧
        (a.beat = none → canStart s u = false → t.unit u = { s.unit u with arming := some { a' with late := true } })

/-- When the armed beat comes (R34), every unit that is armed for it and whose command has been acknowledged starts its
program, or, where it still runs, is FAULTED or is being replaced, is late (R39). Nothing else changes. An armed
collective leaves the armed phase. -/
def Sys2Proof.Claim.LaunchAtBeat : Prop :=
  (∀ s : State, s.isReady = true → (∀ c ∈ s.col.opens, c.phase ≠ .armed) →
    let due := fun (u : UnitId) (a : Arming) =>
      a.reached = true ∧ a.late = false ∧ ∃ n, a.beat = some n ∧ (n - s.unitBeat u).toInt ≤ 0
    ∃ t, exec .launchAtBeat s = .next t ∧ t = { s with units := t.units } ∧
      (∀ u, (∀ a, (s.unit u).arming = some a → ¬due u a) → t.unit u = s.unit u) ∧
      ∀ u a n, (s.unit u).arming = some a → due u a → a.beat = some n →
        (canStart s u = true → startedAs a n (s.unit u) (t.unit u)) ∧
        (canStart s u = false → t.unit u = { s.unit u with arming := some { a with late := true } })) ∧
  ∀ (s : State) (c : Coll) (n : Beat), s.isReady = true → s.units = [] → s.col.opens = [c] →
    c.op = .ag → c.phase = .armed → c.launch = some n → (n - s.collBeat).toInt ≤ 0 → c.req.close = 2 →
    ∃ t, exec .launchAtBeat s = .next t ∧
      t.col.opens = [{ c with phase := .claiming, late := false, claimSince := s.collBeat, retryAt := s.collBeat }]

/-- A late party starts once it can (R39): the unit with its launch beat (or, launched without one, the present beat), its late
counter one higher, and LAUNCH_LATE sent with the unit and the beat for which it was armed. Until then nothing happens. A
late closing all-gather goes on to its bobbin claim, and the collective engine counts it. -/
def Sys2Proof.Claim.LaunchLate : Prop :=
  (∀ (u : UnitId) (a : Arming) (s : State), s.isReady = true → (s.unit u).arming = some a → a.late = true →
    (canStart s u = false → exec (.launchLate (.unit u)) s = .next s) ∧
    (canStart s u = true → ∃ t, exec (.launchLate (.unit u)) s = .next t ∧ startedAs a (a.beat.getD (s.unitBeat u)) (s.unit u) (t.unit u) ∧
      (∀ v, v ≠ u → t.unit v = s.unit v) ∧ counted (unitOff u 0x34) 1 s t ∧ t.mem = s.mem ∧ t.cfg = s.cfg ∧
      newest 0x0011 1 (BitVec.ofNat 32 (256 * u.die.val + u.num.val)) (a.beat.getD a.reachedAt) 0 t)) ∧
  ∀ (opid : BitVec 16) (c : Coll) (s : State), s.isReady = true → s.coll opid = some c → c.late = true → c.phase = .queued →
    c.req.close = 2 → startGate c s = .open_ →
    (turnOf s c = false → exec (.launchLate (.coll opid)) s = .next s) ∧
    (turnOf s c = true → ∃ t, exec (.launchLate (.coll opid)) s = .next t ∧
      t.coll opid = some { c with phase := .claiming, late := false, claimSince := s.collBeat, retryAt := s.collBeat } ∧
      t.col.lateCount.toNat = min 0xFFFFFFFF (s.col.lateCount.toNat + 1) ∧
      newest 0x0011 1 (opid.zeroExtend 32) (c.launch.getD 0) 0 t)

/-! ## Units from the host (ch. 4, 11) -/

/-- LOAD_PROGRAM writes its words into the stores of the named units from its first index, with no poison, and keeps
them for a spare (R132, R138); a unit that is ARMED or RUNNING refuses it. HALT takes a pending arming and stops issue,
and cancels every open barrier episode that includes a named unit, whose other members at the barrier fault (R497);
UNIT_RETIRE marks the unit; SNAPSHOT is armed for its beat or waits for the next boundary (R33, R515); where no clock
runs, it copies every counter at once, which is the model's choice (log entry 30). -/
def Sys2Proof.Claim.UnitCommands : Prop :=
  (∀ (h : Hdr) (p : LoadReq),
    completes (.loadProgram h p) h (.loadProgram p)
      (fun s => ∀ u, named p.umask u → (s.unit u).status ≠ .armed ∧ (s.unit u).status ≠ .running)
      (fun s x pay d => pay = [] ∧ d = 0 ∧
        x = { s with store := x.store, images := x.images, storePoison := x.storePoison, upsets := x.upsets } ∧
        ∀ u i, i < 4096 →
          let k := p.first.toNat % 4096
          if named p.umask u ∧ k ≤ i ∧ i < k + p.words.length then
            x.instr u i = p.words.getD (i - k) 0 ∧ tget 0 x.images (4096 * u.key + i) = p.words.getD (i - k) 0 ∧
            ∀ half, half < 2 → tget false x.storePoison (8192 * u.key + 2 * i + half) = false
          else x.instr u i = s.instr u i ∧ tget 0 x.images (4096 * u.key + i) = tget 0 s.images (4096 * u.key + i)) ∧
    refusesWith (.loadProgram h p) h (.loadProgram p)
      (fun s => ∃ u, named p.umask u ∧ ((s.unit u).status = .armed ∨ (s.unit u).status = .running)) .busyUnit 0) ∧
  (∀ (h : Hdr) (m : BitVec 320),
    completes (.halt h m) h (.halt m) (fun s => ∀ c k, s.episode c k = none) (fun s x pay d => pay = [] ∧ d = 0 ∧
      x = { s with units := x.units } ∧ ∀ u, x.unit u =
        if named m u ∧ (s.unit u).status = .armed then { s.unit u with arming := none, status := .idle }
        else if named m u ∧ (s.unit u).status = .running then
          { s.unit u with arming := none, wait := .ended false, pc := (s.unit u).nextPc }
        else s.unit u) ∧
    completes (.halt h m) h (.halt m) (fun _ => True) (fun s x pay d => pay = [] ∧ d = 0 ∧
      (∀ u, named m u → (s.unit u).status = .armed → (x.unit u).status = .idle ∧ (x.unit u).arming = none) ∧
      (∀ u, named m u → (s.unit u).status = .running → x.unit u =
        { s.unit u with arming := none, wait := .ended false, pc := (s.unit u).nextPc }) ∧
      ∀ (c : ClusterId) (k : Nat), k < 4 →
        let includes := fun (e : Episode) => ∃ i : Fin 8, e.mask.getLsbD i.val = true ∧ named m (c.unit i)
        (∀ e, s.episode c k = some e → includes e → x.episode c k = none ∧
          ∀ i, ¬named m (c.unit i) → atBarrier s (c.unit i) k = true → (x.unit (c.unit i)).status = .faulted) ∧
        (∀ e, s.episode c k = some e → ¬includes e → x.episode c k = some e))) ∧
  (∀ (h : Hdr) (u : UnitId),
    let op := HostOp.unitRetire (BitVec.ofNat 8 u.die.val) (BitVec.ofNat 8 u.num.val)
    let ok := fun (s : State) => spareUsable s u.cluster = true ∧
      ∀ i, u.cluster.unit i ≠ u → (s.unit (u.cluster.unit i)).retireAsked = false
    hasEffect (.unitRetire h (BitVec.ofNat 8 u.die.val) (BitVec.ofNat 8 u.num.val)) h op ok
      (fun s => s.setUnit u { s.unit u with retireAsked := true }) ∧
    refusesWith (.unitRetire h (BitVec.ofNat 8 u.die.val) (BitVec.ofNat 8 u.num.val)) h op (fun s => ¬ok s) .noSpare 0) ∧
  ∀ (h : Hdr),
    (∀ s, Passes h .snapshot s → (revHdr h).lbv = false → clockRuns s = true →
      exec (.snapshot h) s = .next (leftWaiting h .snapshot s)) ∧
    completes (.snapshot h) h .snapshot (fun s => (revHdr h).lbv = false ∧ clockRuns s = false) (fun s x pay d =>
      d = 0 ∧ pay = beBytes 6 s.beat.toNat ++ [0, 0] ∧
      x = { s with snap := { s.snap with beat := s.beat, seq := s.snap.seq + 1, copies := s.counters } }) ∧
    (∀ s, Passes h .snapshot s → (revHdr h).lbv = true → (revHdr h).lbeat ∉ s.snap.armed →
      exec (.snapshot h) s = .next (leftWaiting h .snapshot
        { s with snap := { s.snap with armed := s.snap.armed ++ [(revHdr h).lbeat] } })) ∧
    refusesWith (.snapshot h) h .snapshot (fun s => (revHdr h).lbv = true ∧ (revHdr h).lbeat ∈ s.snap.armed) .launchConflict 0

/-- A unit named by UNIT_RETIRE or past UNIT_UE_LIMIT (R443) is retired: with a usable spare its state, memories and counters
are those of the cleared spare, which carries its pending arming (R14, R41), and the spare is being brought in; without one
the module is lost (R17). The replacement ends with the program image in the spare's store and USED set (R138). A spare
not yet taken that fails its test is marked and reported (R444). -/
def Sys2Proof.Claim.Retirement : Prop :=
  let asked := fun (s : State) (u : UnitId) => (s.unit u).retireAsked = true
  let retired := fun (u : UnitId) (s t : State) =>
    t.unit u = { UnitState.reset with arming := (s.unit u).arming, ownReq := (s.unit u).ownReq,
                                      status := if (s.unit u).arming.isSome then .armed else .idle } ∧
    (∀ v, v.cluster ≠ u.cluster → t.unit v = s.unit v) ∧ (∀ i, i < 4096 → t.instr u i = 0) ∧
    (∀ j, t.readByte j = if unitAddr u 0 ≤ j ∧ j < unitAddr u 0 + 0x800000 then 0 else s.readByte j) ∧
    (t.clu u.cluster).replacing = some u.slot ∧ (t.clu u.cluster).spareUsed = false ∧
    ((∀ k, s.episode u.cluster k = none) → newest 0x0013 1 (BitVec.ofNat 32 (256 * u.die.val + u.num.val)) 0 0 t)
  (∀ (u : UnitId) (s : State), s.isReady = true → (asked s u ∨ ueLimit s u = true) →
    (spareUsable s u.cluster = true → ∃ t, exec (.unitRetirement u) s = .next t ∧ retired u s t) ∧
    (spareUsable s u.cluster = false → ∃ t, exec (.unitRetirement u) s = .next t ∧ faultLeft 7 s t)) ∧
  (∀ (u : UnitId) (s : State), s.isReady = true → ueLimit s u = true → spareUsable s u.cluster = true →
    ∃ t, exec (.ueLimitReached u) s = .next t ∧ retired u s t) ∧
  (∀ (c : ClusterId) (i : Fin 8) (s : State), s.isReady = true → (s.clu c).replacing = some i →
    ∃ t, exec (.spareReplacementDone c) s = .next t ∧ t = { s with store := t.store, clusters := t.clusters } ∧
      t.clu c = { s.clu c with replacing := none, spareUsed := true } ∧ (∀ k, k ≠ c → t.clu k = s.clu k) ∧
      (∀ j, j < 4096 → t.instr (c.unit i) j = tget 0 s.images (4096 * (c.unit i).key + j)) ∧
      ∀ u j, u ≠ c.unit i → j < 4096 → t.instr u j = s.instr u j) ∧
  ∀ (c : ClusterId) (s : State), s.isReady = true → (s.clu c).spareUsed = false → (s.clu c).spareBad = false →
    (s.clu c).replacing = none →
    ∃ t, exec (.spareBad c) s = .next t ∧ onlyEvents (s.setClu c { s.clu c with spareBad := true }) t ∧
      newest 0x0014 1 (BitVec.ofNat 32 (20 * c.die.val + c.num.val)) 0 0 t

/-! ## Command datagrams (ch. 11) -/

namespace Sys2Proof.Claim

/-- The request that a row of the host carries, where its effect is the command's alone. -/
def requestOf : Instr → Option (Hdr × HostOp)
  | .ping h => some (h, .ping)
  | .regRead h l => some (h, .regRead l)
  | .regWrite h l => some (h, .regWrite l)
  | .registerWrite h o v => some (h, .regWrite [(o, v)])
  | .counterWrite h o v => some (h, .regWrite [(o, v)])
  | .snapshot h => some (h, .snapshot)
  | .memRead h a c => some (h, .memRead a c)
  | .memWrite h a v n d => some (h, .memWrite a v n d)
  | .evtRead h n f => some (h, .evtRead n f)
  | .jnlRead h f => some (h, .jnlRead f)
  | .loadProgram h p => some (h, .loadProgram p)
  | .launch h p => some (h, .launch p)
  | .halt h m => some (h, .halt m)
  | .unitRetire h d u => some (h, .unitRetire d u)
  | .setRouteWrite h p => some (h, .setRouteWrite p)
  | .setRouteSwitch h b => some (h, .setRouteSwitch b)
  | .setHeddleInstall h p => some (h, .setHeddleInstall p)
  | .setHeddleRemove h i => some (h, .setHeddleRemove i)
  | .cmapRead h => some (h, .cmapRead)
  | .collectiveRs h p => some (h, .collective .rs p)
  | .collectiveAg h p => some (h, .collective .ag p)
  | .collectiveAr h p => some (h, .collective .ar p)
  | .collectiveBc h p => some (h, .collective .bc p)
  | .collectiveA2a h p => some (h, .collective .a2a p)
  | .stepResolveGradClear h n => some (h, .stepResolve n 1)
  | .stepResolveSkipGrad h n => some (h, .stepResolve n 2)
  | .stepResolveCommit h n => some (h, .stepResolve n 3)
  | .stepResolveSkipUpdate h n => some (h, .stepResolve n 4)
  | .digest h n => some (h, .digest n)
  | .checkpoint h n i => some (h, .checkpoint n i)
  | .restore h i => some (h, .restore i)
  | .refill h b r m l => some (h, .refill b r m l)
  | .evacuate h n => some (h, .evacuate n)
  | .pressAcquire h a p d => some (h, .pressAcquire a p d)
  | .pressRelease h l => some (h, .pressRelease l)
  | .hxConfigGeneral h p => some (h, .hxGeneral p)
  | .hxConfigShards h f l => some (h, .hxShards f l)
  | .hxConfigPeers h l => some (h, .hxPeers l)
  | .hxConfigMember h m => some (h, .hxMember m)
  | .hxConfigCommit h => some (h, .hxCommit)
  | .hxOuter h o i => some (h, .hxOuter o i)
  | .hxApply h o n k => some (h, .hxApply o n k)
  | .hxFetch h i => some (h, .hxFetch i)
  | .hxResume h c => some (h, .hxResume c)
  | .hxRekey h => some (h, .hxRekey)
  | .ripRead h f n => some (h, .ripRead f n)
  | .attest h n => some (h, .attest n)
  | .fwStage h p => some (h, .fwStage p)
  | .fwCommit h i a v => some (h, .fwCommit i a v)
  | _ => none

/-- The header is whole, of a known revision, and its lengths agree (checks 1 to 5). -/
structure Whole (h : Hdr) (s : State) : Prop where
  takes : takesUdp s h.net s.cmdUdp = true
  whole : 40 ≤ h.udpLen
  rev : 1 ≤ h.rev.toNat ∧ h.rev.toNat ≤ 3
  lens : h.len.toNat ≤ 8192 ∧ 32 + h.len.toNat = h.udpLen - 8

/-- Nor has its source sent another command with this TAG that is kept or waits, nor is the queue full (checks 6 and 7). -/
structure Arrives (h : Hdr) (s : State) : Prop extends Whole h s where
  fresh : ∀ e ∈ s.host.cache, ¬(e.src = sourceOf (revHdr h) ∧ e.tag = h.tag ∧ e.seq = h.seq)
  alone : ∀ w ∈ waitingCmds s, ¬(w.1 = sourceOf (revHdr h) ∧ w.2.1 = h.tag)
  room : (waitingCmds s).length < 1024

/-- A response that is not kept for repeats. -/
def told (h : Hdr) (op : HostOp) (st : Status) (s : State) : State :=
  { s with sent := .resp { respOf (revHdr h) (cmdCode op) s.cmdUdp st 0 [] s.beat with vid := s.vid } :: s.sent }

/-- A request of this chain passes checks 1 to 15. -/
structure InChain (h : Hdr) (op : HostOp) (s : State) : Prop extends Arrives h s where
  mid : midChecks (revHdr h) op s = none
  chained : (revHdr h).chain ≠ 0

end Sys2Proof.Claim

/-- Checks 1 to 7 of Table 11.3: what is no request of the module is dropped and counted; a bad revision or length is
answered; a command repeated with its TAG and SEQ gets its kept answer again and is not executed twice (R491); one that still
waits is dropped and counted; another SEQ under the TAG of a waiting command is TAG_BUSY; the 1,025th waiting command is
BUSY_QUEUE. What the response cache keeps is the model's reading (log entry 60). -/
def Sys2Proof.Claim.CommandArrival : Prop :=
  ∀ (c : Instr) (h : Hdr) (op : HostOp) (s : State), requestOf c = some (h, op) → (revHdr h).chain = 0 →
    (takesUdp s h.net s.cmdUdp = false → exec c s = .next s) ∧
    (takesUdp s h.net s.cmdUdp = true →
      (h.udpLen < 40 → ∃ t, exec c s = .next t ∧ t = { s with counters := t.counters } ∧ counted 0x200 1 s t) ∧
      (40 ≤ h.udpLen → h.rev = 0 ∨ 3 < h.rev.toNat → exec c s = .next { s with
        sent := .resp { respOf { revHdr h with rev := 1 } (cmdCode op) s.cmdUdp .badRev 0 [] s.beat with vid := s.vid } :: s.sent }) ∧
      (40 ≤ h.udpLen → 1 ≤ h.rev.toNat → h.rev.toNat ≤ 3 →
        (8192 < h.len.toNat → exec c s = .next (told h op .lenTooLong s)) ∧
        (h.len.toNat ≤ 8192 → 32 + h.len.toNat ≠ h.udpLen - 8 → exec c s = .next (told h op .lenMismatch s)))) ∧
    (Whole h s →
      (∀ pre e post, s.host.cache = pre ++ e :: post →
        (∀ q ∈ pre, ¬(q.src = sourceOf (revHdr h) ∧ q.tag = h.tag ∧ q.seq = h.seq)) →
        e.src = sourceOf (revHdr h) → e.tag = h.tag → e.seq = h.seq →
        exec c s = .next { s with sent := .resp { e.resp with
          port := h.port, vid := s.vid, srcAddr := h.net.dst, dstAddr := h.srcAddr, dstUdp := h.srcUdp } :: s.sent }) ∧
      ((∀ e ∈ s.host.cache, ¬(e.src = sourceOf (revHdr h) ∧ e.tag = h.tag ∧ e.seq = h.seq)) →
        (∀ pre w post, waitingCmds s = pre ++ w :: post → (∀ q ∈ pre, ¬(q.1 = sourceOf (revHdr h) ∧ q.2.1 = h.tag)) →
          w.1 = sourceOf (revHdr h) → w.2.1 = h.tag →
          (w.2.2 = h.seq → ∃ t, exec c s = .next t ∧ t = { s with counters := t.counters } ∧ counted 0x204 1 s t) ∧
          (w.2.2 ≠ h.seq → exec c s = .next (told h op .tagBusy s))) ∧
        ((∀ w ∈ waitingCmds s, ¬(w.1 = sourceOf (revHdr h) ∧ w.2.1 = h.tag)) → 1024 ≤ (waitingCmds s).length →
          exec c s = .next (told h op .busyQueue s))))

/-- Checks 8 to 15 of Table 11.3 in their order, each with its status; a refused command does nothing else. A datagram
of an unknown opcode is answered with BAD_OPCODE; one too short or no request is counted and dropped; one given as bytes
that spells a command is that command, and one that spells none is refused as the checks say. Counts and values out of
range, and the DETAIL of a refusal, are the model's reading (log entries 56, 57). -/
def Obligations.CommandChecks : Prop :=
  (∀ (c : Instr) (h : Hdr) (op : HostOp) (s : State), requestOf c = some (h, op) → (revHdr h).chain = 0 → Arrives h s →
    let h' := revHdr h
    let strange := h'.nchk = true ∧ h'.node ≠ s.strapNode ∧ ¬((s.cfgReg 0x0200C8).getLsbD 31 = true ∧ h'.node = s.jobNode)
    (strange → exec c s = .next (turnedAway h op .nodeMismatch 0 s)) ∧
    (¬strange →
      (s.isFault = true → markF (cmdCode op) = false → exec c s = .next (turnedAway h op .faultState 0 s)) ∧
      (s.boot.state = .recovery → markR (cmdCode op) = false → exec c s = .next (turnedAway h op .recoveryState 0 s)) ∧
      (stateCheck (cmdCode op) s = none →
        (badLen h' op = true → exec c s = .next (turnedAway h op .lenInvalid 0 s)) ∧
        (badLen h' op = false →
          (∀ off, badField op = some off → exec c s = .next (turnedAway h op .fieldInvalid off s)) ∧
          (badField op = none →
            (badFormat op = true → exec c s = .next (turnedAway h op .formatInvalid 0 s)) ∧
            (badFormat op = false →
              (badCount op = true → exec c s = .next (turnedAway h op .countRange 0 s)) ∧
              (badCount op = false → h'.lbv = true →
                ((h'.lbeat - s.beat).toInt < 16 → exec c s = .next (turnedAway h op .beatPassed 0 s)) ∧
                (16 ≤ (h'.lbeat - s.beat).toInt → 2 ^ 32 ≤ (h'.lbeat - s.beat).toNat →
                  exec c s = .next (turnedAway h op .beatRange 0 s)) ∧
                (16 ≤ (h'.lbeat - s.beat).toInt → (h'.lbeat - s.beat).toNat < 2 ^ 32 → markL (cmdCode op) = false →
                  cmdCode op ≠ 0x20 → exec c s = .next (turnedAway h op .beatUnsupported 0 s))))))))) ∧
  ∀ (port : NetIn) (a : BitVec 128) (u : BitVec 16) (n : Nat) (bs : List Byte) (s : State), takesUdp s port s.cmdUdp = true →
    let h := revHdr (parseHdr port a u n bs)
    let code : BitVec 16 := BitVec.ofNat 16 (beNat ((bs.drop 2).take 2))
    (bs.length < 32 ∨ (bs.getD 0 0).toNat % 16 ≠ 1 →
      ∃ t, exec (.undecodedRequest port a u n bs) s = .next t ∧ t = { s with counters := t.counters } ∧ counted 0x200 1 s t) ∧
    (32 ≤ bs.length → (bs.getD 0 0).toNat % 16 = 1 → Arrives (parseHdr port a u n bs) s → badNode h s = false →
      h.chain = 0 → knownOpcode code.toNat = false →
      ∃ t r, exec (.undecodedRequest port a u n bs) s = .next t ∧ t.sent = .resp r :: s.sent ∧ r.status = 0x07 ∧
        r.opcode = code ∧ r.tag = h.tag ∧ r.seq = h.seq ∧
        t = { s with sent := t.sent, host := { s.host with cache := t.host.cache } }) ∧
    (32 ≤ bs.length → (bs.getD 0 0).toNat % 16 = 1 →
      (∀ (c : Instr) (op : HostOp), requestOf c = some (parseHdr port a u n bs, op) → (∀ p, op ≠ .fwRecover p) →
        readPayload code.toNat h.len.toNat (bs.drop 32) = .op op → exec (.undecodedRequest port a u n bs) s = exec c s) ∧
      (Arrives (parseHdr port a u n bs) s → badNode h s = false → h.chain = 0 → knownOpcode code.toNat = true → stateCheck code s = none →
        let told := fun (st : Status) (detail : Nat) => ∃ t r, exec (.undecodedRequest port a u n bs) s = .next t ∧ t.sent = .resp r :: s.sent ∧
          r.status = st.code ∧ (h.rev ≠ 1 → r.detail = BitVec.ofNat 32 detail) ∧ r.opcode = code ∧ r.tag = h.tag ∧
          t = { s with sent := t.sent, host := { s.host with cache := t.host.cache } }
        match readPayload code.toNat h.len.toNat (bs.drop 32) with
        | .badLen => told .lenInvalid 0
        | .badField off => told .fieldInvalid off
        | .badCount => told .countRange 0
        | .op _ => True))

/-- A chain (R490): CFIRST opens it; its commands run in the order of SEQ, one that comes early is held, one that comes late
closes the chain with CHAIN_ORDER, as does one of a chain that is not open; a held command runs as soon as its turn has come;
one held for 1 ms closes the chain, and every held command is answered with CHAIN_ORDER. Told of the command PING. The
predecessor of a command and what closing does are the model's reading (log entry 61). -/
def Obligations.Chains : Prop :=
  let open' := fun (h : Hdr) (s t : State) => ∃ c ∈ t.host.chains, c.src = sourceOf (revHdr h) ∧ c.id = (revHdr h).chain ∧
    c.lastSeq = h.seq ∧ c.busy = false
  let ok := fun (h : Hdr) (s t : State) => ∃ r, t.sent.head? = some (.resp r) ∧ r.status = 0 ∧ r.tag = h.tag ∧ r.seq = h.seq
  let late := fun (h : Hdr) (s t : State) => ∃ r, .resp r ∈ t.sent ∧ r.status = 0x0E ∧ r.tag = h.tag ∧ r.seq = h.seq
  (∀ (h : Hdr) (s : State), InChain h .ping s → (revHdr h).cfirst = true → (revHdr h).clast = false →
    findChain s (sourceOf (revHdr h)) (revHdr h).chain = none → s.host.chains.length < 64 →
    ∃ t, exec (.ping h) s = .next t ∧ ok h s t ∧ open' h s t) ∧
  (∀ (h : Hdr) (s : State) (c : CmdChain), InChain h .ping s → (revHdr h).cfirst = false →
    findChain s (sourceOf (revHdr h)) (revHdr h).chain = some c →
    (h.seq = c.lastSeq + 1 → c.busy = false → (revHdr h).clast = false → ∃ t, exec (.ping h) s = .next t ∧ ok h s t ∧ open' h s t) ∧
    (h.seq = c.lastSeq + 1 → c.busy = false → (revHdr h).clast = true →
      ∃ t, exec (.ping h) s = .next t ∧ findChain t (sourceOf (revHdr h)) (revHdr h).chain = none) ∧
    (0 < (h.seq - c.lastSeq).toInt → h.seq ≠ c.lastSeq + 1 ∨ c.busy = true → (∀ x ∈ c.held, x.1.seq ≠ h.seq) →
      ∃ t, exec (.ping h) s = .next t ∧ t.sent = s.sent ∧
        ∃ d ∈ t.host.chains, d = { c with held := c.held ++ [(revHdr h, .ping, s.beat)] }) ∧
    ((h.seq - c.lastSeq).toInt ≤ 0 ∨ (∃ x ∈ c.held, x.1.seq = h.seq) → ∃ t, exec (.ping h) s = .next t ∧ late h s t ∧
      findChain t (sourceOf (revHdr h)) (revHdr h).chain = none)) ∧
  (∀ (h : Hdr) (s : State), InChain h .ping s → (revHdr h).cfirst = false →
    findChain s (sourceOf (revHdr h)) (revHdr h).chain = none → ∃ t, exec (.ping h) s = .next t ∧ late h s t) ∧
  (∀ (c : CmdChain) (h : Hdr) (b : Beat) (rest : List (Hdr × HostOp × Beat)) (s : State), s.host.chains = [c] → c.busy = false → c.id ≠ 0 →
    c.held = (h, .ping, b) :: rest → h.seq = c.lastSeq + 1 → h.chain = c.id → sourceOf h = c.src → h.clast = false →
    s.ethUp h.port.val = true →
    ∃ t, exec (.chainCommandRelease c.id) s = .next t ∧ ok h s t ∧
      t.host.chains = [{ c with lastSeq := h.seq, busy := false, held := rest }]) ∧
  ∀ (c : CmdChain) (s : State), s.host.chains = [c] → (∀ x ∈ c.held, s.ethUp x.1.port.val = true) →
    ((∃ x ∈ c.held, clockRuns s = false ∨ beatsOfMs 1 ≤ beatsSince s.beat x.2.2) →
      ∃ t, exec (.chainHoldTimeout c.id) s = .next t ∧ t.host.chains = [] ∧ ∀ x ∈ c.held, late x.1 s t) ∧
    ((∀ x ∈ c.held, clockRuns s = true ∧ beatsSince s.beat x.2.2 < beatsOfMs 1) → exec (.chainHoldTimeout c.id) s = .next s)

/-! ## Reads (ch. 11, 12) -/

/-- PING answers TOP_STRAP, FAB_STANDIN, the beat and a summary (Table 11.4). REG_READ answers the values of its offsets in order,
each as it stands when the command is carried out; an offset that is no multiple of 4 refuses it with its index. EVT_READ and
JNL_READ answer the records numbered from FIRST on, at most 204 and 256, oldest first (R495, R503). CMAP_READ answers the
record of the last complete interval, closing the running one first where its close is due (R347). -/
def Sys2Proof.Claim.ReadCommands : Prop :=
  (∀ h : Hdr, completes (.ping h) h .ping (fun _ => True) fun s x pay d => x = s ∧ d = 0 ∧ pay.length = 16 ∧
    pay.take 14 = beBytes 4 (topStrap s).toNat ++ beBytes 4 (s.cfgReg 0x0200C8).toNat ++ beBytes 6 s.beat.toNat) ∧
  (∀ (h : Hdr) (l : List (BitVec 24)),
    completes (.regRead h l) h (.regRead l) (fun _ => ∀ o ∈ l, o.toNat % 4 = 0) (fun s x pay d => d = 0 ∧
      x = { s with host := { s.host with latches := [], readout := [] } } ∧
      pay = l.flatMap fun o => beBytes 4 (regValue s o.toNat).toNat) ∧
    ∀ pre o post, l = pre ++ o :: post → (∀ q ∈ pre, q.toNat % 4 = 0) → o.toNat % 4 ≠ 0 →
      refusesWith (.regRead h l) h (.regRead l) (fun _ => True) .fieldInvalid pre.length) ∧
  (∀ (h : Hdr) (net : BitVec 8) (first : Word32),
    completes (.evtRead h net first) h (.evtRead net first) (fun _ => True) fun s x pay d => x = s ∧
      let num := fun (e : Event) => if net = 0 then e.esqA else e.esqB
      let l := (s.host.events.reverse.filter fun e => decide (0 ≤ (num e - first).toInt)).take 204
      pay = l.flatMap (evtRecord net.toNat) ∧ d = (l.head?.map fun e => (num e).toNat).getD 0) ∧
  (∀ (h : Hdr) (first : Word32),
    completes (.jnlRead h first) h (.jnlRead first) (fun _ => True) fun s x pay d => x = s ∧
      let all := (List.range s.host.journal.length).reverse.filterMap fun j =>
        s.host.journal[j]?.map fun e => (s.host.jnlHead - BitVec.ofNat 32 (j + 1), e)
      let l := (all.filter fun e => decide (0 ≤ (e.1 - first).toInt)).take 256
      pay = l.flatMap (fun e => jnlBytes e.2) ∧ d = (l.head?.map fun e => e.1.toNat).getD 0) ∧
  ∀ h : Hdr, completes (.cmapRead h) h .cmapRead (fun _ => True) fun s x pay d =>
    exec .cmapIntervalClose s = .next x ∧ d = 0 ∧ pay = cmapBytes x.fab.cmapDone ∧
      (s.fab.cmapNow.beats < (s.cfgReg 0x020094).toNat % 2 ^ 24 → x = s)

/-- A read of TOP_BEAT_LO latches TOP_BEAT_HI, and one of FAB_EPOCH_INb latches FAB_EPOCH_OUTb, as they stand at that moment; the
value read joins those of the REG_READ in progress (R32, R332). -/
def Sys2Proof.Claim.LatchedReads : Prop :=
  let reads := fun (off : Nat) (s t : State) => t = { s with host := { s.host with
    latches := (off + 4, regValue s (off + 4)) :: s.host.latches.filter (fun e => e.1 != off + 4),
    readout := s.host.readout ++ [regValue s off] } }
  (∀ s : State, (∀ e ∈ s.host.latches, e.1 ≠ 0x10) → ∃ t, exec .topBeatLoRead s = .next t ∧ reads 0x10 s t ∧
    regValue s 0x10 = s.beat.extractLsb' 0 32 ∧ regValue s 0x14 = (s.beat.extractLsb' 32 16).zeroExtend 32) ∧
  ∀ (b : Fin 2) (s : State), let off := if b.val = 0 then 0x0200A4 else 0x0200AC
    (∀ e ∈ s.host.latches, e.1 ≠ off) → ∃ t, exec (.fabEpochInRead b) s = .next t ∧ reads off s t ∧
      regValue s off = s.counter off ∧ regValue s (off + 4) = s.counter (off + 4)

/-- MEM_READ answers the bytes of a span that lies in one range of Table 5.4, and with DATA_POISON and the place of the first
poisoned byte where one is poisoned (R494); MEM_WRITE writes its bytes there, with the version it names on DRAM lines (R225).
Outside the ranges both are ADDR_RANGE (R208); a write into the memory of a unit that is ARMED or RUNNING is BUSY_UNIT (R197);
the engine queues stop the model. Every other byte keeps its value. The stop at the engine queues is the model's choice (log
entry 8). -/
def Obligations.MemoryCommands : Prop :=
  (∀ (h : Hdr) (a : Word64) (n : Word32) (s : State) (r : Region), Passes h (.memRead a n) s → regionOf a.toNat n.toNat = some r →
    r ≠ .queues → s.upsets = [] →
    (s.anyPoison r a.toNat n.toNat = false →
      exec (.memRead h a n) s = .next (answered h (.memRead a n) (s.rawRead (plainAddr r a.toNat) n.toNat) 0 s s)) ∧
    (s.anyPoison r a.toNat n.toNat = true → ∃ d, exec (.memRead h a n) s =
        .next (responded h (.memRead a n) .dataPoison d (s.rawRead (plainAddr r a.toNat) n.toNat) s.cmdUdp s) ∧
      d < n.toNat ∧ s.poisoned r (a.toNat + d) = true ∧ ∀ i, i < d → s.poisoned r (a.toNat + i) = false)) ∧
  (∀ (h : Hdr) (a : Word64) (v : Bool) (ver : BitVec 7) (bs : List Byte) (r : Region),
    regionOf a.toNat bs.length = some r →
    completes (.memWrite h a v ver bs) h (.memWrite a v ver bs)
      (fun s => s.upsets = [] ∧ ((∃ g, r = .dram g) ∨ ∃ u, (r = .scratch u ∨ r = .acc u) ∧ (s.unit u).status ≠ .armed ∧
        (s.unit u).status ≠ .running))
      (fun s x pay d => pay = [] ∧ d = 0 ∧ x = { s with mem := x.mem, lineTags := x.lineTags, poison := x.poison } ∧
        x.rawRead a.toNat bs.length = bs ∧
        (∀ j, j < a.toNat ∨ a.toNat + bs.length ≤ j → x.readByte j = s.readByte j) ∧
        ((∃ g, r = .dram g) → ∀ l, l % 64 = 0 → l < a.toNat + bs.length → a.toNat < l + 64 →
          x.version l = if v then ver else 0) ∧
        ∀ l, l % 64 = 0 → a.toNat + bs.length ≤ l ∨ l + 64 ≤ a.toNat → x.tag l = s.tag l)) ∧
  (∀ (h : Hdr) (a : Word64) (v : Bool) (ver : BitVec 7) (bs : List Byte) (u : UnitId),
    (∃ r, regionOf a.toNat bs.length = some r ∧ (r = .scratch u ∨ r = .acc u)) →
    refusesWith (.memWrite h a v ver bs) h (.memWrite a v ver bs)
      (fun s => (s.unit u).status = .armed ∨ (s.unit u).status = .running) .busyUnit 0) ∧
  (∀ (h : Hdr) (a : Word64) (n : Word32), regionOf a.toNat n.toNat = none →
    refusesWith (.memRead h a n) h (.memRead a n) (fun _ => True) .addrRange 0) ∧
  (∀ (h : Hdr) (a : Word64) (v : Bool) (ver : BitVec 7) (bs : List Byte), regionOf a.toNat bs.length = none →
    refusesWith (.memWrite h a v ver bs) h (.memWrite a v ver bs) (fun _ => True) .addrRange 0) ∧
  ∀ (h : Hdr) (a : Word64) (n : Word32) (s : State), Passes h (.memRead a n) s → regionOf a.toNat n.toNat = some .queues →
    exec (.memRead h a n) s = .fault .engineQueue

/-! ## Register writes (ch. 12) -/

namespace Sys2Proof.Claim

/-- A command that is a REG_WRITE of these entries completes with nothing changed but what `f` says and the 64-bit write latch,
which is empty after it (R514). -/
def writes (c : Instr) (h : Hdr) (es : List (BitVec 24 × Word32)) (own : State → Prop) (f : State → State) : Prop :=
  ∀ s, Passes h (.regWrite es) s → own s →
    exec c s = .next (answered h (.regWrite es) [] 0 s ({ f s with host := { (f s).host with staged := [] } }))

/-- As `writes`, with the state after the write told by what it holds. -/
def writesSo (c : Instr) (h : Hdr) (es : List (BitVec 24 × Word32)) (own : State → Prop) (post : State → State → Prop) : Prop :=
  ∀ s, Passes h (.regWrite es) s → own s →
    ∃ x, exec c s = .next (answered h (.regWrite es) [] 0 s x) ∧ post s x ∧ x.host.staged = []

/-- A REG_WRITE that one entry refuses: nothing is written, and DETAIL is that entry's index (R489). -/
def writeRefused (c : Instr) (h : Hdr) (es : List (BitVec 24 × Word32)) (own : State → Prop) (st : Status) (i : Nat) : Prop :=
  ∀ s, Passes h (.regWrite es) s → own s → exec c s = .next (turnedAway h (.regWrite es) st i s)

/-- The register at an offset has taken the bits of v under mask m; no other register has changed, nor anything else; parity
is good again there (R517). -/
def tookBits (off : Nat) (m v : Word32) (s x : State) : Prop :=
  x.cfgReg off = (s.cfgReg off &&& ~~~m) ||| (v &&& m) ∧ (∀ k, k ≠ off → x.cfgReg k = s.cfgReg k) ∧
  x = { s with cfg := x.cfg, struck := s.struck.filter (fun e => e.1 != off), host := { s.host with staged := [] } }

/-- The two words of a 64-bit register have been written. -/
def tookWide (off : Nat) (lo hi : Word32) (s x : State) : Prop :=
  x.cfgReg64 off = hi ++ lo ∧ (∀ k, k ≠ off → k ≠ off + 4 → x.cfgReg k = s.cfgReg k) ∧
  x = { s with cfg := x.cfg, struck := s.struck.filter (fun e => e.1 != off && e.1 != off + 4),
               host := { s.host with staged := [] } }

/-- Registers that take any value under their mask. -/
def plainRegs : List (Nat × Word32) :=
  [(0x28, 0xFFFF), (0x40, 0xFFFFFFFF), (0x44, 0xFFFFFFFF), (0x48, 0xFFFFFFFF), (0x4C, 0xFFFFFFFF), (0x50, 0xFFFF),
   (0x60, 0xFFFFFFFF), (0x64, 0xFFFFFFFF), (0x68, 0xFFFFFFFF), (0x6C, 0xFFFFFFFF), (0x70, 0xFFFF), (0x100, 0xFFFFFFFF),
   (0x120, 0xFFFFFFFF), (0x124, 7), (0x140, 0xFFFFFFFF), (0x2E4, 7), (0x020080, 0xFFFFFFFF), (0x020090, 0xF),
   (0x030020, 0xFFFFFFFF), (0x04000C, 0xFFFFFFFF), (0x040010, 0xFFFFFFFF), (0x050004, 0xFFFF), (0x050008, 0xFFFFF),
   (0x080000, 0xFFFF)]

/-- Registers in which a write of zero under the mask leaves the field as it was. -/
def positiveRegs : List (Nat × Word32) :=
  [(0x010008, 0xFFFF), (0x02008C, 0xFFFFFFFF), (0x020094, 0xFFFFFF), (0x100000, 0xFFFFFFFF), (0x127000, 0xFFFFFFFF),
   (0x4FF000, 0xFF)]

/-- Registers that refuse a value outside their range with FIELD_INVALID: offset, mask, least and greatest value. -/
def rangedRegs : List (Nat × Word32 × Nat × Nat) :=
  [(0x040014, 0xFFFF, 1, 65535), (0x040018, 0x1FF, 1, 500), (0x04001C, 0x1FF, 1, 500), (0x040020, 0xFFFFFFFF, 100, 1000000),
   (0x040024, 0xFFFFFFFF, 10, 10000), (0x040028, 0xFFFFFFFF, 100, 60000), (0x04002C, 0xFFFFFFFF, 1000, 600000),
   (0x070000, 0xFFF, 900, 1650)]

/-- The rows that write one word at an offset. -/
def wordWrite (h : Hdr) (off : Nat) (v : Word32) (c : Instr) : Prop :=
  c = .registerWrite h (BitVec.ofNat 24 off) v ∨ c = .regWrite h [(BitVec.ofNat 24 off, v)]

end Sys2Proof.Claim

/-- REG_WRITE and REGISTER_WRITE of one word (R506 to R513, R523): a plain register takes the masked value, one for which zero
has no meaning keeps its value on zero, one with a range refuses a value outside it; CKP_MTBF forms the checkpoint interval again
(R466); a counter takes the value; an offset that
is no multiple of 4 is refused, at its index in a longer list too, with nothing written. A *_WRITE row is a REG_WRITE of that
one entry (log entry 26). -/
def Obligations.RegisterWrites : Prop :=
  (∀ (h : Hdr) (v : Word32) (e : Nat × Word32) (c : Instr), e ∈ plainRegs → wordWrite h e.1 v c →
    writesSo c h [(BitVec.ofNat 24 e.1, v)] (fun _ => True) (tookBits e.1 e.2 v)) ∧
  (∀ (h : Hdr) (v : Word32) (e : Nat × Word32) (c : Instr), e ∈ positiveRegs → wordWrite h e.1 v c →
    (v &&& e.2 ≠ 0 → writesSo c h [(BitVec.ofNat 24 e.1, v)] (fun _ => True) (tookBits e.1 e.2 v)) ∧
    (v &&& e.2 = 0 → writes c h [(BitVec.ofNat 24 e.1, v)] (fun _ => True) id)) ∧
  (∀ (h : Hdr) (v : Word32) (e : Nat × Word32 × Nat × Nat) (c : Instr), e ∈ rangedRegs → wordWrite h e.1 v c →
    (e.2.2.1 ≤ (v &&& e.2.1).toNat → (v &&& e.2.1).toNat ≤ e.2.2.2 →
      writesSo c h [(BitVec.ofNat 24 e.1, v)] (fun _ => True) (tookBits e.1 e.2.1 v)) ∧
    ((v &&& e.2.1).toNat < e.2.2.1 ∨ e.2.2.2 < (v &&& e.2.1).toNat →
      writeRefused c h [(BitVec.ofNat 24 e.1, v)] (fun _ => True) .fieldInvalid 0)) ∧
  (∀ (h : Hdr) (v : Word32) (c : Instr), wordWrite h 0x050028 v c →
    writesSo c h [(0x050028, v)] (fun _ => True) fun s x =>
      x.cfgReg 0x050028 = v ∧ (∀ k, k ≠ 0x050028 → x.cfgReg k = s.cfgReg k) ∧
      x.ckp.interval = BitVec.ofNat 32 (ckpInterval (if s.ckp.hasCost then s.ckp.cost.toNat else 1000) v.toNat
        (s.ckp.fails.filter fun b => decide (beatsSince s.beat b ≤ weekBeats)).length) ∧
      x = { s with cfg := x.cfg, struck := s.struck.filter (fun e => e.1 != 0x050028), host := { s.host with staged := [] },
                   ckp := { s.ckp with fails := x.ckp.fails, interval := x.ckp.interval } }) ∧
  (∀ (h : Hdr) (off : BitVec 24) (v : Word32), off.toNat % 4 = 0 → isCounter off.toNat = true →
    writesSo (.counterWrite h off v) h [(off, v)] (fun _ => True) fun s x =>
      x.counter off.toNat = v ∧ (∀ k, k ≠ off.toNat → x.counter k = s.counter k) ∧
      x = { s with counters := x.counters, host := { s.host with staged := [] } }) ∧
  ∀ (h : Hdr) (pre : List (Nat × Word32)) (off : BitVec 24) (v : Word32) (post : List (BitVec 24 × Word32)),
    (∀ e ∈ pre, e ∈ plainRegs) → off.toNat % 4 ≠ 0 →
    let es := pre.map (fun e => (BitVec.ofNat 24 e.1, e.2)) ++ (off, v) :: post
    writeRefused (.regWrite h es) h es (fun _ => True) .fieldInvalid pre.length

/-- The registers of the module as a whole. TOP_SEED is written as one 64-bit value while no party runs or is armed, and is
BUSY_SEED otherwise (R75). TOP_CMD_UDP takes its value, and the answer still leaves from the old port (R480). TOP_ETH_CFG
leaves a reserved mode as it was, and a network whose mode has changed negotiates again (R510). TOP_ALERT.PENDING clears by
a one (R505). MEM_CFG.SPEED is kept for the next start-up (R210). PWR_CAP takes 900 W to 1,650 W. -/
def Sys2Proof.Claim.ModuleRegisters : Prop :=
  (∀ (h : Hdr) (lo hi : Word32) (s : State), Passes h (.regWrite [(0x18, lo), (0x1C, hi)]) s →
    let idle := (∀ u, (s.unit u).status ≠ .armed ∧ (s.unit u).status ≠ .running ∧ (s.unit u).arming = none ∧
      programRuns (s.unit u) = false) ∧ (∀ c ∈ s.col.opens, c.launch = none) ∧ s.fab.heddles = []
    (seedBusy s = false → ∃ x, exec (.topSeedWrite h lo hi) s = .next (answered h (.regWrite [(0x18, lo), (0x1C, hi)]) [] 0 s x) ∧
      tookWide 0x18 lo hi s x) ∧
    (¬idle → exec (.topSeedWrite h lo hi) s = .next (turnedAway h (.regWrite [(0x18, lo), (0x1C, hi)]) .busySeed 1 s))) ∧
  (∀ (h : Hdr) (v : Word32), writesSo (.topCmdUdpWrite h v) h [(0x28, v)] (fun _ => True) (tookBits 0x28 0xFFFF v)) ∧
  (∀ (h : Hdr) (v : Word32) (s : State), Passes h (.regWrite [(0x2C, v)]) s →
    let modeA := if fld v 31 28 ≤ 4 then fld v 31 28 else fld (s.cfgReg 0x2C) 31 28
    let modeB := if fld v 27 24 ≤ 4 then fld v 27 24 else fld (s.cfgReg 0x2C) 27 24
    ∃ t r, exec (.topEthCfgWrite h v) s = .next t ∧ t.sent = .resp r :: s.sent ∧ r.status = 0 ∧ r.tag = h.tag ∧
      fld (t.cfgReg 0x2C) 31 28 = modeA ∧ fld (t.cfgReg 0x2C) 27 24 = modeB ∧ fld (t.cfgReg 0x2C) 11 0 = fld v 11 0 ∧
      fld (t.cfgReg 0x2C) 23 12 = fld (s.cfgReg 0x2C) 23 12 ∧ (∀ k, k ≠ 0x2C → t.cfgReg k = s.cfgReg k) ∧
      ∀ p : Fin 8, t.ethUp p.val = (s.ethUp p.val && (if p.val < 4 then decide (modeA = fld (s.cfgReg 0x2C) 31 28)
        else decide (modeB = fld (s.cfgReg 0x2C) 27 24)))) ∧
  (∀ (h : Hdr) (v : Word32), writes (.topAlertClear h v) h [(0x20, v)] (fun _ => True) fun s =>
    { s with host := { s.host with alertPending := s.host.alertPending && !v.getLsbD 31 } }) ∧
  (∀ (h : Hdr) (v : Word32), writes (.memCfgWrite h v) h [(0x010000, v)] (fun _ => True) fun s =>
    if v.extractLsb' 0 2 = 3 then s else
      { s with nv := { s.nv with speed := v.extractLsb' 0 2 }, struck := s.struck.filter (fun e => e.1 != 0x010000) }) ∧
  ∀ (h : Hdr) (v : Word32),
    (900 ≤ fld v 11 0 → fld v 11 0 ≤ 1650 → writesSo (.pwrCapWrite h v) h [(0x070000, v)] (fun _ => True) (tookBits 0x070000 0xFFF v)) ∧
    (fld v 11 0 < 900 ∨ 1650 < fld v 11 0 → writeRefused (.pwrCapWrite h v) h [(0x070000, v)] (fun _ => True) .fieldInvalid 0)

/-- The registers of the fabric. FAB_PORT_CTL takes the bits that its mask names, and RATE never 3; a port whose EN is
cleared goes DOWN with cause 8 (R309). FAB_TORUS_SIZE is refused while the slice has a tag, and where the module lies
outside it (R317); ports that are up check their peers again. FAB_SLICE_SIZE and FAB_SLICE_POS wait for a quiet fabric
(R349); FAB_STANDIN is refused while the slice has a tag (R447). -/
def Sys2Proof.Claim.FabricRegisters : Prop :=
  (∀ (h : Hdr) (q : Fin 10) (v : Word32),
    let off := 0x020040 + 4 * q.val
    let w := fun (s : State) => (s.cfgReg off &&& ~~~(v >>> 16 &&& 0xF)) ||| (v &&& (v >>> 16 &&& 0xF))
    let rate := fun (s : State) => if fld (w s) 3 2 = 3 then fld (s.cfgReg off) 3 2 else fld (w s) 3 2
    writesSo (.fabPortCtlWrite h q v) h [(BitVec.ofNat 24 off, v)] (fun s => (w s).getLsbD 0 = true ∨ (s.port q.val).state = .down)
      (fun s x => fld (x.cfgReg off) 1 0 = fld (w s) 1 0 ∧ fld (x.cfgReg off) 3 2 = rate s ∧
        fld (x.cfgReg off) 31 4 = fld (s.cfgReg off) 31 4 ∧ (∀ k, k ≠ off → x.cfgReg k = s.cfgReg k) ∧
        x = { s with cfg := x.cfg, struck := s.struck.filter (fun e => e.1 != off), host := { s.host with staged := [] } }) ∧
    ∀ s, Passes h (.regWrite [(BitVec.ofNat 24 off, v)]) s → (w s).getLsbD 0 = false → (s.port q.val).state ≠ .down →
      ∃ t, exec (.fabPortCtlWrite h q v) s = .next t ∧ (t.port q.val).state = .down ∧ (t.port q.val).cause = 8 ∧
        (t.port q.val).waiting = [] ∧ (t.port q.val).held = []) ∧
  (∀ (h : Hdr) (v : Word32),
    let es : List (BitVec 24 × Word32) := [(0x020084, v)]
    let outside := fun (s : State) => ∃ a < 4, fld v (15 - 4 * a) (12 - 4 * a) < coord s.strapNode a
    writeRefused (.fabTorusSizeWrite h v) h es (fun s => s.sliceTag ≠ 0) .busyFabric 0 ∧
    writeRefused (.fabTorusSizeWrite h v) h es (fun s => s.sliceTag = 0 ∧ outside s) .sliceInvalid 0 ∧
    writesSo (.fabTorusSizeWrite h v) h es (fun s => s.sliceTag = 0 ∧ ¬outside s ∧ ∀ q < 8, (s.port q).state ≠ .up ∧
      (s.port q).state ≠ .restriping) (tookBits 0x020084 0xFFFF v) ∧
    ∀ s, Passes h (.regWrite es) s → s.sliceTag = 0 → ¬outside s → ∃ t, exec (.fabTorusSizeWrite h v) s = .next t ∧
      fld (t.cfgReg 0x020084) 15 0 = fld v 15 0 ∧ ∀ q < 8, (s.port q).state = .up → peerOk t q (s.port q).peer = false →
        (t.port q).state = .down ∧ (t.port q).cause = 3) ∧
  (∀ (h : Hdr) (v : Word32),
    writeRefused (.fabSliceSizeWrite h v) h [(0x0200C4, v)] (fun s => fabricBusy s = true) .busyFabric 0 ∧
    writesSo (.fabSliceSizeWrite h v) h [(0x0200C4, v)] (fun s => fabricBusy s = false) (tookBits 0x0200C4 0xFFFF v)) ∧
  (∀ (h : Hdr) (v : Word32),
    writeRefused (.fabSlicePosWrite h v) h [(0x0200C0, v)] (fun s => fabricBusy s = true) .busyFabric 0 ∧
    writeRefused (.fabSlicePosWrite h v) h [(0x0200C0, v)] (fun s => fabricBusy s = false ∧ slicePosBad s v = true) .sliceInvalid 0 ∧
    writesSo (.fabSlicePosWrite h v) h [(0x0200C0, v)] (fun s => fabricBusy s = false ∧ slicePosBad s v = false)
      (tookBits 0x0200C0 0xFF00FFFF v)) ∧
  ∀ (h : Hdr) (v : Word32),
    writeRefused (.fabStandinWrite h v) h [(0x0200C8, v)] (fun s => s.sliceTag ≠ 0) .standinInvalid 0 ∧
    writesSo (.fabStandinWrite h v) h [(0x0200C8, v)] (fun s => s.sliceTag = 0) (tookBits 0x0200C8 0x800FFFFF v)

/-- The registers of training. COL_STEP_ADDR, COL_RIND_CTL, COL_RIND_BASE and COL_RIND_SIZE are BUSY_COLL while a closing
collective is open, and their addresses and sizes must be multiples of 64, 256 and 512; HX_CFG is BUSY_HX while an outer step
is open, and its fields keep their ranges (R438). -/
def Sys2Proof.Claim.TrainingRegisters : Prop :=
  let closing := fun (s : State) => ∃ c ∈ s.col.opens, c.req.close ≠ 0
  (∀ (h : Hdr) (lo hi : Word32) (v : Word32),
    writeRefused (.colRindCtlWrite h 0 v hi) h [(0x030004, v)] closing .busyColl 0 ∧
    (fld v 3 0 < 8 → writesSo (.colRindCtlWrite h 0 v hi) h [(0x030004, v)] (fun s => ¬closing s) (tookBits 0x030004 0xC000000F v)) ∧
    (8 ≤ fld v 3 0 → writesSo (.colRindCtlWrite h 0 v hi) h [(0x030004, v)] (fun s => ¬closing s) (tookBits 0x030004 0xC0000000 v)) ∧
    ∀ (c : Instr) (off k : Nat), (c, off, k) ∈ [(Instr.colRindCtlWrite h 1 lo hi, 0x030010, 256),
        (Instr.colRindCtlWrite h 2 lo hi, 0x030018, 512), (Instr.colStepAddrWrite h lo hi, 0x030008, 64)] →
      let es := [(BitVec.ofNat 24 off, lo), (BitVec.ofNat 24 (off + 4), hi)]
      writeRefused c h es (fun _ => (hi ++ lo).toNat % k ≠ 0) .fieldInvalid 1 ∧
      writeRefused c h es (fun s => (hi ++ lo).toNat % k = 0 ∧ closing s) .busyColl 1 ∧
      writesSo c h es (fun s => (hi ++ lo).toNat % k = 0 ∧ ¬closing s) (tookWide off lo hi)) ∧
  ∀ (h : Hdr) (v : Word32),
    let new := fun (s : State) => (s.cfgReg 0x040000 &&& ~~~(0xFFFEF000 : Word32)) ||| (v &&& 0xFFFEF000)
    let changes := fun (s : State) => (new s).extractLsb' 0 30 ≠ (s.cfgReg 0x040000).extractLsb' 0 30
    let bad := 4 < fld v 28 26 ∨ fld v 15 12 = 0 ∨ 8 < fld v 15 12
    writeRefused (.hxCfgWrite h v) h [(0x040000, v)] (fun s => changes s ∧ outerOpen s = true) .busyHx 0 ∧
    writeRefused (.hxCfgWrite h v) h [(0x040000, v)] (fun s => ¬(changes s ∧ outerOpen s = true) ∧ bad) .hxField 0 ∧
    writesSo (.hxCfgWrite h v) h [(0x040000, v)] (fun s => ¬(changes s ∧ outerOpen s = true) ∧ ¬bad)
      (tookBits 0x040000 0xFFFEF000 v)

/-- The registers of units and shuttles. A one in UNIT_FAULT.VALID returns a FAULTED unit whose work has ended to IDLE
(R190), and one whose work goes on stays as it is; a one in UNIT_MX_STATUS clears its mark, and PARTIAL goes with the
last (R520); UNIT_OWNn changes the masked codes of four banks, over a change that an OWN descriptor has requested, a
reserved code excepted (R198, R201, R510); a one in SHT_NF clears its shuttle's flag. That a host write of an owner code
waits for no access is the model's reading (log entry 102). -/
def Sys2Proof.Claim.UnitRegisters : Prop :=
  (∀ (h : Hdr) (u : UnitId),
    let es := [(BitVec.ofNat 24 (0x400004 + 4096 * u.key), (0x80000000 : Word32))]
    let done := fun (x : UnitState) => x.status = .faulted ∧ x.mxQueue = [] ∧ x.mxRun = [] ∧ x.shOut = 0
    writes (.unitFaultClear h u) h es (fun s => done (s.unit u)) (fun s =>
      s.setUnit u { s.unit u with status := .idle, faultValid := false, program := false }) ∧
    writes (.unitFaultClear h u) h es (fun s => ¬done (s.unit u)) id) ∧
  (∀ (h : Hdr) (u : UnitId) (v : Word32),
    let es := [(BitVec.ofNat 24 (0x400018 + 4096 * u.key), v)]
    let busy := fun (x : UnitState) => x.status = .faulted ∧ (x.mxQueue ≠ [] ∨ x.mxRun ≠ [] ∨ x.shOut ≠ 0)
    writes (.unitMxStatusWrite h u v) h es (fun s => ¬busy (s.unit u)) (fun s =>
      s.setUnit u { s.unit u with mxStatus := (s.unit u).mxStatus &&& ~~~v,
                                  mxPartial := (s.unit u).mxPartial && decide ((s.unit u).mxStatus &&& ~~~v ≠ 0) }) ∧
    writes (.unitMxStatusWrite h u v) h es (fun s => busy (s.unit u)) id) ∧
  (∀ (h : Hdr) (u : UnitId) (n : Fin 8) (v : Word32),
    let off := 0x400040 + 4096 * u.key + 4 * n.val
    let m := fun (i : Nat) => v.extractLsb' (16 + 4 * i) 4
    let put := fun (old : BitVec 4) (i : Nat) =>
      let c := (old &&& ~~~m i) ||| (v.extractLsb' (4 * i) 4 &&& m i)
      if m i = 0 ∨ (3 ≤ c.toNat ∧ c.toNat ≤ 7) then old else c
    writesSo (.unitOwnWrite h u n v) h [(BitVec.ofNat 24 off, v)] (fun s => (s.unit u).ownReq = []) (fun s x =>
      x = { s with units := x.units, struck := s.struck.filter (fun e => e.1 != off), host := { s.host with staged := [] } } ∧
      (∀ o, o ≠ u → x.unit o = s.unit o) ∧ x.unit u = { s.unit u with owners := (x.unit u).owners } ∧
      (∀ i, i < 4 → (x.unit u).owner (4 * n.val + i) = put ((s.unit u).owner (4 * n.val + i)) i) ∧
      ∀ b, b / 4 ≠ n.val → (x.unit u).owner b = (s.unit u).owner b) ∧
    ∀ (i : Nat) (k : Fin 8) (c : BitVec 4), i < 4 → m i ≠ 0 → c.toNat < 3 ∨ 7 < c.toNat → put c i ≠ c →
      writesSo (.unitOwnWrite h u n v) h [(BitVec.ofNat 24 off, v)] (fun s => (s.unit u).ownReq = [(4 * n.val + i, k.val, c)]) fun _ x =>
        (x.unit u).owner (4 * n.val + i) = put c i ∧ (x.unit u).ownReq = []) ∧
  ∀ (h : Hdr) (c : ClusterId) (v : Word32),
    writesSo (.shtNfClear h c v) h [(BitVec.ofNat 24 (0x200040 + 4096 * c.key), v)] (fun _ => True) fun s x =>
      x = { s with shuttles := x.shuttles, host := { s.host with staged := [] } } ∧
      (∀ k : Fin 8, x.sh ⟨c, k⟩ = { s.sh ⟨c, k⟩ with nf := (s.sh ⟨c, k⟩).nf && !(decide (k.val < 4) && v.getLsbD k.val) }) ∧
      ∀ q : ShuttleId, q.cluster ≠ c → x.sh q = s.sh q

/-! ## The torus fabric (ch. 7) -/

namespace Sys2Proof.Claim

/-- Port q has gone DOWN with this cause (R309): nothing is held or waits there, heddles that name it are gone, leases
stand (R469), the packets lost with frames sent or still to come are counted, and outside BOOT ADMIT is cleared. With no
heddle on the port, LINK_DOWN is the newest event. -/
def portLost (q : Nat) (cause : BitVec 4) (s t : State) : Prop :=
  let x := s.port q
  let y := t.port q
  y.state = .down ∧ y.cause = cause ∧ y.lanes = 0 ∧ y.held = [] ∧ y.waiting = [] ∧ y.retrain = none ∧
  t.fab.heddles = s.fab.heddles.filter (fun h => !(h.inp.toNat == q || h.outp.toNat == q)) ∧
  t.press = s.press ∧ t.mem = s.mem ∧ t.units = s.units ∧
  (s.boot.state ≠ .boot → (t.cfgReg (0x020040 + 4 * q)).getLsbD 1 = false) ∧
  (let sent := x.held.filter (·.last)
    let parts := (partials q s).filter fun r => !sent.any fun f => f.qp.inp == q && f.qp.rx == some r
    let stuck := x.waiting.filter fun e => !brokenOn q x e
    (t.counter 0x020118).toNat = min 0xFFFFFFFF ((s.counter 0x020118).toNat +
      (sent.length + parts.length + if q < 8 then 0 else stuck.length))) ∧
  (∀ e ∈ t.fab.inbox ++ t.fab.landed, e.inp ≠ q ∨ e.rx = none ∧ ∃ o ∈ s.fab.inbox ++ s.fab.landed ++ (s.fab.ports.flatMap fun p => p.2.waiting),
    o.pkt.src = e.pkt.src ∧ o.inp = q ∧ brokenOn q x o = false) ∧
  (s.boot.state ≠ .boot → (∀ h ∈ s.fab.heddles, h.inp.toNat ≠ q ∧ h.outp.toNat ≠ q) →
    newest 0x0031 1 (BitVec.ofNat 32 q) 0 (cause.zeroExtend 16) t)

/-- Port q has sent an idle frame with this AK and ASEQ (Table 7.3). -/
def sentIdle (q : Fin 10) (ak : BitVec 2) (aseq : BitVec 12) (t : State) : Prop :=
  ∃ h, .frame q h .idle ∈ t.sent ∧ h.ftype = 1 ∧ h.ak = ak ∧ h.aseq = aseq

/-- Port q has sent this link-control frame, acknowledging what it has taken; s otherwise becomes t (R301, R303). -/
def ctlSent (q : Fin 10) (m : LinkMsg) (s t : State) : Prop :=
  (∃ h, .frame q h (.ctl m) ∈ t.sent ∧ h.ftype = 2 ∧ h.ak = 1 ∧ h.aseq = (s.port q.val).expected - 1) ∧
  t = { s with sent := t.sent, fab := { s.fab with ports := t.fab.ports } } ∧ (∀ k, k ≠ q.val → t.port k = s.port k) ∧
  t.port q.val = { s.port q.val with sinceIdle := (t.port q.val).sinceIdle }

/-- Port q has sent the data frame of this FSEQ, with frame k of packet p, acknowledging what it has taken (R303). -/
def sentData (q : Fin 10) (fseq : BitVec 12) (p : Packet) (k : Nat) (t : State) : Prop :=
  ∃ h, .frame q h (.data p k) ∈ t.sent ∧ h.ftype = 0 ∧ h.fseq = fseq ∧ h.ak = 1 ∧ h.aseq = (t.port q.val).expected - 1

/-- WACK, or WNAK with a cause, for a packet (R326). -/
def answerOf (p : Packet) (cause : Option Nat) : Packet :=
  { Packet.blank with typ := if cause.isNone then 2 else 3, dst := p.src, tag := p.tag, vers := BitVec.ofNat 8 (cause.getD 0) }

/-- A packet from port q dropped at the router: counted at its reason, and IN and OUT of its epoch alike; its buffers at the port
are free (R306). -/
def dropped (q reason : Nat) (p : Packet) (s t : State) : Prop :=
  t = { s with counters := t.counters, sent := t.sent, fab := { s.fab with ports := t.fab.ports } } ∧
  (∀ k, k ≠ q → t.port k = s.port k) ∧ (t.port q).waiting = (s.port q).waiting ∧ (t.port q).held = (s.port q).held ∧
  (t.counter reason).toNat = min 0xFFFFFFFF ((s.counter reason).toNat + 1) ∧
  drainCount t p.epoch = drainCount s p.epoch ∧ t.counter (inOff p.epoch) = s.counter (inOff p.epoch) + 1 ∧
  ∀ k, k ≠ reason → k ≠ inOff p.epoch → k ≠ outOff p.epoch → t.counter k = s.counter k

/-- A packet from port `inp` stands last in the queue of port 10, counted in and not yet out of its epoch (R332, R346). -/
def queuedHere (inp : Nat) (p : Packet) (s t : State) : Prop :=
  (∃ e, e.pkt = p ∧ e.inp = inp ∧
    t = { s with counters := t.counters, fab := { s.fab with inbox := s.fab.inbox ++ [e], ports := t.fab.ports } }) ∧
  (∀ k, t.port k = { s.port k with rxRouted := (t.port k).rxRouted }) ∧
  t.counter (inOff p.epoch) = s.counter (inOff p.epoch) + 1 ∧ drainCount t p.epoch = drainCount s p.epoch + 1

/-- A packet that the router takes: a known type, the slice's tag, a valid epoch; and no open window makes it a circuit packet. -/
def routable (inp : Nat) (p : Packet) (s : State) : Prop :=
  p.ver = 1 ∧ 1 ≤ p.typ.toNat ∧ p.typ.toNat ≤ 5 ∧ s.sliceTag ≠ 0 ∧ p.slice = s.sliceTag ∧ s.bankValid p.epoch = true ∧
  ∀ h ∈ s.fab.heddles, ¬(p.heddle ≠ 0 ∧ h.hid = p.heddle ∧ h.inp.toNat = inp ∧ h.isOpen = true)

end Sys2Proof.Claim

/-- SET_ROUTE loads a bank, its 64 entries and its redirects, and makes it valid (R322, R331, R334, R448); the other
bank keeps its entries. A bad code, a redirect to another site or a launch beat is ROUTE_INVALID, a bank in use or not
drained is BUSY_EPOCH. The switch form makes a valid bank the one of injection, and refuses another with BANK_INVALID
(R335). -/
def Sys2Proof.Claim.RouteTables : Prop :=
  (∀ (h : Hdr) (p : RouteReq), p.entries.length = 64 →
    let b := p.bank.val == 1
    let good := fun (s : State) => (revHdr h).lbv = false ∧ routeBad p s = false
    let quiet := fun (s : State) => ¬(s.fab.inj = p.bank ∧ s.bankValid b = true) ∧ drainCount s b = 0
    completes (.setRouteWrite h p) h (.setRouteWrite p) (fun s => good s ∧ quiet s) (fun s x pay d => pay = [] ∧ d = 0 ∧
      x = { s with
        struck := x.struck,
        fab := { s.fab with routes := x.fab.routes, redirects := x.fab.redirects, valid0 := x.fab.valid0,
                            valid1 := x.fab.valid1 } } ∧
      x.bankValid b = true ∧ x.bankValid (!b) = s.bankValid (!b) ∧
      (∀ a c, a < 4 → c < 16 → x.route b a c = p.entries.getD (16 * a + c) 0 &&& 0xFF ∧ x.route (!b) a c = s.route (!b) a c) ∧
      x.fab.redirects = s.fab.redirects.filter (fun r => r.1 != p.bank) ++ p.redirects.map (fun r => (p.bank, r.1, r.2))) ∧
    refusesWith (.setRouteWrite h p) h (.setRouteWrite p) (fun s => ¬good s) .routeInvalid 0 ∧
    refusesWith (.setRouteWrite h p) h (.setRouteWrite p) (fun s => good s ∧ ¬quiet s) .busyEpoch 0) ∧
  ∀ (h : Hdr) (b : Fin 2),
    hasEffect (.setRouteSwitch h b) h (.setRouteSwitch b) (fun s => (revHdr h).lbv = false ∧ s.bankValid (b.val == 1) = true)
      (fun s => { s with fab := { s.fab with inj := b } }) ∧
    refusesWith (.setRouteSwitch h b) h (.setRouteSwitch b) (fun s => (revHdr h).lbv = false ∧ s.bankValid (b.val == 1) = false)
      .bankInvalid 0 ∧
    refusesWith (.setRouteSwitch h b) h (.setRouteSwitch b) (fun _ => (revHdr h).lbv = true) .routeInvalid 0

/-- SET_HEDDLE installs an entry whose START a launch could name, that no other entry of its HID or output port stands against
and whose ports are UP (R341, R345), and refuses another with the status of Table 7.14; its answer waits for the
arming. ACTION remove takes the entry out. A window opens at its beat, and closes LEN beats later; the entry goes with the
last of its COUNT windows (R342, R345). -/
def Sys2Proof.Claim.Heddles : Prop :=
  (∀ (h : Hdr) (p : HeddleReq) (s : State), Passes h (.setHeddleInstall p) s →
    (16 ≤ (p.start - s.beat).toInt → (p.start - s.beat).toNat < 2 ^ 32 → heddleField p = false → s.fab.heddles.length < 64 →
      (∀ x ∈ s.fab.heddles, x.hid ≠ p.hid ∧ (x.outp = p.outp → ¬(x.opened = 0 ∧ x.start = p.start) ∧ heddlesApart x p = true)) →
      (p.inp.toNat < 8 → (s.port p.inp.toNat).state = .up) → (p.outp.toNat < 8 → (s.port p.outp.toNat).state = .up) →
      exec (.setHeddleInstall h p) s = .next (leftWaiting h (.setHeddleInstall p) { s with fab := { s.fab with
        heddles := s.fab.heddles ++ [⟨p.hid, p.inp, p.outp, p.start, p.len, p.period, p.count, 0, false⟩] } })) ∧
    ∀ st, heddleRefusal p s = some st → exec (.setHeddleInstall h p) s = .next (turnedAway h (.setHeddleInstall p) st 0 s)) ∧
  (∀ (h : Hdr) (i : BitVec 8), hasEffect (.setHeddleRemove h i) h (.setHeddleRemove i) (fun _ => True)
    (fun s => { s with fab := { s.fab with heddles := s.fab.heddles.filter fun e => e.hid != i } })) ∧
  (∀ (i : BitVec 8) (e : Heddle) (s : State), s.isReady = true → findHeddle s i = some e → e.isOpen = false →
    e.count = 0 ∨ e.opened < e.count.toNat →
    ((e.start + BitVec.ofNat 48 (e.opened * e.period.toNat) - s.portBeat e.outp.toNat).toInt ≤ 0 →
      exec (.heddleWindowOpen i) s = .next { s with fab := { s.fab with heddles := s.fab.heddles.map fun x =>
        if x.hid = i then { e with isOpen := true, opened := e.opened + 1 } else x } }) ∧
    (0 < (e.start + BitVec.ofNat 48 (e.opened * e.period.toNat) - s.portBeat e.outp.toNat).toInt → exec (.heddleWindowOpen i) s = .next s)) ∧
  ∀ (i : BitVec 8) (e : Heddle) (s : State), s.isReady = true → findHeddle s i = some e → e.isOpen = true → 0 < e.opened →
    (e.start + BitVec.ofNat 48 ((e.opened - 1) * e.period.toNat) + e.len.zeroExtend 48 - s.portBeat e.outp.toNat).toInt ≤ 0 →
    ∃ t, exec (.heddleWindowClose i) s = .next t ∧ t.mem = s.mem ∧ t.units = s.units ∧
      (e.count ≠ 0 → e.count.toNat ≤ e.opened → t.fab.heddles = s.fab.heddles.filter fun x => x.hid != i) ∧
      (e.count = 0 ∨ e.opened < e.count.toNat →
        t.fab.heddles = s.fab.heddles.map fun x => if x.hid = i then { e with isOpen := false } else x) ∧
      ((s.port e.outp.toNat).waiting = [] → t = { s with fab := { s.fab with heddles := t.fab.heddles } })

/-- The congestion map's interval ends after FAB_CMAP_BEATS beats: what has been counted becomes the complete record, with the
module's node, slice and epoch bits, and counting begins anew (R346, R347). Earlier nothing happens. -/
def Sys2Proof.Claim.CongestionMap : Prop :=
  ∀ s : State, clockRuns s = true →
    (s.fab.cmapNow.beats < (s.cfgReg 0x020094).toNat % 2 ^ 24 → exec .cmapIntervalClose s = .next s) ∧
    ((s.cfgReg 0x020094).toNat % 2 ^ 24 ≤ s.fab.cmapNow.beats → ∃ t, exec .cmapIntervalClose s = .next t ∧
      t = { s with fab := { s.fab with cmapNow := t.fab.cmapNow, cmapDone := t.fab.cmapDone } } ∧
      t.fab.cmapNow = { Cmap.reset with start := s.beat, interval := s.fab.cmapNow.interval + 1 } ∧
      t.fab.cmapDone.interval = s.fab.cmapNow.interval + 1 ∧ t.fab.cmapDone.node = s.strapNode ∧
      t.fab.cmapDone.slice = s.sliceTag ∧ t.fab.cmapDone.start = s.fab.cmapNow.start ∧
      (∀ q c f, q < 10 → c < 4 → f < 12 → tget 0 t.fab.cmapDone.cells (16 * (4 * q + c) + f) =
        tget 0 s.fab.cmapNow.cells (16 * (4 * q + c) + f)) ∧
      ∀ q c, q < 10 → c < 4 → tget 0 t.fab.cmapDone.cells (16 * (4 * q + c) + 12) = (s.port q).lanes.toNat)

/-- Lanes and ports going down (R307, R309). A lane that drops starts a restripe over the rest, which the finding end announces;
the last one takes the port DOWN with cause 7; the restripe ends with the port UP on those lanes and LANE_DEGRADED. A count of
corrected symbols that FAB_LANE_SER_MAX allows drops no lane. A port DOWN by a cause that its state bears out, or silent for 40
beats, loses what it held. -/
def Sys2Proof.Claim.PortsGoDown : Prop :=
  (∀ (q : Fin 10) (k : Fin 4) (c : LaneCause) (s : State), s.isReady = true →
    (s.port q.val).state = .up ∨ (s.port q.val).state = .restriping →
    let x := s.port q.val
    let now := if x.state = .restriping then x.restripeTo else x.lanes
    let left := now &&& ~~~((1 : BitVec 4) <<< k.val)
    (left = now ∨ (c = .symbols ∧ laneSymbols s q.val k ≤ (s.cfgReg 0x020080).toNat) → exec (.laneDrop q k c) s = .next s) ∧
    (left ≠ now → (c = .symbols → (s.cfgReg 0x020080).toNat < laneSymbols s q.val k) →
      (left ≠ 0 → ∃ t, exec (.laneDrop q k c) s = .next t ∧
        t.port q.val = { x with state := .restriping, restripeTo := left, sinceIdle := (t.port q.val).sinceIdle } ∧
        (∀ p, p ≠ q.val → t.port p = s.port p) ∧ (c = .announced → t.sent = s.sent) ∧
        (c ≠ .announced → ∃ h, .frame q h (.ctl (.lanes left)) ∈ t.sent ∧ h.ftype = 2 ∧ h.ak = 1 ∧ h.aseq = x.expected - 1)) ∧
      (left = 0 → ∃ t, exec (.laneDrop q k c) s = .next t ∧ portLost q.val 7 s t))) ∧
  (∀ (q : Fin 10) (s : State), s.isReady = true → (s.port q.val).state = .restriping →
    ∃ t, exec (.laneRestripeDone q) s = .next t ∧ (t.port q.val).state = .up ∧
      (t.port q.val).lanes = (s.port q.val).restripeTo ∧ t.mem = s.mem ∧ t.units = s.units ∧
      newest 0x0032 1 (BitVec.ofNat 32 q.val) 0 ((s.port q.val).restripeTo.zeroExtend 16) t) ∧
  (∀ (q : Fin 10) (c : BitVec 4) (s : State), s.isReady = true → (s.port q.val).state ≠ .down → downCause s q.val c.toNat = true →
    ∃ t, exec (.portDown q c) s = .next t ∧ portLost q.val c s t) ∧
  (∀ (q : Fin 10) (s : State), s.isReady = true → (s.port q.val).state = .up →
    (40 ≤ (s.portBeat q.val - (s.port q.val).lastRx).toNat →
      ∃ t, exec (.portSilentTimeout q) s = .next t ∧ portLost q.val 6 s t) ∧
    ((s.portBeat q.val - (s.port q.val).lastRx).toNat < 40 → exec (.portSilentTimeout q) s = .next s)) ∧
  ∀ (q : Fin 10) (c : BitVec 4) (k : Fin 4) (l : LaneCause) (s : State), (s.port q.val).state = .down →
    exec (.portDown q c) s = .next s ∧ exec (.laneDrop q k l) s = .next s

/-- Training of an enabled port that is DOWN (R310 to R312): it sends its own strap sample and slice tag, comes UP with
the lanes, mode and peer that training found, and sends LINK_UP, and HELLO to a store, which counts only when it
answers. A failure takes it DOWN with its cause: 1 no signal, 2 no lanes or a mode that RATE forbids, 3 a torus peer out
of place, 4 too long a delay. 100 ms later it tries again; until the try ends it is TRAINING. After bad straps no port
trains (R316). -/
def Sys2Proof.Claim.PortTraining : Prop :=
  ∀ (q : Fin 10) (r : TrainResult) (s : State), portsTrain s = true → (s.port q.val).state = .down →
    (s.cfgReg (0x020040 + 4 * q.val)).getLsbD 0 = true →
    let x := s.port q.val
    let rate := ((s.cfgReg (0x020040 + 4 * q.val)).toNat / 4) % 4
    let noLanes := r.lanes = 0 ∨ (rate = 1 ∧ r.mode200 = true) ∨ (rate = 2 ∧ r.mode200 = false)
    let peer := r.peerStrap.extractLsb' 2 20
    let goes := fun (c : Instr) =>
      (r.signal = true → ¬noLanes → r.delayNs ≤ 1800 → (q.val < 8 → peerOk s q.val peer = true) →
        ∃ t, exec c s = .next t ∧ (t.port q.val).state = .up ∧ (t.port q.val).lanes = r.lanes ∧
          (t.port q.val).mode200 = r.mode200 ∧ (t.port q.val).peer = peer ∧ (t.port q.val).peerTag = r.peerTag ∧
          (t.port q.val).expected = 0 ∧ (t.port q.val).cameUp = true ∧ (∀ p, p ≠ q.val → t.port p = s.port p) ∧ t.mem = s.mem ∧
          (∃ h, .frame q h (.ctl (.identity s.boot.strap s.sliceTag)) ∈ t.sent ∧ h.ftype = 2) ∧
          (s.boot.state ≠ .boot → newest 0x0030 0 (BitVec.ofNat 32 q.val) 0 (r.lanes.zeroExtend 16) t) ∧
          (q.val < 8 → t.ckp.unanswered = s.ckp.unanswered) ∧
          (q.val = 8 → t.ckp.store0 = none ∧ t.ckp.store1 = s.ckp.store1) ∧
          (q.val = 9 → t.ckp.store1 = none ∧ t.ckp.store0 = s.ckp.store0) ∧
          (8 ≤ q.val → ∃ y, t.ckp.unanswered = s.ckp.unanswered ++ [y] ∧ (recovHdr y.pkt).rop = 6)) ∧
      ∀ cause, trainCause s q.val r = some cause →
        ∃ t, exec c s = .next t ∧ portLost q.val (BitVec.ofNat 4 cause) s t ∧
          (t.port q.val).peer = if cause = 1 ∨ cause = 2 then x.peer else peer
    (s.boot.strapErr = true → exec (.portTrain q r) s = .next s ∧ exec (.portTrainRetry q (some r)) s = .next s) ∧
    (s.boot.strapErr = false → goes (.portTrain q r) ∧
      (x.cause ≠ 0 → beatsOfMs 100 ≤ (s.portBeat q.val - x.downSince).toNat → goes (.portTrainRetry q (some r)) ∧
        exec (.portTrainRetry q none) s = .next (s.setPort q.val { x with state := .training })) ∧
      ((s.portBeat q.val - x.downSince).toNat < beatsOfMs 100 → exec (.portTrainRetry q (some r)) s = .next s)) ∧
    (r.signal = false → trainCause s q.val r = some 1) ∧
    (r.signal = true → noLanes → trainCause s q.val r = some 2) ∧
    (r.signal = true → ¬noLanes → 1800 < r.delayNs → trainCause s q.val r = some 4) ∧
    (r.signal = true → ¬noLanes → r.delayNs ≤ 1800 → q.val < 8 → peerOk s q.val peer = false →
      trainCause s q.val r = some 3)

/-- A link frame at a port that is UP (R303, R304, R306). A sound data frame in order is accepted and acknowledged, and stands in
a buffer until its packet has gone on; a bad one, or one out of order, is answered with one NAK for the frame expected; ASEQ
releases the frames that it covers, and a NAK resends those left. After 16 beats without an acknowledgement the held frames
are sent again, and the ninth time takes the port DOWN with cause 5. That all frames of a packet leave at once, and
when a buffer is free, are the model's choices (log entry 44). -/
def Obligations.LinkFrames : Prop :=
  (∀ (q : Fin 10) (f : Frame) (s : State), s.isReady = true → (s.port q.val).state = .up → f.ak = 0 → f.ftype = 0 →
    let x := s.port q.val
    let sound := f.crcOk = true ∧ f.fecOk = true
    (sound → f.fseq = x.expected → ∃ t, exec (.frameReceive q f) s = .next t ∧ (t.port q.val).expected = x.expected + 1 ∧
      (t.port q.val).nakSent = false ∧ (t.port q.val).lastRx = s.portBeat q.val ∧ sentIdle q 1 f.fseq t ∧ t.mem = s.mem ∧
      let n := tget 0 x.rxBegun f.fvc.toNat
      let users := (if tget 0 x.rxLeft f.fvc.toNat = 0 then [] else [n - 1]) ++ (List.range f.begins.length).map (n + ·)
      (x.waiting = [] → x.rxGone = [] → users ≠ [] → (t.port q.val).rxBuf = x.rxBuf ++ [⟨f.fvc.toNat, f.fsh, users⟩])) ∧
    (¬sound ∨ f.fseq ≠ x.expected → ∃ t, exec (.frameReceive q f) s = .next t ∧ (t.port q.val).expected = x.expected ∧
      (t.port q.val).nakSent = true ∧ t.mem = s.mem ∧ (x.nakSent = false → sentIdle q 2 (x.expected - 1) t) ∧
      (x.nakSent = true → x.waiting = [] → t.sent = s.sent))) ∧
  (∀ (q : Fin 10) (f : Frame) (s : State), s.isReady = true → (s.port q.val).state = .up → f.crcOk = true → f.fecOk = true →
    f.ftype ≠ 0 → ¬(f.ftype = 1 ∧ f.elastic = true) → (s.port q.val).waiting = [] →
    let left := (s.port q.val).held.filter fun g => !decide ((f.aseq - g.fseq).toNat < 2048)
    (f.ak = 1 → ∃ t, exec (.frameReceive q f) s = .next t ∧ (t.port q.val).held = left ∧ (t.port q.val).state = .up) ∧
    (f.ak = 2 → (∀ g ∈ left, g.resends < 8) → ∃ t, exec (.frameReceive q f) s = .next t ∧
      (t.port q.val).held = left.map (fun g => { g with resends := g.resends + 1 }) ∧
      ∀ g ∈ left, sentData q g.fseq g.qp.pkt g.idx t)) ∧
  ∀ (q : Fin 10) (s : State), s.isReady = true → (s.port q.val).state = .up → (s.port q.val).held ≠ [] →
    let x := s.port q.val
    ((s.portBeat q.val - x.lastAck).toNat < 16 → exec (.retryTimeout q) s = .next s) ∧
    (16 ≤ (s.portBeat q.val - x.lastAck).toNat → (∀ g ∈ x.held, g.resends < 8) → ∃ t, exec (.retryTimeout q) s = .next t ∧
      t = { s with sent := t.sent, fab := { s.fab with ports := t.fab.ports } } ∧ (∀ p, p ≠ q.val → t.port p = s.port p) ∧
      t.port q.val = { x with held := x.held.map (fun g => { g with resends := g.resends + 1 }),
                              lastAck := s.portBeat q.val, sinceIdle := (t.port q.val).sinceIdle } ∧
      ∀ g ∈ x.held, sentData q g.fseq g.qp.pkt g.idx t) ∧
    (16 ≤ (s.portBeat q.val - x.lastAck).toNat → (∃ g ∈ x.held, 8 ≤ g.resends) →
      ∃ t, exec (.retryTimeout q) s = .next t ∧ portLost q.val 5 s t)

/-- A packet at the router. One for this module joins the queue of port 10 and is counted in its epoch (R332); a bad header,
another slice's tag or an invalid epoch drops it under its counter (R323, R325); another is sent in frames on the port of its
route towards the first axis on which it is out of place, at once where that port has nothing else to send. What comes from a
storage port goes to the checkpoint engine. What the module itself injects carries its job node, slice tag and injection epoch,
and goes to modules of its slice alone (R330, R350). -/
def Sys2Proof.Claim.PacketRouting : Prop :=
  (∀ (q : Fin 11) (vc : Fin 16) (p : Packet) (s : State), s.isReady = true → q.val < 8 → (s.port q.val).state = .up →
    let c := Instr.packetRoute q ⟨vc, p⟩
    (p.ver ≠ 1 ∨ p.typ = 0 ∨ 5 < p.typ.toNat → ∃ t, exec c s = .next t ∧ dropped q.val 0x020114 p s t) ∧
    (p.ver = 1 → 1 ≤ p.typ.toNat → p.typ.toNat ≤ 5 →
      (s.sliceTag = 0 ∨ p.slice ≠ s.sliceTag → ∃ t, exec c s = .next t ∧ dropped q.val 0x020108 p s t) ∧
      (s.sliceTag ≠ 0 → p.slice = s.sliceTag → s.bankValid p.epoch = false →
        ∃ t, exec c s = .next t ∧ dropped q.val 0x02010C p s t)) ∧
    (routable q.val p s → p.mc = false →
      (isFor s p = true → claimed q.val p = true → ∃ t, exec c s = .next t ∧ queuedHere q.val p s t) ∧
      (isFor s p = false → ∀ a n d, siteOf (redirected s p.epoch p.dst) = siteOf s.strapNode → a < 4 →
        coord (redirected s p.epoch p.dst) a ≠ coord s.strapNode a →
        (∀ b, b < a → coord (redirected s p.epoch p.dst) b = coord s.strapNode b) →
        hopFor s p.epoch p.det a (coord (redirected s p.epoch p.dst) a) = .port n d →
        (s.port n).waiting = [] → (s.port n).held = [] → (s.port n).credits = [] → p.payload.length ≤ 4096 →
        (∀ k, 1 ≤ k → k ≤ 3 → 0 < wrrWeight s k) →
        ∃ t, exec c s = .next t ∧ (∀ k, k < framesOf p → ∃ g, sentData (asPort n) g { p with det := d } k t) ∧
          (t.port n).waiting = [] ∧ (t.port n).held.length = framesOf p ∧ drainCount t p.epoch = drainCount s p.epoch + 1) ∧
      (isFor s p = false → siteOf (redirected s p.epoch p.dst) ≠ siteOf s.strapNode →
        ∃ t, exec c s = .next t ∧ dropped q.val 0x020100 p s t))) ∧
  (∀ (q : Fin 11) (vc : Fin 16) (p : Packet) (s : State), s.isReady = true → 8 ≤ q.val → q.val < 10 → (s.port q.val).state = .up →
    let c := Instr.packetRoute q ⟨vc, p⟩
    (p.ver ≠ 1 ∨ p.typ = 0 ∨ 5 < p.typ.toNat → ∃ t, exec c s = .next t ∧ dropped q.val 0x020114 p s t) ∧
    (p.ver = 1 → 1 ≤ p.typ.toNat → p.typ.toNat ≤ 5 → claimed q.val p = true → ∃ t, exec c s = .next t ∧ queuedHere q.val p s t)) ∧
  ∀ (vc : Fin 16) (p : Packet) (s : State), s.isReady = true →
    let own := { p with src := s.jobNode, slice := s.sliceTag, epoch := s.inj, det := false }
    (s.sliceTag = 0 ∨ s.bankValid s.inj = false ∨ mayInject s own = false → exec (.packetRoute 10 ⟨vc, p⟩) s = .next s) ∧
    (routable 10 own s → p.mc = false → mayReach s p.dst = true → isFor s own = true → claimed 10 p = true →
      ∃ t, exec (.packetRoute 10 ⟨vc, p⟩) s = .next t ∧ queuedHere 10 own s t)

/-- A WRITE for this module (R326): with its span in one range, aligned as the range asks and open to the fabric, all of its bytes
are written, with its version on DRAM lines, the packet leaves the queue of port 10, and WACK is injected; a bad span is
answered with WNAK cause 2 and one that owner codes refuse with cause 1, nothing being written; a busy accumulator slot makes it
wait. -/
def Sys2Proof.Claim.RemoteWrites : Prop :=
  ∀ (p : Packet) (s : State), s.isReady = true → p.typ = 1 → reaches s p = true →
    let a := p.addr.toNat
    let n := p.payload.length
    let sized := 1 ≤ n ∧ n ≤ 4096 ∧ a % 4096 + n ≤ 4096
    let answers := fun (cause : Option Nat) (x : State) =>
      exec (.remoteWriteReceive p) s = .next (inject (answerOf p cause) (takeLocal p x))
    (¬sized ∨ regionOf a n = none → answers (some 2) s) ∧
    (sized → regionOf a n = some .queues → exec (.remoteWriteReceive p) s = .fault .engineQueue) ∧
    ∀ r, sized → regionOf a n = some r → r ≠ .queues →
      (rangeOk r a n = false → answers (some 2) s) ∧
      (rangeOk r a n = true → (openSpan r a n .fabric s).2 = false → ∃ x u, answers (some 1) x ∧
        x = { s with units := x.units, counters := x.counters } ∧ counted (unitOff u 0x24) 1 s x) ∧
      (rangeOk r a n = true → (openSpan r a n .fabric s).2 = true → slotBusy s r a n = true →
        exec (.remoteWriteReceive p) s = .next s) ∧
      (rangeOk r a n = true → (openSpan r a n .fabric s).2 = true → slotBusy s r a n = false → s.upsets = [] →
        ((∃ g, r = .dram g) ∨ ∃ u, r = .scratch u ∨ r = .acc u) →
        ∃ x, answers none x ∧
          x = { s with mem := x.mem, lineTags := x.lineTags, poison := x.poison } ∧ x.rawRead a n = p.payload ∧
          (∀ j, j < a ∨ a + n ≤ j → x.readByte j = s.readByte j) ∧
          ((∃ g, r = .dram g) → ∀ l, l % 64 = 0 → l < a + n → a < l + 64 → x.version l = p.vers.extractLsb' 0 7))

/-! ## Shuttles (ch. 5) -/

namespace Sys2Proof.Claim

/-- No stored word holds an upset or poison. -/
def sound (s : State) : Prop := s.upsets = [] ∧ s.poison = [] ∧ ∀ l, s.linePoison l = false

/-- A semaphore after an addition of n (R164). -/
def added (m : Sem) (n : Nat) (err : Bool) : Sem :=
  ⟨BitVec.ofNat 16 (min 65535 (m.count.toNat + n)), m.err || err, m.ovf || decide (65535 < m.count.toNat + n)⟩

/-- The chain of run r has left shuttle h: its issuer has one operation less outstanding and its semaphore has received one,
with the error bit where the chain was refused (R158, R248). Memory and every other unit are as before. -/
def chainEnded (h : ShuttleId) (r : Run) (err : Bool) (s t : State) : Prop :=
  let i := h.cluster.unit r.chain.issuer
  let g := h.cluster.unit r.chain.tgt
  (t.sh h).run = none ∧ (t.sh h).queue = (s.sh h).queue ∧ (∀ k, k ≠ h → t.sh k = s.sh k) ∧ t.mem = s.mem ∧
  (t.unit i).shOut = (s.unit i).shOut - 1 ∧ (t.unit g).sem r.chain.sem.val = added ((s.unit g).sem r.chain.sem.val) 1 err ∧
  ∀ u, u ≠ i → u ≠ g → t.unit u = s.unit u

/-- A descriptor has failed (R248): SHT_ERRk records cause, issuer and address where it held nothing, and the chain is refused. -/
def chainFailed (h : ShuttleId) (r : Run) (cause : Nat) (s t : State) : Prop :=
  chainEnded h r true s t ∧
  (t.sh h).err = if (s.sh h).err.getLsbD 31 then (s.sh h).err
    else BitVec.ofNat 32 (2 ^ 31 + cause * 2 ^ 24 + r.chain.issuer.val * 2 ^ 21 + r.addr.toNat % 2 ^ 21)

/-- Shuttle h fetches descriptor d of run r (R230, R233): it is aligned, within scratch, sound, and nothing of the one before is
still awaited. -/
structure FetchesDesc (h : ShuttleId) (r : Run) (d : Desc) (s : State) : Prop where
  ready : s.isReady = true
  run : (s.sh h).run = some r
  free : r.finished = false ∧ r.ownWait = [] ∧ r.unsent = [] ∧ r.unanswered = [] ∧ r.count < 65536
  place : r.addr.toNat % 64 = 0 ∧ r.addr.toNat + (if d.typ = 1 ∧ d.ext = true then 128 else 64) ≤ 0x180000
  clean : sound s
  words : d = descOf fun i => if i < 8 ∨ (d.typ = 1 ∧ d.ext = true) then
    s.word64 (unitAddr (h.cluster.unit r.chain.issuer) (r.addr.toNat + 8 * i)) else 0

/-- The run after descriptor d is complete: the next one follows, or the chain is finished. -/
def nextRun (r : Run) (d : Desc) : Run :=
  { r with addr := if d.fin then r.addr else d.next.zeroExtend 64, count := r.count + 1, finished := d.fin, ownWait := [], unsent := [],
           unanswered := [], written := 0, endsChain := d.fin, next := d.next, failing := none }

/-- Shuttle h may use n bytes at a: DRAM, scratch banks whose owner codes all name it, accumulator memory without open stacks. -/
def mayUse (h : ShuttleId) (s : State) (a n : Nat) : Prop :=
  n = 0 ∨ match regionOf a n with
    | some (.dram _) => True
    | some (.scratch u) => ∀ b, b < 32 → admits u ((s.unit u).owner b) (.shuttle h) = true
    | some (.acc u) => (s.unit u).stackSlots = [] ∧ (s.unit u).busySlots = []
    | _ => False

/-- Every byte outside these spans, for each target of a descriptor, is as before. -/
def outsideSpans (ts : List (Option UnitId)) (spans : List Span) (s t : State) : Prop :=
  ∀ j, (∀ g ∈ ts, ∀ x ∈ spans, j < targetAddr g x.1.toNat ∨ targetAddr g x.1.toNat + x.2 ≤ j) → t.readByte j = s.readByte j

end Sys2Proof.Claim

/-- A shuttle with no running chain takes the oldest queued one, with its issuer's replay bit (R185, R229); a finished chain
signals its semaphore and is no longer outstanding (R158). A reserved TYPE, a descriptor out of place and the 65,537th
descriptor refuse the chain. -/
def Sys2Proof.Claim.ShuttleChains : Prop :=
  (∀ (h : ShuttleId) (ch : Chain) (rest : List Chain) (s : State), s.isReady = true → (s.sh h).run = none →
    (s.sh h).queue = ch :: rest →
    exec (.shuttleChainStart h) s = .next (s.setSh h { s.sh h with
      queue := rest,
      run := some ⟨{ ch with replay := (s.unit (h.cluster.unit ch.issuer)).replay }, ch.desc, 0, false, [], [], [], 0, false, 0, none⟩ })) ∧
  (∀ (h : ShuttleId) (r : Run) (s : State), s.isReady = true → (s.sh h).run = some r →
    (r.finished = true → ∃ t, exec (.chainComplete h) s = .next t ∧ chainEnded h r false s t ∧ (t.sh h).err = (s.sh h).err) ∧
    (r.finished = false → exec (.chainComplete h) s = .next s)) ∧
  ∀ (c : ShuttleId → Instr), c ∈ [Instr.copyDescriptor, Instr.ownDescriptor, Instr.fillDescriptor] →
    ∀ (h : ShuttleId) (r : Run) (s : State), s.isReady = true → (s.sh h).run = some r → r.finished = false → r.ownWait = [] →
      r.unsent = [] → r.unanswered = [] →
      (65536 ≤ r.count → ∃ t, exec (c h) s = .next t ∧ chainFailed h r 6 s t) ∧
      (r.count < 65536 → r.addr.toNat % 64 ≠ 0 ∨ 0x180000 < r.addr.toNat + 64 →
        ∃ t, exec (c h) s = .next t ∧ chainFailed h r 4 s t) ∧
      ∀ d, FetchesDesc h r d s → d.typ = 0 ∨ 3 < d.typ → ∃ t, exec (c h) s = .next t ∧ chainFailed h r 1 s t

/-- COPY within the module (R234 to R242): with its fields, addresses and accesses in order and VCHK off it completes and writes
nothing outside its destination and residual spans. Of a single LINEAR row that is not whey-masked and does not overlap
its source, the destination holds the source's codes, or, under CONV of Table 2.8, each value scaled and rounded once. A COPY
without elements does nothing. -/
def Sys2Proof.Claim.CopyDescriptor : Prop :=
  ∀ (h : ShuttleId) (r : Run) (d : Desc) (s : State), FetchesDesc h r d s → d.typ = 1 →
    let c : Ctx := ⟨h, r.chain.replay, d⟩
    (∀ k, c.copyCause = some k → ∃ t, exec (.copyDescriptor h) s = .next t ∧ chainFailed h r k s t) ∧
    (c.copyCause = none → (nextOk d = true → c.isEmpty = true →
      exec (.copyDescriptor h) s = .next (s.setSh h { s.sh h with run := some (nextRun r d) })) ∧
    (nextOk d = false ∨ (c.isEmpty = false ∧ c.copyAddrOk = false) →
      ∃ t, exec (.copyDescriptor h) s = .next t ∧ chainFailed h r 4 s t) ∧
    (nextOk d = true → c.isEmpty = false → c.copyAddrOk = true → d.remote = false → d.vchk = 0 →
      (∀ x ∈ c.srcSpans ++ c.residSpans, mayUse h s x.1.toNat x.2) →
      (∀ g ∈ c.targets, ∀ x ∈ c.dstSpans, mayUse h s (targetAddr g x.1.toNat) x.2) →
      ∃ t, exec (.copyDescriptor h) s = .next t ∧
        t.sh h = { s.sh h with run := some (nextRun r d), nf := (t.sh h).nf } ∧ (∀ k, k ≠ h → t.sh k = s.sh k) ∧
        t = { s with mem := t.mem, lineTags := t.lineTags, poison := t.poison, counters := t.counters, shuttles := t.shuttles } ∧
        (∀ j, (∀ g ∈ c.targets, ∀ x ∈ c.dstSpans, j < targetAddr g x.1.toNat ∨ targetAddr g x.1.toNat + x.2 ≤ j) →
          (∀ x ∈ c.residSpans, j < x.1.toNat ∨ x.1.toNat + x.2 ≤ j) → t.readByte j = s.readByte j) ∧
        (d.layout = 0 → d.rows = 1 → d.wmode = 0 → d.umask = 0 → fmtBlock d.sfmt = false → fmtBlock d.dfmt = false →
          d.src + tensorBytes d.sfmt d.len ≤ d.dst ∨ d.dst + tensorBytes d.dfmt d.len ≤ d.src →
          (d.conv = false → t.rawRead d.dst (tensorBytes d.sfmt d.len) = s.rawRead d.src (tensorBytes d.sfmt d.len)) ∧
          ∀ up, d.conv = true → d.rnd = false → scaledPair d.sfmt d.dfmt = some up →
            t.rawRead d.dst (tensorBytes d.dfmt d.len) = packCodes (fmtBits d.dfmt)
              ((elemsOf (fmtBits d.sfmt) d.len (s.rawRead d.src (tensorBytes d.sfmt d.len))).map fun k =>
                (encElem d.dfmt none ((elemVal d.sfmt k).scale (if up then scaleOfK d.k else -scaleOfK d.k))).code))))

/-- FILL within the module (R246) stores its word at every place of its rows for every target and nowhere else; with no place
it does nothing. OWN presents a change of every bank that it names and waits for them (R198, R245). -/
def Sys2Proof.Claim.FillAndOwn : Prop :=
  (∀ (h : ShuttleId) (r : Run) (d : Desc) (s : State), FetchesDesc h r d s → d.typ = 3 →
    let c : Ctx := ⟨h, r.chain.replay, d⟩
    c.fillCause = none → nextOk d = true → c.fillAddrOk = true → d.remote = false →
    (d.len = 0 ∨ d.rows = 0 → exec (.fillDescriptor h) s = .next (s.setSh h { s.sh h with run := some (nextRun r d) })) ∧
    (0 < d.len → 0 < d.rows → (∀ g ∈ c.targets, ∀ x ∈ c.fillSpans, mayUse h s (targetAddr g x.1.toNat) x.2) →
      ∃ t, exec (.fillDescriptor h) s = .next t ∧ t.sh h = { s.sh h with run := some (nextRun r d) } ∧
        (∀ k, k ≠ h → t.sh k = s.sh k) ∧
        t = { s with mem := t.mem, lineTags := t.lineTags, poison := t.poison, shuttles := t.shuttles } ∧
        outsideSpans c.targets c.fillSpans s t ∧
        ∀ g ∈ c.targets, ∀ x ∈ c.fillSpans, ∀ e, e < d.len →
          t.rawRead (targetAddr g x.1.toNat + 8 * e) 8 = leBytes 8 d.word1.toNat)) ∧
  ∀ (h : ShuttleId) (r : Run) (d : Desc) (s : State), FetchesDesc h r d s → d.typ = 2 → nextOk d = true →
    let code := fld d.word0 11 8
    let tgt := fin8 (fld d.word0 7 5)
    let banks := (List.range 32).filter fun b => d.word0.getLsbD (32 + b)
    (3 ≤ code → code ≤ 7 → ∃ t, exec (.ownDescriptor h) s = .next t ∧ chainFailed h r 1 s t) ∧
    (code < 3 ∨ 7 < code → banks = [] →
      exec (.ownDescriptor h) s = .next (s.setSh h { s.sh h with run := some (nextRun r d) })) ∧
    (code < 3 ∨ 7 < code → banks ≠ [] → ∃ t, exec (.ownDescriptor h) s = .next t ∧
      t = { s with units := t.units, shuttles := t.shuttles } ∧
      (∀ u, u ≠ h.cluster.unit tgt → t.unit u = s.unit u) ∧
      t.unit (h.cluster.unit tgt) = { s.unit (h.cluster.unit tgt) with
        ownReq := (s.unit (h.cluster.unit tgt)).ownReq ++ banks.map fun b => (b, h.k.val, BitVec.ofNat 4 code) } ∧
      (t.sh h).run = some { r with endsChain := d.fin, next := d.next, ownWait := banks.map fun b => (tgt, b) })

/-- The changes requested for a bank take effect together, in the order of the shuttles with the host last, so that the last of
them stands (R199, R200); no other bank changes; an OWN descriptor that waits only for this bank is complete (R202). -/
def Sys2Proof.Claim.OwnerChanges : Prop :=
  (∀ (u : UnitId) (b : Fin 32) (s : State), s.isReady = true ∨ s.isFault = true →
    let x := s.unit u
    let mine := x.ownReq.filter fun e => e.1 == b.val
    ∃ t, exec (.ownerChangeEffect u b) s = .next t ∧ t = { s with units := t.units, shuttles := t.shuttles, struck := t.struck } ∧
      (t.struck = s.struck ∨ t.struck = s.struck.filter fun e => e.1 != 0x400040 + 4096 * u.key + 4 * (b.val / 4)) ∧
      (∀ v, v ≠ u → t.unit v = s.unit v) ∧
      t.unit u = { x with owners := (t.unit u).owners, ownReq := x.ownReq.filter fun e => e.1 != b.val } ∧
      (∀ k, k ≠ b.val → (t.unit u).owner k = x.owner k) ∧ (mine = [] → t = s) ∧
      ∀ (k : Nat) (c : BitVec 4), (c.toNat < 3 ∨ 7 < c.toNat) → k ≤ 8 → mine.filter (fun e => e.2.1 == k) = [(b.val, k, c)] →
        (∀ e ∈ mine, e.2.1 ≤ k) → (t.unit u).owner b.val = c) ∧
  ∀ (u : UnitId) (b : Fin 32) (k : Fin 8) (r : Run) (s : State), s.isReady = true →
    (s.sh ⟨u.cluster, k⟩).run = some r → r.ownWait = [(u.slot, b.val)] →
    (∃ e ∈ (s.unit u).ownReq, e.1 = b.val) →
    ∃ t, exec (.ownerChangeEffect u b) s = .next t ∧ (t.sh ⟨u.cluster, k⟩).run = some { r with
      addr := if r.endsChain then r.addr else r.next.zeroExtend 64, count := r.count + 1, finished := r.endsChain, ownWait := [], unsent := [],
      unanswered := [], written := 0, failing := none }

/-- Remote writes of a shuttle (R244, R327, R328). Of a module outside the slice a COPY is refused with cause REMOTE before a byte
is sent; else a row within one 4 KiB block goes out as one WRITE and waits for its answer. WACK of the last one completes
the descriptor; WNAK ends the chain at once; without an answer for FAB_E2E_TIMEOUT beats the packet goes out again, and
after FAB_E2E_RETRIES times the chain ends. -/
def Obligations.RemoteAnswers : Prop :=
  (∀ (h : ShuttleId) (r : Run) (d : Desc) (s : State), FetchesDesc h r d s → d.typ = 1 →
    let c : Ctx := ⟨h, r.chain.replay, d⟩
    c.copyCause = none → nextOk d = true → c.isEmpty = false → c.copyAddrOk = true → d.remote = true →
    (mayReach s d.node = false → ∃ t, exec (.copyDescriptor h) s = .next t ∧ chainFailed h r 0x0B s t) ∧
    (mayReach s d.node = true → d.layout = 0 → d.rows = 1 → d.wmode = 0 → d.conv = false → fmtBlock d.sfmt = false → d.vchk = 0 →
      d.dst % 4096 + tensorBytes d.sfmt d.len ≤ 4096 → (∀ x ∈ c.srcSpans, mayUse h s x.1.toNat x.2) →
      ∃ t p, exec (.copyDescriptor h) s = .next t ∧ t.mem = s.mem ∧
        (t.sh h).run = some { r with
          endsChain := d.fin, next := d.next, unanswered := [⟨s.fab.nextTag, p, 0, s.shuttleBeat h⟩], failing := none } ∧
        p.typ = 1 ∧ p.dst = d.node ∧ p.addr = BitVec.ofNat 64 d.dst ∧ p.vers = d.version.zeroExtend 8 ∧
        p.payload = s.rawRead d.src (tensorBytes d.sfmt d.len))) ∧
  (∀ (h : ShuttleId) (r : Run) (w : RemoteWrite) (p : Packet) (s : State), s.isReady = true → (s.sh h).run = some r →
    (∀ k q, k ≠ h → (s.sh k).run = some q → ∀ v ∈ q.unanswered, v.tag ≠ p.tag) → r.unsent = [] → r.unanswered = [w] →
    w.tag = p.tag → w.pkt.dst = p.src → isFor s p = true →
    (p.typ = 2 → r.failing = none → ∃ t, exec (.wackReceive p) s = .next t ∧ t.mem = s.mem ∧ (t.sh h).run = some { r with
      addr := if r.endsChain then r.addr else r.next.zeroExtend 64, count := r.count + 1, finished := r.endsChain, ownWait := [],
      unanswered := [], written := 0 }) ∧
    (p.typ = 2 → ∀ k, r.failing = some k → ∃ t, exec (.wackReceive p) s = .next t ∧ chainEnded h r true s t) ∧
    (p.typ = 3 → ∃ t, exec (.wnakReceive p) s = .next t ∧ chainFailed h r 0x0B s t)) ∧
  (∀ (p : Packet) (s : State), (∀ k q, (s.sh k).run = some q → ∀ v ∈ q.unanswered, v.tag ≠ p.tag) →
    exec (.wackReceive p) s = .next (takeLocal p s) ∧ exec (.wnakReceive p) s = .next (takeLocal p s)) ∧
  ∀ (h : ShuttleId) (r : Run) (w : RemoteWrite) (s : State), s.isReady = true → (s.sh h).run = some r → r.unanswered = [w] →
    ((s.shuttleBeat h - w.sentAt).toNat < (s.cfgReg 0x02008C).toNat → exec (.e2eTimeout h w.tag) s = .next s) ∧
    ((s.cfgReg 0x02008C).toNat ≤ (s.shuttleBeat h - w.sentAt).toNat →
      (mayReach s w.pkt.dst = true → w.resends < (s.cfgReg 0x020090).toNat → exec (.e2eTimeout h w.tag) s =
        .next (inject w.pkt (s.setSh h { s.sh h with
          run := some { r with unanswered := [{ w with resends := w.resends + 1, sentAt := s.shuttleBeat h }] } }))) ∧
      (mayReach s w.pkt.dst = false ∨ (s.cfgReg 0x020090).toNat ≤ w.resends →
        ∃ t, exec (.e2eTimeout h w.tag) s = .next t ∧ chainFailed h r 0x0B s t))

/-! ## Patrols (ch. 5) -/

/-- With nothing struck and no upset stored, a DRAM patrol visit moves the channel on by a granule, an SRAM patrol read
its unit by a word, and memory keeps every byte (R227, R228); switched off, they do nothing. One flipped bit of a DRAM
word that the visit reads is corrected and counted; three are uncorrectable: the line is poisoned, counted and reported
(R218, R220, R221). -/
def Sys2Proof.Claim.Patrols : Prop :=
  let on := fun (s : State) (b : Nat) => s.isReady = true ∧ (s.cfgReg 0x010004).getLsbD b = true
  let sramMoved := fun (u : UnitId) (s t : State) => t = { s with memc := { s.memc with sramVisit := t.memc.sramVisit } } ∧
    tget 0 t.memc.sramVisit u.key = (tget 0 s.memc.sramVisit u.key + 1) % 266240 ∧
    ∀ k, k ≠ u.key → tget 0 t.memc.sramVisit k = tget 0 s.memc.sramVisit k
  (∀ (ch : Fin 192) (s : State), s.upsets = [] → on s 31 → ∃ t, exec (.dramPatrolVisit ch []) s = .next t ∧
    t = { s with memc := { s.memc with visit := t.memc.visit, passes := t.memc.passes } } ∧
    tget 0 t.memc.visit ch.val = tget 0 s.memc.visit ch.val + 1 ∧
    ∀ k, k ≠ ch.val → tget 0 t.memc.visit k = tget 0 s.memc.visit k) ∧
  (∀ (u : UnitId) (s : State), s.upsets = [] → on s 30 → ∃ t, exec (.sramPatrol u []) s = .next t ∧ sramMoved u s t) ∧
  (∀ (u : UnitId) (b : Fin 32) (s : State), s.upsets = [] → on s 30 → tget 0 s.memc.sramVisit u.key < 196608 →
    tget 0 s.memc.sramVisit u.key % 32 = b.val → ∃ t, exec (.sramPatrolForce u b) s = .next t ∧ sramMoved u s t) ∧
  (∀ (ch : Fin 192) (u : UnitId) (s : State),
    (¬on s 31 → exec (.dramPatrolVisit ch []) s = .next s) ∧ (¬on s 30 → exec (.sramPatrol u []) s = .next s)) ∧
  ∀ (ch : Fin 192) (bits : List (Fin 64)) (s : State), s.upsets = [] → on s 31 → bits.Nodup →
    let line := ch.val / 24 * 0x4000000000 + (24 * (tget 0 s.memc.visit ch.val % 26843545) + ch.val % 24) * 256
    let up : Upset := ⟨.dram (line / 8), bits.foldl (fun x b => x ^^^ ((1 : BitVec 87) <<< b.val)) 0⟩
    s.linePoison line = false →
    (bits.length = 1 ∨ bits.length = 2 → ∃ t, exec (.dramPatrolVisit ch [up]) s = .next t ∧ t.mem = s.mem ∧ t.upsets = [] ∧
      counted (0x010400 + 4 * ch.val) 1 s t ∧ t.lineTags = s.lineTags) ∧
    (bits.length = 3 → ∃ t, exec (.dramPatrolVisit ch [up]) s = .next t ∧ t.linePoison line = true ∧ t.upsets = [] ∧
      counted (0x010800 + 4 * ch.val) 1 s t ∧ newest 0x0020 1 0 0 0 t)

/-! ## Training state (ch. 6) -/

namespace Sys2Proof.Claim

/-- The control line at a is a DRAM line, sound, and reads the eight words l. -/
def reads (s : State) (a : Nat) (l : List Word64) : Prop :=
  (∃ g, regionOf a 64 = some (.dram g)) ∧ a % 64 = 0 ∧ s.upsets = [] ∧ s.linePoison a = false ∧
    l = (List.range 8).map fun i => s.word64 (a + 8 * i)

/-- Nothing but memory and the tags of its lines has changed, and no byte outside the lines at these addresses. -/
def onlyLines (as : List Nat) (s t : State) : Prop :=
  t = { s with mem := t.mem, lineTags := t.lineTags } ∧
  (∀ j, (∀ a ∈ as, j < a ∨ a + 64 ≤ j) → t.readByte j = s.readByte j) ∧ (∀ l, l ∉ as → t.tag l = s.tag l)

/-- The line at a now carries the version of step st and no poison (R254, R576). -/
def lineOf (a : Nat) (st : BitVec 48) (t : State) : Prop := t.version a = st.extractLsb' 0 7 ∧ t.linePoison a = false

/-- The one collective that is open, at its end of the flag phase with the value v. -/
def decidedBy (opid : BitVec 16) (close : BitVec 2) (v : Bool) (c : Coll) (s : State) : Prop :=
  s.isReady = true ∧ s.col.opens = [c] ∧ c.req.opid = opid ∧ c.req.close = close ∧ c.phase = .flagged ∧ c.held = [] ∧
    ∃ f, c.flag = some f ∧ f.value = v

/-- The step record reads l and lists one shard, whose header at a reads h. -/
structure OneShard (s : State) (l h : List Word64) (a : Nat) : Prop where
  record : reads s s.stepAddr l
  one : fld (lineW l 4) 15 0 = 1
  list : ∃ g, regionOf (lineW l 3).toNat 8 = some (.dram g)
  place : (lineW l 3).toNat % 8 = 0 ∧ (lineW l 3).toNat / 64 * 64 ≠ s.stepAddr ∧
    s.linePoison ((lineW l 3).toNat / 64 * 64) = false
  shard : (s.word64 (lineW l 3).toNat).toNat = a
  apart : a ≠ s.stepAddr
  header : reads s a h

/-- The bobbin slot that an all-gather has claimed, in a record apart from the other lines. -/
def claimed (s : State) (l b : List Word64) (a bs k : Nat) : Prop :=
  reads s bs b ∧ bs ≠ s.stepAddr ∧ bs ≠ a ∧ bs ≠ (lineW l 3).toNat / 64 * 64 ∧ k < 5

/-- The one slot that a claim has left FILLING in the one bobbin-set record that all-gathers have named, or none where
they named none. -/
def leftFilling (slot : Option Nat) (s : State) (l b : List Word64) (a : Nat) (bs : Word64) : Prop :=
  (slot = none ∧ s.col.bsets = []) ∨
  (∃ k, slot = some k ∧ s.col.bsets = [bs] ∧ claimed s l b a bs.toNat k ∧ k < bsetSlots b ∧ slotState b k = 1 ∧
    ∀ j, j < bsetSlots b → j ≠ k → slotState b j ≠ 1)

/-- No rind of another module, no outer result and no digest of this step is due. -/
def plainStep (s : State) : Prop :=
  (s.cfgReg 0x030004).getLsbD 30 = false ∧ s.hx.applying = none ∧ fld (s.cfgReg 0x050004) 15 0 = 0

/-- The shard at a is committed for step st (R255): CUR is inverted, SEQ is one higher, STEP is st and PVALID is clear; else the
header is as it was. -/
def shardCommitted (a : Nat) (st : BitVec 48) (s t : State) : Prop :=
  let w := fun (x : State) i => x.word64 (a + 8 * i)
  (w t 0).getLsbD 0 = !(w s 0).getLsbD 0 ∧ (w t 0).extractLsb' 8 8 = (w s 0).extractLsb' 8 8 + 1 ∧
  (w t 0).extractLsb' 16 48 = st ∧ (w t 0).extractLsb' 1 7 = (w s 0).extractLsb' 1 7 ∧ (w t 1).getLsbD 0 = false ∧
  (w t 1).extractLsb' 1 63 = (w s 1).extractLsb' 1 63 ∧ (∀ i, 2 ≤ i → i < 8 → w t i = w s i) ∧ lineOf a st t

/-- OUTCOME and OSTEP of the step record. -/
def outcome (st : BitVec 48) (o : Nat) (t : State) : Prop :=
  (t.word64 t.stepAddr).extractLsb' 0 48 = st ∧ fld (t.word64 t.stepAddr) 50 48 = o

/-- The collective has ended: it is open no more, its OPID is the last that ended, its semaphore is signalled, with the
error bit after a failure, and the event names the outcome (R358, R374, Table 8.6). -/
def ended (opid : BitVec 16) (c : Coll) (outcome : Nat) (t : State) : Prop :=
  t.coll opid = none ∧ t.col.lastOpid = opid ∧ (outcome ≠ 0 → opid ∈ t.col.aborted) ∧
  newest (if outcome = 0 then 0x0040 else 0x0041) (if outcome = 0 then 0 else 1) (opid.zeroExtend 32) c.req.step
    (Config.outcomeCode outcome) t

/-- The flag phase of a closing collective begins once its data part is complete (R262, R267, R370): the module's value
is its local flag, or, at an update, also that a shard of the commit list is not prepared; every flag sampled as set is
cleared. In a slice of one module the phase is over at once; else the value goes to the next module of the first axis of
more than one. -/
def FlagPhases : Prop :=
  ∀ (opid : BitVec 16) (c : Coll) (s : State), s.isReady = true → s.coll opid = some c → dataDone c = true → heldFlags c = [] →
    c.req.close = 1 ∨ c.req.close = 2 →
    ∀ v : Bool, (c.req.close = 1 → v = localFlag s) →
      (c.req.close = 2 → ∃ l h a, OneShard s l h a ∧ v = (localFlag s || !prepared h c.req.step)) →
      ∃ t d, exec (.flagPhaseBegin opid) s = .next t ∧ t.mem = s.mem ∧ t.cfg = s.cfg ∧
        (∀ u, t.unit u = { s.unit u with nonfinite := false }) ∧
        (∀ h, t.sh h = if h.k.val < 4 then { s.sh h with nf := false } else s.sh h) ∧
        t.coll opid = some d ∧ (∃ f, d.flag = some f ∧ f.value = v ∧ f.own = v) ∧
        ((∀ a, a < 4 → s.sliceExtent a ≤ 1) → d.phase = .flagged ∧ d.sent = [] ∧
          t = { s with units := t.units, shuttles := t.shuttles, col := { s.col with opens := t.col.opens } }) ∧
        ∀ a, a < 4 → 1 < s.sliceExtent a → (∀ b, b < a → s.sliceExtent b ≤ 1) → d.phase = .flag ∧
          ∃ w, d.sent = [w] ∧ w.want = [lineNode s a ((linePos s a + 1) % s.sliceExtent a)] ∧ w.pkt.typ = 4 ∧
            (collHdr w.pkt).op = 5 ∧ (collHdr w.pkt).fv = v ∧ (collHdr w.pkt).chunk = a ∧ (collHdr w.pkt).step = 0

/-- The gradient decision (R266): the step record takes the step, the flag and OUTCOME 1 GRAD_CLEAR or 2 SKIP_GRAD in
one write. A skip counts, halves the loss scale where its policy bit asks for it and the scale is above 2⁻¹²⁶, and sends
STEP_SKIPPED; an apply step that skips pauses the exchange with APPLY_SKIPPED (R397). -/
def GradDecision : Prop :=
  ∀ (opid : BitVec 16) (c : Coll) (v : Bool) (l : List Word64) (s : State), decidedBy opid 1 v c s → reads s s.stepAddr l →
    s.hx.waitingFetch = [] →
    let w := fun (x : State) i => x.word64 (s.stepAddr + 8 * i)
    let st := c.req.step
    let halve := (w s 1).getLsbD 32 = true ∧ (f32 0x00800000).lt (f32 ((w s 1).extractLsb' 0 32)) = true
    ∃ t, exec (.gradFlagDone opid) s = .next t ∧ t.col = { s.col with opens := [{ c with flag := none }] } ∧
      outcome st (if v then 2 else 1) t ∧ (w t 0).getLsbD 51 = v ∧ (w t 0).getLsbD 52 = false ∧
      (w t 0).extractLsb' 53 11 = (w s 0).extractLsb' 53 11 ∧ (∀ i, 3 ≤ i → i < 8 → w t i = w s i) ∧ lineOf s.stepAddr st t ∧
      (∀ j, j < s.stepAddr ∨ s.stepAddr + 64 ≤ j → t.readByte j = s.readByte j) ∧
      (v = false → w t 1 = w s 1 ∧ w t 2 = w s 2 ∧ t = { s with mem := t.mem, lineTags := t.lineTags, col := t.col }) ∧
      (v = true → (s.hx.applying = none → newest 0x0042 1 0 st 1 t ∧ t.hx = s.hx) ∧
        (∀ o m d, s.hx.applying = some (o, st, m, d) → t.hx.applying = none ∧ t.hx.pauses.getLsbD 4 = true ∧ t.hx.steps = s.hx.steps) ∧
        ((w t 2).extractLsb' 0 32).toNat = min 0xFFFFFFFF (((w s 2).extractLsb' 0 32).toNat + 1) ∧
        (w t 1).extractLsb' 32 32 = (w s 1).extractLsb' 32 32 ∧
        (halve → (w t 1).extractLsb' 0 32 = toF32 ((f32 ((w s 1).extractLsb' 0 32)).scale (-1)) ∧
          ((w t 2).extractLsb' 32 32).toNat = min 0xFFFFFFFF (((w s 2).extractLsb' 32 32).toNat + 1)) ∧
        (¬halve → w t 1 = w s 1 ∧ (w t 2).extractLsb' 32 32 = (w s 2).extractLsb' 32 32))

/-- The commit pass of a step of one shard (R267): the shard is committed, the claimed slot is LIVE with the step, and the record
reads COMMITTED; the inner step is counted (R389). -/
def commits (slot : Option Nat) (c : Coll) (l h b : List Word64) (a : Nat) (st : BitVec 48) (s t : State) : Prop :=
  OneShard s l h a → prepared h st = true → hdrStep h ≠ st → plainStep s → s.ckp.digesting = none → s.hx.waitingFetch = [] →
  (∀ k, slot = some k → claimed s l b a c.req.bset.toNat k) →
    t.hx = { s.hx with inner := s.hx.inner + 1 } ∧ shardCommitted a st s t ∧ outcome st 4 t ∧ lineOf s.stepAddr st t ∧
    (∀ i, 1 ≤ i → i < 8 → t.word64 (s.stepAddr + 8 * i) = s.word64 (s.stepAddr + 8 * i)) ∧
    (∀ k, slot = some k → let w := t.word64 (c.req.bset.toNat + 8 * (2 + k))
      fld w 1 0 = 2 ∧ w.extractLsb' 16 48 = st ∧
      ∀ i, i < 8 → i ≠ 2 + k → t.word64 (c.req.bset.toNat + 8 * i) = s.word64 (c.req.bset.toNat + 8 * i)) ∧
    onlyLines ([s.stepAddr, a] ++ (slot.map fun _ => c.req.bset.toNat).toList) { s with hx := t.hx, col := t.col } t

/-- The update decision (R267). With every flag clear and every shard prepared the step commits; else it is skipped:
OUTCOME SKIP_UPDATE, UPD_NF and SKIPS, the claimed slot free again, PVALID cleared, STEP_SKIPPED with C = 2. A commit
waits for the digest of the step before (R287), and the decision for every open update-closing all-gather of its step;
where one of another set has failed, those accepted before end as aborted and later ones wait (log entry 93). A module
that resumes with OUTCOME DECIDED_COMMIT runs the commit again (R271), with the slot that the claim of the step has left
FILLING (log entry 55). -/
def UpdateDecision : Prop :=
  (∀ (opid : BitVec 16) (c : Coll) (l h b : List Word64) (a : Nat) (s : State), decidedBy opid 2 false c s →
    OneShard s l h a → prepared h c.req.step = true → hdrStep h ≠ c.req.step → plainStep s → s.hx.waitingFetch = [] →
    (∀ e ∈ s.col.failedSets, e.step ≠ c.req.step) →
    (∀ k, c.slot = some k → claimed s l b a c.req.bset.toNat k) →
    (s.ckp.digesting = none → ∃ t, exec (.updateFlagDone opid) s = .next t ∧
      t.col = { s.col with opens := [{ c with flag := none }] } ∧ commits c.slot c l h b a c.req.step s t) ∧
    (s.ckp.digesting ≠ none → exec (.updateFlagDone opid) s = .next s)) ∧
  (∀ (opid : BitVec 16) (c : Coll) (l h b : List Word64) (a k : Nat) (s : State), decidedBy opid 2 true c s →
    OneShard s l h a → plainStep s → s.hx.waitingFetch = [] → (∀ e ∈ s.col.failedSets, e.step ≠ c.req.step) →
    c.slot = some k → claimed s l b a c.req.bset.toNat k →
    let w := fun (x : State) i => x.word64 (s.stepAddr + 8 * i)
    ∃ t, exec (.updateFlagDone opid) s = .next t ∧ t.col = { s.col with opens := [{ c with flag := none }] } ∧ t.hx = s.hx ∧
      outcome c.req.step 5 t ∧ (w t 0).getLsbD 52 = true ∧
      ((w t 2).extractLsb' 0 32).toNat = min 0xFFFFFFFF (((w s 2).extractLsb' 0 32).toNat + 1) ∧
      (t.word64 (a + 8)).getLsbD 0 = false ∧ (∀ i, i < 8 → i ≠ 1 → t.word64 (a + 8 * i) = s.word64 (a + 8 * i)) ∧
      fld (t.word64 (c.req.bset.toNat + 8 * (2 + k))) 1 0 = 0 ∧ newest 0x0042 1 0 c.req.step 2 t ∧
      ∀ j, (∀ x ∈ [s.stepAddr, a, c.req.bset.toNat], j < x ∨ x + 64 ≤ j) → t.readByte j = s.readByte j) ∧
  (∀ (opid : BitVec 16) (c d : Coll) (f : FlagPhase) (s : State), s.isReady = true → s.col.opens = [c, d] → c.req.opid = opid →
    c.phase = .flagged → c.flag = some f → c.req.close = 2 → d.req.close = 2 → d.req.step = c.req.step → d.phase ≠ .flagged →
    s.hx.waitingFetch = [] → exec (.updateFlagDone opid) s = .next s) ∧
  (∀ (opid : BitVec 16) (v : Bool) (c : Coll) (e : FailedSet) (s : State), decidedBy opid 2 v c s → s.col.failedSets = [e] →
    e.step = c.req.step → s.hx.waitingFetch = [] →
    (c.order < e.upto → ∃ t, exec (.updateFlagDone opid) s = .next t ∧ ended opid c 4 t ∧ t.mem = s.mem ∧
      t.col.failedSets = [⟨c.req.bset, e.step, e.upto⟩, e]) ∧
    (e.upto ≤ c.order → exec (.updateFlagDone opid) s = .next s)) ∧
  ∀ (c : Coll) (l h b : List Word64) (a : Nat) (s : State), s.isReady = true → s.col.opens = [] → OneShard s l h a →
    s.hx.waitingFetch = [] →
    (recOutcome l = 3 → prepared h (recStep l) = true → hdrStep h ≠ recStep l → plainStep s → s.ckp.digesting = none →
      ∀ slot, leftFilling slot s l b a c.req.bset →
        ∃ t, exec .commitResume s = .next t ∧ t.col = s.col ∧ commits slot c l h b a (recStep l) s t) ∧
    (recOutcome l ≠ 3 ∨ s.ckp.digesting ≠ none → exec .commitResume s = .next s)

/-- The claim of a bobbin slot (R281, R282): the chosen slot becomes FILLING, and the data part begins at its address;
with no slot to choose, or with a hold line that names the chosen one, the slots stand as they were and the claim is
made again after 16 beats, however long it has waited. The LIVE slot of highest STEP is never chosen. COL_BOBBIN_WAIT
beats after the claim began, 390,625 after reset, the stall is reported once, with the set and the step. -/
def BobbinClaims : Prop :=
  State.reset.cfgReg 0x030020 = 390625 ∧
  (∀ (opid : BitVec 16) (c : Coll) (b : List Word64) (e : Instr) (s : State), s.isReady = true → s.coll opid = some c →
    c.phase = .claiming → reads s c.req.bset.toNat b → fld (lineW b 7) 54 48 = 0 →
    (e = .bobbinClaim opid ∧ c.retryAt = c.claimSince) ∨
      (e = .bobbinClaimRetry opid ∧ c.retryAt ≠ c.claimSince ∧ (c.retryAt - s.collBeat).toInt ≤ 0) →
    (∀ k, chooseSlot b = some k → ∃ x, exec e s = .next (beginColl { c with slot := some k }
        ((lineW b 0).toNat + k * bsetStride b) x) ∧
      x.col = { s.col with opens := x.col.opens } ∧ x.coll opid = some { c with slot := some k } ∧
      fld (x.word64 (c.req.bset.toNat + 8 * (2 + k))) 1 0 = 1 ∧
      (x.word64 (c.req.bset.toNat + 8 * (2 + k))).extractLsb' 2 62 = (lineW b (2 + k)).extractLsb' 2 62 ∧
      (∀ i, i < 8 → i ≠ 2 + k → x.word64 (c.req.bset.toNat + 8 * i) = s.word64 (c.req.bset.toNat + 8 * i)) ∧
      onlyLines [c.req.bset.toNat] { s with col := x.col } x ∧ lineOf c.req.bset.toNat c.req.step x) ∧
    (chooseSlot b = none → exec e s = .next (s.modColl opid fun c => { c with retryAt := s.collBeat + 16 }))) ∧
  (∀ (opid : BitVec 16) (c : Coll) (b : List Word64) (line : Nat → List Word64) (k : Nat) (e : Instr) (s : State), s.isReady = true →
    s.coll opid = some c → c.phase = .claiming → reads s c.req.bset.toNat b → chooseSlot b = some k →
    e = .bobbinClaim opid ∧ c.retryAt = c.claimSince ∨
      (e = .bobbinClaimRetry opid ∧ c.retryAt ≠ c.claimSince ∧ (c.retryAt - s.collBeat).toInt ≤ 0) →
    let n := fld (lineW b 7) 54 48
    let at' := fun (i : Nat) => fld (lineW b 7) 47 0 + 64 * i
    (∀ i, i < n → reads s (at' i) (line i) ∧ at' i ≠ c.req.bset.toNat) →
    (∃ i, i < n ∧ (lineW (line i) 0).getLsbD 3 = true ∧ fld (lineW (line i) 0) 2 0 = k) →
    ∃ x, exec e s = .next x ∧ x.col = { s.col with opens := x.col.opens } ∧
      x.coll opid = some { c with retryAt := s.collBeat + 16 } ∧ (∀ j, x.readByte j = s.readByte j) ∧
      onlyLines [c.req.bset.toNat] { s with col := x.col } x) ∧
  (∀ b : List Word64, chooseSlot b = none ↔
    (∀ k, k < bsetSlots b → slotState b k ≠ 0) ∧ ((List.range (bsetSlots b)).filter fun k => slotState b k == 2).length ≤ 1) ∧
  (∀ (b : List Word64) (k : Nat), chooseSlot b = some k → k < bsetSlots b ∧ (slotState b k = 0 ∨ slotState b k = 2) ∧
    (slotState b k = 2 → (∀ j, j < bsetSlots b → slotState b j ≠ 0) ∧
      ∃ j, j < bsetSlots b ∧ j ≠ k ∧ slotState b j = 2 ∧ (slotStep b k).toNat ≤ (slotStep b j).toNat)) ∧
  ∀ (opid : BitVec 16) (c : Coll) (s : State), s.isReady = true → s.coll opid = some c → c.phase = .claiming →
    ((s.cfgReg 0x030020).toNat ≤ (s.collBeat - c.claimSince).toNat → c.stallSent = false →
      ∃ t, exec (.bobbinStall opid) s = .next t ∧ t.coll opid = some { c with stallSent := true } ∧
        onlyEvents (s.setColl { c with stallSent := true }) t ∧ newest 0x0044 1 0 c.req.step 0 t ∧
        t.host.events.head?.map (·.x) = some (xAddr c.req.bset.toNat)) ∧
    ((s.collBeat - c.claimSince).toNat < (s.cfgReg 0x030020).toNat ∨ c.stallSent = true → exec (.bobbinStall opid) s = .next s)

/-- Digests (R285 to R288, R458). The digest of a committed shard joins the module's list of the step, which goes to the
peer. Equal lists are counted, and verify a restored step; a shard whose digests differ is reported; a list for a step
without one waits. -/
def Digests : Prop :=
  (∀ (st : BitVec 48) (l h : List Word64) (a : Nat) (g : Nat) (s : State), s.isReady = true → s.ckp.digesting = some st →
    OneShard s l h a → 0 < hdrCount h → regionOf (hdrMaster h (hdrCur h)) (4 * hdrCount h) = some (.dram g) →
    s.anyPoison (.dram g) (hdrMaster h (hdrCur h)) (4 * hdrCount h) = false → (∀ e ∈ s.ckp.rxDigests, e.1 ≠ st) →
    let d := digestOf (s.rawRead (hdrMaster h (hdrCur h)) (4 * hdrCount h))
    exec .shardDigestDone s = .next { s with
      sent := .digestList ((s.cfgReg 0x050008).extractLsb' 0 20) st [d] :: s.sent,
      ckp := { s.ckp with digesting := none, ownDigests := (st, [d]) :: s.ckp.ownDigests.filter fun e => e.1 != st } }) ∧
  ∀ (st : BitVec 48) (src : Node) (rx : List (BitVec 128)) (s : State), s.isReady = true →
    let peer := (s.cfgReg 0x050008).extractLsb' 0 20
    (∀ pre own post, s.ckp.ownDigests = pre ++ (st, own) :: post → (∀ e ∈ pre, e.1 ≠ st) →
      (rx = own → ∃ t, exec (.digestListReceive ⟨st, src⟩ rx) s = .next t ∧ counted 0x05000C 1 s t ∧
        t = { s with counters := t.counters,
                     ckp := { s.ckp with unverified := s.ckp.unverified && decide (st ≠ s.ckp.restoredStep ∨ src ≠ peer) } }) ∧
      ∀ a b, own = [a] → rx = [b] → a ≠ b → ∃ t, exec (.digestListReceive ⟨st, src⟩ rx) s = .next t ∧ onlyEvents s t ∧
        newest 0x0046 2 0 st (BitVec.ofNat 16 (tensorAt 0 s)) t) ∧
    ((∀ e ∈ s.ckp.ownDigests, e.1 ≠ st) → s.ckp.rxDigests.length < 2 →
      exec (.digestListReceive ⟨st, src⟩ rx) s = .next { s with ckp := { s.ckp with rxDigests := s.ckp.rxDigests ++ [(st, src, rx)] } })

end Sys2Proof.Claim

/-! ## Collectives (ch. 8) -/

namespace Sys2Proof.Claim

/-- The COLLECTIVE command (R356 to R358): the refusals of Table 8.3 with those of R38, R260, R398 and R458, in the
order in which the model judges them, after a commit pass that has to be run again (R271); an accepted collective is
entered as the last of the open ones, and the command is answered once it is queued, or, with a launch beat, armed
(R358). The engine is one party, armed once for a beat (R38, R376; log entry 30). Buffers at the engine queues stop the
model. -/
def CollectiveCommand : Prop :=
  ∀ (c : Hdr → CollReq → Instr) (op : CollOp), (c, op) ∈ [(Instr.collectiveRs, CollOp.rs), (Instr.collectiveAg, .ag),
      (Instr.collectiveAr, .ar), (Instr.collectiveBc, .bc), (Instr.collectiveA2a, .a2a)] →
    ∀ (h : Hdr) (q : CollReq) (x : State), Passes h (.collective op q) x →
      let s := commitResume x
      let p := s.sliceExtent q.axis.val
      let pos := linePos s q.axis.val
      let cs := collCounts op q p pos
      let n := collSpans op q cs p pos
      let launch := if (revHdr h).lbv then some (revHdr h).lbeat else none
      let badField := collField op q p s = true ∨ ((revHdr h).len ≠ 64 ∧ q.counts = none)
      let outside := (q.counts = none ∧ (q.total = 0 ∨ 2 ^ 40 ≤ q.total.toNat)) ∨
        leavesSpace q.src.toNat (fmtBits q.sfmt.toNat) n.1 = true ∨
        (q.close ≠ 2 ∧ leavesSpace q.dst.toNat (fmtBits q.dfmt.toNat) n.2 = true)
      let queues := collQueues q.src.toNat (fmtBits q.sfmt.toNat) n.1 = true ∨
        (q.close ≠ 2 ∧ collQueues q.dst.toNat (fmtBits q.dfmt.toNat) n.2 = true)
      let refused := fun (st : Status) => exec (c h q) x = .next (turnedAway h (.collective op q) st 0 x)
      (s.ckp.unverified = true → refused .unverified) ∧ (s.ckp.unverified = false →
      (collArmed launch s = true → refused .launchConflict) ∧ (collArmed launch s = false →
      (badField → refused .collField) ∧ (¬badField →
      (outside → refused .collRange) ∧ (¬outside →
      ((s.coll q.opid).isSome = true → refused .opidExists) ∧ (s.coll q.opid = none →
      (16 ≤ s.col.opens.length → refused .busyColl) ∧ (s.col.opens.length < 16 →
      (s.sliceTag = 0 → refused .sliceInvalid) ∧ (s.sliceTag ≠ 0 →
      (∀ st, stepOrderRefusal op q s = some st → refused st) ∧ (stepOrderRefusal op q s = none →
      (hxHolds q s = true → refused .hxPaused) ∧ (hxHolds q s = false →
      (queues → exec (c h q) x = .fault .engineQueue) ∧ (¬queues →
        ∃ e, let y := { s with col := { s.col with
            opens := s.col.opens ++ [e], aborted := s.col.aborted.filter fun i => i != q.opid, nextOrder := s.col.nextOrder + 1,
            rind := if q.close = 2 then none else s.col.rind,
            failedSets := s.col.failedSets.filter fun e => !(q.close == 2 && e.set == q.bset && e.step == q.step),
            bsets := if q.close = 2 ∧ q.bset ∉ s.col.bsets then s.col.bsets ++ [q.bset] else s.col.bsets } }
          exec (c h q) x = .next (if launch.isSome then leftWaiting h (.collective op q) y
            else answered h (.collective op q) [] 0 x y) ∧
          e.op = op ∧ e.req = q ∧ e.counts = cs ∧ e.pos = pos ∧ e.p = p ∧ e.order = s.col.nextOrder ∧ e.launch = launch ∧
          e.phase = (if launch.isSome then .armed else .queued) ∧ e.sent = [] ∧ e.held = [] ∧ e.answered = [] ∧
          e.nextTag = 0))))))))))

/-- R260: which closing collectives the step record admits. -/
def ClosingOrder : Prop :=
  ∀ (op : CollOp) (q : CollReq) (l : List Word64) (s : State), reads s s.stepAddr l → op ≠ .bc → recOutcome l ≤ 5 →
    (q.close = 1 → (stepOrderRefusal op q s = none ↔
      (recOutcome l = 0 ∧ ∀ c ∈ s.col.opens, c.req.close = 1 → c.req.step = q.step) ∨
        (recStep l = q.step - 1 ∧ recOutcome l ∈ [2, 4, 5]))) ∧
    (q.close = 2 → (stepOrderRefusal op q s = none ↔ recStep l = q.step ∧ recOutcome l = 1))

/-- The start of a queued collective whose turn has come (R358): an update-closing all-gather claims its slot first
(R281); an all-gather of one module copies its chunk (R354); a broadcast's receiver waits for its packets; a
reduce-scatter sends the parts of step 0 on both rings (R361). -/
def CollectiveStarts : Prop :=
  ∀ (opid : BitVec 16) (c : Coll) (s : State), s.isReady = true → s.coll opid = some c → c.phase = .queued → turnOf s c = true →
    c.held = [] → c.sent = [] → startGate c s = .open_ →
    let w := fmtBits c.req.sfmt.toNat
    let go := { c with phase := .running, dst := c.req.dst.toNat }
    (c.op = .ag → c.req.close = 2 → exec (.collectiveStart opid) s =
      .next (s.setColl { c with phase := .claiming, claimSince := s.collBeat, retryAt := s.collBeat })) ∧
    (∀ n g d, c.op = .ag → c.req.close = 0 → c.p = 1 → c.pos = 0 → c.counts = [n] → 0 < n → 0 < w → w % 8 = 0 →
      regionOf c.req.src.toNat (w * n / 8) = some (.dram g) → regionOf c.req.dst.toNat (w * n / 8) = some (.dram d) →
      s.upsets = [] → s.anyPoison (.dram g) c.req.src.toNat (w * n / 8) = false →
      ∃ t, exec (.collectiveStart opid) s = .next t ∧ t.coll opid = some { go with left := 0, leftAg := 0 } ∧
        t = { s with mem := t.mem, lineTags := t.lineTags, col := { s.col with opens := t.col.opens } } ∧
        t.rawRead c.req.dst.toNat (w * n / 8) = s.rawRead c.req.src.toNat (w * n / 8) ∧
        ∀ j, j < c.req.dst.toNat ∨ c.req.dst.toNat + w * n / 8 ≤ j → t.readByte j = s.readByte j) ∧
    (c.op = .bc → c.req.close = 0 → 1 < c.p → c.req.root.toNat ≠ c.pos → exec (.collectiveStart opid) s =
      .next (s.setColl { go with left := 0, leftAg := packetsOf (c.chunk 0) w })) ∧
    (∀ n g, c.op = .rs → c.req.close ≠ 2 → 1 < c.p → n = bytesOf w (sumTake c.counts c.counts.length) →
      regionOf c.req.src.toNat n = some (.dram g) → s.upsets = [] → s.anyPoison (.dram g) c.req.src.toNat n = false →
      c.counts.length = c.p → c.pos < c.p → c.req.sfmt.toNat ∈ [0, 3, 9] → c.req.wfmt.toNat ∈ [0, 3, 9] →
      ∃ t d, exec (.collectiveStart opid) s = .next t ∧ t.mem = s.mem ∧ t.units = s.units ∧ t.coll opid = some d ∧
        d = { go with left := rsLeft c, leftAg := 0, sent := d.sent, nextTag := BitVec.ofNat 32 d.sent.length + c.nextTag } ∧
        d.sent.length = packetsOf (c.part ((c.pos + c.p - 1) % c.p) false).2 (fmtBits c.req.wfmt.toNat) +
          packetsOf (c.part ((c.pos + 1) % c.p) true).2 (fmtBits c.req.wfmt.toNat) ∧
        ∀ x ∈ d.sent, (collHdr x.pkt).op = 1 ∧ (collHdr x.pkt).opid = c.req.opid ∧ (collHdr x.pkt).step = 0 ∧
          x.want = [lineNode s c.axis (c.nextPos (collHdr x.pkt).down)])

/-- A data packet of kind op for the running collective c, not seen before and of the size that its place implies. -/
structure Gets (op : Nat) (p : Packet) (c : Coll) (s : State) : Prop where
  ready : s.isReady = true
  kind : p.typ = 4 ∧ (collHdr p).op = op ∧ reaches s p = true
  held : s.coll (collHdr p).opid = some c
  fresh : c.seen p = false
  running : c.phase = .running
  sized : wellSized c (collHdr p) p = true
  some : 0 < p.payload.length
  clean : s.upsets = []

/-- The engine takes the packet in state r, s once it is off the local queue. Its bytes, or those that a reduction makes
of it, stand at a in DRAM, the packet is noted and answered (R372), NF_EARLY is set by NF of a reduce-scatter (R364),
and the collective is d with the packet noted. -/
def takes (e : Instr) (p : Packet) (d : Coll) (a : Nat) (bs : List Byte) (r s : State) : Prop :=
  ∃ x, exec e r = .next (answerWrite p none x) ∧ x.coll (collHdr p).opid = some { d with answered := (p.src, p.tag) :: d.answered } ∧
    x = { s with mem := x.mem, lineTags := x.lineTags, col := { s.col with
      opens := x.col.opens, nfEarly := s.col.nfEarly || ((collHdr p).op == 1 && (collHdr p).nf) } } ∧
    x.rawRead a bs.length = bs ∧ ∀ j, j < a ∨ a + bs.length ≤ j → x.readByte j = s.readByte j

/-- Data packets (R361, R362, R365, R367, R368): a broadcast's and an all-to-all's bytes go to their place; a gathered
chunk too, and goes on unchanged until the last position but one has it; at the owner of a chunk a sum in F32 is the
packet's element plus the own one. One that comes before the start, or whose write must wait under R261, is answered and
held. A packet seen before, and the root's own copy of a broadcast, is answered and has no effect (R339, R373); one of
an OPID that is not open is dropped, but answered where that OPID ended by a failure (R374). -/
def CollectiveData : Prop :=
  let dram := fun (a n : Nat) => ∃ g, regionOf a n = some (.dram g)
  (∀ (p : Packet) (c : Coll) (r : State), let s := takeLocal p r
    Gets 3 p c s → c.op = .bc → c.req.root.toNat ≠ c.pos →
    let w := fmtBits c.req.sfmt.toNat
    let a := c.dst + w / 8 * (64 * (collHdr p).eoff)
    0 < w → w % 8 = 0 → dram a p.payload.length → takes (.collBcData p) p { c with leftAg := c.leftAg - 1 } a p.payload r s) ∧
  (∀ (p : Packet) (c : Coll) (r : State), let s := takeLocal p r
    Gets 4 p c s → c.op = .a2a →
    let h := collHdr p
    let w := fmtBits c.req.sfmt.toNat
    let a := c.dst + w / 8 * (c.recvOff h.chunk + 64 * h.eoff)
    let got := tget 0 c.gotBytes h.chunk + p.payload.length
    let tab := tput 0 h.chunk got c.gotBytes
    0 < w → w % 8 = 0 → 8 * p.payload.length % w = 0 → dram a p.payload.length →
    h.fin = false ∨ got = bytesOf w (c.recv h.chunk) →
    takes (.collA2aData p) p { c with gotBytes := if h.fin then tput 0 (16 + h.chunk) 1 tab else tab } a p.payload r s) ∧
  (∀ (p : Packet) (c : Coll) (r : State), let s := takeLocal p r
    Gets 2 p c s → c.op = .ag ∨ c.op = .ar →
    let h := collHdr p
    let w := fmtBits c.agFmt
    let a := c.dst + w / 8 * ((c.part h.chunk h.down).1 + 64 * c.partOff h)
    0 < w → w % 8 = 0 → dram a p.payload.length →
    (c.p ≤ h.step + 2 → takes (.collAgData p) p { c with leftAg := c.leftAg - 1 } a p.payload r s) ∧
    (h.step + 2 < c.p → c.p ≤ 16 → ∃ t d x, exec (.collAgData p) r = .next t ∧ t.rawRead a p.payload.length = p.payload ∧
      t.coll h.opid = some d ∧ d.leftAg = c.leftAg - 1 ∧ d.sent = c.sent ++ [x] ∧ x.tag = c.nextTag ∧ x.pkt.payload = p.payload ∧
      x.want = [lineNode s c.axis (c.nextPos h.down)] ∧ collHdr x.pkt = { h with step := h.step + 1 })) ∧
  (∀ (p : Packet) (c : Coll) (r : State) (g : Nat), let s := takeLocal p r
    Gets 1 p c s → c.op = .rs → c.req.sfmt = 0 → c.req.wfmt = 0 → c.req.dfmt = 0 →
    c.req.redMax = false → c.req.accum = false → (collHdr p).chunk = c.pos → rsGate c (collHdr p) s = .open_ →
    let i := (c.part c.pos (collHdr p).down).1 + 64 * c.partOff (collHdr p)
    let n := p.payload.length
    let own := c.req.src.toNat + 4 * i
    let value := fun (k : Nat) => f32 (toF32 (elemVal 0 k))
    dram (c.dst + 4 * (i - c.off c.pos)) n → regionOf own n = some (.dram g) → s.anyPoison (.dram g) own n = false →
    takes (.collRsData p) p { c with left := c.left - 1 } (c.dst + 4 * (i - c.off c.pos))
      (((elemsOf 32 (n / 4) p.payload).zip (elemsOf 32 (n / 4) (s.rawRead own n))).flatMap fun e =>
        leBytes 4 (toF32 (f32 (toF32 ((value e.1).add (value e.2))))).toNat) r s) ∧
  ∀ (e : Packet → Instr) (op : Nat), (e, op) ∈ [(Instr.collRsData, 1), (Instr.collAgData, 2), (Instr.collBcData, 3),
      (Instr.collA2aData, 4), (Instr.collFlag, 5)] →
    ∀ (p : Packet) (r : State), let s := takeLocal p r
      let h := collHdr p
      s.isReady = true → p.typ = 4 → h.op = op → reaches s p = true →
      (∀ c, s.coll h.opid = some c → c.seen p = true ∨ (op = 3 ∧ c.req.root.toNat = c.pos) →
        exec (e p) r = .next (answerWrite p none s)) ∧
      (∀ c, s.coll h.opid = some c → c.seen p = false → op ≠ 5 → ¬(op = 3 ∧ c.req.root.toNat = c.pos) → wellSized c h p = true →
        c.phase ∈ [CPhase.armed, .queued, .claiming] ∨ (c.phase = .running ∧ rsWaits c h s = true) →
        exec (e p) r = .next (answerWrite p none { s with col := { (s.modColl h.opid fun c =>
          { c with answered := (p.src, p.tag) :: c.answered, held := c.held ++ [p] }).col with
            nfEarly := s.col.nfEarly || (op == 1 && h.nf) } })) ∧
      (s.coll h.opid = none → exec (e p) r = .next (if h.opid ∈ s.col.aborted then answerWrite p none s else s))

/-- A flag that the phase waits for joins the value; on an axis of two modules with no longer axis after it that ends
the phase (R370). One that comes before the phase has begun is held. -/
def Flags : Prop :=
  ∀ (p : Packet) (c : Coll) (r : State), let s := takeLocal p r
    s.isReady = true → p.typ = 4 → (collHdr p).op = 5 → reaches s p = true →
    s.coll (collHdr p).opid = some c → c.seen p = false →
    let h := collHdr p
    let d := { c with answered := (p.src, p.tag) :: c.answered }
    (∀ f, c.phase = .flag → c.flag = some f → f.got = [] → f.axis = h.chunk → f.hop = 1 → h.step = 0 → h.chunk < 4 →
      s.sliceExtent h.chunk = 2 → (∀ a, h.chunk < a → a < 4 → s.sliceExtent a ≤ 1) →
      exec (.collFlag p) r = .next (answerWrite p none (s.setColl { d with
        phase := .flagged, flag := some { f with axis := 4, hop := 0, value := f.value || h.fv, got := [(h.chunk, 0, h.fv)] } }))) ∧
    (c.phase = .running → exec (.collFlag p) r = .next (answerWrite p none (s.setColl { d with held := c.held ++ [p] })))

/-- The rind at the buddy (R380): the first packet of a step begins the filling of the set not named by CUR; its bytes go to their
granules, and END records the size of the image and its owner. A module without the HOST bit answers WNAK. -/
def RindReceive : Prop :=
  ∀ (p : Packet) (r : State), let s := takeLocal p r
    s.isReady = true → p.typ = 4 → (collHdr p).op = 6 → reaches s p = true →
    let h := collHdr p
    ((s.cfgReg 0x030004).getLsbD 30 = false → exec (.collRind p) r = .next (answerWrite p (some 2) s)) ∧
    ∀ (c : Coll) (l : List Word64), (s.cfgReg 0x030004).getLsbD 30 = true → s.coll h.opid = some c → c.req.close = 2 →
      c.seen p = false → s.col.rind = none → reads s (rindBase s) l → fld (lineW l 1) 63 16 ≤ c.req.step.toNat →
      let half := (rindSize s - 64) / 2
      let off := 256 * h.eoff
      let a := rindBase s + 64 + (1 - fld (lineW l 0) 0 0) * half + off
      let n := p.payload.length
      0 < n → off + n ≤ half → (∃ g, regionOf a n = some (.dram g)) →
      ∃ x, exec (.collRind p) r = .next (answerWrite p none x) ∧
        x.col = { s.col with
          opens := x.col.opens, rind := some ⟨c.req.step, if h.fin then BitVec.ofNat 48 (off + n) else 0, p.src⟩ } ∧
        x.coll h.opid = some { c with answered := (p.src, p.tag) :: c.answered } ∧ x.rawRead a n = p.payload ∧
        (x.word64 (rindBase s + 8)).extractLsb' 16 48 = c.req.step ∧ (x.word64 (rindBase s + 8)).extractLsb' 0 2 = 1 ∧
        (∀ i, i < 8 → i ≠ 1 → x.word64 (rindBase s + 8 * i) = s.word64 (rindBase s + 8 * i)) ∧
        (∀ j, j < rindBase s ∨ rindBase s + 64 ≤ j → j < a ∨ a + n ≤ j → x.readByte j = s.readByte j) ∧
        x = { s with mem := x.mem, lineTags := x.lineTags, col := x.col }

/-- No open collective holds packets that wait to be applied. -/
def nothingHeld (s : State) : Prop := ∀ c ∈ s.col.opens, c.held = []

/-- How a collective ends, and its answers (R327, R372 to R375). WACK of the last module that a packet waits for settles
it; WNAK and ABORT end the collective as aborted; a packet without an answer goes out again, and after FAB_E2E_RETRIES
times ends it as timed out; one with nothing left to do completes. -/
def CollectiveEnds : Prop :=
  (∀ (p : Packet) (c : Coll) (x : CollSent) (r : State), let s := takeLocal p r
    s.isReady = true → p.typ = 2 → isFor s p = true → s.col.opens = [c] →
    c.sent = [x] → s.fab.redirects = [] →
    (x.tag = p.tag → p.src ∈ x.want →
      let left := x.want.filter fun n => n != p.src
      exec (.collWackReceive p) r = .next (s.setColl { c with sent := if left = [] then [] else [{ x with want := left }] })) ∧
    (x.tag ≠ p.tag ∨ p.src ∉ x.want → exec (.collWackReceive p) r = .next s)) ∧
  (∀ (p : Packet) (c : Coll) (x : CollSent) (r : State), let s := takeLocal p r
    s.isReady = true → p.typ = 3 → isFor s p = true → s.col.opens = [c] →
    c.sent = [x] → x.tag = p.tag → p.src ∈ x.want → s.fab.redirects = [] → c.byHx = false →
    ∃ t, exec (.collWnak p) r = .next t ∧ ended c.req.opid c 4 t ∧ t.mem = s.mem) ∧
  (∀ (p : Packet) (c : Coll) (r : State), let s := takeLocal p r
    s.isReady = true → p.typ = 4 → (collHdr p).op = 7 → reaches s p = true →
    s.coll (collHdr p).opid = some c → c.byHx = false → nothingHeld s →
    ∃ t, exec (.collAbort p) r = .next t ∧ ended c.req.opid c 4 t ∧ t.mem = s.mem ∧
      (c.req.sem = none → t.units = s.units ∧ t.fab = s.fab) ∧
      ∀ u k, c.req.sem = some (u, k) → (t.unit u).sem k.val = added ((s.unit u).sem k.val) 1 true) ∧
  (∀ (c : Coll) (x : CollSent) (s : State), s.isReady = true → s.coll c.req.opid = some c → c.sent = [x] → nothingHeld s →
    ((s.collBeat - x.sentAt).toNat < (s.cfgReg 0x02008C).toNat → exec (.collResendTimeout c.req.opid x.tag) s = .next s) ∧
    ((s.cfgReg 0x02008C).toNat ≤ (s.collBeat - x.sentAt).toNat →
      (x.resends < (s.cfgReg 0x020090).toNat → exec (.collResendTimeout c.req.opid x.tag) s =
        .next (inject x.pkt (s.setColl { c with sent := [{ x with resends := x.resends + 1, sentAt := s.collBeat }] }))) ∧
      ((s.cfgReg 0x020090).toNat ≤ x.resends → c.byHx = false → ∃ t, exec (.collResendTimeout c.req.opid x.tag) s = .next t ∧
        ended c.req.opid c 1 t ∧ t.mem = s.mem))) ∧
  ∀ (c : Coll) (s : State), s.isReady = true → s.coll c.req.opid = some c → nothingHeld s →
    let ok := (c.req.close = 0 ∧ dataDone c = true) ∨ (c.req.close ≠ 0 ∧ c.phase = .flagged ∧ c.flag = none ∧ c.sent = [])
    (ok → ∃ t, exec (.collectiveComplete c.req.opid) s = .next t ∧ ended c.req.opid c 0 t ∧ t.mem = s.mem ∧
      (∀ u k, c.req.sem = some (u, k) → (t.unit u).sem k.val = added ((s.unit u).sem k.val) 1 false) ∧
      (c.req.sem = none → t.units = s.units)) ∧
    (¬ok → exec (.collectiveComplete c.req.opid) s = .next s)

end Sys2Proof.Claim

/-! ## The HX engine (ch. 9) -/

namespace Sys2Proof.Claim

/-- The k-th F32 word of an array at a. -/
def w32 (s : State) (a k : Nat) : Word32 := BitVec.ofNat 32 (leNat (s.rawRead (a + 4 * k) 4))

/-- The areas of the one shard of the list: its record, header, step record, the sets that its header and record name, and the
landing slots. -/
def areas (s : State) (r : OuterRec) (h : List Word64) : List (Nat × Nat) :=
  [(r.addr, 128), (r.hdr, 64), (s.stepAddr, 64), (hdrMaster h 0, setBytes r.count), (hdrMaster h 1, setBytes r.count),
    (r.theta 0, 2 * setBytes r.count), (r.offs 0, 2 * setBytes r.count), (r.snap 0, (s.stale + 1) * setBytes r.count),
    (r.work, 2 * setBytes r.count), (r.mom 0, 2 * setBytes r.scount), (r.resid 0, 2 * setBytes r.scount),
    ((lineW r.l1 7).toNat, (s.stale + 1) * s.hx.peers.length * imageBytes r.scount)] ++
  (if hdrNmom h = 0 then [] else
    [(hdrMoment h 0 0, hdrNmom h * setBytes r.count), (hdrMoment h 1 0, hdrNmom h * setBytes r.count)])

/-- The exchange is configured, its list has one shard, and that shard's areas lie apart in DRAM and hold no upset and no
poison. The module's own entry is in the table. -/
structure OneOuter (s : State) (r : OuterRec) (h : List Word64) : Prop where
  list : s.hx.shards = [BitVec.ofNat 64 r.addr]
  set : s.hx.configured = true
  ready : s.isReady = true
  line0 : reads s r.addr r.l0
  line1 : reads s (r.addr + 64) r.l1
  header : reads s r.hdr h
  sound : sound s
  count : 0 < r.scount ∧ r.slo + r.scount ≤ r.count ∧ hdrCount h = r.count ∧ hdrNmom h ≤ 2
  apart : (areas s r h).Pairwise fun x y => x.1 + x.2 ≤ y.1 ∨ y.1 + y.2 ≤ x.1
  dram : ∀ x ∈ areas s r h, ∃ g, regionOf x.1 x.2 = some (.dram g)
  own : ∃ e ∈ s.hx.peers, e.node = s.strapNode
  unique : (s.hx.peers.map (·.index)).Nodup ∧ (s.hx.peers.map (·.node)).Nodup

/-- No session of the module may send a packet now. -/
def still (s : State) : Prop := ∀ k, (s.session k).maySend s = false

/-- The exchange has been paused with this cause (R400, R402): an event tells of a cause that did not stand before. -/
def paused (cause : Nat) (p : Word32) (q : BitVec 48) (s t : State) : Prop :=
  (s.hx.pauses.getLsbD cause = true → t = s) ∧
  (s.hx.pauses.getLsbD cause = false → newest 0x0051 1 p q (BitVec.ofNat 16 cause) t ∧
    onlyEvents { s with hx := { s.hx with pauses := s.hx.pauses ||| (1 : BitVec 7) <<< cause,
                                          lateSince := if cause = 1 then some s.hxBeat else s.hx.lateSince } } t)

/-- Only these spans of memory, and the tags of DRAM lines, have changed. -/
def memOnly (spans : List (Nat × Nat)) (s t : State) : Prop :=
  ∀ j, (∀ x ∈ spans, j < x.1 ∨ x.1 + x.2 ≤ j) → t.readByte j = s.readByte j

/-- A KEYX message to an entry has left: for each of its fragments (R425) a datagram to that entry ends with the fragment. -/
def keyxSent (i : BitVec 6) (msg : Nat) (epoch : Word32) (bs : List Byte) (t : State) : Prop :=
  ∀ m ∈ keyxFragments epoch (pmaxBytes t - 12) bs, ∃ d, .hx d ∈ t.sent ∧ d.peer = i ∧ keyxBytes msg m <:+ d.bytes

/-- The setup that an initiator begins (R422): OFFER is sent, with a random value and the public key of the private
ML-KEM key kept. -/
def offers (epoch : Word32) (beat : Beat) (x : Session) (m : List Byte) : Prop :=
  ∃ seed, x.setup = some ⟨epoch, true, 1, m, 0, beat, m, [], seed, none⟩ ∧ part m 32 1568 = madeBytes 1568 (Config.kemKey seed)

/-- HX_CONFIG (R500). Sections 1 to 3 are kept until the commit; section 4 sets the MEMBER bits and is refused while an
outer step is open and the exchange runs. The commit without pending sections does nothing; a table with an INDEX or a
NODE twice, without the module, of more than 16 entries outside deep-buffer mode, a buffer outside R405, or landing
slots too small for the table are HX_FIELD, as are peers written while an outer step is open; else the new configuration
holds at once. -/
def HxConfig : Prop :=
  let pend := fun (f : HxPending → HxPending) (s : State) => { s with hx := { s.hx with pend := f s.hx.pend } }
  (∀ (h : Hdr) (p : HxGeneral), hasEffect (.hxConfigGeneral h p) h (.hxGeneral p) (fun _ => True)
    (pend fun x => { x with general := some p })) ∧
  (∀ (h : Hdr) (first : BitVec 16) (l : List Word64),
    completes (.hxConfigShards h first l) h (.hxShards first l) (fun _ => True)
      fun s x pay d => pay = [] ∧ d = 0 ∧ x = pend (fun y => { y with shards := x.hx.pend.shards }) s ∧
        ∀ i, (x.hx.pend.shards.find? fun e => e.1 == i).map (·.2) =
          if first.toNat ≤ i ∧ i < first.toNat + l.length then some (l.getD (i - first.toNat) 0)
          else (s.hx.pend.shards.find? fun e => e.1 == i).map (·.2)) ∧
  (∀ (h : Hdr) (l : List PeerEntry), hasEffect (.hxConfigPeers h l) h (.hxPeers l) (fun _ => True)
    (fun s => pend (fun x => { x with peers := x.peers.filter (fun e => !l.any fun p => p.index == e.index) ++ l }) s)) ∧
  (∀ (h : Hdr) (m : Word64),
    refusesWith (.hxConfigMember h m) h (.hxMember m) (fun s => outerOpen s = true ∧ s.hx.pauses = 0) .hxField 0 ∧
    hasEffect (.hxConfigMember h m) h (.hxMember m) (fun s => outerOpen s = false ∨ s.hx.pauses ≠ 0) fun s =>
      { s with hx := { s.hx with peers := s.hx.peers.map fun e => { e with member := m.getLsbD e.index.toNat } } }) ∧
  ∀ h : Hdr,
    let g := fun (s : State) => s.hx.pend.general.getD s.hx.general
    let ps := fun (s : State) => if s.hx.pend.peers = [] then s.hx.peers else s.hx.pend.peers
    let okBuf := fun (a n : Word64) => 2 ^ 26 ≤ n.toNat ∧ n.toNat ≤ 2 ^ 32 ∧ n.toNat % 2 ^ 20 = 0 ∧
      ∃ q, regionOf a.toNat n.toNat = some (.dram q)
    let okTable := fun (s : State) => ((ps s).map (·.index)).Nodup ∧ ((ps s).map (·.node)).Nodup ∧
      (∃ e ∈ ps s, e.node = s.strapNode) ∧ (deepBuffer s = true ∨ (ps s).length ≤ 16)
    let list := fun (s : State) => if s.hx.pend.shards = [] then s.hx.shards else s.hx.pend.shards.map (·.2)
    let complete := fun (s : State) => (s.hx.pend.shards = [] → (g s).nshard.toNat = s.hx.shards.length) ∧
      (s.hx.pend.shards ≠ [] → s.hx.pend.shards = (List.range (g s).nshard.toNat).map fun i =>
        (i, (s.hx.pend.shards.getD i (0, 0)).2))
    let clear := fun (x y : Nat × Nat) => x.1 + x.2 ≤ y.1 ∨ y.1 + y.2 ≤ x.1
    let okLand := fun (s : State) => ∀ (i j : Nat) (a b : Word64) (r q : OuterRec), (list s)[i]? = some a → (outerRec a.toNat s).2 = some r → r.valid = true →
      (list s)[j]? = some b → (outerRec b.toNat s).2 = some q → q.valid = true →
      let land := r.landArea s (ps s).length
      (land.2 = 0 ∨ ∃ d, regionOf land.1 land.2 = some (.dram d)) ∧ (∀ z ∈ q.areas s, clear land z) ∧
        (i ≠ j → clear land (q.landArea s (ps s).length))
    let nothing := fun (s : State) => s.hx.pend.general = none ∧ s.hx.pend.shards = [] ∧ s.hx.pend.peers = []
    hasEffect (.hxConfigCommit h) h .hxCommit nothing id ∧
    refusesWith (.hxConfigCommit h) h .hxCommit (fun s => ¬nothing s ∧
      ¬(okTable s ∧ okBuf (g s).sbuf (g s).sbufSize ∧ okBuf (g s).rbuf (g s).rbufSize)) .hxField 0 ∧
    refusesWith (.hxConfigCommit h) h .hxCommit (fun s => ¬nothing s ∧ complete s ∧ ¬okLand s) .hxField 0 ∧
    refusesWith (.hxConfigCommit h) h .hxCommit (fun s => s.hx.pend.peers ≠ [] ∧ outerOpen s = true ∧ s.hx.pauses = 0) .hxField 0 ∧
    completes (.hxConfigCommit h) h .hxCommit (fun s => ¬nothing s ∧ okTable s ∧ okBuf (g s).sbuf (g s).sbufSize ∧
        okBuf (g s).rbuf (g s).rbufSize ∧ (s.hx.pend.peers = [] ∨ outerOpen s = false) ∧
        complete s ∧ okLand s ∧ svcNormal s = true)
      fun s x pay d => pay = [] ∧ d = 0 ∧ x.mem = s.mem ∧ x.cfg = s.cfg ∧ x.hx.configured = true ∧ x.hx.general = g s ∧
        x.hx.peers = ps s ∧ x.hx.pend = ⟨none, [], []⟩ ∧ x.hx.pauses = s.hx.pauses ∧ x.hx.steps = s.hx.steps ∧
        x.hx.shards = list s ∧
        ((g s).job ≠ s.hx.general.job → ∀ e ∈ ps s, e.node ≠ s.strapNode →
          if s.strapNode.toNat < e.node.toNat then
            ∃ m, offers 0 s.hxBeat (x.session e.index.toNat) m ∧ ((∃ q, q < 8 ∧ s.ethUp q = true) → keyxSent e.index 1 0 m x)
          else (x.session e.index.toNat).setup = none)

/-- HX_OUTER (R389). Out of order it is HX_ORDER; with PAUSED alone in its way, HX_PAUSED. Accepted, it sets INNER to 0
and runs the boundary (R390): P̃ = round(master − C) goes to its snapshot slot and Δ = round(P̃ before − P̃) to the work
area; the slice is compressed to T2 with the current residuals and the image stands in the module's own landing slot,
its last block padded with +0 (R63); new residuals go to the other set; the record takes BSTEP = o and inverts RCUR; the
IMAGE goes to the other members and to listeners. Joiners of steps up to o are members from now on (R435). Told of one
shard, outside hierarchical mode with more than one replica. -/
def HxOuter : Prop :=
  ∀ (h : Hdr) (o : BitVec 48) (opid0 : BitVec 16),
    let c := Instr.hxOuter h o opid0
    let fresh := fun (s : State) => ∀ x ∈ s.hx.steps, x.o ≠ o
    let order := fun (s : State) (r : OuterRec) (l : List Word64) => s.hx.inner.toNat = fld (s.cfgReg 0x040008) 15 0 ∧
      r.bstep + 1 = o.toNat ∧ o.toNat ≤ r.astep + 1 + s.stale ∧ finalOutcome (recOutcome l) = true
    refusesWith c h (.hxOuter o opid0) (fun s => s.hx.configured = false) .hxOrder 0 ∧
    refusesWith c h (.hxOuter o opid0) (fun s => fresh s ∧ ∃ r hd l, OneOuter s r hd ∧ reads s s.stepAddr l ∧ ¬order s r l) .hxOrder 0 ∧
    refusesWith c h (.hxOuter o opid0) (fun s => fresh s ∧ s.hx.pauses ≠ 0 ∧
      ∃ r hd l, OneOuter s r hd ∧ reads s s.stepAddr l ∧ order s r l) .hxPaused 0 ∧
    ∀ (s : State) (r : OuterRec) (hd l : List Word64), Passes h (.hxOuter o opid0) s → fresh s → OneOuter s r hd →
      reads s s.stepAddr l → order s r l → s.hx.pauses = 0 → onAxis s = false → still s →
      let me := selfIndex s
      let seated := seatJoiners o s
      let p := fun (i : Nat) => f32Sub (w32 s (hdrMaster hd (hdrCur hd)) i) (w32 s (r.offs r.acur) i)
      let delta := fun (i : Nat) => f32Sub (w32 s (r.snapOf s (o.toNat - 1)) i) (p i)
      let draws := fun (i : Nat) => if bitOf (s.cfgReg 0x040000) 19 then
        some (drawAt s (o.extractLsb' 0 32) r.stream 2 (BitVec.ofNat 48 (r.slo + i))) else none
      let z := t2Blocks draws (r.scount / 32 + 1) 0 ((List.range r.scount).map fun i => delta (r.slo + i))
        ((List.range r.scount).map fun i => w32 s (r.resid r.rcur) i)
      let land := r.landing s o.toNat me.toNat
      ∃ x, exec c s = .next (answered h (.hxOuter o opid0) [] 0 s x) ∧
        x.hx.inner = 0 ∧ x.hx.boundaryAccepted = o ∧ x.hx.steps = s.hx.steps ++ [{ newStep o opid0 seated with next := 1 }] ∧
        x.hx.landed.head? = some (o, me) ∧ x.hx.pauses = 0 ∧ x.hx.peers = seated.hx.peers ∧ x.cfg = s.cfg ∧
        (∀ i, i < r.count → w32 x (r.snapOf s o.toNat) i = p i ∧ w32 x r.work i = delta i) ∧
        x.rawRead land (8 * ((r.scount + 31) / 32)) =
          packCodes 2 (z.1 ++ List.replicate (32 * ((r.scount + 31) / 32) - r.scount) 0) ∧
        x.rawRead (land + t2Bytes r.scount) ((r.scount + 31) / 32) = z.2.1 ∧
        (∀ i, i < r.scount → w32 x (r.resid (1 - r.rcur)) i = z.2.2.1.getD i 0) ∧
        x.word64 r.addr = s.word64 r.addr ∧
        (x.word64 (r.addr + 8)).extractLsb' 16 48 = o ∧ (x.word64 (r.addr + 8)).getLsbD 0 = !(s.word64 (r.addr + 8)).getLsbD 0 ∧
        (∀ i, 2 ≤ i → i < 16 → x.word64 (r.addr + 8 * i) = s.word64 (r.addr + 8 * i)) ∧
        memOnly [(r.addr, 16), (r.snapOf s o.toNat, 4 * r.count), (r.work, 4 * r.count), (land, imageBytes r.scount),
          (r.resid (1 - r.rcur), 4 * r.scount)] s x ∧
        ∀ i, (x.session i).queue = (s.session i).queue ++
          if i ∈ hxPeers s ∧ ((newStep o opid0 seated).members.contains (BitVec.ofNat 6 i) = true ∨
              ∃ j, (seated.session i).listener = some j ∧ o.toNat < j.toNat) then
            objectPackets 1 o me.toNat 0 (pmaxBytes s) (s.session i).nextSeq.toNat (x.rawRead land (imageBytes r.scount)) else []

/-- A boundary whose shards are all done is complete; where the result of outer step o − S is not ready by then, the exchange
pauses with LATE (R400). With no boundary in progress, or one that is halted or not at its end, nothing happens. -/
def HxBoundary : Prop :=
  ∀ s : State, s.isReady = true →
    ((∀ x ∈ s.hx.steps, x.boundary = true) → exec .hxBoundaryDone s = .next s) ∧
    ∀ (pre post : List OuterStep) (x : OuterStep), s.hx.steps = pre ++ x :: post → (∀ y ∈ pre, y.boundary = true) →
      x.boundary = false → (s.hx.steps.map (·.o)).Nodup → x.waitColl = false →
      (x.halted = true ∨ x.next < s.hx.shards.length → exec .hxBoundaryDone s = .next s) ∧
      (x.halted = false → s.hx.shards.length ≤ x.next →
        let z := { s with hx := { s.hx with steps := pre ++ { x with boundary := true } :: post } }
        let due := s.stale ≤ x.o.toNat ∧ ∃ y ∈ s.hx.steps, y.o.toNat = x.o.toNat - s.stale ∧ y.isReady = false
        (¬due → exec .hxBoundaryDone s = .next z) ∧
        (due → ∃ t, exec .hxBoundaryDone s = .next t ∧ paused 1 0 (x.o - BitVec.ofNat 48 s.stale) z t))

/-- The merge (R392, R393): the members' images are added in ascending entry index from +0 with one rounding each, and
divided by their number; the outer optimiser writes momentum and θ into the sets not named by ACUR. Of the one member of
a step the result is then ready at once, and HX_READY names it (R394). Without a step to merge nothing happens; a merge
that waits and meets a record that may not be read stops with POISON (R402). -/
def HxMerge : Prop :=
  (∀ s : State, (∀ x ∈ s.hx.steps, x.boundary = false ∨ x.merged = true ∨ x.halted = true ∨
      (badRecord s = none ∧ ∃ i ∈ x.members, s.hx.landed.contains (x.o, i) = false)) → exec .hxMerge s = .next s) ∧
  (∀ (s : State) (x : OuterStep) (k : Nat), s.isReady = true → s.hx.steps = [x] → x.boundary = true → x.merged = false →
    x.halted = false → badRecord s = some k → ∃ t, exec .hxMerge s = .next t ∧
      paused 6 (BitVec.ofNat 32 k) x.o { s with hx := { s.hx with steps := [{ x with halted := true, waitColl := false }] } } t) ∧
  ∀ (s : State) (r : OuterRec) (hd : List Word64) (x : OuterStep) (vals : BitVec 6 → Nat → Val), OneOuter s r hd → s.hx.steps = [x] →
    x.boundary = true → x.merged = false → x.halted = false → x.failed = false → x.waitColl = false → x.isReady = false →
    x.mergeNext = 0 → r.astep + 1 = x.o.toNat → (∀ m ∈ x.members, s.hx.landed.contains (x.o, m) = true ∧ ∃ e ∈ s.hx.peers, e.index = m) →
    onAxis s = false → still s →
    (∀ m ∈ x.members, ∀ i, i < r.scount → vals m i =
      blockVal 13 ((elemsOf 2 r.scount (s.rawRead (r.landing s x.o.toNat m.toNat) ((r.scount + 3) / 4))).getD i 0)
        (s.readByte (r.landing s x.o.toNat m.toNat + t2Bytes r.scount + i / 32))) →
    let mu := s.cfgReg 0x04000C
    let eta := s.cfgReg 0x040010
    let d := fun (i : Nat) => f32Div (x.members.foldl (fun a m => toF32 ((f32 a).add (vals m i))) 0) (toF32 (.ofInt x.members.length))
    let m1 := fun (i : Nat) => f32Fma mu (w32 s (r.mom r.acur) i) (d i)
    let t1 := fun (i : Nat) => f32Fma (f32Neg eta) (f32Fma mu (m1 i) (d i)) (w32 s (r.theta r.acur) (r.slo + i))
    ∃ t, exec .hxMerge s = .next t ∧
      (∀ i, i < r.scount → w32 t (r.mom (1 - r.acur)) i = m1 i ∧ w32 t (r.theta (1 - r.acur)) (r.slo + i) = t1 i) ∧
      memOnly [(r.mom (1 - r.acur), 4 * r.scount), (r.theta (1 - r.acur) + 4 * r.slo, 4 * r.scount)] s t ∧
      (∃ y, t.hx.steps = [y] ∧ y.merged = true ∧ y.o = x.o ∧ y.members = x.members ∧
        y.digests = [digestOf (t.rawRead (r.theta (1 - r.acur)) (4 * r.count))] ∧
        (x.members = [selfIndex s] → y.isReady = true ∧ newest 0x0050 0 0 x.o 0 t ∧ t.hx.pauses = s.hx.pauses &&& ~~~2#7)) ∧
      t.hx.peers = s.hx.peers ∧ t.cfg = s.cfg ∧ t.units = s.units

/-- No packet of an object of this kind that has come from an entry awaits its row. -/
def unheard (i kind : Nat) (s : State) : Prop :=
  (∀ q ∈ (s.session i).objects, q.kind.toNat ≠ kind) ∧ ∀ p ∈ (s.session i).heldRx, p.kind.toNat ≠ kind

/-- IMAGE and DIGEST objects. An image lands when the bytes of all shards have come; an outer record whose line may not
be read leaves it open and stops the engine with POISON at that shard (R402). A DIGEST of a member is kept; the last one
of a merged step that agrees in list and mask makes the result ready (R394, R437); one that differs pauses the exchange
with DIGEST and is reported with the member and the first shard that differs; of an entry that is no member it is
ignored. An object of any kind acts when its last packet is below CUM (R412): until then its row does nothing, and a
whole one is taken by its row. -/
def HxObjects : Prop :=
  (∀ (i : BitVec 6) (o : BitVec 48) (s : State), live s i.toNat = true → s.hx.landed.contains (o, i) = false →
    let sound := fun (l : List Word64) (rs : List OuterRec) => l.map (fun a => outerRec a.toNat s) = rs.map fun r => (s, some r)
    (landedBytes s o i = 0 → exec (.hxImage i o) s = .next s) ∧
    (∀ rs, sound s.hx.shards rs → let n := (rs.map fun r => imageBytes r.scount).sum
      (landedBytes s o i = n → 0 < n → exec (.hxImage i o) s = .next { s with hx := { s.hx with
        landed := (o, i) :: s.hx.landed, landing := s.hx.landing.filter fun e => !(e.1 == o && e.2.1 == i) } }) ∧
      (landedBytes s o i ≠ n → exec (.hxImage i o) s = .next s)) ∧
    ∀ pre rs a post u, s.hx.shards = pre ++ a :: post → sound pre rs → outerRec a.toNat s = (u, none) → landedBytes s o i ≠ 0 →
      ∃ t, exec (.hxImage i o) s = .next t ∧ paused 6 (BitVec.ofNat 32 pre.length) o u t) ∧
  (∀ (i m : BitVec 6) (o : BitVec 48) (mask : Word64) (ds : List (BitVec 128)) (ok : Bool) (bs : List Byte) (s : State) (r : OuterRec)
      (h : List Word64) (c : Instr) (kind : Nat) (step : Option (BitVec 48)) (idx : Option (BitVec 6)) (bytes : List Byte),
    (c, kind, step, idx, bytes) ∈
      [(Instr.hxDigest i o mask ds, 2, some o, none, beBytes 6 o.toNat ++ beBytes 8 mask.toNat ++ ds.flatMap fun d => beBytes 16 d.toNat),
       (.join i o, 3, some o, none, beBytes 6 o.toNat), (.joinReply i ok o, 4, none, none, (if ok then 1 else 0) :: beBytes 6 o.toNat),
       (.fetch i, 5, none, none, []), (.state i 0 o bs, 6, some o, none, bs), (.momentum i 0 bs, 7, none, none, bs),
       (.imageFwd i m o 0 bs, 8, some o, some m, bs)] →
    OneOuter s r h → isPeer s i.toNat = true →
    (6 ≤ kind → fetchesFrom i s = true ∧
      bs.length = if kind = 6 then 4 * r.count else if kind = 7 then 4 * r.scount else imageBytes r.scount) →
    (kind = 8 → s.hx.landed.contains (o, m) = false) →
    let x := s.session i.toNat
    let whole := fun (q : RxObject) => q.kind.toNat = kind ∧ (∀ a ∈ step, q.ostep = a.extractLsb' 0 32) ∧ (∀ a ∈ idx, q.midx = a) ∧
      q.bytes = bytes
    ((∀ q ∈ x.objects, ¬whole q) → ¬unheard i.toNat kind s → exec c s = .next s) ∧
    ∀ pre q post, x.objects = pre ++ q :: post → whole q → (∀ y ∈ pre, ¬whole y) →
      let z := s.setSession i.toNat { x with objects := pre ++ post }
      unheard i.toNat kind z → exec c s = exec c z) ∧
  ∀ (i : BitVec 6) (mask : Word64) (ds : List (BitVec 128)) (x : OuterStep) (s : State), live s i.toNat = true → s.hx.steps = [x] →
    unheard i.toNat 2 s →
    let rest := s.hx.digestsRx.filter fun e => !(e.1 == x.o && e.2.1 == i)
    let keep := { s with hx := { s.hx with digestsRx := (x.o, i, mask, ds) :: rest } }
    let same := mask = maskOf x.members ∧ ds = x.digests
    let done := [{ x with isReady := true }]
    (i ∉ x.members → exec (.hxDigest i x.o mask ds) s = .next s) ∧
    (i ∈ x.members → x.merged = false → exec (.hxDigest i x.o mask ds) s = .next keep) ∧
    (i ∈ x.members → x.merged = true → x.isReady = false → same → x.members = [i, selfIndex s] ∨
        x.members = [selfIndex s, i] → ∃ t, exec (.hxDigest i x.o mask ds) s = .next t ∧ newest 0x0050 0 0 x.o 0 t ∧
      let left := if x.failed then s.hx.pauses else s.hx.pauses &&& ~~~2#7
      onlyEvents { keep with hx := { keep.hx with steps := done, pauses := left } } t) ∧
    (i ∈ x.members → x.merged = true → ∀ a b, x.digests = [a] → ds = [b] → a ≠ b → ∃ t y,
      exec (.hxDigest i x.o mask ds) s = .next t ∧ paused 3 0 x.o keep y ∧ onlyEvents y t ∧
      newest 0x0058 2 (i.zeroExtend 32) x.o 0 t)

/-- HX_APPLY (R395): out of order it is HX_ORDER, with the result alone missing HX_NOT_READY. Accepted, it writes C′ =
round(θ′ − P̃_o) into the other offset set, round(P̃_(o+S) + C′) into the other master set under the version of the
apply step, and the moments, copied or +0 under MRESET; then it signals the semaphore that the command names. -/
def HxApply : Prop :=
  (∀ (h : Hdr) (o st : BitVec 48) (sem : Option (UnitId × Fin 16)),
    let c := Instr.hxApply h o st sem
    let order := fun (s : State) (r : OuterRec) (l : List Word64) => r.astep + 1 = o.toNat ∧ o.toNat + s.stale ≤ r.bstep ∧
      finalOutcome (recOutcome l) = true ∧ recStep l = st - 1
    let ready := fun (s : State) => ∃ x ∈ s.hx.steps, x.o = o ∧ x.isReady = true
    refusesWith c h (.hxApply o st sem) (fun s => ∃ r hd l, OneOuter s r hd ∧ reads s s.stepAddr l ∧ ¬order s r l) .hxOrder 0 ∧
    refusesWith c h (.hxApply o st sem) (fun s => ¬ready s ∧ ∃ r hd l, OneOuter s r hd ∧ reads s s.stepAddr l ∧ order s r l)
      .hxNotReady 0 ∧
    ∀ (s : State) (r : OuterRec) (hd l : List Word64), Passes h (.hxApply o st sem) s → OneOuter s r hd → reads s s.stepAddr l →
      order s r l → ready s → (s.hx.steps.map (·.o)).Nodup →
      let m := 1 - hdrCur hd
      let c' := fun (i : Nat) => f32Sub (w32 s (r.theta (1 - r.acur)) i) (w32 s (r.snapOf s o.toNat) i)
      ∃ x, exec c s = .next (answered h (.hxApply o st sem) [] 0 s x) ∧
        x = { s with mem := x.mem, lineTags := x.lineTags,
                     hx := { s.hx with applying := some (o, st, sem, false), nonfinite := x.hx.nonfinite } } ∧
        (x.hx.nonfinite = true ↔ s.hx.nonfinite = true ∨ ∃ i, i < r.count ∧ ∃ v ∈ [w32 s (r.theta (1 - r.acur)) i,
          w32 s (r.snapOf s o.toNat) i, c' i, w32 s (r.snapOf s (o.toNat + s.stale)) i, w32 x (hdrMaster hd m) i],
          f32Special v = true) ∧
        (∀ i, i < r.count → w32 x (r.offs (1 - r.acur)) i = c' i ∧
          w32 x (hdrMaster hd m) i = f32Add (w32 s (r.snapOf s (o.toNat + s.stale)) i) (c' i) ∧
          ∀ j, j < hdrNmom hd → w32 x (hdrMoment hd m j) i =
            if (s.cfgReg 0x040000).getLsbD 18 then 0 else w32 s (hdrMoment hd (1 - m) j) i) ∧
        (∀ k, k % 64 = 0 → hdrMaster hd m ≤ k → k + 64 ≤ hdrMaster hd m + 4 * r.count → x.version k = st.extractLsb' 0 7) ∧
        memOnly ([(r.offs (1 - r.acur), 4 * r.count), (hdrMaster hd m, 4 * r.count)] ++
          (List.range (hdrNmom hd)).map fun j => (hdrMoment hd m j, 4 * r.count)) s x) ∧
  ∀ (s : State) (o st : BitVec 48) (sem : Option (UnitId × Fin 16)), s.isReady = true → s.hx.applying = some (o, st, sem, false) →
    ∃ t, exec .hxApplyDone s = .next t ∧ t.hx.applying = some (o, st, sem, true) ∧ t.mem = s.mem ∧
      (∀ u k, sem = some (u, k) → (t.unit u).sem k.val = added ((s.unit u).sem k.val) 1 false) ∧
      ∀ u, (∀ v k, sem = some (v, k) → u ≠ v) → t.unit u = s.unit u

/-- HX_RESUME clears a cause other than LATE that stands, else it is HX_ORDER; HX_FETCH asks an entry for its state
while the exchange is paused; HX_REKEY, under a REKEY lease, asks every session for a new epoch, and begins its setup at
once where the module initiates and none is in its way (R400, R432, R501). -/
def HxOrders : Prop :=
  (∀ (h : Hdr) (c : BitVec 8),
    refusesWith (.hxResume h c) h (.hxResume c) (fun s => c = 1 ∨ s.hx.pauses.getLsbD c.toNat = false) .hxOrder 0 ∧
    hasEffect (.hxResume h c) h (.hxResume c) (fun s => c ≠ 1 ∧ c ≠ 6 ∧ s.hx.pauses.getLsbD c.toNat = true)
      (fun s => { s with hx := { s.hx with pauses := s.hx.pauses &&& ~~~((1 : BitVec 7) <<< c.toNat) } }) ∧
    hasEffect (.hxResume h 6) h (.hxResume 6) (fun s => s.hx.pauses.getLsbD 6 = true ∧ (∀ x ∈ s.hx.steps, x.boundary = true) ∧
        ∀ k, ∀ g ∈ (s.session k).heldRx, g.seq ≠ (s.session k).cum)
      (fun s => { s with hx := { s.hx with pauses := s.hx.pauses &&& 0x3F,
                                           steps := s.hx.steps.map fun x => { x with halted := x.failed } } })) ∧
  (∀ (h : Hdr) (i : BitVec 8),
    refusesWith (.hxFetch h i) h (.hxFetch i) (fun s => s.hx.pauses = 0) .hxOrder 0 ∧
    completes (.hxFetch h i) h (.hxFetch i) (fun s => s.hx.pauses ≠ 0 ∧ isPeer s i.toNat = true ∧ still s) fun s x pay d =>
      pay = [] ∧ d = 0 ∧ x = { s with hx := { s.hx with fetching := some (i.truncate 6), sessions := x.hx.sessions } } ∧
      (∀ j, j ≠ i.toNat → x.session j = s.session j) ∧
      let ask := objectPackets 5 0 0 0 (pmaxBytes s) (s.session i.toNat).nextSeq.toNat []
      x.session i.toNat = { s.session i.toNat with
        begun := [], nextSeq := (s.session i.toNat).nextSeq + 1, queue := (s.session i.toNat).queue ++ ask }) ∧
  ∀ h : Hdr,
    refusesWith (.hxRekey h) h .hxRekey (fun s => ∀ l ∈ s.press.leases, l.activity ≠ 7) .noPress 0 ∧
    completes (.hxRekey h) h .hxRekey (fun s => (∃ l ∈ s.press.leases, l.activity = 7) ∧ (hxPeers s).Nodup) fun s x pay d =>
      pay = [] ∧ d = 0 ∧ x.mem = s.mem ∧ ∀ i,
        let z := s.session i
        let wants := z.keys.isSome && !z.ended
        if i ∈ hxPeers s ∧ mayRoll i s = true then ∃ k m, z.keys = some k ∧ offers (k.epoch + 1) s.hxBeat (x.session i) m ∧
          (x.session i).rekey = false ∧ (x.session i).keys = z.keys ∧
          ((pickNet z s).isSome = true → keyxSent (BitVec.ofNat 6 i) 1 (k.epoch + 1) m x)
        else x.session i = if i ∈ hxPeers s then { z with rekey := wants } else z

/-- Outside NORMAL service a lost member, and one whose image is missing HX_DROP_WAIT after LATE, is dropped from an
outer step whose merge has not begun, and reported (R434). -/
def HxDrops : Prop :=
  ∀ (i : BitVec 6) (s : State),
    (live s i.toNat = false ∨ svcNormal s = true → exec (.hxDropped i) s = .next s) ∧
    ∀ x, live s i.toNat = true → svcNormal s = false → s.hx.steps = [x] → i ∈ x.members → x.merged = false →
      x.merging = false →
      let late := s.hx.pauses.getLsbD 1 = true ∧ s.hx.landed.contains (x.o, i) = false ∧
        ∃ b, s.hx.lateSince = some b ∧ beatsOfMs (s.cfgReg 0x04002C).toNat ≤ beatsSince s.hxBeat b
      ((s.session i.toNat).lost = true ∨ late → ∃ t, exec (.hxDropped i) s = .next t ∧ newest 0x0056 1 (i.zeroExtend 32) x.o 0 t ∧
        t.hx.steps = [{ x with members := x.members.filter fun k => k != i }] ∧ t.hx.dropped = (x.o, i) :: s.hx.dropped ∧
        (t.session i.toNat).listener = none ∧ t.mem = s.mem) ∧
      ((s.session i.toNat).lost = false → ¬late → exec (.hxDropped i) s = .next s)

end Sys2Proof.Claim

/-! ## HX packets and keys (ch. 9) -/

namespace Sys2Proof.Claim

/-- Session i has become z, and nothing else has changed but what has been sent. -/
def onlySession (i : Nat) (z : Session) (s t : State) : Prop :=
  t.session i = z ∧ (∀ j, j ≠ i → t.session j = s.session j) ∧
  t = { s with hx := { s.hx with sessions := t.hx.sessions }, sent := t.sent }

/-- A packet of a TYPE, with its payload in plain, of the peer of index i, that the module admits (R407, R409, R428,
R431): of its job, for it, on the UDP port of HX_UDP, under an epoch in use, new, within the window, authentic. The
session is past its last setup and not lost. -/
structure Admits (typ : Nat) (plain : List Byte) (p : HxPkt) (i : Nat) (s : State) : Prop where
  ours : s.isReady = true ∧ s.hx.configured = true ∧ p.job = s.hx.general.job ∧ p.dst = s.strapNode ∧ hxUdp s p = true
  peer : ∃ e, (s.hx.peers.find? fun e => e.node == p.src) = some e ∧ e.index.toNat = i
  other : isPeer s i = true
  going : (s.session i).ended = false ∧ (s.session i).lost = false ∧ (s.session i).lostKey = false
  keys : ∃ k, (s.session i).keys = some k ∧ k.epoch = p.kepoch ∧ (s.session i).oldKeys = none ∧ (s.session i).nextKeys = none
  fresh : ((s.session i).net p.net).seen.contains (p.kepoch, p.pctr) = false ∧
    belowWindow ((s.session i).net p.net).seen p.kepoch p.pctr = false
  auth : authentic s i p typ plain = true
  table : twf .reset s.hx.sessions = true

/-- The session once the packet is admitted: the counter is noted, and the peer is heard on this network. -/
def admitted' (p : HxPkt) (beat : Beat) (x : Session) : Session :=
  x.modNet p.net fun v => { v with seen := noteSeen v.seen p.kepoch p.pctr, lastRx := beat, path := true }

/-- A DATA arrival is counted towards the next ACK; its TSTAMP is the newest unless it was sent again (Table 9.6). -/
def counted' (p : HxPkt) (beat : Beat) (x : Session) : Session :=
  x.modNet p.net fun v =>
    { v with unacked := v.unacked + 1, firstUnacked := v.firstUnacked <|> some beat,
             lastEts := if p.resent then v.lastEts else p.tstamp, lastEtsAt := if p.resent then v.lastEtsAt else beat }

/-- No session has DATA that waits. -/
def noQueue (s : State) : Prop := ∀ k, (s.session k).queue = []

/-- A packet encrypted now by session x of entry i, from port q of network n: its header takes the epoch in use and the
next packet counter of the network (R426). -/
def freshSent (s : State) (i : Nat) (x : Session) (n : Fin 2) (q : Fin 4) (h : HxHead) (plain : List Byte) : Sent :=
  .hx (hxDatagram s i n q (({ h with kepoch := x.epoch, pctr := BitVec.ofNat 32 (x.net n).pctr } : HxHead).encrypted
    ((x.keys.map (txKey s i)).getD 0) plain))

/-- The session after one packet sent on a network: the network's count, and the packet counter where it was encrypted now. -/
def sentOne (n : Fin 2) (x : Session) : Session := x.modNet n fun v => { v with count := v.count + 1 }
def sentNew (n : Fin 2) (beat : Beat) (x : Session) : Session :=
  { sentOne n (x.modNet n fun v => { v with pctr := v.pctr + 1 }) with firstSent := x.firstSent <|> some beat }

/-- The port of the next packet on a network is q: the first of its four, from its count on, that is up (R410). -/
def nextPort (s : State) (x : Session) (n : Fin 2) (q : Fin 4) : Prop := hxPort s n (x.net n).count = some q

/-- What arrives (R407, R409, R431): packets that are not for the module do nothing; a packet under no epoch in use, and
one that is not authentic, is counted in HX_AUTH_FAIL; one whose counter has been seen, in HX_REPLAY. -/
def HxArrivals : Prop :=
  ∀ (p : HxPkt) (a : HxAck) (ets : Beat) (hold : Word32) (c : Instr) (typ : Nat) (plain : List Byte) (s : State),
    (c, typ, plain) ∈ [(Instr.hxDataReceive p, 1, p.payload), (.hxAckReceive p a, 2, ackBytes a), (.hxProbeReceive p, 3, []),
      (.hxEchoReceive p ets hold, 4, echoBytes ets hold)] →
    ((s.isReady = false ∨ s.hx.configured = false ∨ p.job ≠ s.hx.general.job ∨ p.dst ≠ s.strapNode ∨ hxUdp s p = false ∨
      ∀ e ∈ s.hx.peers, e.node ≠ p.src) → exec c s = .next s) ∧
    ∀ e, s.isReady = true → s.hx.configured = true → p.job = s.hx.general.job → p.dst = s.strapNode → hxUdp s p = true →
      (s.hx.peers.find? fun e => e.node == p.src) = some e → isPeer s e.index.toNat = true →
      let x := s.session e.index.toNat
      let seen := (x.net p.net).seen.contains (p.kepoch, p.pctr)
      let auth := authentic s e.index.toNat p typ plain
      (x.ended = true ∨ x.accepts p.kepoch = false ∨ (seen = false ∧ auth = false) →
        ∃ t, exec c s = .next t ∧ counted 0x040040 1 s t ∧ t = { s with counters := t.counters }) ∧
      (x.ended = false → x.accepts p.kepoch = true → seen = true →
        ∃ t, exec c s = .next t ∧ counted 0x040044 1 s t ∧ t = { s with counters := t.counters }) ∧
      (x.ended = false → x.accepts p.kepoch = true → seen = false → auth = true → typ ≠ 1 →
        belowWindow (x.net p.net).seen p.kepoch p.pctr = true →
        ∃ t, exec c s = .next t ∧ counted 0x040044 1 s t ∧ t = { s with counters := t.counters })

/-- What the objects of an entry become with a packet in sequence (R412): of the kinds that have rows of their own,
OFFSET 0 begins one; another goes on at the end of the newest one that ends there. -/
def noted (p : HxPkt) (l : List RxObject) : List RxObject :=
  let fits := fun (q : RxObject) => q.kind = p.kind ∧ q.ostep = p.ostep ∧ q.midx = p.midx ∧ q.bytes.length = p.offset.toNat
  if p.kind.toNat < 2 ∨ 8 < p.kind.toNat then l
  else if p.offset = 0 then l ++ [⟨p.kind, p.ostep, p.midx, p.payload⟩]
  else match l.reverse.findIdx? fun q => decide (fits q) with
    | some k => (l.reverse.modify k fun q => { q with bytes := q.bytes ++ p.payload }).reverse
    | none => l

/-- DATA (R411 to R413). In sequence it is delivered, with what was held behind it; within the receive window it is
held; below it, it only counts; beyond it, it is dropped. The 32nd arrival of a network is acknowledged at once. Bytes
of an IMAGE go to their landing slot, unless the result of their outer step is applied; an object of another kind
gathers its bytes until its row takes it; those of STATE, MOMENTUM and IMAGE_FWD from the entry that is fetched from to
their places of the shard (R435). -/
def HxData : Prop :=
  (∀ (p : HxPkt) (i : Nat) (s : State), Admits 1 p.payload p i s → p.kind ∉ [1#8, 6#8, 7#8, 8#8] →
    let x := s.session i
    let y := admitted' p s.hxBeat x
    ((y.net p.net).unacked < 31 →
      (p.seq = x.cum → x.heldRx = [] → ∃ t, exec (.hxDataReceive p) s = .next t ∧ t.sent = s.sent ∧
        onlySession i (counted' p s.hxBeat { y with cum := x.cum + 1, objects := noted p x.objects }) s t) ∧
      (∀ q, p.seq = x.cum → x.heldRx = [q] → q.seq = x.cum + 1 → q.kind ∉ [1#8, 6#8, 7#8, 8#8] →
        ∃ t, exec (.hxDataReceive p) s = .next t ∧ t.sent = s.sent ∧
          onlySession i (counted' p s.hxBeat { y with cum := x.cum + 2, heldRx := [], objects := noted q (noted p x.objects) }) s t) ∧
      (p.seq.toNat < x.cum.toNat ∨ (∃ h ∈ x.heldRx, h.seq = p.seq) → ∃ t, exec (.hxDataReceive p) s = .next t ∧ t.sent = s.sent ∧
        onlySession i (counted' p s.hxBeat y) s t) ∧
      (x.cum.toNat < p.seq.toNat → p.seq.toNat < x.cum.toNat + freePackets s → (∀ h ∈ x.heldRx, h.seq ≠ p.seq ∧ h.seq ≠ x.cum) →
        ∃ t, exec (.hxDataReceive p) s = .next t ∧ t.sent = s.sent ∧
          onlySession i (counted' p s.hxBeat { y with heldRx := x.heldRx ++ [p] }) s t)) ∧
    (x.cum.toNat < p.seq.toNat → x.cum.toNat + freePackets s ≤ p.seq.toNat → (∀ h ∈ x.heldRx, h.seq ≠ p.seq) →
      ∃ t, exec (.hxDataReceive p) s = .next t ∧ t.sent = s.sent ∧ onlySession i y s t) ∧
    ∀ q, (y.net p.net).unacked = 31 → y.maySend s = true → nextPort s y p.net q → p.seq = x.cum → x.heldRx = [] →
      ∃ t a, exec (.hxDataReceive p) s = .next t ∧
        t.sent = freshSent s i y p.net q (hxHead s i p.net 2 (ackBytes a).length) (ackBytes a) :: s.sent ∧ a.cum = x.cum + 1 ∧
        a.win = x.cum + 1 + BitVec.ofNat 48 (freePackets s) ∧ a.ranges = [] ∧ (p.resent = false → a.ets = p.tstamp ∧ a.hold = 0) ∧
        (t.session i).cum = x.cum + 1 ∧ ((t.session i).net p.net).unacked = 0 ∧ ((t.session i).net p.net).firstUnacked = none ∧
        ((t.session i).net p.net).pctr = (x.net p.net).pctr + 1 ∧ ((t.session i).net p.net).count = (x.net p.net).count + 1) ∧
  ∀ (p : HxPkt) (i : Nat) (s : State) (r : OuterRec) (h : List Word64), Admits 1 p.payload p i s → OneOuter s r h →
    p.seq = (s.session i).cum → (s.session i).heldRx = [] → ((s.session i).net p.net).unacked < 31 →
    let o := stepNear r.bstep p.ostep
    let n := p.payload.length
    let off := p.offset.toNat
    let lands := ∃ e ∈ s.hx.peers, e.index = p.midx
    let goes := fun (t : State) => exec (.hxDataReceive p) s = .next t ∧ (t.session i).cum = (s.session i).cum + 1
    (p.kind = 1 → p.midx.toNat = i → lands →
      let place := r.landing s o.toNat i + off
      (o.toNat ≤ r.astep → ∃ t, goes t ∧ t.mem = s.mem) ∧
      (r.astep < o.toNat → s.hx.landed.contains (o, p.midx) = false → 0 < n → off + n ≤ imageBytes r.scount →
        ∃ t, goes t ∧ t.rawRead place n = p.payload ∧ memOnly [(place, n)] s t ∧
          landedBytes t o p.midx = (if p.offset = 0 then 0 else landedBytes (takeSlot o p.midx s) o p.midx) + n)) ∧
    (p.kind ∈ [6#8, 7#8, 8#8] →
      let spots := if p.kind = 6 then r.theta r.acur :: hdrMaster h (hdrCur h) :: (List.range (s.stale + 1)).map r.snap
        else if p.kind = 7 then [r.mom r.acur] else [r.landing s o.toNat p.midx.toNat]
      let room := if p.kind = 6 then 4 * r.count else if p.kind = 7 then 4 * r.scount else imageBytes r.scount
      (fetchesFrom (BitVec.ofNat 6 i) s = false → ∃ t, goes t ∧ t.mem = s.mem) ∧
      (fetchesFrom (BitVec.ofNat 6 i) s = true → 0 < n → off + n ≤ room → (p.kind = 8 → lands) →
        ∃ t, goes t ∧ (∀ z ∈ spots, t.rawRead (z + off) n = p.payload) ∧ memOnly (spots.map fun z => (z + off, n)) s t))

/-- ACK and ECHO (R413 to R418). What an ACK reports leaves the send buffer, its WIN becomes the window, and a back-off
ends with a packet that was sent once; a packet after which 64 later ones of its network have been reported goes out
again at once, as it was first sent but for RESENT. An ETS that is not zero is a round trip: the first sets SRTT and
RTTVAR, a later one moves them, and RTO follows. -/
def HxAcks : Prop :=
  (∀ (p : HxPkt) (a : HxAck) (i : Nat) (s : State), Admits 2 (ackBytes a) p i s → noQueue s → a.ets = 0 →
    let x := s.session i
    let y := admitted' p s.hxBeat x
    ((∀ h ∈ x.sendBuf, ackCovers a h.seq = true) → ∃ t, exec (.hxAckReceive p a) s = .next t ∧ t.sent = s.sent ∧
      let calm := fun (n : Fin 2) (v : HxNet) => if ∃ h ∈ x.sendBuf, h.net = n ∧ h.resends = 0 then { v with backed := none } else v
      onlySession i { y with sendBuf := [], window := a.win, netA := calm 0 y.netA, netB := calm 1 y.netB } s t) ∧
    ∀ (h : HxHeld) (rest : List HxHeld) (q : Fin 4), x.sendBuf = h :: rest → rest.length = 64 → ackCovers a h.seq = false →
      (∀ g ∈ rest, ackCovers a g.seq = true ∧ g.net = h.net ∧ sentAfter g h = true) → h.after = 0 → h.resends = 0 → h.fastAt = none →
      h.firstNet = h.net → h.kepoch = x.epoch → (x.net h.net).path = true → y.maySend s = true → nextPort s y h.net q →
      ∃ t, exec (.hxAckReceive p a) s = .next t ∧ t.sent = .hx (hxDatagram s i h.net q (markResent h.asSent)) :: s.sent ∧
        (t.session i).sendBuf = [{ h with after := 64, resends := 1, sentAt := s.hxBeat, fastAt := some s.hxBeat }] ∧
        (t.session i).window = a.win) ∧
  (∀ (v : HxNet) (s : State), rtoNow s { v with sampled := false, backed := none } = 1000000000 ∧
    rtoNow s { v with sampled := true, backed := none } =
      min 4000000000 (max (1000 * (s.cfgReg 0x040020).toNat) (v.srtt + 4 * v.rttvar)) ∧
    ∀ n, rtoNow s { v with backed := some n } = n) ∧
  ∀ (p : HxPkt) (ets : Beat) (hold : Word32) (i : Nat) (s : State), Admits 4 (echoBytes ets hold) p i s → noQueue s →
    let x := s.session i
    let y := admitted' p s.hxBeat x
    let v := y.net p.net
    let r := 256 * ((s.hxBeat - ets).toNat - hold.toNat)
    ∃ t, exec (.hxEchoReceive p ets hold) s = .next t ∧ t.sent = s.sent ∧ onlySession i (y.setNet p.net
      (if ets = 0 then v
      else if v.sampled then
        { v with srtt := (7 * v.srtt + r) / 8, rttvar := (3 * v.rttvar + (max v.srtt r - min v.srtt r)) / 4 }
      else { v with srtt := r, rttvar := r / 2, sampled := true })) s t

/-- Timers of a session (R413, R417, R420, R421, R430, R434). An arrival not acknowledged for 50 µs is; the oldest
packet of a network that is older than RTO is sent again, under the present epoch byte for byte but for RESENT, else
encrypted again, and RTO doubled to at most 4 s; a network without DATA for 10 ms carries a PROBE, which is answered by
an ECHO; a network without arrivals for HX_NET_TIMEOUT carries no path any more, and a peer unheard on both for
HX_LOSS_TIMEOUT is lost, which pauses the exchange in NORMAL service. -/
def HxTimers : Prop :=
  (∀ (i : BitVec 6) (n : Fin 2) (s : State), live s i.toNat = true →
    let x := s.session i.toNat
    let v := x.net n
    (∀ b q, v.firstUnacked = some b → x.maySend s = true → nextPort s x n q → beatsOfUs 50 ≤ beatsSince s.hxBeat b → ∃ t a,
      exec (.hxAckTimer i n) s = .next t ∧ a.cum = x.cum ∧ a.win = x.cum + BitVec.ofNat 48 (freePackets s) ∧ a.ets = v.lastEts ∧
      t.sent = freshSent s i.toNat x n q (hxHead s i.toNat n 2 (ackBytes a).length) (ackBytes a) :: s.sent ∧
      onlySession i.toNat ((sentNew n s.hxBeat x).modNet n fun v => { v with unacked := 0, firstUnacked := none }) s t) ∧
    ((∀ b, v.firstUnacked = some b → beatsSince s.hxBeat b < beatsOfUs 50) → exec (.hxAckTimer i n) s = .next s) ∧
    (∀ (h : HxHeld) (q : Fin 4), (x.sendBuf.find? fun h => h.net == n) = some h → h.firstNet = n → v.path = true →
      x.maySend s = true → nextPort s x n q → (x.sendBuf.map (·.seq)).Nodup →
      let g := { h with resends := h.resends + 1, sentAt := s.hxBeat }
      let y := x.modNet n fun v => { v with backed := some (min 4000000000 (2 * rtoNow s v)), lastData := s.hxBeat }
      let z := { y with sendBuf := x.sendBuf.map fun k => if k.seq = h.seq then g else k }
      (rtoNow s v ≤ 256 * beatsSince s.hxBeat h.sentAt →
        (h.kepoch = x.epoch → ∃ t, exec (.hxRtoExpire i n) s = .next t ∧
          t.sent = .hx (hxDatagram s i.toNat n q (markResent h.asSent)) :: s.sent ∧ onlySession i.toNat (sentOne n z) s t) ∧
        (h.kepoch ≠ x.epoch → x.oldKeys = none → ∃ t, exec (.hxRtoExpire i n) s = .next t ∧
          t.sent = freshSent s i.toNat x n q (h.head s i.toNat n true) h.bytes :: s.sent ∧
          onlySession i.toNat (sentNew n s.hxBeat z) s t)) ∧
      (256 * beatsSince s.hxBeat h.sentAt < rtoNow s v → exec (.hxRtoExpire i n) s = .next s)) ∧
    ((∀ h ∈ x.sendBuf, h.net ≠ n) → exec (.hxRtoExpire i n) s = .next s) ∧
    (∀ q, x.maySend s = true → nextPort s x n q → beatsOfMs 10 ≤ beatsSince s.hxBeat v.lastData → ∃ t,
      exec (.hxProbeTimer i n) s = .next t ∧ t.sent = freshSent s i.toNat x n q (hxHead s i.toNat n 3 0) [] :: s.sent ∧
      onlySession i.toNat ((sentNew n s.hxBeat x).modNet n fun v => { v with lastData := s.hxBeat }) s t) ∧
    (beatsSince s.hxBeat v.lastData < beatsOfMs 10 → exec (.hxProbeTimer i n) s = .next s) ∧
    (v.path = true → beatsOfMs (s.cfgReg 0x040024).toNat ≤ beatsSince s.hxBeat v.lastRx → noQueue s → ∃ t,
      exec (.hxPathDown i n) s = .next t ∧ newest 0x0052 1 (i.zeroExtend 32) 0 (BitVec.ofNat 16 n.val) t ∧
      onlyEvents (s.setSession i.toNat (x.modNet n fun v => { v with path := false })) t) ∧
    (v.path = false ∨ beatsSince s.hxBeat v.lastRx < beatsOfMs (s.cfgReg 0x040024).toNat → exec (.hxPathDown i n) s = .next s) ∧
    let dead := fun (v : HxNet) => beatsOfMs (s.cfgReg 0x040028).toNat ≤ beatsSince s.hxBeat v.lastRx
    (x.lost = false → dead x.netA → dead x.netB → ∃ t y, exec (.hxPeerLost i) s = .next t ∧
      newest 0x0053 2 (i.zeroExtend 32) 0 0 y ∧ onlyEvents (s.setSession i.toNat { x with lost := true }) y ∧
      (svcNormal s = true → paused 2 0 0 y t) ∧ (svcNormal s = false → t = y)) ∧
    (x.lost = true ∨ ¬dead x.netA ∨ ¬dead x.netB → exec (.hxPeerLost i) s = .next s)) ∧
  ∀ (p : HxPkt) (i : Nat) (s : State), Admits 3 [] p i s →
    let y := admitted' p s.hxBeat (s.session i)
    let echo := echoBytes p.tstamp 0
    (∀ q, y.maySend s = true → nextPort s y p.net q → ∃ t, exec (.hxProbeReceive p) s = .next t ∧
      t.sent = freshSent s i y p.net q (hxHead s i p.net 4 echo.length) echo :: s.sent ∧
      onlySession i (sentNew p.net s.hxBeat y) s t) ∧
    (y.maySend s = false → ∃ t, exec (.hxProbeReceive p) s = .next t ∧ t.sent = s.sent ∧ onlySession i y s t)

/-- Session z is y but for the count of packets sent on each network. -/
def upToCount (y z : Session) : Prop :=
  z = { y with netA := { y.netA with count := z.netA.count }, netB := { y.netB with count := z.netB.count } }

/-- The command c answers session i with the KEYX message of this number and these bytes, and leaves it as y; the
message leaves where a network carries it. -/
def speaks (i : BitVec 6) (c : Instr) (msg : Nat) (epoch : Word32) (bs : List Byte) (y : Session) (s : State) : Prop :=
  ∃ t, exec c s = .next t ∧ ((pickNet (s.session i.toNat) s).isSome = true → keyxSent i msg epoch bs t) ∧
    upToCount y (t.session i.toNat) ∧ (∀ j, j ≠ i.toNat → t.session j = s.session j) ∧ t.mem = s.mem ∧ t.cfg = s.cfg

/-- A setup has failed (R423): it is dropped with its keys, ABORT is sent, HX_KEY_FAIL counts it and an event tells of it. -/
def setupFailed (i : BitVec 6) (epoch : Word32) (s t : State) : Prop :=
  (t.session i.toNat).setup = none ∧ (t.session i.toNat).nextKeys = none ∧ (t.session i.toNat).keys = (s.session i.toNat).keys ∧
  (∀ j, j ≠ i.toNat → t.session j = s.session j) ∧ counted 0x040048 1 s t ∧
  ((pickNet (s.session i.toNat) s).isSome = true → keyxSent i 5 epoch [] t) ∧
  newest 0x0054 2 (i.zeroExtend 32) 0 0 t ∧ t.mem = s.mem ∧ t.cfg = s.cfg

/-- The keys of an epoch from the shared secret, OFFER and REPLY (R424). -/
def keysOf (s : State) (epoch : Word32) (shared : BitVec 256) (offer reply : List Byte) : Keys :=
  let key := fun (l : List Byte) => BitVec.ofNat 256 (beNat (madeBytes 32 (Config.hkdf (beBytes 32 shared.toNat)
    (beBytes 32 (Config.sha256 (offer ++ reply)).toNat)
    (([0x48, 0x58, 0x31] : List Byte) ++ beBytes 2 s.hx.general.job.toNat ++ beBytes 4 epoch.toNat ++ l))))
  ⟨epoch, key [0x69, 0x3E, 0x72], key [0x72, 0x3E, 0x69], key [0x63, 0x66], s.hxBeat⟩

/-- The session under a new epoch (R428): the keys before it stay for their retire window, counters start at 0, a stall ends. -/
def rolled (x : Session) (k : Keys) (beat : Beat) : Session :=
  { x with keys := some { k with since := beat }, oldKeys := x.keys, nextKeys := none, setup := none, firstSent := none, stall := none,
           netA := { x.netA with pctr := 0 }, netB := { x.netB with pctr := 0 } }

/-- The sender's certificate in an OFFER or REPLY of epoch 0 gives its identity key; at a later epoch the key accepted
then holds (R423). -/
def senderKey (s : State) (i : Nat) (epoch : Word32) (bs pk : List Byte) : Prop :=
  (epoch ≠ 0 ∧ pk = (s.session i).peerKey) ∨
  (epoch = 0 ∧ pk = part bs 1620 32 ∧ ∃ e, peerOf s i = some e ∧ peerCertGood s e (part bs 1600 29920) = true)

/-- Key setups (R422 to R426), told of a KEYX message whose fragments have all come. A responder answers a good OFFER of
the next epoch with REPLY, and a repeated one with its last message; the initiator derives the keys from a good REPLY
and confirms; a good CONFIRM puts the keys in use at the responder, which sends DONE, and DONE at the initiator. A
message that fails a check ends the setup; ABORT drops it. A message unanswered for 250 ms is sent again, and after
eight times the setup fails. A message for no setup in progress does nothing. A fragment of an incomplete message is
kept. -/
def KeySetups : Prop :=
  (∀ (i : BitVec 6) (m : KeyxMsg) (c : Instr) (k : Nat) (s : State), live s i.toNat = true →
    (c, k) ∈ [(Instr.keyxOffer i m, 1), (.keyxReply i m, 2), (.keyxConfirm i m, 3), (.keyxDone i m, 4), (.keyxAbort i m, 5)] →
    let fs := (s.session i.toNat).frags
    (m.nfrag = 1 → m.frag = 0 → gather i.toNat k m s = (s.modSession i.toNat fun x => { x with frags := [] }, some m.bytes)) ∧
    (∀ g, m.nfrag = 2 → fs = [(k, g)] → g.epoch = m.epoch → g.nfrag = 2 → g.mlen = m.mlen → m.frag.toNat + g.frag.toNat = 1 →
      gather i.toNat k m s = (s.modSession i.toNat fun x => { x with frags := [] },
        some (if m.frag = 0 then m.bytes ++ g.bytes else g.bytes ++ m.bytes))) ∧
    ∀ n, n < m.nfrag.toNat → m.frag.toNat ≠ n → (∀ e ∈ fs, e.2.frag.toNat ≠ n) →
      exec c s = .next (s.modSession i.toNat fun x => { x with frags := (k, m) :: (fs.filter fun e =>
        e.1 == k && e.2.epoch == m.epoch && e.2.nfrag == m.nfrag && e.2.mlen == m.mlen && e.2.frag != m.frag) })) ∧
  (∀ (i : BitVec 6) (m : KeyxMsg) (bs : List Byte) (s u : State), live s i.toNat = true →
    let x := u.session i.toNat
    let signed := 17088
    let fails := fun (c : Instr) => ∃ t, exec c s = .next t ∧ setupFailed i m.epoch u t
    let answers := fun (c : Instr) (k : Nat) (b : List Byte) (y : Session) => ∃ t, exec c s = .next t ∧
      ((pickNet x u).isSome = true → keyxSent i k m.epoch b t) ∧ upToCount y (t.session i.toNat) ∧
      (∀ j, j ≠ i.toNat → t.session j = s.session j) ∧ t.mem = s.mem ∧ t.cfg = s.cfg
    let size := 1600 + if m.epoch = 0 then 29920 else 0
    (gather i.toNat 1 m s = (u, some bs) →
      (initiates s i.toNat = false → x.ended = false → m.epoch = x.nextEpoch →
        (∀ pk, x.setup = none → bs.length = size → senderKey s i.toNat m.epoch bs pk → ∃ reply rnd cipher, rnd.length = 32 ∧
          let front := rnd ++ madeBytes 1568 (Config.kemCipher (part bs 32 1568) cipher) ++ (if m.epoch = 0 then ownCert s else [])
          let k := keysOf s m.epoch (Config.kemShared (part bs 32 1568) cipher) bs reply
          reply = front ++ madeBytes signed (Config.slhSign (idSecret s) (sha256Bytes (bs ++ front))) ∧
          answers (.keyxOffer i m) 2 reply { x with
            peerKey := pk, setup := some ⟨m.epoch, false, 2, reply, 0, s.hxBeat, bs, reply, [], some k⟩ }) ∧
        (x.setup = none → bs.length ≠ size ∨ (∀ pk, ¬senderKey s i.toNat m.epoch bs pk) → fails (.keyxOffer i m)) ∧
        ∀ st, x.setup = some st → (st.epoch = m.epoch → answers (.keyxOffer i m) st.lastMsg st.mine x) ∧
          (st.epoch ≠ m.epoch → exec (.keyxOffer i m) s = .next u)) ∧
      (initiates s i.toNat = true ∨ x.ended = true ∨ m.epoch ≠ x.nextEpoch → exec (.keyxOffer i m) s = .next u)) ∧
    (x.setup = none →
      (gather i.toNat 2 m s = (u, some bs) → exec (.keyxReply i m) s = .next u) ∧
      (gather i.toNat 4 m s = (u, some bs) → exec (.keyxDone i m) s = .next u) ∧
      (gather i.toNat 5 m s = (u, some bs) → exec (.keyxAbort i m) s = .next u) ∧
      (gather i.toNat 3 m s = (u, some bs) →
        (∀ k, initiates s i.toNat = false → x.keys = some k → k.epoch = m.epoch →
          answers (.keyxConfirm i m) 4 (beBytes 32 (Config.hmac k.cf [0x44]).toNat) x) ∧
        (initiates s i.toNat = true ∨ (∀ k, x.keys = some k → k.epoch ≠ m.epoch) → exec (.keyxConfirm i m) s = .next u))) ∧
    ∀ st, x.setup = some st → st.epoch = m.epoch →
      (gather i.toNat 2 m s = (u, some bs) →
        (st.initiator = false → exec (.keyxReply i m) s = .next u) ∧
        (st.initiator = true → st.lastMsg = 3 → answers (.keyxReply i m) 3 st.mine x) ∧
        ∀ good : List Byte → Prop, (∀ pk, good pk ↔ bs.length = size + signed ∧ senderKey s i.toNat m.epoch bs pk ∧
            Config.slhVerify128f pk (sha256Bytes (st.offer ++ bs.take size)) (bs.drop size) = true) →
          st.initiator = true → st.lastMsg ≠ 3 →
          ((∀ pk, ¬good pk) → fails (.keyxReply i m)) ∧
          ∀ pk, good pk →
            let k := keysOf s m.epoch (Config.kemOpen st.secret (part bs 32 1568)) st.offer bs
            let mine := madeBytes signed (Config.slhSign (idSecret s) (sha256Bytes (st.offer ++ bs))) ++
              beBytes 32 (Config.hmac k.cf [0x43]).toNat
            answers (.keyxReply i m) 3 mine { x with
              peerKey := pk, nextKeys := some k, setup := some { st with lastMsg := 3, mine := mine, resends := 0, sentAt := s.hxBeat, reply := bs, secret := [] } }) ∧
      (gather i.toNat 3 m s = (u, some bs) → ∀ k, st.keys = some k →
        let good := bs.length = signed + 32 ∧ bs.drop signed = beBytes 32 (Config.hmac k.cf [0x43]).toNat ∧
          Config.slhVerify128f x.peerKey (sha256Bytes (st.offer ++ st.reply)) (bs.take signed) = true
        (¬good → fails (.keyxConfirm i m)) ∧
        (good → noQueue s → answers (.keyxConfirm i m) 4 (beBytes 32 (Config.hmac k.cf [0x44]).toNat)
          { rolled x k s.hxBeat with firstNew := none })) ∧
      (gather i.toNat 3 m s = (u, some bs) → st.keys = none → exec (.keyxConfirm i m) s = .next u) ∧
      (gather i.toNat 4 m s = (u, some bs) → ∀ k, st.initiator = true → st.lastMsg = 3 → x.nextKeys = some k →
        (bs ≠ beBytes 32 (Config.hmac k.cf [0x44]).toNat → fails (.keyxDone i m)) ∧
        (bs = beBytes 32 (Config.hmac k.cf [0x44]).toNat → noQueue s →
          exec (.keyxDone i m) s = .next (u.setSession i.toNat (rolled x k s.hxBeat)))) ∧
      (gather i.toNat 5 m s = (u, some bs) → ∃ t, exec (.keyxAbort i m) s = .next t ∧ t.sent = s.sent ∧ onlySession i.toNat { x with
        setup := none, nextKeys := none, firstNew := if x.oldKeys.isSome then x.firstNew else none } u t)) ∧
  ∀ (i : BitVec 6) (s : State), live s i.toNat = true →
    let x := s.session i.toNat
    (x.setup = none → exec (.keyxResend i) s = .next s) ∧
    ∀ st, x.setup = some st →
      (beatsSince s.hxBeat st.sentAt < beatsOfMs 250 → exec (.keyxResend i) s = .next s) ∧
      (beatsOfMs 250 ≤ beatsSince s.hxBeat st.sentAt → st.resends < 8 → speaks i (.keyxResend i) st.lastMsg st.epoch st.mine { x with
        setup := some { st with resends := st.resends + 1, sentAt := s.hxBeat } } s) ∧
      (beatsOfMs 250 ≤ beatsSince s.hxBeat st.sentAt → 8 ≤ st.resends →
        ∃ t, exec (.keyxResend i) s = .next t ∧ setupFailed i st.epoch s t)

/-- Key epochs (R426 to R429, R432, R433). The initiator begins the setup of the next epoch once the present one is 540
s old, a counter has reached 2³¹ or HX_REKEY has asked for one; with no new one after 600 s, or at the end of a counter,
the session stalls, and after 60 s of stall it ends and the peer is lost with cause KEY. The old epoch is retired a
while after the first packet under the new one; a new one that HX_REKEY asked for begins then. -/
def KeyEpochs : Prop :=
  ∀ (i : BitVec 6) (s : State), live s i.toNat = true →
    let x := s.session i.toNat
    let top := max x.netA.pctr x.netB.pctr
    (∀ k, x.keys = some k →
      (initiates s i.toNat = true → x.setup = none → x.oldKeys = none → x.ended = false →
        beatsOfMs 540000 ≤ beatsSince s.hxBeat k.since ∨ 2 ^ 31 ≤ top ∨ x.rekey = true → ∃ t m, exec (.keyRollStart i) s = .next t ∧
          offers (k.epoch + 1) s.hxBeat (t.session i.toNat) m ∧ (t.session i.toNat).rekey = false ∧
          (t.session i.toNat).keys = some k ∧ ((pickNet x s).isSome = true → keyxSent i 1 (k.epoch + 1) m t) ∧
          (∀ j, j ≠ i.toNat → t.session j = s.session j) ∧ t.mem = s.mem) ∧
      (initiates s i.toNat = false ∨ x.setup ≠ none ∨ x.oldKeys ≠ none ∨
        (beatsSince s.hxBeat k.since < beatsOfMs 540000 ∧ top < 2 ^ 31 ∧ x.rekey = false) →
        exec (.keyRollStart i) s = .next s) ∧
      (x.stall = none → beatsOfMs 600000 ≤ beatsSince s.hxBeat k.since ∨ 2 ^ 32 ≤ top → ∃ t, exec (.hxKeyStall i) s = .next t ∧
        newest 0x0055 1 (i.zeroExtend 32) 0 0 t ∧ onlyEvents (s.setSession i.toNat { x with stall := some s.hxBeat }) t) ∧
      (x.stall ≠ none ∨ (beatsSince s.hxBeat k.since < beatsOfMs 600000 ∧ top < 2 ^ 32) → exec (.hxKeyStall i) s = .next s)) ∧
    (x.stall = none → exec (.keyStallEnd i) s = .next s) ∧
    (∀ b, x.stall = some b → (beatsSince s.hxBeat b < beatsOfMs 60000 → exec (.keyStallEnd i) s = .next s) ∧
      (beatsOfMs 60000 ≤ beatsSince s.hxBeat b → ∃ t y, exec (.keyStallEnd i) s = .next t ∧ paused 5 0 0 y t ∧
        newest 0x0053 2 (i.zeroExtend 32) 0 5 y ∧ onlyEvents (s.setSession i.toNat { x with
          ended := true, lost := true, lostKey := true, keys := none, oldKeys := none, nextKeys := none, setup := none,
          stall := none }) y)) ∧
    (x.oldKeys = none ∨ x.firstNew = none → exec (.keyRetire i) s = .next s) ∧
    ∀ k b, x.oldKeys = some k → x.firstNew = some b →
      let window := max (4 * max x.netA.srtt x.netB.srtt) 8000000000
      let forget := fun (v : HxNet) => { v with seen := v.seen.filter fun e => e.1 != k.epoch }
      let y := { x with oldKeys := none, firstNew := none, netA := forget x.netA, netB := forget x.netB }
      (window ≤ 256 * beatsSince s.hxBeat b →
        (x.rekey = false ∨ initiates s i.toNat = false → exec (.keyRetire i) s = .next (s.setSession i.toNat y)) ∧
        (∀ n, x.rekey = true → initiates s i.toNat = true → x.keys = some n → x.setup = none → x.ended = false →
          ∃ t m, exec (.keyRetire i) s = .next t ∧ offers (n.epoch + 1) s.hxBeat (t.session i.toNat) m ∧
            (t.session i.toNat).oldKeys = none ∧ (t.session i.toNat).firstNew = none)) ∧
      (256 * beatsSince s.hxBeat b < window → exec (.keyRetire i) s = .next s)

/-- Joining at a member (R435, R436). Outside NORMAL service a member accepts a JOIN of a step whose boundary it has not
begun: the sender listens from then on; it refuses any other with its own BSTEP. A FETCH is answered with θ and the
momentum of the committed sets at ASTEP and with the landed images after it; while an apply step is open it waits. -/
def HxMembers : Prop :=
  (∀ (i : BitVec 6) (j : BitVec 48) (s : State) (r : OuterRec) (h : List Word64), OneOuter s r h → isPeer s i.toNat = true → still s → unheard i.toNat 3 s →
    let x := s.session i.toNat
    let begun := j.toNat ≤ r.bstep ∨ (s.hx.anyAccepted = true ∧ j.toNat ≤ s.hx.boundaryAccepted.toNat)
    let ok := svcNormal s = false ∧ (∃ e, selfEntry s = some e ∧ e.member = true) ∧ ¬begun
    let reply := fun (b : Byte) => objectPackets 4 j 0 0 (pmaxBytes s) x.nextSeq.toNat (b :: beBytes 6 r.bstep)
    let after := fun (y : Session) (b : Byte) => { y with queue := x.queue ++ reply b, nextSeq := x.nextSeq + 1 }
    1024 ≤ pmaxBytes s →
    (ok → ∃ t, exec (.join i j) s = .next t ∧ t.session i.toNat = after { x with listener := some j } 1 ∧
      (∀ k, k ≠ i.toNat → t.session k = s.session k) ∧ t.hx.dropped = s.hx.dropped ∧ t.hx.peers = s.hx.peers ∧ t.mem = s.mem) ∧
    (¬ok → ∃ t, exec (.join i j) s = .next t ∧ t.sent = s.sent ∧ onlySession i.toNat (after x 0) s t)) ∧
  (∀ (i : BitVec 6) (s : State), live s i.toNat = true → unheard i.toNat 5 s → s.hx.applying.isSome = true →
    exec (.fetch i) s = .next { s with hx := { s.hx with waitingFetch := s.hx.waitingFetch ++ [i] } }) ∧
  ∀ (i : BitVec 6) (s : State) (r : OuterRec) (h : List Word64), OneOuter s r h → isPeer s i.toNat = true → s.hx.applying = none →
    still s → 0 < pmaxBytes s → unheard i.toNat 5 s →
    let x := s.session i.toNat
    let a := BitVec.ofNat 48 r.astep
    let one := objectPackets 6 a 0 0 (pmaxBytes s) x.nextSeq.toNat (s.rawRead (r.theta r.acur) (4 * r.count))
    let two := fun (n : Nat) => objectPackets 7 a 0 0 (pmaxBytes s) n (s.rawRead (r.mom r.acur) (4 * r.scount))
    let fwd := s.hx.landed.reverse.filter fun e => decide (r.astep < e.1.toNat) && decide (e.1.toNat ≤ r.bstep)
    x.nextSeq.toNat + one.length < 2 ^ 48 →
    (fwd = [] → ∃ t, exec (.fetch i) s = .next t ∧ t.mem = s.mem ∧ (∀ k, k ≠ i.toNat → t.session k = s.session k) ∧
      (t.session i.toNat).queue = x.queue ++ one ++ two (x.nextSeq.toNat + one.length)) ∧
    ∀ o m, fwd = [(o, m)] → (∃ e ∈ s.hx.peers, e.index = m) → ∃ t ps, exec (.fetch i) s = .next t ∧ t.mem = s.mem ∧
      (t.session i.toNat).queue = x.queue ++ one ++ two (x.nextSeq.toNat + one.length) ++ ps ∧
      (∀ g ∈ ps, g.kind = 8 ∧ g.ostep = o.extractLsb' 0 32 ∧ g.midx = m) ∧
      ps.flatMap (·.bytes) = s.rawRead (r.landing s o.toNat m.toNat) (imageBytes r.scount)

/-- Joining at the joiner (R435). A refusal makes it ask again for the step after the largest BSTEP named; once every
member that is not lost has accepted, it asks the lowest for its state. STATE goes to the current θ set, the master and
every snapshot slot, +0 to C and the residuals, and the record takes ASTEP and BSTEP; MOMENTUM to the current momentum
set; a forwarded image lands. With everything fetched and every result due before boundary j applied, HX_JOINED names
the module and j. -/
def HxJoiner : Prop :=
  (∀ (i : BitVec 6) (b : BitVec 48) (j : Joining) (s : State), live s i.toNat = true → s.hx.joining = some j → j.source = none →
    still s → (hxPeers s).Nodup → unheard i.toNat 4 s →
    (∃ t, exec (.joinReply i false b) s = .next t ∧
      let top : BitVec 48 := if j.refusedAt.toNat < b.toNat then b else j.refusedAt
      t.hx.joining = some { j with j := top + 1, accepted := [], refusedAt := top } ∧ t.mem = s.mem ∧
      ∀ e ∈ s.hx.peers, e.member = true → e.node ≠ s.strapNode → isPeer s e.index.toNat = true →
        ∃ ps, (t.session e.index.toNat).queue = (s.session e.index.toNat).queue ++ ps ∧ ∃ g ∈ ps, g.kind = 3 ∧
          g.ostep = (top + 1).extractLsb' 0 32) ∧
    let acc := if j.accepted.contains i then j.accepted else i :: j.accepted
    ((∃ k ∈ joinTargets s, acc.contains k = false) → exec (.joinReply i true b) s = .next { s with
      hx := { s.hx with joining := some { j with accepted := acc } } }) ∧
    ∀ k, (∀ n ∈ joinTargets s, acc.contains n = true) → k ∈ acc → (∀ n ∈ acc, k.toNat ≤ n.toNat) → isPeer s k.toNat = true →
      ∃ t, exec (.joinReply i true b) s = .next t ∧ t.hx.joining = some { j with accepted := acc, source := some k } ∧
        (t.session k.toNat).queue = (s.session k.toNat).queue ++
          objectPackets 5 j.j 0 0 (pmaxBytes s) (s.session k.toNat).nextSeq.toNat []) ∧
  (∀ (i : BitVec 6) (a : BitVec 48) (bs : List Byte) (j : Joining) (s : State) (r : OuterRec) (h : List Word64),
    OneOuter s r h → isPeer s i.toNat = true → s.hx.joining = some j → j.source = some i → 0 < j.j.toNat →
    (bs.length ≠ 4 * r.count → exec (.state i 0 a bs) s = .next s) ∧
    (bs.length ≠ 4 * r.scount → exec (.momentum i 0 bs) s = .next s) ∧
    (bs.length = 4 * r.count → unheard i.toNat 6 s → ∃ t, exec (.state i 0 a bs) s = .next t ∧
      t.hx.joining = some { j with astep := a, gotState := 0 :: j.gotState } ∧
      t.rawRead (r.theta r.acur) (4 * r.count) = bs ∧ t.rawRead (hdrMaster h (hdrCur h)) (4 * r.count) = bs ∧
      (∀ k, k ≤ s.stale → t.rawRead (r.snap k) (4 * r.count) = bs) ∧
      (∀ k, k < r.count → w32 t (r.offs r.acur) k = 0) ∧ (∀ k, k < r.scount → w32 t (r.resid r.rcur) k = 0) ∧
      (t.word64 r.addr).extractLsb' 16 48 = a ∧ (t.word64 (r.addr + 8)).extractLsb' 16 48 = j.j - 1 ∧
      (∀ o, a.toNat < o → o < j.j.toNat → o ≤ a.toNat + s.stale + 1 → ∃ x ∈ t.hx.steps, x.o.toNat = o) ∧
      memOnly ([(r.addr, 16), (r.theta r.acur, 4 * r.count), (hdrMaster h (hdrCur h), 4 * r.count), (r.offs r.acur, 4 * r.count),
        (r.resid r.rcur, 4 * r.scount)] ++ (List.range (s.stale + 1)).map fun k => (r.snap k, 4 * r.count)) s t) ∧
    (bs.length = 4 * r.scount → unheard i.toNat 7 s → ∃ t, exec (.momentum i 0 bs) s = .next t ∧
      t.hx = { s.hx with joining := some { j with gotMomentum := 0 :: j.gotMomentum } } ∧
      t.rawRead (r.mom r.acur) (4 * r.scount) = bs ∧ memOnly [(r.mom r.acur, 4 * r.scount)] s t) ∧
    ∀ (m : BitVec 6) (o : BitVec 48), s.hx.landed.contains (o, m) = false → (∃ e ∈ s.hx.peers, e.index = m) →
      s.hx.forwarded = [] → bs.length = imageBytes r.scount → unheard i.toNat 8 s → ∃ t, exec (.imageFwd i m o 0 bs) s = .next t ∧
        t.rawRead (r.landing s o.toNat m.toNat) bs.length = bs ∧ t.hx.landed.head? = some (o, m) ∧ t.hx.forwarded = [] ∧
        memOnly [(r.landing s o.toNat m.toNat, bs.length)] s t) ∧
  ∀ s : State, s.isReady = true →
    (s.hx.joining = none → exec .hxJoined s = .next s) ∧
    ∀ j, s.hx.joining = some j →
      let whole := j.source.isSome = true ∧ (∀ k, k < s.hx.shards.length → k ∈ j.gotState ∧ k ∈ j.gotMomentum) ∧
        ∀ x ∈ s.hx.steps, j.j.toNat ≤ x.o.toNat + s.stale
      (whole → ∃ t, exec .hxJoined s = .next t ∧ newest 0x0057 0 ((selfIndex s).zeroExtend 32) j.j 0 t ∧
        onlyEvents { s with hx := { s.hx with joining := none, peers := s.hx.peers.map fun e =>
          { e with member := e.member || e.node == s.strapNode } } } t) ∧
      (¬whole → exec .hxJoined s = .next s)

end Sys2Proof.Claim

/-! ## Failure paths (ch. 6, 10) -/

namespace Sys2Proof.Claim

/-- A RECOV packet of this kind has reached the module (R453). -/
def recovIn (rop : Nat) (p : Packet) (s : State) : Prop :=
  s.isReady = true ∧ p.typ = 5 ∧ (recovHdr p).rop = rop ∧ isFor s p = true

/-- The module has sent a RECOV packet of this kind to a module, which awaits its WACK (R453). -/
def asked (rop : Nat) (rid : BitVec 16) (seg soff : Nat) (dst : Node) (s t : State) : Prop :=
  ∃ x, t.ckp.unanswered = s.ckp.unanswered ++ [x] ∧ x.tag = s.fab.nextTag ∧ x.store = none ∧ x.resends = 0 ∧ x.sentAt = s.ckpBeat ∧
    x.pkt.typ = 5 ∧ x.pkt.dst = dst ∧ (recovHdr x.pkt).rop = rop ∧ (recovHdr x.pkt).rid = rid ∧ (recovHdr x.pkt).seg = seg ∧
    (recovHdr x.pkt).soff = soff

/-- Nothing has changed but the fabric with what it counts and sends, events, and the state of checkpoints and refills. -/
def recovOnly (s t : State) : Prop :=
  t.mem = s.mem ∧ t.units = s.units ∧ t.hx = s.hx ∧ t.cfg = s.cfg ∧ t.col = s.col ∧ t.press = s.press ∧ t.boot = s.boot

/-- STEP_RESOLVE (R440). While a collective is open, and where the precondition of its action does not hold, it is
STEP_ORDER; an action whose outcome the record holds already completes with no effect; GRAD_CLEAR and SKIP_GRAD write
the record as R266 does, COMMIT runs the commit pass and SKIP_UPDATE the skip of R267, with the slot that the claim of
the step has left FILLING (log entry 55). -/
def StepResolve : Prop :=
  ∀ (h : Hdr) (n : BitVec 48) (c : Instr) (k : BitVec 8), (c, k) ∈ [(Instr.stepResolveGradClear h n, 1), (.stepResolveSkipGrad h n, 2),
      (.stepResolveCommit h n, 3), (.stepResolveSkipUpdate h n, 4)] →
    let goal := if k = 1 then 1 else if k = 2 then 2 else if k = 3 then 4 else 5
    let own := fun (s : State) (l : List Word64) => s.col.opens = [] ∧ reads s s.stepAddr l ∧ s.hx.waitingFetch = []
    let final := fun (l : List Word64) => recOutcome l = 2 ∨ recOutcome l = 4 ∨ recOutcome l = 5
    refusesWith c h (.stepResolve n k) (fun s => s.col.opens ≠ []) .stepOrder 0 ∧
    hasEffect c h (.stepResolve n k) (fun s => ∃ l, own s l ∧ recStep l = n ∧ recOutcome l = goal) id ∧
    refusesWith c h (.stepResolve n k) (fun s => ∃ l, own s l ∧ ¬(recStep l = n ∧ recOutcome l = goal) ∧
      ((k = 1 ∨ k = 2) ∧ ¬(recStep l = n - 1 ∧ final l) ∨ k = 3 ∧ ¬(recStep l = n ∧ (recOutcome l = 1 ∨ recOutcome l = 3)) ∨
        k = 4 ∧ ¬(recStep l = n ∧ recOutcome l = 1))) .stepOrder 0 ∧
    refusesWith c h (.stepResolve n k) (fun s => k = 3 ∧ ∃ l hd a, own s l ∧ OneShard s l hd a ∧ recStep l = n ∧ recOutcome l = 1 ∧
      prepared hd n = false) .stepOrder 0 ∧
    ∀ (s : State) (l : List Word64), Passes h (.stepResolve n k) s → own s l →
      ((k = 1 ∨ k = 2) → recStep l = n - 1 → final l → s.hx.applying = none → ∃ x,
        exec c s = .next (answered h (.stepResolve n k) [] 0 s x) ∧ outcome n goal x ∧
        (x.word64 x.stepAddr).getLsbD 51 = decide (k = 2) ∧ (k = 2 → newest 0x0042 1 0 n 1 x) ∧
        (k = 1 → onlyLines [s.stepAddr] s x) ∧ memOnly [(s.stepAddr, 64)] s x) ∧
      ∀ (hd b : List Word64) (a : Nat) (d : Coll) (slot : Option Nat), leftFilling slot s l b a d.req.bset →
        recStep l = n → OneShard s l hd a → plainStep s →
        (k = 3 → recOutcome l = 1 ∨ recOutcome l = 3 → prepared hd n = true → hdrStep hd ≠ n → s.ckp.digesting = none →
          ∃ x, exec c s = .next (answered h (.stepResolve n k) [] 0 s x) ∧ x.col = s.col ∧ commits slot d l hd b a n s x) ∧
        (k = 4 → recOutcome l = 1 → ∃ x,
          exec c s = .next (answered h (.stepResolve n k) [] 0 s x) ∧ outcome n 5 x ∧ (x.word64 x.stepAddr).getLsbD 52 = true ∧
          (x.word64 (a + 8)).getLsbD 0 = false ∧ newest 0x0042 1 0 n 2 x ∧
          (∀ j, slot = some j → fld (x.word64 (d.req.bset.toNat + 8 * (2 + j))) 1 0 = 0) ∧
          memOnly ([(s.stepAddr, 64), (a, 64)] ++ (slot.map fun _ => (d.req.bset.toNat, 64)).toList) s x)

/-- DIGEST sends the list of a step that the module holds to the peer; of the committed step without a list it has the
list formed; of any other it does nothing (R457, R458). -/
def DigestCommand : Prop :=
  ∀ (h : Hdr) (n : BitVec 48),
    (∀ ds, hasEffect (.digest h n) h (.digest n) (fun s => (s.ckp.ownDigests.find? fun e => e.1 == n) = some (n, ds)) fun s =>
      { s with sent := .digestList ((s.cfgReg 0x050008).extractLsb' 0 20) n ds :: s.sent }) ∧
    hasEffect (.digest h n) h (.digest n) (fun s => (∀ e ∈ s.ckp.ownDigests, e.1 ≠ n) ∧
      ∃ l, reads s s.stepAddr l ∧ recStep l = n ∧ recOutcome l = 4) (fun s => { s with ckp := { s.ckp with digesting := some n } }) ∧
    hasEffect (.digest h n) h (.digest n) (fun s => (∀ e ∈ s.ckp.ownDigests, e.1 ≠ n) ∧
      ∃ l, reads s s.stepAddr l ∧ ¬(recStep l = n ∧ recOutcome l = 4)) id

/-- Reload of a poisoned line (R445, R446). A line of a current set is asked of the buddy with its granule and step;
without a buddy it fails at once; while a commit pass is open it waits. The buddy answers with the granule of its valid
rind set of that step, else with a NAK that says why. The granule is written with the version of its step, and the
poison is gone. -/
def LineReload : Prop :=
  (∀ (line : Word64) (s : State) (r : List Word64) (hd : List Word64) (a g : Nat), s.isReady = true → line.toNat % 64 = 0 →
    s.linePoison line.toNat = true → (∀ x ∈ s.ckp.reloads, x.line ≠ line) → OneShard s r hd a → recOutcome r ≠ 3 →
    rindPlace line.toNat [(a, hd)] 0 = some (g, hdrStep hd) → g < 2 ^ 26 →
    let x : Reload := ⟨line, hdrStep hd, BitVec.ofNat 26 g⟩
    ((s.cfgReg 0x030004).getLsbD 31 = true → ∃ t, exec (.memReload line) s = .next t ∧ t.ckp.reloads = s.ckp.reloads ++ [x] ∧
      recovOnly s t ∧ asked 8 0 ((hdrStep hd).toNat % 2 ^ 32) g (neighbour s (fld (s.cfgReg 0x030004) 3 0)) s t) ∧
    ((s.cfgReg 0x030004).getLsbD 31 = false → ∃ t, exec (.memReload line) s = .next t ∧ newest 0x0023 2 0 0 0 t ∧ t.mem = s.mem)) ∧
  (∀ (line : Word64) (s : State), s.linePoison (line.toNat / 64 * 64) = false ∨ (∃ l, reads s s.stepAddr l ∧ recOutcome l = 3) →
    exec (.memReload line) s = .next s) ∧
  (∀ (p : Packet) (raw : State), let s := takeLocal p raw
    recovIn 8 p s →
    let d := recovHdr p
    let z := recovAnswer p s
    ((s.cfgReg 0x030004).getLsbD 30 = false → exec (.lineRead p) raw = .next (recovNakTo p 2 z)) ∧
    ∀ hd, (s.cfgReg 0x030004).getLsbD 30 = true → reads s (rindBase s) hd →
      let place := rindBase s + 64 + fld (lineW hd 0) 0 0 * ((rindSize s - 64) / 2) + 256 * d.soff
      (fld (lineW hd 0) 1 1 = 0 → exec (.lineRead p) raw = .next (recovNakTo p 2 z)) ∧
      (fld (lineW hd 0) 1 1 = 1 → fld (lineW hd 0) 47 16 ≠ d.seg → exec (.lineRead p) raw = .next (recovNakTo p 1 z)) ∧
      (fld (lineW hd 0) 1 1 = 1 → fld (lineW hd 0) 47 16 = d.seg → ∀ g, regionOf place 256 = some (.dram g) →
        (s.anyPoison (.dram g) place 256 = true → exec (.lineRead p) raw = .next (recovNakTo p 3 z)) ∧
        (s.anyPoison (.dram g) place 256 = false → exec (.lineRead p) raw =
          .next (sendRecov { d with rop := 9, fin := true, cause := 0 } p.src none (s.rawRead place 256) z).1))) ∧
  ∀ (p : Packet) (x : Reload) (g : Nat) (raw : State), let s := takeLocal p raw
    recovIn 9 p s → s.ckp.reloads = [x] →
    x.offset.toNat = (recovHdr p).soff → x.step.toNat % 2 ^ 32 = (recovHdr p).seg → p.payload.length = 256 →
    let b := x.line.toNat / 256 * 256
    regionOf b 256 = some (.dram g) → ∃ t, exec (.lineData p) raw = .next t ∧ newest 0x0022 0 0 0 0 t ∧ t.ckp.reloads = [] ∧
      t.rawRead b 256 = p.payload ∧ memOnly [(b, 256)] s t ∧
      ∀ k, k < 4 → t.linePoison (b + 64 * k) = false ∧ t.version (b + 64 * k) = x.step.extractLsb' 0 7

/-- What answers a RECOV packet gets (R326, R453): each but a NAK is answered with WACK; a WACK ends the wait, a NAK
too, and what waited fails with it; a packet without an answer for FAB_E2E_TIMEOUT beats goes out again, FAB_E2E_RETRIES
times, before it is given up. -/
def RecovAnswers : Prop :=
  (∀ (p : Packet) (s : State), fromStore s p = false → recovAnswer p s = answerWrite p none s) ∧
  (∀ (p : Packet) (x : RecovSend) (raw : State), let s := takeAnswer p raw
    s.isReady = true → p.typ = 2 → isFor s p = true → s.ckp.unanswered = [x] → x.tag = p.tag →
    x.pkt.dst = p.src → (∀ y ∈ s.ckp.senders, y.tag ≠ x.tag) →
    exec (.recovWack p) raw = .next { s with ckp := { s.ckp with unanswered := [] } }) ∧
  (∀ (p : Packet) (s : State), (∀ x ∈ s.ckp.unanswered, x.tag ≠ p.tag) → exec (.recovWack p) s = .next (takeAnswer p s)) ∧
  (∀ (p : Packet) (x : Reload) (raw : State), let s := takeLocal p raw
    recovIn 10 p s → (recovHdr p).rid = 0 → s.ckp.reloads = [x] →
    x.offset.toNat = (recovHdr p).soff → x.step.toNat % 2 ^ 32 = (recovHdr p).seg → ∃ t, exec (.recovNak p) raw = .next t ∧
      newest 0x0023 2 0 0 0 t ∧ t.ckp.reloads = [] ∧ t.mem = s.mem) ∧
  (∀ (p : Packet) (r : SegReceiver) (raw : State), let s := takeLocal p raw
    recovIn 10 p s → (recovHdr p).rid = r.rid → r.rid ≠ 0 → s.ckp.receivers = [r] →
    r.kind = 1 → r.second = none → ∃ t, exec (.recovNak p) raw = .next t ∧ newest 0x0061 2 (r.rid.zeroExtend 32) 0 0 t ∧
      t.ckp.receivers = [] ∧ t.mem = s.mem) ∧
  ∀ (x : RecovSend) (s : State), s.isReady = true → s.ckp.unanswered = [x] → x.store = none → (recovHdr x.pkt).rop = 8 →
    (beatsSince s.ckpBeat x.sentAt < (s.cfgReg 0x02008C).toNat → exec (.recovResendTimeout x.tag) s = .next s) ∧
    ((s.cfgReg 0x02008C).toNat ≤ beatsSince s.ckpBeat x.sentAt → x.resends < (s.cfgReg 0x020090).toNat →
      exec (.recovResendTimeout x.tag) s = .next (inject x.pkt { s with ckp := { s.ckp with
        unanswered := [{ x with resends := x.resends + 1, sentAt := s.ckpBeat }] } })) ∧
    (∀ y, (s.cfgReg 0x02008C).toNat ≤ beatsSince s.ckpBeat x.sentAt → (s.cfgReg 0x020090).toNat ≤ x.resends → s.ckp.reloads = [y] →
      y.offset.toNat = (recovHdr x.pkt).soff → y.step.toNat % 2 ^ 32 = (recovHdr x.pkt).seg →
      ∃ t, exec (.recovResendTimeout x.tag) s = .next t ∧ t.ckp.unanswered = [] ∧ t.ckp.reloads = [] ∧ newest 0x0023 2 0 0 0 t)

/-- A refill at the stand-in (R452, R454, R455). REFILL asks the buddy for segment 0, or with RESUME the redirect target
of the module's own job node, and sets UNVERIFIED; a second one is BUSY_REFILL. The bytes of the present segment are
taken in order; a segment whose digest agrees is recorded; one whose digest differs is asked for again three times, and
then the refill fails. -/
def Refills : Prop :=
  (∀ (h : Hdr) (b : Node) (rid : BitVec 16) (m : Bool) (l : List Word64),
    let c := Instr.refill h b rid m l
    let busy := fun (s : State) => (∃ x ∈ s.ckp.senders, x.kind = 1) ∨ ∃ x ∈ s.ckp.receivers, x.kind = 1
    refusesWith c h (.refill b rid m l) busy .busyRefill 0 ∧
    completes c h (.refill b rid m l) (fun s => ¬busy s) fun s x pay d => pay = [] ∧ d = 0 ∧ recovOnly s x ∧ x.ckp.unverified = true ∧
      x.ckp.refillSeg = 0 ∧
      let first := redirected s s.inj s.jobNode
      let second := if m = true ∧ isOwn s first = false then some first else none
      x.ckp.receivers = s.ckp.receivers ++ [⟨1, rid, b, second, 0, [], [], 0, l, false⟩] ∧ asked 2 rid 0 0 (second.getD b) s x) ∧
  (∀ (p : Packet) (r : SegReceiver) (raw : State), let s := takeLocal p raw
    recovIn 1 p s → s.ckp.receivers = [r] → r.kind = 1 → r.rid = (recovHdr p).rid →
    r.rid ≠ 0 → fromStore s p = false → p.src = r.second.getD r.buddy → r.finished = false →
    let d := recovHdr p
    let z := recovAnswer p s
    (d.seg = r.seg → d.soff = r.bytes.length → exec (.segData p) raw = .next { z with ckp := { z.ckp with
      receivers := [{ r with bytes := r.bytes ++ p.payload }] } }) ∧
    (d.seg ≠ r.seg ∨ d.soff ≠ r.bytes.length → exec (.segData p) raw = .next z)) ∧
  ∀ (p : Packet) (r : SegReceiver) (raw : State), let s := takeLocal p raw
    recovIn 3 p s → s.ckp.receivers = [r] → r.kind = 1 → r.rid = (recovHdr p).rid →
    r.rid ≠ 0 → fromStore s p = false → p.src = r.buddy → r.second = none → r.finished = false →
    let d := recovHdr p
    let z := recovAnswer p s
    let good := beNat (p.payload.take 16) = (digestOf r.bytes).toNat
    (d.seg ≠ r.seg → exec (.segDone p) raw = .next z) ∧
    (d.seg = r.seg → good → exec (.segDone p) raw = .next { z with ckp := { z.ckp with
      refillSeg := BitVec.ofNat 32 (r.seg + 1),
      receivers := [{ r with seg := r.seg + 1, image := r.image ++ r.bytes, bytes := [], asks := 0, finished := d.fin }] } }) ∧
    (d.seg = r.seg → ¬good → r.asks < 3 → ∃ t, exec (.segDone p) raw = .next t ∧ recovOnly s t ∧
      t.ckp.receivers = [{ r with asks := r.asks + 1, bytes := [] }] ∧ asked 2 r.rid r.seg 0 r.buddy z t) ∧
    (d.seg = r.seg → ¬good → 3 ≤ r.asks → ∃ t, exec (.segDone p) raw = .next t ∧ t.ckp.receivers = [] ∧ t.mem = s.mem ∧
      newest 0x0061 2 (r.rid.zeroExtend 32) 0 0 t)

/-- SEG_READ at the buddy (R452, R455). A module that keeps no rind of another, or whose rind is not valid, answers NAK
with RIND_INVALID; one that already takes part in another refill, BUSY; else it streams its committed rind image from
the segment asked for. -/
def SegmentReads : Prop :=
  (∀ (p : Packet) (raw : State), let s := takeLocal p raw
    recovIn 2 p s → fromStore s p = false → (∃ x ∈ s.ckp.senders, x.kind = 1) ∨ (∃ x ∈ s.ckp.receivers, x.kind = 1) →
    (∀ x ∈ s.ckp.senders, x.rid = (recovHdr p).rid → x.kind ≤ 3 → x.dst ≠ p.src) →
    (∀ x ∈ s.ckp.receivers, x.kind = 1 → x.rid ≠ (recovHdr p).rid) →
    exec (.segRead p) raw = .next (recovNakTo p 4 (recovAnswer p s))) ∧
  ∀ (p : Packet) (raw : State), let s := takeLocal p raw
    recovIn 2 p s → s.ckp.senders = [] → s.ckp.receivers = [] → p.payload = [] → fromStore s p = false →
    let d := recovHdr p
    let z := recovAnswer p s
    ((s.cfgReg 0x030004).getLsbD 30 = false → exec (.segRead p) raw = .next (recovNakTo p 2 z)) ∧
    ∀ hd g, (s.cfgReg 0x030004).getLsbD 30 = true → reads s (rindBase s) hd →
      let n := fld (lineW hd 2) 47 0
      let place := rindBase s + 64 + fld (lineW hd 0) 0 0 * ((rindSize s - 64) / 2)
      (fld (lineW hd 0) 1 1 = 0 → exec (.segRead p) raw = .next (recovNakTo p 2 z)) ∧
      (fld (lineW hd 0) 1 1 = 1 → regionOf place n = some (.dram g) → 0 < n → s.anyPoison (.dram g) place n = true →
        exec (.segRead p) raw = .next (recovNakTo p 3 z)) ∧
      (fld (lineW hd 0) 1 1 = 1 → regionOf place n = some (.dram g) → 0 < n → s.anyPoison (.dram g) place n = false →
        d.seg * segSize < n → ∃ t x, exec (.segRead p) raw = .next t ∧ recovOnly s t ∧ t.ckp.senders = [x] ∧ x.kind = 1 ∧
          x.rid = d.rid ∧ x.dst = p.src ∧ x.bytes = s.rawRead place n ∧ x.seg = d.seg ∧ x.step = (lineW hd 0).extractLsb' 16 48 ∧
          x.off = min 4096 (segmentOf x.bytes d.seg).length ∧ asked 1 d.rid d.seg 0 p.src z t)

/-- The end of a refill of one shard (R452, R454). The header is rebuilt with CUR 0, SEQ 0, PVALID 0 and the step of the
image, the master goes to set A with the version of that step, and with the buddy's digests equal the module sends
REFILL_DONE; with digests that differ, REFILL_FAIL. Until those digests have come nothing happens. -/
def RefillEnds : Prop :=
  ∀ (r : SegReceiver) (l hd : List Word64) (a g : Nat) (ds : List (BitVec 128)) (s : State), s.isReady = true →
    s.ckp.receivers = [r] → r.kind = 1 → r.finished = true →
    let im := headerOf r.image
    let st := (lineW im 1).extractLsb' 16 48
    let n := 4 * hdrCount im
    let m := hdrMaster im 0
    let body := (r.image.drop 256).take n
    ((∀ e ∈ s.ckp.rxDigests, e.1 ≠ st ∨ e.2.1 ≠ r.buddy) → exec .refillDone s = .next s) ∧
    (s.ckp.rxDigests = [(st, r.buddy, ds)] → OneShard s l hd a → 0 < n → body.length = n → (r.image.drop (256 + padTo 256 n)).length < 16 → hdrNmom im = 0 → s.hx.configured = false →
      regionOf m n = some (.dram g) → (∀ x ∈ [(a, 64), (s.stepAddr, 64), ((lineW l 3).toNat / 64 * 64, 64)], m + n ≤ x.1 ∨ x.1 + x.2 ≤ m) →
      m % 64 = 0 → s.linePoison ((m + n - 1) / 64 * 64) = false →
      ∃ t, exec .refillDone s = .next t ∧ t.rawRead m n = body ∧ memOnly [(a, 64), (m, n)] s t ∧ t.ckp.receivers = [] ∧
        (∀ k, k % 64 = 0 → m ≤ k → k + 64 ≤ m + n → t.version k = st.extractLsb' 0 7) ∧
        t.ckp.rxDigests = [] ∧
        (t.word64 a).extractLsb' 16 48 = st ∧ (t.word64 a).getLsbD 0 = false ∧ (t.word64 a).extractLsb' 8 8 = 0 ∧
        (t.word64 (a + 8)).getLsbD 0 = false ∧ lineOf a st t ∧
        (ds = [digestOf body] → newest 0x0060 0 (r.rid.zeroExtend 32) 0 0 t ∧ t.ckp.restoredStep = st ∧
          (t.ckp.unverified = true ↔ s.cfgReg 0x050008 ≠ 0)) ∧
        (ds ≠ [digestOf body] → newest 0x0061 2 (r.rid.zeroExtend 32) 0 0 t))

/-- Evacuation (R460). EVACUATE streams the committed training state, bobbins, rind and outer state to the stand-in.
Once that has been acknowledged and the host has taken the module out of its slice, every DRAM byte reads 0, no line is
poisoned, and EVACUATED is sent; before, nothing happens. -/
def Evacuation : Prop :=
  (∀ (h : Hdr) (n : Node), completes (.evacuate h n) h (.evacuate n) (fun s => sound s) fun s x pay d => pay = [] ∧ d = 0 ∧ recovOnly s x ∧
    ∃ y, x.ckp.senders = s.ckp.senders.filter (fun z => z.kind != 2) ++ [y] ∧ y.kind = 2 ∧ y.dst = n ∧ y.seg = 0 ∧
      y.bytes = (spansBytes (trainSpans s ++ bobbinSpans s ++ rindSpans s ++ outerSpans s) s).2 ∧
      asked (if y.bytes = [] then 3 else 1) 0 0 0 n s x) ∧
  ∀ s : State, s.isReady = true →
    (s.ckp.evacTo = none ∨ s.sliceTag ≠ 0 → exec .evacuated s = .next s) ∧
    ∀ n, s.ckp.evacTo = some n → s.sliceTag = 0 → ∃ t, exec .evacuated s = .next t ∧ newest 0x0063 0 (n.zeroExtend 32) 0 0 t ∧
      (∀ j, j < 8 * dramWindow → t.readByte j = 0) ∧ (∀ j, 8 * dramWindow ≤ j → t.readByte j = s.readByte j) ∧
      t.lineTags = [] ∧ t.ckp.evacTo = none ∧ ∀ x ∈ t.ckp.senders, x.kind ≠ 2

/-- Checkpoints (R453, R461 to R466). A storage port answers HELLO before it is used; what comes through it is answered
with WACK. CHECKPOINT without a store is STORE_DOWN, out of order CKP_ORDER; else it streams a module record and the
export records of its shards, and each master's record carries its values. SEALED makes it the last checkpoint, with its
cost, and CKP_DONE is sent; 30 s without it, CKP_FAIL. CKP_DUE comes once CKP_INTERVAL after the last one. RESTORE, with
no unit armed or running, no collective open and a store, asks the store for segment 0. -/
def Checkpoints : Prop :=
  (∀ (k : Fin 2) (id : Word64) (m : StoreHello) (s : State),
    (s.isReady = true → (s.port (8 + k.val)).state = .up → m.rev = 1 → ∃ t, exec (.helloReply k id m) s = .next t ∧
      t.fab = (storeAnswer k m.tag (takeStore k 7 m.tag s)).fab ∧ newest 0x0064 0 (BitVec.ofNat 32 (8 + k.val)) 0 0 t ∧ (if k.val = 0 then t.ckp.store0 else t.ckp.store1) = some id ∧
      (if k.val = 0 then t.ckp.store1 = s.ckp.store1 else t.ckp.store0 = s.ckp.store0)) ∧
    (s.isReady = true → (s.port (8 + k.val)).state = .up → m.rev ≠ 1 → exec (.helloReply k id m) s = .next (storeAnswer k m.tag (takeStore k 7 m.tag s))) ∧
    (s.isReady = false ∨ (s.port (8 + k.val)).state ≠ .up → exec (.helloReply k id m) s = .next s)) ∧
  (∀ (k : Fin 2) (tag : Word32) (s : State), (s.port (8 + k.val)).state = .up → ∃ e,
    storeAnswer k tag s = enqueue (8 + k.val) e (countIn s.inj s) ∧ e.pkt.typ = 2 ∧ e.pkt.tag = tag ∧ e.pkt.dst = s.strapNode ∧
      e.pkt.src = s.strapNode ∧ e.pkt.slice = s.sliceTag ∧ e.pkt.epoch = s.inj) ∧
  (∀ (h : Hdr) (n : BitVec 48) (id : BitVec 16),
    let c := Instr.checkpoint h n id
    let order := fun (s : State) (l : List Word64) => ckpBusy s = false ∧ recStep l = n ∧ finalOutcome (recOutcome l) = true
    refusesWith c h (.checkpoint n id) (fun s => storeUp s 0 = false ∧ storeUp s 1 = false) .storeDown 0 ∧
    refusesWith c h (.checkpoint n id) (fun s => (storeUp s 0 = true ∨ storeUp s 1 = true) ∧
      ∃ l, reads s s.stepAddr l ∧ ¬order s l) .ckpOrder 0 ∧
    ∀ (s : State) (l hd : List Word64) (a : Nat), Passes h (.checkpoint n id) s → storeUp s 0 = true ∨ storeUp s 1 = true →
      OneShard s l hd a → order s l → sound s → s.hx.configured = false → 0 < hdrCount hd → (∀ z ∈ s.ckp.senders, z.kind ≠ 3) →
      (∀ z ∈ s.col.bsets ++ s.hx.shards, ∃ k, reads s z.toNat k) →
      (∀ j, j ≤ hdrNmom hd → j ≤ 2 → ∃ g, regionOf (if j = 0 then hdrMaster hd (hdrCur hd) else hdrMoment hd (hdrCur hd) (j - 1))
        (4 * hdrCount hd) = some (.dram g)) →
      ∃ x y, exec c s = .next (answered h (.checkpoint n id) [] 0 s x) ∧ recovOnly s x ∧ x.ckp.run = some ⟨n, id, s.ckpBeat, none⟩ ∧
        x.ckp.senders = s.ckp.senders ++ [y] ∧ y.kind = 3 ∧ y.rid = id ∧ y.step = n ∧
        (y.bytes.drop (4096 + 256)).take (4 * hdrCount hd) = s.rawRead (hdrMaster hd (hdrCur hd)) (4 * hdrCount hd) ∧
        y.bytes.take 64 = s.rawRead s.stepAddr 64 ∧ beNat ((y.bytes.drop (4096 + 16)).take 6) = (hdrStep hd).toNat) ∧
  (∀ (m : StoreSealed) (r : CkpRun) (b : Beat) (s : State), s.isReady = true → s.ckp.run = some r → r.sealAt = some b →
    let id := m.id
    (r.id = id → ∃ t, exec (.sealed m) s = .next t ∧ newest 0x0065 0 (id.zeroExtend 32) r.step 0 t ∧ t.ckp.run = none ∧
      t.ckp.lastId = id ∧ t.ckp.lastStep = r.step ∧ t.ckp.cost = BitVec.ofNat 32 (beatsSince s.ckpBeat r.begun * 256 / 1000000) ∧
      t.ckp.lastDone = s.ckpBeat ∧ t.mem = s.mem) ∧
    (r.id ≠ id → exec (.sealed m) s = .next (storeAnswer m.port m.tag (takeStore m.port 5 m.tag s))) ∧
    (117187500 ≤ beatsSince s.ckpBeat b → ∃ t, exec .ckpSealTimeout s = .next t ∧ newest 0x0066 2 (r.id.zeroExtend 32) r.step 0 t ∧
      t.ckp.run = none ∧ t.ckp.lastId = s.ckp.lastId ∧ t.ckp.lastStep = s.ckp.lastStep ∧ t.mem = s.mem) ∧
    (beatsSince s.ckpBeat b < 117187500 → exec .ckpSealTimeout s = .next s)) ∧
  (∀ s : State, s.isReady = true →
    let due := s.ckp.hasCost = true ∧ s.ckp.dueSent = false ∧ beatsOfMs s.ckp.interval.toNat ≤ beatsSince s.ckpBeat s.ckp.lastDone
    (due → ∃ t, exec .ckpDue s = .next t ∧ newest 0x0067 0 0 0 0 t ∧ t.ckp.dueSent = true ∧ t.mem = s.mem) ∧
    (¬due → exec .ckpDue s = .next s) ∧
    ∃ t, exec .ckpInterval s = .next t ∧ t = { s with ckp := { s.ckp with fails := t.ckp.fails, interval := t.ckp.interval } } ∧
      t.ckp.interval = BitVec.ofNat 32 (ckpInterval (if s.ckp.hasCost then s.ckp.cost.toNat else 1000) (s.cfgReg 0x050028).toNat
        (s.ckp.fails.filter fun b => decide (beatsSince s.beat b ≤ weekBeats)).length)) ∧
  ∀ (h : Hdr) (id : BitVec 16),
    let c := Instr.restore h id
    let idle := fun (s : State) => ∀ e ∈ s.units, e.2.status ≠ .armed ∧ e.2.status ≠ .running
    refusesWith c h (.restore id) (fun s => ¬idle s) .busyUnit 0 ∧
    refusesWith c h (.restore id) (fun s => idle s ∧ s.col.opens ≠ []) .busyColl 0 ∧
    refusesWith c h (.restore id) (fun s => idle s ∧ s.col.opens = [] ∧ anyStore s = false) .storeDown 0 ∧
    refusesWith c h (.restore id) (fun s => idle s ∧ s.col.opens = [] ∧ anyStore s = true ∧ ckpBusy s = true) .ckpOrder 0 ∧
    completes c h (.restore id) (fun s => idle s ∧ s.col.opens = [] ∧ anyStore s = true ∧ ckpBusy s = false) fun s x pay d =>
      pay = [] ∧ d = 0 ∧ recovOnly s x ∧ x.ckp.unverified = true ∧
      x.ckp.receivers = s.ckp.receivers ++ [⟨3, id, s.strapNode, none, 0, [], [], 0, [], false⟩] ∧
      ∃ y, x.ckp.unanswered = s.ckp.unanswered ++ [y] ∧ y.store = some (storeFor s 0) ∧ (recovHdr y.pkt).rop = 2 ∧
        (recovHdr y.pkt).rid = id ∧ (recovHdr y.pkt).seg = 0

end Sys2Proof.Claim

/-! ## Press, ripening, firmware, start-up, power (ch. 10, 11, 13, 14) -/

namespace Sys2Proof.Claim

/-- The lease of this number is held no more, and a lane retrain agreed under it is agreed no more (R469, R471). -/
def leaseGone (n : Word32) (s t : State) : Prop :=
  t = { s with press := { s.press with leases := s.press.leases.filter fun l => l.num != n }, fab := { s.fab with ports := t.fab.ports } } ∧
  ∀ q, t.port q =
    if q < 10 ∧ ∃ l ∈ s.press.leases, l.num = n ∧ l.activity = 3 ∧ l.ports.getLsbD q = true then { s.port q with retrain := none } else s.port q

/-- The press (R468, R469). An activity that every lease held admits by Table 10.5 gets the next lease number; any other
is BUSY_PRESS with the number of a lease that stands against it. PRESS_RELEASE ends a lease that is held, else it is
PRESS_UNKNOWN; a lease whose time is over ends with PRESS_EXPIRED. -/
def Leases : Prop :=
  (∀ (l : Lease) (a : Nat) (m : BitVec 10), 1 ≤ a → a ≤ 8 → 1 ≤ l.activity.toNat → l.activity.toNat ≤ 8 →
    (pressOk l a m = false ↔ (l.activity.toNat = a ∧ ¬((a = 3 ∨ a = 4) ∧ l.ports &&& m = 0)) ∨
      (min a l.activity.toNat, max a l.activity.toNat) ∈
        [(1, 2), (2, 3), (2, 4), (2, 6), (3, 4), (3, 8), (4, 8), (5, 7), (6, 8)])) ∧
  (∀ (h : Hdr) (a : BitVec 8) (m : BitVec 10) (d : Word32),
    let c := Instr.pressAcquire h a m d
    (∀ (s : State) (pre post : List Lease) (l : Lease), Passes h (.pressAcquire a m d) s → s.press.leases = pre ++ l :: post →
      (∀ x ∈ pre, pressOk x a.toNat m = true) → pressOk l a.toNat m = false →
      exec c s = .next (turnedAway h (.pressAcquire a m d) .busyPress l.num.toNat s)) ∧
    completes c h (.pressAcquire a m d) (fun s => ∀ l ∈ s.press.leases, pressOk l a.toNat m = true) fun s x pay det =>
      let y := { s with press := ⟨s.press.leases ++ [⟨s.press.nextNum, a, m, s.beat, d⟩], s.press.nextNum + 1,
        s.press.ripened || a == 2, if a = 8 then [] else s.press.found⟩ }
      pay = beBytes 4 s.press.nextNum.toNat ∧ det = 0 ∧ (a ≠ 3 → x = y) ∧
      (a = 3 → x = { y with sent := x.sent, fab := { s.fab with ports := x.fab.ports } } ∧
        (∀ q, x.port q = { s.port q with sinceIdle := (x.port q).sinceIdle, asked := (x.port q).asked }) ∧
        ∀ (q : Fin 10) (k : Fin 4), m.getLsbD q.val = true → (s.port q.val).state = .up →
          (s.port q.val).lanes.getLsbD k.val = false → ∃ g, .frame q g (.ctl (.retrain k)) ∈ x.sent ∧ g.ftype = 2)) ∧
  (∀ (h : Hdr) (n : Word32),
    refusesWith (.pressRelease h n) h (.pressRelease n) (fun s => ∀ l ∈ s.press.leases, l.num ≠ n) .pressUnknown 0 ∧
    completes (.pressRelease h n) h (.pressRelease n) (fun s => ∃ l ∈ s.press.leases, l.num = n) fun s x pay d =>
      pay = [] ∧ d = 0 ∧ leaseGone n s x) ∧
  ∀ (n : Word32) (s : State), s.isReady = true →
    ((∀ l ∈ s.press.leases, l.num ≠ n) → exec (.pressExpired n) s = .next s) ∧
    ∀ l, s.press.leases = [l] → l.num = n →
      (beatsSince s.beat l.since < 3906250 * l.seconds.toNat → exec (.pressExpired n) s = .next s) ∧
      (3906250 * l.seconds.toNat ≤ beatsSince s.beat l.since → ∃ t, exec (.pressExpired n) s = .next t ∧
        newest 0x0070 0 n 0 (l.activity.zeroExtend 16) t ∧ ∃ x, leaseGone n s x ∧ onlyEvents x t)

/-- Lane retrain (R308, R471). A request of the peer is accepted only under a RETRAIN lease for the port; the lane that
both ends have agreed on is active again after it; under a lease a request for a lane that is not active is repeated 100
ms after the last. -/
def LaneRetrain : Prop :=
  ∀ (q : Fin 10) (k : Fin 4) (s : State), s.isReady = true → (s.port q.val).state = .up →
    let lease := ∃ l ∈ s.press.leases, l.activity = 3 ∧ l.ports.getLsbD q.val = true
    let x := s.port q.val
    (lease → ∃ t, exec (.laneRetrainRequest q k) s = .next t ∧
      ctlSent q (.retrainAnswer k true) (s.setPort q.val { x with retrain := some k }) t) ∧
    (¬lease → (∃ t, exec (.laneRetrainRequest q k) s = .next t ∧ ctlSent q (.retrainAnswer k false) s t) ∧
      exec (.laneRetrainDone q k) s = .next s ∧ exec (.laneRetrainRetry q k) s = .next s) ∧
    (lease → x.lanes.getLsbD k.val = false →
      (x.retrain = some k → exec (.laneRetrainDone q k) s =
        .next (s.setPort q.val { x with lanes := x.lanes ||| (1 : BitVec 4) <<< k.val, retrain := none })) ∧
      (x.retrain ≠ some k → exec (.laneRetrainDone q k) s = .next s ∧
        ((∃ b, tget none x.asked k.val = some b ∧ beatsSince (s.portBeat q.val) b < 390625) → exec (.laneRetrainRetry q k) s = .next s) ∧
        ((∀ b, tget none x.asked k.val = some b → 390625 ≤ beatsSince (s.portBeat q.val) b) →
          ∃ t, exec (.laneRetrainRetry q k) s = .next t ∧
            ctlSent q (.retrain k) (s.setPort q.val { x with asked := tput none k.val (some (s.portBeat q.val)) x.asked }) t))) ∧
    (x.lanes.getLsbD k.val = true → exec (.laneRetrainDone q k) s = .next s ∧ exec (.laneRetrainRetry q k) s = .next s)

/-- Ripening (R472 to R475). Once in each 24 h of power-on time a measured record takes its value as the newest of at
most 90 samples, formed against its first-day value; below 14 samples it predicts no end; a record whose LOW falls below
RIP_ALERT_DAYS sets ALERT and sends RIP_ALERT once. With no RIPEN lease held that day classes 3 and 6 keep their samples
and set PARTIAL. RIP_READ returns the records. -/
def Ripening : Prop :=
  (∀ (m : RipMeasure) (s : State), s.isReady = true → s.press.ripened = false → m.cls ≠ 3 → m.cls ≠ 6 → m.inst.toNat < ripCount m.cls.toNat →
    let key := fun (r : RipRecord) => r.cls == m.cls && r.inst == m.inst
    let old := (s.nv.rip.find? key).getD (ripBlank m.cls m.inst)
    let base := if old.samples = [] then m.value else old.baseline
    let time := s.nv.onBeats + beatsSince s.beat s.nv.onSince
    let hours := BitVec.ofNat 32 (time / 14062500000)
    (time / 337500000000 ≤ s.nv.ripDay → exec (.ripeningUpdate [m]) s = .next s) ∧ (s.nv.ripDay < time / 337500000000 →
    ∃ t r, exec (.ripeningUpdate [m]) s = .next t ∧ t.nv.ripDay = time / 337500000000 ∧ t.onTime = time ∧ t.nv.rip.find? key = some r ∧
      r.samples = (((time / 337500000000, ripDrift m.cls.toNat base m.value) :: old.samples).take 90) ∧ r.hours = hours ∧
      r.baseline = base ∧ t.press = { s.press with ripened := hasLease s 2 } ∧ r.partialMark = false ∧
      (r.samples.length < 14 → r.eol = 0x7F800000 ∧ r.low = 0x7F800000) ∧ (old.alert = true → r.alert = true) ∧
      (old.alert = false → (f32 r.low).lt (.ofInt (fld (s.cfgReg 0x080000) 15 0)) = true → r.alert = true ∧
        newest 0x0071 2 (BitVec.ofNat 32 (m.cls.toNat * 2 ^ 24 + m.inst.toNat * 256)) 0 0 t) ∧
      (old.alert = false → (f32 r.low).lt (.ofInt (fld (s.cfgReg 0x080000) 15 0)) = false → r.alert = false ∧ t.host = s.host) ∧
      ∀ (c : BitVec 8) (i : BitVec 16), c = 3 ∨ c = 6 → i.toNat < 40 →
        let at' := fun (r : RipRecord) => r.cls == c && r.inst == i
        ∃ x, t.nv.rip.find? at' = some x ∧ x.partialMark = true ∧
          x.samples = ((s.nv.rip.find? at').getD (ripBlank c i)).samples)) ∧
  (∀ (h : Hdr) (a n : BitVec 16), completes (.ripRead h a n) h (.ripRead a n) (fun _ => True) fun s x pay d => x = s ∧ d = 0 ∧
    pay = ((((ripRecords s).drop a.toNat).take n.toNat).flatMap ripBytes)) ∧
  -- Table 10.6: a drop of 10 % and of 2 dB, a rise of 50 %, of 40 mV, and a value that is itself the measure
  (ripDrift 1 0x42C80000 0x42B40000 = 0x41200000 ∧ ripDrift 5 0x40A00000 0x40400000 = 0x40000000 ∧
    ripDrift 8 0x40000000 0x40400000 = 0x42480000 ∧ ripDrift 3 0x44000000 0x440A0000 = 0x42200000 ∧
    ∀ b v, ripDrift 4 b v = v ∧ ripDrift 6 b v = v) ∧
  (∀ s : State, (ripRecords s).length = 419) ∧ ∀ r : RipRecord, (ripBytes r).length = 40

/-- Quotes (R541 to R543). The first ATTEST of a nonce begins a quote, counts it and answers with eight zero bytes, as
do those before it is signed; then each returns the next part of at most 8,184 bytes with the size and its place, and
after the last the first. -/
def Quotes : Prop :=
  (∀ (h : Hdr) (n : BitVec 256),
    completes (.attest h n) h (.attest n) (fun s => ∀ q ∈ s.sec.quotes, q.nonce ≠ n) (fun s x pay d =>
      pay = List.replicate 8 0 ∧ d = 0 ∧ counted 0x060060 1 s x ∧ x = { s with
        counters := x.counters, sec := { s.sec with quotes := (⟨n, quoteBody n s, false, 0⟩ :: s.sec.quotes).take 16 } }) ∧
    ∀ q, completes (.attest h n) h (.attest n) (fun s => s.sec.quotes = [q] ∧ q.nonce = n) fun s x pay d => d = 0 ∧
      (q.isReady = false → x = s ∧ pay = List.replicate 8 0) ∧
      (q.isReady = true → q.pos + 8184 < 47184 → pay = beBytes 4 47184 ++ beBytes 4 q.pos ++ quoteBytes q q.pos 8184 s ∧
        x = { s with sec := { s.sec with quotes := [{ q with pos := q.pos + 8184 }] } }) ∧
      (q.isReady = true → 47184 ≤ q.pos + 8184 → pay = beBytes 4 47184 ++ beBytes 4 q.pos ++ quoteBytes q q.pos (47184 - q.pos) s ∧
        x = { s with sec := { s.sec with quotes := [{ q with pos := 0 }] } })) ∧
  ∀ (n : BitVec 256) (q : Quote) (s : State), s.sec.quotes = [q] →
    (q.nonce = n → exec (.quoteSigned n) s = .next { s with sec := { s.sec with quotes := [{ q with isReady := true }] } }) ∧
    (q.nonce ≠ n → exec (.quoteSigned n) s = .next s)

/-- The first segment of a staging that its chain opens with. -/
structure FirstSegment (h : Hdr) (op : HostOp) (p : FwSegment) (s : State) : Prop extends InChain h op s where
  first : (revHdr h).cfirst = true
  closed : findChain s (sourceOf (revHdr h)) (revHdr h).chain = none
  space : s.host.chains.length < 64
  start : p.offset = 0 ∧ p.bytes.length ≤ p.total.toNat ∧ ((revHdr h).clast = true → p.bytes.length = p.total.toNat)

/-- Staging of firmware (R544 to R546). Without an FWSTAGE lease it is NO_PRESS, outside a chain FW_ORDER. The first
segment erases the commit record and the first sector of the image that does not run; the next ones append; verified,
programmed and read back, the image is staged, else rejected with the code of the first check that fails, or 6. An
abandoned staging is rejected with cause 7. -/
def FwStaging : Prop :=
  (∀ (h : Hdr) (p : FwSegment),
    refusesWith (.fwStage h p) h (.fwStage p) (fun s => ∀ l ∈ s.press.leases, l.activity ≠ 5) .noPress 0 ∧
    refusesWith (.fwStage h p) h (.fwStage p) (fun s => (∃ l ∈ s.press.leases, l.activity = 5)) .fwOrder 0 ∧
    (∀ (s : State) (n : Word32) (k : Fin 2), FirstSegment h (.fwStage p) p s → fwLease s = some n → runningImage s = some k →
      s.sec.staging = none → ∃ t, exec (.fwStage h p) s = .next t ∧
        let o := otherImage k
        t.sec.staging = some ⟨o, (revHdr h).chain, sourceOf (revHdr h), p.total.toNat, p.bytes.reverse, (revHdr h).clast, false, n⟩ ∧
        let n := 128 + Config.sectorRest
        t.image o = List.replicate n 0xFF ++ (s.image o).drop n ∧ t.record o = List.replicate 256 0xFF ∧ t.ver o = 0 ∧ t.image k = s.image k ∧ t.record k = s.record k ∧
        ∃ r, t.sent.head? = some (.resp r) ∧ r.status = 0) ∧
    ∀ (s : State) (n : Word32) (k : Fin 2) (c : CmdChain) (g : Staging), InChain h (.fwStage p) s → (revHdr h).cfirst = false →
      findChain s (sourceOf (revHdr h)) (revHdr h).chain = some c → (revHdr h).seq = c.lastSeq + 1 → c.busy = false → c.held = [] →
      fwLease s = some n → runningImage s = some k → s.sec.staging = some g →
      (continues (revHdr h) (sourceOf (revHdr h)) p g = true ∧
          ((revHdr h).clast = true → g.bytes.length + p.bytes.length = p.total.toNat) →
        ∃ t r, exec (.fwStage h p) s = .next t ∧ t.sent.head? = some (.resp r) ∧ r.status = 0 ∧ t.flash = s.flash ∧
          t.sec = { s.sec with staging := some { g with bytes := p.bytes.reverse ++ g.bytes, whole := (revHdr h).clast } }) ∧
      (continues (revHdr h) (sourceOf (revHdr h)) p g = false →
        ∃ t r, exec (.fwStage h p) s = .next t ∧ .resp r ∈ t.sent ∧ r.status = Status.fwOrder.code ∧
          t.sec = { s.sec with staging := some { g with
            cut := g.cut || !g.whole && decide (g.chain = (revHdr h).chain ∧ g.src = sourceOf (revHdr h)) } })) ∧
  (∀ (v : ImageVerdict) (rb : Bool) (g : Staging) (s : State), s.isReady = true → s.sec.staging = some g →
    let f := g.bytes.reverse
    let ready := g.whole = true ∧ ∃ l ∈ s.press.leases, l.num = g.lease
    (¬ready → exec (.fwStageDone v rb) s = .next s) ∧
    (ready → ∃ t, exec (.fwStageDone v rb) s = .next t ∧ t.sec.staging = none ∧
      (∀ c, imageFails s f v = some c → newest 0x0082 1 (BitVec.ofNat 32 (g.target.val + 1)) 0 (BitVec.ofNat 16 c) t ∧
        t.flash = s.flash) ∧
      (imageFails s f v = none → rb = false → newest 0x0082 1 (BitVec.ofNat 32 (g.target.val + 1)) 0 6 t ∧ t.flash = s.flash) ∧
      (imageFails s f v = none → rb = true → newest 0x0080 0 (BitVec.ofNat 32 (g.target.val + 1)) 0 0 t ∧
        t.image g.target = f ∧ t.ver g.target = BitVec.ofNat 32 (partNat f 8 4) ∧ t.record g.target = s.record g.target))) ∧
  ∀ s : State, (s.sec.staging = none → exec .fwStageAbandon s = .next s) ∧
    ∀ g, s.sec.staging = some g → s.isReady = true →
      let gone := (g.whole = false ∧ (g.cut = true ∨ ∀ c ∈ s.host.chains, ¬(c.id = g.chain ∧ c.src = g.src))) ∨ ∀ l ∈ s.press.leases, l.num ≠ g.lease
      (gone → ∃ t, exec .fwStageAbandon s = .next t ∧ t.sec.staging = none ∧ t.flash = s.flash ∧
        newest 0x0082 1 (BitVec.ofNat 32 (g.target.val + 1)) 0 7 t) ∧
      (¬gone → exec .fwStageAbandon s = .next s)

/-- The checks of an image in their order, on its bytes (R532, Table 13.4): read errors 1, format 2, vendor key 3, SVN
below the fuses 4, signature 5. A commit record counts with its number where MAGIC and CRC match, else as 0 (R531). -/
def ImageChecks : Prop :=
  (∀ (s : State) (f : List Byte) (v : ImageVerdict),
    let n := 128 + partNat f 16 4
    let key := part f 64 64
    let format := partNat f 0 4 = 0x44524657 ∧ partNat f 4 2 = 1 ∧ partNat f 6 2 = 128 ∧ partNat f 20 2 = 0x2460 ∧
      partNat f 22 1 ≤ 0xB0 ∧ n + 29792 ≤ 33554432
    let signed := Config.slhVerify256s key (f.take n) (part f n 29792) = true
    (v.readOk = false → imageFails s f v = some 1) ∧ (v.readOk = true →
    (¬format → imageFails s f v = some 2) ∧ (format →
    (Config.sha256 key ≠ s.otp.vendorHash → imageFails s f v = some 3) ∧ (Config.sha256 key = s.otp.vendorHash →
    (partNat f 12 4 < s.otp.svnFuses → imageFails s f v = some 4) ∧ (s.otp.svnFuses ≤ partNat f 12 4 →
    (¬signed → imageFails s f v = some 5) ∧ (signed → imageFails s f v = none)))))) ∧
  (∀ (n : Nat) (ver : Word32), n < 2 ^ 32 → (commitRecord n ver).length = 256 ∧ commitNumber (commitRecord n ver) = n ∧
    partNat (commitRecord n ver) 8 4 = ver.toNat) ∧
  ∀ r : List Byte, (partNat r 0 4 ≠ 0x4452434D ∨ partNat r 252 4 ≠ (crc32 (part r 0 252)).toNat) → commitNumber r = 0

/-- A certificate (R540, Table 13.5) verifies exactly when its fixed fields, the hash of its issuer key and its
signature do; the module takes, at start-up, the first readable copy that verifies and holds its own key (R539). -/
def Certificates : Prop :=
  (∀ (s : State) (c : List Byte), certGood s c = true ↔ c.length = 29920 ∧ partNat c 0 4 = 0x44524943 ∧ partNat c 4 2 = 1 ∧
    partNat c 6 2 = 128 ∧ partNat c 16 2 = 0x2460 ∧ partNat c 19 1 = 1 ∧ Config.sha256 (part c 64 64) = s.otp.vendorHash ∧
    Config.slhVerify256s (part c 64 64) (part c 0 128) (c.drop 128) = true) ∧
  ∀ (s : State) (r : CertRead),
    let good := fun (c : List Byte) => part c 20 32 = idKey s ∧ certGood s c = true
    (r.a = true → good s.flash.certA → chooseCert r s = some s.flash.certA) ∧
    (r.b = true → good s.flash.certB → (r.a = true → ¬good s.flash.certA) → chooseCert r s = some s.flash.certB) ∧
    ((r.a = true → ¬good s.flash.certA) → (r.b = true → ¬good s.flash.certB) → chooseCert r s = none)

/-- FW_COMMIT (R547) writes the commit record of a verified image, numbered above both, and with ADVANCE blows fuses up
to its SVN, at most 64. FW_RECOVER (R536) works in the recovery state alone: the whole image, verified with its last
segment, goes to A with its record, and the module begins again at phase 2; one that fails is rejected. The other image
is verified once after READY (R533). -/
def FwCommits : Prop :=
  (∀ (h : Hdr) (i : BitVec 8) (adv : Bool) (ver : Word32), i = 1 ∨ i = 2 →
    let c := Instr.fwCommit h i adv ver
    let k : Fin 2 := if i = 1 then 0 else 1
    let lease := fun (s : State) => ∃ l ∈ s.press.leases, l.activity = 5
    refusesWith c h (.fwCommit i adv ver) (fun s => ¬lease s) .noPress 0 ∧
    refusesWith c h (.fwCommit i adv ver) (fun s => lease s ∧ s.ver k = 0) .sigInvalid 0 ∧
    refusesWith c h (.fwCommit i adv ver) (fun s => lease s ∧ s.ver k ≠ 0 ∧ (s.ver k ≠ ver ∨ s.sec.staging.isSome = true)) .fwOrder 0 ∧
    completes c h (.fwCommit i adv ver) (fun s => lease s ∧ s.ver k = ver ∧ ver ≠ 0 ∧ s.sec.staging = none ∧ s.isReady = true)
      fun s x pay d => pay = [] ∧ d = 0 ∧ newest 0x0081 0 (BitVec.ofNat 32 (k.val + 1)) 0 0 x ∧
        x.record k = commitRecord (max (commitNumber s.flash.recA) (commitNumber s.flash.recB) + 1) ver ∧
        x.record (otherImage k) = s.record (otherImage k) ∧ x.flash.imageA = s.flash.imageA ∧ x.flash.imageB = s.flash.imageB ∧
        x.otp = { s.otp with svnFuses := if adv then max s.otp.svnFuses (min 64 (partNat (s.image k) 12 4)) else s.otp.svnFuses }) ∧
  (∀ (h : Hdr) (p : FwSegment) (v : ImageVerdict),
    refusesWith (.fwRecover h p v) h (.fwRecover p) (fun s => s.boot.state ≠ .recovery) .fwOrder 0 ∧
    (∀ s : State, FirstSegment h (.fwRecover p) p s → s.boot.state = .recovery → s.sec.staging = none →
      (revHdr h).clast = false → ∃ t, exec (.fwRecover h p v) s = .next t ∧
        t.sec.staging = some ⟨0, (revHdr h).chain, sourceOf (revHdr h), p.total.toNat, p.bytes.reverse, false, false, 0⟩) ∧
    ∀ (s : State) (c : CmdChain) (g : Staging), InChain h (.fwRecover p) s → (revHdr h).cfirst = false →
      findChain s (sourceOf (revHdr h)) (revHdr h).chain = some c → (revHdr h).seq = c.lastSeq + 1 → c.busy = false → c.held = [] →
      s.boot.state = .recovery → s.sec.staging = some g → g.target = 0 → continues (revHdr h) (sourceOf (revHdr h)) p g = true →
      ((revHdr h).clast = false → ∃ t, exec (.fwRecover h p v) s = .next t ∧ t.flash = s.flash ∧
        t.sec.staging = some { g with bytes := p.bytes.reverse ++ g.bytes }) ∧
      ((revHdr h).clast = true → g.bytes.length + p.bytes.length = p.total.toNat → let f := g.bytes.reverse ++ p.bytes
        (∀ k, imageFails s f v = some k → ∃ t, exec (.fwRecover h p v) s = .next t ∧ t.sec.staging = none ∧ t.flash = s.flash ∧
          t.boot = s.boot ∧ newest 0x0082 1 1 0 (BitVec.ofNat 16 k) t) ∧
        (imageFails s f v = none → ∃ t, exec (.fwRecover h p v) s = .next t ∧ t.image 0 = f ∧
          t.record 0 = commitRecord (max (commitNumber s.flash.recA) (commitNumber s.flash.recB) + 1) (BitVec.ofNat 32 (partNat f 8 4)) ∧
          t.image 1 = s.image 1 ∧ t.record 1 = s.record 1 ∧ t.boot.phase = .rails ∧
          t.boot.state = .boot ∧ t.beat = 0 ∧ t.otp = s.otp ∧ t.nv.rip = s.nv.rip ∧ t.nv.speed = s.nv.speed ∧ t.onTime = s.onTime ∧ t.pending = s.pending))) ∧
  ∀ (v : ImageVerdict) (k : Fin 2) (s : State), s.isReady = true → runningImage s = some k →
    let o := otherImage k
    (s.sec.secondDone = true → exec (.secondImageVerify v) s = .next s) ∧
    (s.sec.secondDone = false → ∃ t, exec (.secondImageVerify v) s = .next t ∧ t.sec.secondDone = true ∧ t.ver k = s.ver k ∧
      t.ver o = (if imageFails s (s.image o) v = none then BitVec.ofNat 32 (partNat (s.image o) 8 4) else 0) ∧ t = { s with sec := t.sec })

/-- Ethernet ports (R477 to R479). A port that is not up comes up in the fastest mode that it and the other end offer,
or in the forced mode alone, and tries again 1 s after it failed. A port takes frames for its MAC address and for
neighbour discovery, with at most one tag, and ARP broadcasts while it holds an IPv4 address; of the datagrams in them
those for one of its addresses and the UDP port asked for, but no fragment. It answers neighbour solicitation, ARP and
echo for its own addresses, under the VLAN tag of TOP_ETH_CFG. -/
def EthernetPorts : Prop :=
  (∀ (p : Fin 8) (m : BitVec 4) (s : State),
    let forced := if p.val < 4 then fld (s.cfgReg 0x2C) 31 28 else fld (s.cfgReg 0x2C) 27 24
    let runs := s.boot.phase = .eth ∨ s.boot.phase = .done
    let due := ∀ b, tget none s.host.ethTried p.val = some b → s.isFault = true ∨ 3906250 ≤ beatsSince s.beat b
    let can := fun (k : Fin 4) => m.getLsbD k.val = true ∧ (forced = 0 ∨ forced = k.val + 1)
    (runs → s.ethUp p.val = false → due → ∀ k, can k → (∀ j, j < k → ¬can j) → ∃ t, exec (.ethPortNegotiate p m) s = .next t ∧
      tget none t.host.eth p.val = some k ∧ (∀ j, j ≠ p.val → tget none t.host.eth j = tget none s.host.eth j) ∧
      t = { s with host := { s.host with eth := t.host.eth, ethTried := t.host.ethTried } }) ∧
    (runs → s.ethUp p.val = false → due → (∀ k, ¬can k) → ∃ t, exec (.ethPortNegotiate p m) s = .next t ∧
      tget none t.host.ethTried p.val = some s.beat ∧ t = { s with host := { s.host with ethTried := t.host.ethTried } }) ∧
    (¬runs ∨ s.ethUp p.val = true ∨ ¬due → exec (.ethPortNegotiate p m) s = .next s) ∧
    ∃ t, exec (.ethernetPortDown p) s = .next t ∧ tget none t.host.eth p.val = none ∧
      (∀ j, j ≠ p.val → tget none t.host.eth j = tget none s.host.eth j) ∧ t = { s with host := { s.host with eth := t.host.eth } }) ∧
  ∀ (f : EthIn) (a : BitVec 128) (b : Word32) (bs : List Byte) (s : State), takesDatagrams s f.port = true →
    let p := f.port
    let w := fun (k : Nat) => s.cfgReg (0x100 + 0x40 * p.val + 4 * k)
    let mac := s.otp.macBase + BitVec.ofNat 48 p.val
    let vid := (s.cfgReg 0x2C).extractLsb' 0 12
    let own6 := a = (0xFE80 : BitVec 16) ++ (0 : BitVec 48) ++ (mac.extractLsb' 24 24 ^^^ (0x020000 : BitVec 24)) ++
        (0xFFFE : BitVec 16) ++ mac.extractLsb' 0 24 ∨
      ((w 9).getLsbD 0 = true ∧ a = w 0 ++ w 1 ++ w 2 ++ w 3) ∨ ((w 9).getLsbD 1 = true ∧ a = w 4 ++ w 5 ++ w 6 ++ w 7)
    let own4 := (w 9).getLsbD 2 = true ∧ b = w 8
    let four := (0xFFFF : BitVec 96) ++ b
    let ours := f.tags ≤ 1 ∧ (f.mac = mac ∨ discoveryMac s p f.mac = true)
    let arp := f.tags ≤ 1 ∧ (f.mac = mac ∨ discoveryMac s p f.mac = true ∨ f.mac = 0xFFFFFFFFFFFF ∧ (w 9).getLsbD 2 = true)
    let whole := f.fragment = false
    (ours → whole → own6 → exec (.neighbourSolicitation f a) s = .next { s with sent := .ndAdvert p vid a :: s.sent } ∧
      exec (.echoRequest f true a bs) s = .next { s with sent := .echoReply p vid a bs :: s.sent }) ∧
    (¬ours ∨ ¬whole ∨ ¬own6 → exec (.neighbourSolicitation f a) s = .next s ∧ exec (.echoRequest f true a bs) s = .next s) ∧
    (arp → own4 → exec (.arpRequest f b) s = .next { s with sent := .arpReply p vid b :: s.sent }) ∧
    (¬arp ∨ ¬own4 → exec (.arpRequest f b) s = .next s) ∧
    (ours → whole → own4 → exec (.echoRequest f false four bs) s = .next { s with sent := .echoReply p vid four bs :: s.sent }) ∧
    (¬ours ∨ ¬whole ∨ ¬own4 → exec (.echoRequest f false four bs) s = .next s) ∧
    ∀ u v : BitVec 16,
      (takesUdp s ⟨f, a, u⟩ v = true ↔ ours ∧ whole ∧ (own6 ∨ a = (0xFFFF : BitVec 96) ++ w 8 ∧ (w 9).getLsbD 2 = true) ∧ u = v)

/-- Start-up (Tables 13.1, 13.2). Each phase ends as its row says and the next begins: the switch closes within the
input band, the rails come up after at most one more attempt, straps are sampled and the beat is 0, unit memories and
unit state are cleared, an image is chosen or the module is in the recovery state, memory trains or the module faults
with cause 4, DRAM is zeroed and the enabled ports begin to train, and it is READY. Bad straps leave CAUSE 9 at every
port. -/
def StartUp : Prop :=
  (∀ (mv : Word32) (s : State), s.boot.phase = .input → s.boot.switchClosed = false →
    (54000 ≤ mv.toNat → mv.toNat ≤ 74000 → exec (.inputSwitchClose mv) s = .next { s with
      boot := { s.boot with switchClosed := true, rails := 1, phase := if s.boot.resetN then .rails else .input }
      pwr := { s.pwr with vin := mv } }) ∧
    (mv.toNat < 54000 ∨ 74000 < mv.toNat → exec (.inputSwitchClose mv) s = .next s)) ∧
  (∀ s : State, s.isFault = false → s.boot.phase = .rails → s.boot.resetN = true →
    exec (.railSequenceDone true) s = .next { s with boot := { s.boot with rails := 0x7FFF, phase := .clock } } ∧
    (s.boot.railRetried = false → exec (.railSequenceDone false) s =
      .next { s with boot := { s.boot with rails := 1, railRetried := true } }) ∧
    (s.boot.railRetried = true → exec (.railSequenceDone false) s = .next { s with boot := { s.boot with rails := 1, phase := .dead } })) ∧
  (∀ (w : BitVec 22) (ref : Bool) (s : State), s.isFault = false → s.boot.phase = .clock →
    let z := { s with beat := 0, boot := { s.boot with
      phase := .clear, strap := w, strapErr := strapBad w, regionBeats := List.replicate 8 0, fabBeats := List.replicate 14 0 } }
    (strapBad w = false → exec (.resetRelease w) s = .next z) ∧
    (strapBad w = true → ∃ t, exec (.resetRelease w) s = .next t ∧ t = { z with fab := { s.fab with ports := t.fab.ports } } ∧
      ∀ q, q < 10 → t.port q = { s.port q with cause := 9 }) ∧
    ∃ t, exec (.rootPllLockTimeout ref) s = .next t ∧ t.boot.state = .fault ∧ t.boot.cause = if ref then 2 else 1) ∧
  (∀ s : State, s.isFault = false → s.boot.phase = .clear → ∃ t, exec .sramClearDone s = .next t ∧ t.boot = { s.boot with phase := .verify } ∧
    (∀ u, t.unit u = .reset) ∧ (∀ k, t.sh k = .reset) ∧ (∀ u i, t.instr u i = 0) ∧ (∀ j, unitBase ≤ j → t.readByte j = 0) ∧
    (∀ j, j < unitBase → t.readByte j = s.readByte j) ∧ (∀ k, t.counter k = 0) ∧ t.poison = [] ∧ t.cfg = s.cfg) ∧
  (∀ (va vb : ImageVerdict) (cert : CertRead) (s : State), s.boot.state = .boot → s.boot.phase = .verify →
    let verdict := fun (k : Fin 2) => if k.val = 0 then va else vb
    let p := preferred s
    let o := otherImage p
    let fails := fun (k : Fin 2) => imageFails s (s.image k) (verdict k)
    ∃ t, exec (.bootVerify va vb cert) s = .next t ∧ t.sec.cert = chooseCert cert s ∧ t.mem = s.mem ∧
      (fails p = none → t.sec.running.val = p.val + 1 ∧ t.ver p = BitVec.ofNat 32 (partNat (s.image p) 8 4) ∧ t.boot = { s.boot with phase := .train }) ∧
      (∀ c, fails p = some c → fails o = none → t.sec.running.val = o.val + 1 ∧ t.ver o = BitVec.ofNat 32 (partNat (s.image o) 8 4) ∧
        t.sec.fallback = some (p, c) ∧ t.boot = { s.boot with phase := .train }) ∧
      (fails p ≠ none → fails o ≠ none → t.sec.running = 0 ∧ t.boot = { s.boot with phase := .done, state := .recovery })) ∧
  (∀ s : State, s.isFault = false → s.boot.phase = .train → s.boot.state ≠ .recovery →
    exec (.memTrainingDone none) s = .next { s with memc := { s.memc with speedNow := s.nv.speed }, boot := { s.boot with phase := .zero } } ∧
    ∀ ch, ∃ t, exec (.memTrainingDone (some ch)) s = .next t ∧ t.boot.state = .fault ∧ t.boot.cause = 4 ∧ t.boot.phase = .eth) ∧
  (∀ s : State, s.isFault = false → s.boot.phase = .zero → ∃ t, exec .dramZeroDone s = .next t ∧ t.boot = { s.boot with phase := .eth } ∧
    (∀ j, j < unitBase → t.readByte j = 0) ∧ (∀ j, unitBase ≤ j → t.readByte j = s.readByte j) ∧ t.lineTags = [] ∧
    (∀ e ∈ t.upsets, ∀ w, e.loc ≠ .dram w) ∧
    ∀ q, q < 10 → s.boot.state = .boot → s.boot.trainFault = false → s.boot.strapErr = false → (s.cfgReg (0x020040 + 4 * q)).getLsbD 0 = true → (t.port q).state = .training) ∧
  ∀ (mv ma : Word32) (s : State), s.boot.phase = .eth → s.boot.state = .boot → s.boot.trainFault = false →
    let z := { measure mv ma s with boot := { s.boot with phase := .done, state := .ready } }
    ∃ t, exec (.ready mv ma) s = .next t ∧ onlyEvents z t ∧
      (s.boot.strapErr = false → s.sec.fallback = none → s.sec.cert.isSome = true → t = z) ∧
      (s.sec.cert = none → newest 0x0084 2 0 0 0 t) ∧
      (∀ k c, s.sec.cert.isSome = true → s.sec.fallback = some (k, c) →
        newest 0x0083 2 (BitVec.ofNat 32 (k.val + 1)) 0 (BitVec.ofNat 16 c) t) ∧
      (s.sec.cert.isSome = true → s.sec.fallback = none → s.boot.strapErr = true → newest 0x0002 2 (topStrap s) 0 0 t)

/-- Only the OTP, the flash and the controller's own store are left of the state (R529, R550). -/
def lostPower (s t : State) : Prop :=
  t = { State.reset with
    pending := s.pending, nv := { s.nv with onBeats := s.nv.onBeats + beatsSince s.beat s.nv.onSince, onSince := 0 }, flash := s.flash, otp := s.otp, sent := s.sent, free := s.free, boot := t.boot
    pwr := { State.reset.pwr with vin := t.pwr.vin } } ∧ t.boot.state = .boot

/-- Power cycles (R529, R550, R558): the input below 50 V or above 74 V opens the switch, RESET_N low for 10 µs after
phase 2 begins start-up again once it is high; all but OTP, flash and the controller's store is lost. -/
def PowerCycles : Prop :=
  (∀ (mv : Word32) (s : State),
    (s.boot.switchClosed = true → mv.toNat < 50000 → ∃ t, exec (.inputUndervoltage mv) s = .next t ∧ lostPower s t ∧
      t.boot.switchClosed = false ∧ t.boot.phase = .input ∧ t.boot.rails = 0 ∧ t.pwr.vin = mv) ∧
    (s.boot.switchClosed = true → 74000 < mv.toNat → ∃ t, exec (.inputOvervoltage mv) s = .next t ∧ lostPower s t ∧
      t.boot.switchClosed = false ∧ t.boot.phase = .input ∧ t.boot.rails = 0 ∧ t.pwr.vin = mv) ∧
    (s.boot.switchClosed = false ∨ 50000 ≤ mv.toNat → exec (.inputUndervoltage mv) s = .next s) ∧
    (s.boot.switchClosed = false ∨ mv.toNat ≤ 74000 → exec (.inputOvervoltage mv) s = .next s)) ∧
  (∀ (ns : Nat) (s : State),
    (ns < 10000 → exec (.resetNAssert ns) s = .next s) ∧
    (10000 ≤ ns → (afterRails s = true ∨ s.boot.phase = .dead ∧ s.boot.rails.getLsbD 0 = true) → ∃ t, exec (.resetNAssert ns) s = .next t ∧ lostPower s t ∧ t.boot.phase = .input ∧
      t.boot.switchClosed = true ∧ t.boot.resetN = false) ∧
    (10000 ≤ ns → afterRails s = false → ¬(s.boot.phase = .dead ∧ s.boot.rails.getLsbD 0 = true) → exec (.resetNAssert ns) s = .next { s with boot := { s.boot with resetN := false } })) ∧
  ∀ s : State, exec .resetNRelease s = .next { s with boot := { s.boot with
    resetN := true, phase := if s.boot.phase = .input ∧ s.boot.switchClosed = true then .rails else s.boot.phase } }

/-- Power and thermal protection (R555 to R563, R568, R570, Table 14.5). PWR_INPUT tells of a new band; the throttle
level is the larger of what the cap and the temperature ask for; each limit of Table 14.5 puts the module into the fault
state with its cause, and removes the rails that its row names and no other: those of a hot compute die, a rail with its
dependants, every one but 3V3_HK. A TAP instruction that drives pins is a fault; another one selects its data register.
COOLANT_WARM, LASER_LOW and LASER_HIGH tell of an excursion once. -/
def Protection : Prop :=
  (∀ (mv : Word32) (s : State), s.boot.switchClosed = true →
    let b := if 50000 ≤ mv.toNat ∧ mv.toNat < 56000 then 1 else if 70000 < mv.toNat ∧ mv.toNat ≤ 74000 then 2 else 0
    let z := { s with pwr := { s.pwr with vin := mv, band := b } }
    (b = 0 ∨ b = s.pwr.band → exec (.pwrInput mv) s = .next z) ∧
    (b ≠ 0 → b ≠ s.pwr.band → s.boot.state ≠ .boot → ∃ t, exec (.pwrInput mv) s = .next t ∧ onlyEvents z t ∧
      newest 0x0090 1 mv 0 (BitVec.ofNat 16 b) t)) ∧
  (∀ (mv ma : Word32) (need : Fin 64) (temp : BitVec 12) (d : Die) (s : State), afterRails s = true → s.boot.state ≠ .boot →
    let watts := BitVec.ofNat 12 (min 4095 (mv.toNat * ma.toNat / 1000000))
    let cap := if fld (s.cfgReg 0x070000) 11 0 < watts.toNat then max need.val (min 63 (s.pwr.level + 1)) else min need.val s.pwr.level
    let th := if 105 ≤ temp.toNat then min 63 (s.pwr.level + 1) else if 100 < temp.toNat then s.pwr.thermalLevel
      else if s.pwr.thermalLevel = 0 ∨ s.pwr.level - 1 ≤ cap then 0 else s.pwr.level - 1
    ∃ t, exec (.throttleUpdate mv ma need temp d) s = .next t ∧ t.pwr = { s.pwr with
        vin := mv, iin := ma, watts := watts, temp := temp, thermalLevel := th
        band := if inputBand mv.toNat = s.pwr.band then s.pwr.band else 0
        level := max cap th, capping := decide (cap ≠ 0), thermal := decide (th ≠ 0) } ∧
      onlyEvents { s with pwr := t.pwr } t ∧
      (th ≠ 0 → s.pwr.thermal = false → newest 0x0091 1 (BitVec.ofNat 32 (dieCode d)) 0 (temp.zeroExtend 16) t) ∧
      (th = 0 ∨ s.pwr.thermal = true → t.host = s.host)) ∧
  (∀ s : State, s.isReady = true → afterRails s = true →
    let falls := fun (c : Instr) (cause : BitVec 8) (off : List Rail) => ∃ t, exec c s = .next t ∧ faultLeft cause s t ∧
      (∀ r, t.boot.rails.getLsbD (railNo r) = (s.boot.rails.getLsbD (railNo r) && !off.contains r)) ∧
      (off = [] ∨ fabricUp t.boot.rails = true ∨ t.boot.phase = .dead ∧ t.host.eth = [])
    let below : List Rail := [.vddF, .vddD0, .vddD1, .vddmD0, .vddmD1, .vddioF, .vddEth, .vdd1, .vdd2h, .vdd2l, .vddq, .opt1v2, .opt3v3]
    (∀ r : Rail, falls (.railFault r false) 0x10 [] ∧
      falls (.railFault r true) 0x11 (if r = .hk then .hk :: .vbus :: below else if r = .vbus then .vbus :: below else [r])) ∧
    (∀ ma : Word32, (40000 < ma.toNat → falls (.inputOc ma) 0x12 []) ∧ (ma.toNat ≤ 40000 → exec (.inputOc ma) s = .next s)) ∧
    falls (.dieHot .d0) 0x13 [.vddD0, .vddmD0] ∧ falls (.dieHot .d1) 0x13 [.vddD1, .vddmD1] ∧
    falls (.dieHot .f) 0x14 (.vbus :: below) ∧ falls .boardHot 0x15 (.vbus :: below) ∧
    (∀ i o : BitVec 16, (450 < i.toInt → falls (.coolantFault i o) 0x16 []) ∧ (i.toInt ≤ 450 →
      exec (.coolantFault i o) s = .next { s with pwr := { s.pwr with
        inlet := i, outlet := o, warm := s.pwr.warm && decide (420 < i.toInt) } })) ∧
    falls .hkLinkLoss 0x17 [] ∧
    ∀ d ir, (drivesPins ir = true → falls (.scanInstruction d ir) 0x18 []) ∧
      (drivesPins ir = false → ∃ t, exec (.scanInstruction d ir) s = .next t ∧ t.tapIr d = ir ∧ (∀ e, e ≠ d → t.tapIr e = s.tapIr e) ∧
        (∀ e, e ≠ d ∨ ir ≠ .sample → tget [] t.pwr.boundary (dieCode e) = tget [] s.pwr.boundary (dieCode e)) ∧
        t = { s with pwr := { s.pwr with tap := t.pwr.tap, boundary := t.pwr.boundary }, free := t.free } ∧
        (ir = .idcode → tapData t d = (List.range 32).map (if d = .f then 0x224609E7 else 0x224619E7 : Word32).getLsbD) ∧
        (ir = .bypass → tapData t d = [false]) ∧ (ir = .sample → tapData t d = (Config.boundary d).map (pinLevel s)) ∧
        tapOut t = some (tapData t .d1 ++ tapData t .d0 ++ tapData t .f))) ∧
  (∀ (i o : BitVec 16) (s : State), afterRails s = true → s.boot.state ≠ .boot →
    ∃ t, exec (.coolantWarm i o) s = .next t ∧
      onlyEvents { s with pwr := { s.pwr with inlet := i, outlet := o, warm := decide (420 < i.toInt) } } t ∧
      (420 < i.toInt → s.pwr.warm = false → newest 0x0092 1 (i.zeroExtend 32) 0 0 t) ∧
      (i.toInt ≤ 420 ∨ s.pwr.warm = true → t.host = s.host)) ∧
  ∀ (f : Fin 10) (p : BitVec 16) (s : State), afterRails s = true → s.boot.state ≠ .boot →
    let was := tget 0 s.pwr.laserBand f.val
    let now := if p.toInt < 1500 then 1 else if 2150 < p.toInt then 2 else 0
    let tells := fun (c : Instr) (band : Nat) (code : BitVec 16) (sev : BitVec 8) =>
      let z := { s with pwr := { s.pwr with
        laser := tput 0 f.val p s.pwr.laser, laserBand := tput 0 f.val (if now = band ∨ now = was then now else 0) s.pwr.laserBand } }
      ∃ t, exec c s = .next t ∧ onlyEvents z t ∧
      (now = band → was ≠ band → newest code sev (BitVec.ofNat 32 f.val) 0 0 t) ∧ (now ≠ band ∨ was = band → t = z)
    tells (.laserLow f p) 1 0x0093 1 ∧ tells (.laserHigh f p) 2 0x0094 2

/-- The parity sweep (R517, R518). A configuration register whose parity is bad is counted and reported; the first one
stands in TOP_PARITY_LAST; its block's action resets it, or puts the module into the fault state with cause 6, or leaves
it. Under a PARITY lease values that differ from what was written are found, though their parity fits (R468); when they
are compared is the model's choice (log entry 107). -/
def ParitySweep : Prop :=
  (∀ s : State, s.isReady = true → s.badParity = [] → (∀ l ∈ s.press.leases, l.activity ≠ 8) →
    exec (.paritySweep []) s = .next s) ∧
  (∀ s : State, s.isReady = true → s.badParity = [] → (∃ l ∈ s.press.leases, l.activity = 8) →
    ∃ t, exec (.paritySweep []) s = .next t ∧ t = { s with press := { s.press with found := t.press.found } } ∧
      ∀ k, k ∈ t.press.found ↔ k ∈ s.press.found ∨ ∃ e ∈ s.struck, e.1 = k ∧ e.2 ≠ 0 ∧
        (k < 0x2000000 ∨ ∃ h ∈ s.fab.heddles, h.hid = BitVec.ofNat 8 (k - 0x2000000))) ∧
  ∀ (k : Nat) (s : State), s.isReady = true → s.badParity = [k] → k ∈ [0x28, 0x010008, 0x020090, 0x030020, 0x040014, 0x050008,
      0x070000, 0x080000, 0x100000] → s.col.opens = [] →
    let b := parityBlock k
    let act := fld (s.cfgReg 0x300) (2 * b + 1) (2 * b)
    ∃ t, exec (.paritySweep []) s = .next t ∧ (t.counter 0x20C).toNat = min 0xFFFFFFFF ((s.counter 0x20C).toNat + 1) ∧
      ((s.cfgReg 0x304).getLsbD 31 = false → t.cfgReg 0x304 = BitVec.ofNat 32 (2 ^ 31 + b * 2 ^ 24 + k)) ∧
      ((s.cfgReg 0x304).getLsbD 31 = true → t.cfgReg 0x304 = s.cfgReg 0x304) ∧
      (act ≠ 2 → newest 0x0003 1 (BitVec.ofNat 32 b) 0 0 t ∧ t.mem = s.mem ∧ t.units = s.units) ∧
      (act = 1 → t.cfgReg k = cfgReset k ∧ t.badParity = []) ∧
      (act ≠ 1 → t.cfgReg k = s.cfgReg k) ∧
      (act = 2 → t.boot.state = .fault ∧ t.boot.cause = 6)

/-! ## The bytes of headers, and the check code -/

/-- Headers of commands, packets and frames (R6, R302, R318, R504, Table 11.2): a request's bytes are read back as its
header, with the fields that its revision has; a response and an event hold their fields at the bytes that the tables
give; so do a packet and a frame, which ends with the CRC-32 of all before it. -/
def HeaderBytes : Prop :=
  (∀ (h : Hdr) (code : BitVec 16) (pay : List Byte), 1 ≤ h.rev.toNat → h.rev.toNat ≤ 3 →
    let b := requestBytes h code pay
    parseHdr h.net h.srcAddr h.srcUdp h.udpLen b = revHdr h ∧ partNat b 0 1 % 16 = 1 ∧ partNat b 2 2 = code.toNat ∧ b.drop 32 = pay) ∧
  (∀ r : Resp, r.payload.length < 65536 → let b := r.bytes
    partNat b 0 1 = 16 * r.rev.toNat + 2 ∧ partNat b 1 1 = r.status.toNat ∧ partNat b 2 2 = r.opcode.toNat ∧ partNat b 4 4 = r.tag.toNat ∧
    partNat b 8 4 = r.seq.toNat ∧ partNat b 12 2 = r.payload.length ∧ b.drop 32 = r.payload ∧
    (2 ≤ r.rev.toNat → partNat b 14 2 = r.hostid.toNat ∧ partNat b 16 2 = r.chain.toNat ∧ partNat b 20 4 = r.detail.toNat) ∧
    (r.rev.toNat < 2 → part b 14 10 = List.replicate 10 0) ∧
    partNat b 24 6 = if 3 ≤ r.rev.toNat then r.rbeat.toNat else 0) ∧
  (∀ (e : Event) (n : Fin 2), let b := e.bytes n
    b.length = 64 ∧ partNat b 0 1 = 16 * e.rev.toNat + 3 ∧ partNat b 2 2 = e.code.toNat ∧
    partNat b 8 4 = (if n = 0 then e.esqA else e.esqB).toNat ∧ partNat b 12 2 = 32 ∧ partNat b 32 6 = e.beat.toNat ∧
    partNat b 38 1 = e.sev.toNat ∧ partNat b 40 4 = e.p.toNat ∧ partNat b 44 6 = e.q.toNat ∧ partNat b 50 2 = e.c.toNat ∧
    partNat b 52 12 = e.x.toNat) ∧
  (∀ p : Packet, p.payload.length ≤ 4096 → let b := packetBytes p
    partNat b 0 1 = 16 * p.ver.toNat + p.typ.toNat ∧
    partNat b 1 1 = 64 * p.cls.toNat + 32 * p.epoch.toNat + 16 * p.mc.toNat + 8 * p.det.toNat ∧ partNat b 2 3 = p.dst.toNat ∧
    partNat b 5 3 = p.src.toNat ∧ partNat b 8 1 = p.heddle.toNat ∧ partNat b 9 1 = p.slice.toNat ∧ partNat b 10 2 = p.payload.length ∧
    partNat b 12 8 = p.addr.toNat ∧ partNat b 20 4 = p.tag.toNat ∧ partNat b 24 1 = p.vers.toNat ∧ partNat b 25 7 = p.ext.toNat ∧
    (p.mc = false → b.drop 32 = p.payload) ∧ (p.mc = true → partNat b 32 8 = p.mask.toNat ∧ b.drop 40 = p.payload)) ∧
  ∀ (h : FrameHdr) (x : FrameBody), let b := frameBytes h x
    let w := partNat b 0 8
    b.length = 256 ∧ partNat b 248 8 = (crc32 (part b 0 248)).toNat ∧ w / 2 ^ 52 = h.fseq.toNat ∧ w / 2 ^ 40 % 2 ^ 12 = h.aseq.toNat ∧
    w / 2 ^ 38 % 4 = h.ak.toNat ∧ w / 2 ^ 36 % 4 = h.ftype.toNat ∧ w / 2 ^ 31 % 32 = h.fpo.toNat ∧ w / 2 ^ 27 % 16 = h.cvc.toNat ∧
    w / 2 ^ 16 % 2 ^ 11 = h.ccnt.toNat ∧ w / 2 ^ 15 % 2 = h.csh.toNat ∧ w / 2 ^ 11 % 16 = h.fvc.toNat ∧ w / 2 ^ 10 % 2 = h.fsh.toNat ∧
    w % 2 ^ 10 = 0

/-- Payloads most significant byte first (R6, R481): the entries of a REG_WRITE and of a REG_READ, and the values that a REG_READ
answers. -/
def PayloadBytes : Prop :=
  (∀ (es : List (BitVec 24 × Word32)) (rest : List Byte), es ≠ [] →
    readPayload 0x03 (8 * es.length) ((es.flatMap fun e => 0 :: beBytes 3 e.1.toNat ++ beBytes 4 e.2.toNat) ++ rest) = .op (.regWrite es)) ∧
  (∀ (os : List (BitVec 24)) (rest : List Byte), os ≠ [] →
    readPayload 0x02 (4 * os.length) ((os.flatMap fun o => 0 :: beBytes 3 o.toNat) ++ rest) = .op (.regRead os)) ∧
  ∀ (h : Hdr) (off : BitVec 24), completes (.regRead h [off]) h (.regRead [off]) (fun _ => off.toNat % 4 = 0) fun s _ pay _ =>
    pay.map BitVec.toNat = [(regValue s off.toNat).toNat / 2 ^ 24, (regValue s off.toNat).toNat / 2 ^ 16 % 256,
      (regValue s off.toNat).toNat / 2 ^ 8 % 256, (regValue s off.toNat).toNat % 256]

/-- The product of two polynomials over GF(2), of which the first has degree below k. -/
def polyMul (q g k : Nat) : Nat := (List.range k).foldl (fun a i => if q.testBit i then a ^^^ (g <<< i) else a) 0

/-- The check code (R217): c[13:0] is the remainder of the message times x^14 by g(x), c[14] makes the parity of message
and check bits even. A word of unit memory and a DRAM line are held with it where Tables 5.8, R207 and R212 put it. -/
def CheckCode : Prop :=
  (∀ k m : Nat, m < 2 ^ k →
    (∃ q, q < 2 ^ k ∧ m <<< 14 = polyMul q 0x4377 k ^^^ ((checkBits k m).toNat % 2 ^ 14)) ∧
    (popcount m k + popcount (checkBits k m).toNat 15) % 2 = 0) ∧
  (∀ (s : State) (w : Nat), s.flipsAt (.sram w) = 0 →
    (s.heldWord w).extractLsb' 0 64 = s.word64 (8 * w) ∧ (s.heldWord w).getLsbD 79 = s.wordPoison w ∧
    (s.heldWord w).extractLsb' 64 15 = checkBits 65 ((s.word64 (8 * w)).toNat + 2 ^ 64 * (s.wordPoison w).toNat)) ∧
  ∀ (s : State) (a : Nat), a % 64 = 0 → a < 8 * dramWindow → a % dramWindow / 6144 < 26843545 →
    (∀ i, i < 8 → s.flipsAt (.dram (a / 8 + i)) = 0) →
    let j := a % dramWindow / 6144
    let l := a % 256 / 64
    let ch := 24 * (a / dramWindow) + a % dramWindow / 256 % 24
    (s.checkRegion a).extractLsb' 120 8 = s.tag a ∧
    (∀ i, i < 8 → (s.checkRegion a).extractLsb' (15 * i) 15 =
      if i = 0 then checkBits 72 ((s.word64 a).toNat + 2 ^ 64 * (s.tag a).toNat) else checkBits 64 (s.word64 (a + 8 * i)).toNat) ∧
    (∀ b, b < 64 → s.channelByte ch (320 * j + 64 * l + b) = some (s.readByte (a + b))) ∧
    (∀ b, b < 16 → s.channelByte ch (320 * j + 256 + 16 * l + b) = some ((s.checkRegion a).extractLsb' (8 * b) 8)) ∧
    ∀ b, 320 * 26843545 ≤ b → s.channelByte ch b = none

end Sys2Proof.Claim

/-! ## The statements that join several of the claims above -/

/-- No command is refused, the only stop is at the engine queues (model's choice, log entry 8), and a command leaves
the queue as it is: NoCommandRefused, QueueUntouched. The stop at the engine queues is the model's choice (log entry
8). -/
def Obligations.NoCommandRefused : Prop :=
  Sys2Proof.Claim.NoCommandRefused ∧ Sys2Proof.Claim.QueueUntouched

/-- NOP, jumps, CALL, RET, DBNZ, WHSET, END, GETS and FLAGS: ScalarControl, ScalarSpecial, FlagsReadsAndClears. DBNZ
on GP0 does not jump, and a CALL at 4,095 pushes index 0 (log entry 4); END waits for the row PROGRAM_END (log entry
3). -/
def Obligations.ScalarControl : Prop :=
  Sys2Proof.Claim.ScalarControl ∧ Sys2Proof.Claim.ScalarSpecial ∧ Sys2Proof.Claim.FlagsReadsAndClears

/-- SLD, WHLD, VLD, SST and VST: what is read, what is written, and that every other byte keeps its value:
UnitLoads, UnitStores. The alignment of WHLD and of the lane words, and that a load or store raises no flag, are the
model's reading (log entries 5, 48). -/
def Obligations.UnitLoadsAndStores : Prop :=
  Sys2Proof.Claim.UnitLoads ∧ Sys2Proof.Claim.UnitStores

/-- The lane arithmetic and the bitwise and shift instructions of the vector engine: VectorArithmetic, VectorBits.
Which of them raise flags is the model's reading (log entry 48). -/
def Obligations.VectorArithmetic : Prop :=
  Sys2Proof.Claim.VectorArithmetic ∧ Sys2Proof.Claim.VectorBits

/-- The special functions and the row instructions: SpecialFunctions, RowInstructions. Within the bound of R156 the
result is the candidate that an opaque function chooses (log entry 14). -/
def Obligations.SpecialFunctionsAndRows : Prop :=
  Sys2Proof.Claim.SpecialFunctions ∧ Sys2Proof.Claim.RowInstructions

/-- Issue, run and completion of a matrix instruction: MatrixIssue, MatrixRun. When the first chunk and the later
reads are made, how many steps a beat holds at a throttle level, and the order of the checks are the model's choices
(log entries 9, 10, 101), and so are a block-scaled tile that is warp-read, the mask of a part's tile and the tile
that is marked (log entry 100). -/
def Obligations.MatrixInstructions : Prop :=
  Sys2Proof.Claim.MatrixIssue ∧ Sys2Proof.Claim.MatrixRun

/-- SHISSUE, BWAIT and FENCE: ShuttleIssue, BeatWait, Fences. Where the counter stands while an instruction waits is
the model's reading (log entry 2). -/
def Obligations.ShuttleIssueWaitsAndFences : Prop :=
  Sys2Proof.Claim.ShuttleIssue ∧ Sys2Proof.Claim.BeatWait ∧ Sys2Proof.Claim.Fences

/-- BARRIER, SEMWAIT, SEMSET and SEMSIG with their waits and time-outs: Barriers, Semaphores. A signal takes effect
by a row of its own (log entry 89). -/
def Obligations.BarriersAndSemaphores : Prop :=
  Sys2Proof.Claim.Barriers ∧ Sys2Proof.Claim.Semaphores

/-- Faults of a unit, program ends and the instructions that a replay skips: UnitFaults, FetchFault, ProgramEnd,
ReplaySkips. The moment of PROGRAM_END and its Q are the model's reading (log entry 3). -/
def Obligations.UnitFaultsAndEnds : Prop :=
  Sys2Proof.Claim.UnitFaults ∧ Sys2Proof.Claim.FetchFault ∧ Sys2Proof.Claim.ProgramEnd ∧ Sys2Proof.Claim.ReplaySkips

/-- LAUNCH and the acknowledgement of what arms: Launch, ArmingDone. When the answer leaves, a LAUNCH without a
beat, and which unit's status and code a refused LAUNCH names (the first in mask order), are the model's reading
(log entries 28, 29, 57). -/
def Obligations.LaunchAndArming : Prop :=
  Sys2Proof.Claim.Launch ∧ Sys2Proof.Claim.ArmingDone

/-- What happens at an armed beat, and late launches: LaunchAtBeat, LaunchLate. The beat that LAUNCH_LATE names and
the party it names for an engine are the model's choices (log entries 29, 31). -/
def Obligations.LaunchBeats : Prop :=
  Sys2Proof.Claim.LaunchAtBeat ∧ Sys2Proof.Claim.LaunchLate

/-- LOAD_PROGRAM, HALT, UNIT_RETIRE and SNAPSHOT, and the retirement of a unit into its spare: UnitCommands,
Retirement. The order of a retirement's steps and the parameters of its events are the model's reading (log entries
31, 32); a second SNAPSHOT of one beat is refused, and in the fault state one with a beat is armed for good (log
entry 30). -/
def Obligations.UnitCommandsAndRetirement : Prop :=
  Sys2Proof.Claim.UnitCommands ∧ Sys2Proof.Claim.Retirement

/-- The first seven checks of a request, what a repeated command gets, and the bytes of headers: CommandArrival,
HeaderBytes, PayloadBytes. What the response cache keeps is the model's reading (log entry 60). -/
def Obligations.CommandArrival : Prop :=
  Sys2Proof.Claim.CommandArrival ∧ Sys2Proof.Claim.HeaderBytes ∧ Sys2Proof.Claim.PayloadBytes

/-- PING, REG_READ, EVT_READ, JNL_READ, CMAP_READ and the latched reads: ReadCommands, LatchedReads. The summary of
PING is an opaque function (log entry 19); single latched reads are entries of a REG_READ in progress (log entry
26). -/
def Obligations.ReadCommands : Prop :=
  Sys2Proof.Claim.ReadCommands ∧ Sys2Proof.Claim.LatchedReads

/-- The registers of the module, of units and shuttles, of training and of the fabric: ModuleRegisters,
UnitRegisters, TrainingRegisters, FabricRegisters. What counts as armed for TOP_SEED, what FAB_TORUS_SIZE and EN do
to ports that are up, and that a write of UNIT_OWN takes effect within its command, are the model's reading (log
entries 46, 59, 102). -/
def Obligations.RegisterGroups : Prop :=
  Sys2Proof.Claim.ModuleRegisters ∧ Sys2Proof.Claim.UnitRegisters ∧ Sys2Proof.Claim.TrainingRegisters ∧ Sys2Proof.Claim.FabricRegisters

/-- SET_ROUTE, SET_HEDDLE, heddle windows and the congestion map: RouteTables, Heddles, CongestionMap. -/
def Obligations.RoutesHeddlesAndCongestion : Prop :=
  Sys2Proof.Claim.RouteTables ∧ Sys2Proof.Claim.Heddles ∧ Sys2Proof.Claim.CongestionMap

/-- Ports that go down, come up and retrain a lane: PortsGoDown, PortTraining, LaneRetrain. The first request of a
RETRAIN lease, the store that counts as not known until it answers, and the lane mask in LINK_UP are the model's
reading (log entries 67, 70, 99). -/
def Obligations.PortsAndTraining : Prop :=
  Sys2Proof.Claim.PortsGoDown ∧ Sys2Proof.Claim.PortTraining ∧ Sys2Proof.Claim.LaneRetrain

/-- A packet at the router, and a WRITE for this module: PacketRouting, RemoteWrites. The redirects' place, an
injection that cannot be sent, and what port 10 delivers with a row are the model's reading (log entries 43, 45,
47). -/
def Obligations.PacketsAndRemoteWrites : Prop :=
  Sys2Proof.Claim.PacketRouting ∧ Sys2Proof.Claim.RemoteWrites

/-- The start and the end of a shuttle chain, and changes of bank owners: ShuttleChains, OwnerChanges. An owner
change takes effect by a row of its own (log entry 89). -/
def Obligations.ShuttleChainsAndOwners : Prop :=
  Sys2Proof.Claim.ShuttleChains ∧ Sys2Proof.Claim.OwnerChanges

/-- COPY, FILL and OWN within the module: CopyDescriptor, FillAndOwn. That a descriptor is done in one step, and its
accesses by words, are the model's choice (log entry 49). -/
def Obligations.CopiesAndFills : Prop :=
  Sys2Proof.Claim.CopyDescriptor ∧ Sys2Proof.Claim.FillAndOwn

/-- Patrols of DRAM and unit memories, the parity sweep of the registers, and the check code of memory words:
Patrols, ParitySweep, CheckCode. How upsets and flipped bits are named, and what a comparison of the PARITY lease
does, are the model's choices (log entries 17, 25, 41, 107). -/
def Obligations.PatrolsAndParity : Prop :=
  Sys2Proof.Claim.Patrols ∧ Sys2Proof.Claim.ParitySweep ∧ Sys2Proof.Claim.CheckCode

/-- The flag phase and the decisions on a step's gradient and update: FlagPhases, GradDecision, UpdateDecision. An
apply step that skips is the model's reading (log entry 80). -/
def Obligations.ReplayDecisions : Prop :=
  Sys2Proof.Claim.FlagPhases ∧ Sys2Proof.Claim.GradDecision ∧ Sys2Proof.Claim.UpdateDecision

/-- The claim of a bobbin slot: BobbinClaims. -/
def Obligations.BobbinClaims : Prop :=
  Sys2Proof.Claim.BobbinClaims

/-- Digests of committed shards, the DIGEST command and STEP_RESOLVE: Digests, DigestCommand, StepResolve. Where a
pass reads the bobbin-set records is the model's reading (log entry 55). -/
def Obligations.DigestsAndSteps : Prop :=
  Sys2Proof.Claim.Digests ∧ Sys2Proof.Claim.DigestCommand ∧ Sys2Proof.Claim.StepResolve

/-- The COLLECTIVE command and the order of closing collectives: CollectiveCommand, ClosingOrder. The order of the
refusals is the model's; buffers at the engine queues stop it (log entry 8). -/
def Obligations.CollectiveOpening : Prop :=
  Sys2Proof.Claim.CollectiveCommand ∧ Sys2Proof.Claim.ClosingOrder

/-- The start of a collective and its data packets: CollectiveStarts, CollectiveData. Data of an OPID that is not
open are dropped (log entry 54). -/
def Obligations.CollectiveRunning : Prop :=
  Sys2Proof.Claim.CollectiveStarts ∧ Sys2Proof.Claim.CollectiveData

/-- The flags of a closing collective, how a collective ends, and the rind at the buddy: Flags, CollectiveEnds,
RindReceive. What a failed closing collective leaves, and that a row takes its packet from port 10, are the model's
reading (log entries 43, 93, 94). -/
def Obligations.CollectiveEnding : Prop :=
  Sys2Proof.Claim.Flags ∧ Sys2Proof.Claim.CollectiveEnds ∧ Sys2Proof.Claim.RindReceive

/-- HX_CONFIG: its sections and its commit: HxConfig. How sections join and when a size is checked are the model's
reading (log entry 77). -/
def Obligations.HxConfig : Prop :=
  Sys2Proof.Claim.HxConfig

/-- HX_OUTER and the end of a boundary: HxOuter, HxBoundary. HX_OUTER without a configuration is HX_ORDER by the
model's choice (log entry 109); padding bytes of an image are free values (log entry 83); a pass that is interrupted
is the model's reading (log entry 81). -/
def Obligations.HxOuterSteps : Prop :=
  Sys2Proof.Claim.HxOuter ∧ Sys2Proof.Claim.HxBoundary

/-- The merge of an outer step, and its IMAGE and DIGEST objects: HxMerge, HxObjects. That an IMAGE lands only when
the bytes of all shards have come, what a poisoned record does to a pass, and that a row acts on a complete object
are the model's choices (log entries 74, 81, 105). -/
def Obligations.HxObjectsAndMerge : Prop :=
  Sys2Proof.Claim.HxMerge ∧ Sys2Proof.Claim.HxObjects

/-- HX_APPLY and its end: HxApply. -/
def Obligations.HxApply : Prop :=
  Sys2Proof.Claim.HxApply

/-- HX_RESUME, HX_FETCH and HX_REKEY, and members dropped from an outer step: HxOrders, HxDrops. Which sessions
HX_REKEY takes, and which halted passes HX_RESUME frees, are the model's reading (log entries 78, 81). -/
def Obligations.HxOrdersAndDrops : Prop :=
  Sys2Proof.Claim.HxOrders ∧ Sys2Proof.Claim.HxDrops

/-- Which packets of the exchange are admitted, and DATA: HxArrivals, HxData. The receive side's window, an image of
an applied step, and that a row acts on a complete object are the model's reading (log entries 74, 105). -/
def Obligations.HxTransfers : Prop :=
  Sys2Proof.Claim.HxArrivals ∧ Sys2Proof.Claim.HxData

/-- ACK, ECHO and the timers of a session: HxAcks, HxTimers. Estimators in whole nanoseconds, resending, a lost peer
and the payload of ECHO are the model's choices (log entries 73, 75, 76, 95). -/
def Obligations.HxWindowsAndTimers : Prop :=
  Sys2Proof.Claim.HxAcks ∧ Sys2Proof.Claim.HxTimers

/-- Key setups and key epochs: KeySetups, KeyEpochs. Cryptography is opaque (log entry 20); that the end of a key
stall pauses with KEY in every mode, and what HX_REKEY marks, are the model's reading (log entries 76, 78). -/
def Obligations.HxKeys : Prop :=
  Sys2Proof.Claim.KeySetups ∧ Sys2Proof.Claim.KeyEpochs

/-- Joining an exchange, at a member and at the joiner: HxMembers, HxJoiner. The joiner's first step, its members,
the moment of HX_JOINED, the payloads of JOIN and JOIN_REPLY, and that a row acts on a complete object are the
model's choices (log entries 79, 105, 110). -/
def Obligations.HxMembership : Prop :=
  Sys2Proof.Claim.HxMembers ∧ Sys2Proof.Claim.HxJoiner

/-- The reload of a poisoned line, and the answers of RECOV packets: LineReload, RecovAnswers. A reload without a
buddy fails at once (log entry 68). -/
def Obligations.ReloadsAndAnswers : Prop :=
  Sys2Proof.Claim.LineReload ∧ Sys2Proof.Claim.RecovAnswers

/-- Refills at the stand-in and at the buddy: Refills, SegmentReads, RefillEnds. When bytes are placed, where
SEG_READ names its sets, and that UNVERIFIED waits for CKP_DIGEST_PEER are the model's choices (log entries 63, 64,
69). -/
def Obligations.RefillStreams : Prop :=
  Sys2Proof.Claim.Refills ∧ Sys2Proof.Claim.SegmentReads ∧ Sys2Proof.Claim.RefillEnds

/-- Evacuation, checkpoints and RESTORE: Evacuation, Checkpoints. The byte formats, how many packets of a stream are
on their way, the seal that verifies a restore, and CKP_ORDER of a RESTORE while a checkpoint runs are the model's
choices (log entries 65 to 69, 108). -/
def Obligations.EvacuationAndCheckpoints : Prop :=
  Sys2Proof.Claim.Evacuation ∧ Sys2Proof.Claim.Checkpoints

/-- Leases of the press, and ripening records: Leases, Ripening. How a fit is rounded, that lease numbers count from
0, and what a ripening record measures and in which units are the model's choices (log entries 22, 70, 96). -/
def Obligations.LeasesAndRipening : Prop :=
  Sys2Proof.Claim.Leases ∧ Sys2Proof.Claim.Ripening

/-- Quotes, certificates, and firmware staged, verified, committed and recovered: Quotes, FwStaging, ImageChecks,
Certificates, FwCommits. When a quote is formed, FW_RECOVER outside recovery, and what a firmware image is made of,
are the model's reading (log entries 40, 42, 84). -/
def Obligations.QuotesAndFirmware : Prop :=
  Sys2Proof.Claim.Quotes ∧ Sys2Proof.Claim.FwStaging ∧ Sys2Proof.Claim.ImageChecks ∧ Sys2Proof.Claim.Certificates ∧
    Sys2Proof.Claim.FwCommits

/-- Ethernet ports, the phases of start-up and power cycles: EthernetPorts, StartUp, PowerCycles. Events of early
phases, what a power cycle keeps, start-up after a failure, and the negotiation and retry of Ethernet ports are the
model's reading (log entries 36 to 39, 97); the MAC address of discovery is presumed (log entry 98). -/
def Obligations.StartUpAndPower : Prop :=
  Sys2Proof.Claim.EthernetPorts ∧ Sys2Proof.Claim.StartUp ∧ Sys2Proof.Claim.PowerCycles

/-- Input bands, throttling and the limits of Table 14.5: Protection. Which rails fall, that thresholds are judged
at the nominal value, the codes and pins of the boundary scan, and the controller's level are the model's choices
(log entries 38, 85, 103, 104). -/
def Obligations.Protection : Prop :=
  Sys2Proof.Claim.Protection
end

