-- ==== Sys2Proof/Laws/Host.lean ====
section
/-! SUPPORT. The shared flow of host commands: one lemma for each way that a command which passes the checks can end. -/
namespace Sys2Proof.Machine

theorem revHdr_tag (h : Hdr) : (revHdr h).tag = h.tag ∧ (revHdr h).seq = h.seq ∧ (revHdr h).net = h.net ∧
    (revHdr h).udpLen = h.udpLen ∧ (revHdr h).len = h.len ∧ (revHdr h).rev = h.rev := by
  simp only [revHdr]
  split <;> split <;> simp

/-- A command that passes the checks is carried out. -/
theorem hostCmd_passes {h : Hdr} {op : HostOp} {s : State} (p : Passes h op s) :
    hostCmd h op s = carryOut (revHdr h) op s := by
  obtain ⟨e1, e2, e3, e4, e5, e6⟩ := revHdr_tag h
  have hf : frontChecks (revHdr h) (cmdCode op) s = .go := by
    have c1 : (s.host.cache.find? fun e => decide (e.src = sourceOf (revHdr h)) && e.tag == h.tag && e.seq == h.seq) = none := by
      rw [List.find?_eq_none]
      intro e he k
      simp only [Bool.and_eq_true, decide_eq_true_eq, beq_iff_eq] at k
      exact p.fresh e he ⟨k.1.1, k.1.2, k.2⟩
    have c2 : ((waitingCmds s).find? fun w => decide (w.1 = sourceOf (revHdr h)) && w.2.1 == h.tag) = none := by
      rw [List.find?_eq_none]
      intro w hw k
      simp only [Bool.and_eq_true, decide_eq_true_eq, beq_iff_eq] at k
      exact p.alone w hw k
    have r0 : ¬(h.rev = 0 ∨ 3 < h.rev.toNat) := by
      rintro (k | k)
      · have := p.rev.1; rw [k] at this; exact absurd this (by decide)
      · exact absurd p.rev.2 (Nat.not_le.mpr k)
    simp only [frontChecks, e1, e2, e3, e4, e5, e6]
    rw [if_neg (by simp [p.takes]), if_neg (by have := p.whole; omega), if_neg r0,
      if_neg (by have := p.lens.1; omega), if_neg (by simp [p.lens.2]), c1, c2]
    simp only
    rw [if_neg (by have := p.room; omega)]
  have hm : midChecks (revHdr h) op s = none := by
    simp [midChecks, p.node, p.state, p.form, p.field, p.format, p.count, p.beat]
  simp only [hostCmd, hf, hm, chainCheck]
  rw [if_pos p.single]

theorem sendResp_up (src : Source) (r : Resp) (s : State) (up : s.ethUp r.port.val = true) :
    sendResp src r true s = { s with
      sent := .resp { r with vid := s.vid } :: s.sent,
      host := { s.host with cache := (CacheEntry.mk src r.tag r.seq { r with vid := s.vid } :: s.host.cache).take 1024 } } := by
  simp [sendResp, respPort, up, State.emit]

theorem journal_eth (h : Hdr) (c : BitVec 16) (s : State) (p : Nat) : (journal h c s).ethUp p = s.ethUp p := by
  simp only [journal]; split <;> rfl

theorem journal_cfgReg (h : Hdr) (c : BitVec 16) (s : State) (p : Nat) : (journal h c s).cfgReg p = s.cfgReg p := by
  simp only [journal]; split <;> rfl

theorem passes_up {h : Hdr} {op : HostOp} {s : State} (p : Passes h op s) : s.ethUp h.port.val = true := by
  have := p.takes
  simp only [takesUdp, takesFrame, takesDatagrams, Bool.and_eq_true] at this
  exact this.1.1.1.1.1.2

theorem completeCmd_single {h : Hdr} {op : HostOp} {x : State} (pay : List Byte) (d : Nat) (udp : BitVec 16)
    (up : x.ethUp h.port.val = true) (one : (revHdr h).chain = 0) :
    completeCmd (revHdr h) op udp pay d x = responded h op .ok d pay udp (journal (revHdr h) (cmdCode op) x) := by
  have e3 := (revHdr_tag h).2.2.1
  simp only [completeCmd, answerCmd, chainDone, one, if_pos, responded]
  rw [sendResp_up]
  · simp only [respOf, one]
  · simp only [respOf, Hdr.port, e3, journal_eth]; exact up

theorem ethModes_same (w v : Word32) (e1 : fld w 31 28 = fld v 31 28) (e2 : fld w 27 24 = fld v 27 24) (s : State) :
    ethModes w v s = s := by simp [ethModes, e1, e2]

/-- A command whose effect completes is answered with OK. -/
theorem hostCmd_done {h : Hdr} {op : HostOp} {s x : State} {pay : List Byte} {d : Nat} (p : Passes h op s)
    (r : runOp (revHdr h) op s = .done x pay d) (eth : x.host.eth = s.host.eth) (mode : x.cfgReg 0x2C = s.cfgReg 0x2C) :
    hostCmd h op s = .next (answered h op pay d s x) := by
  have up : x.ethUp h.port.val = true := by
    have := passes_up p
    simpa only [State.ethUp, eth] using this
  rw [hostCmd_passes p]
  simp only [carryOut, r, answered]
  rw [completeCmd_single pay d _ up p.single, ethModes_same]
  all_goals
    have : (responded h op .ok d pay s.cmdUdp (journal (revHdr h) (cmdCode op) x)).cfgReg 0x2C = x.cfgReg 0x2C := by
      rw [← journal_cfgReg (revHdr h) (cmdCode op) x 0x2C]; rfl
    rw [this, mode]

/-- A refused command leaves its response and nothing else. -/
theorem hostCmd_refused {h : Hdr} {op : HostOp} {s : State} {st : Status} {d : Nat} (p : Passes h op s)
    (r : runOp (revHdr h) op s = .refuse st d) : hostCmd h op s = .next (turnedAway h op st d s) := by
  have e3 := (revHdr_tag h).2.2.1
  rw [hostCmd_passes p]
  simp only [carryOut, r, turnedAway, responded, refuseCmd, p.single, if_pos]
  rw [sendResp_up]
  · simp only [respOf, p.single]
  · simp only [respOf, Hdr.port, e3]; exact passes_up p

/-- A command that waits for its arming stays outstanding. -/
theorem hostCmd_later {h : Hdr} {op : HostOp} {s x : State} (p : Passes h op s) (r : runOp (revHdr h) op s = .later x) :
    hostCmd h op s = .next (leftWaiting h op x) := by
  rw [hostCmd_passes p]
  simp only [carryOut, r, leftWaiting]

/-- A command that reaches the engine queues stops. -/
theorem hostCmd_stop {h : Hdr} {op : HostOp} {s : State} {f : Fault} (p : Passes h op s)
    (r : runOp (revHdr h) op s = .stop f) : hostCmd h op s = .fault f := by
  rw [hostCmd_passes p]
  simp only [carryOut, r]

/-- A command that met poison returns what it read with DATA_POISON. -/
theorem hostCmd_poison {h : Hdr} {op : HostOp} {s x : State} {pay : List Byte} {d : Nat} (p : Passes h op s)
    (r : runOp (revHdr h) op s = .poison x pay d) (eth : x.host.eth = s.host.eth) :
    hostCmd h op s = .next (responded h op .dataPoison d pay s.cmdUdp x) := by
  have e3 := (revHdr_tag h).2.2.1
  have up : x.ethUp h.port.val = true := by
    have := passes_up p
    simpa only [State.ethUp, eth] using this
  rw [hostCmd_passes p]
  simp only [carryOut, r, responded, chainDone, p.single, if_pos]
  rw [sendResp_up]
  · simp only [respOf, p.single]
  · simp only [respOf, Hdr.port, e3]; exact up

end Sys2Proof.Machine
end

