-- ==== Sys2Proof/Laws/Tables.lean ====
section
/-! SUPPORT. Tables and memory: what a read gives after a write, and that every operation keeps the one canonical form. -/
namespace Sys2Proof.Machine

variable {α : Type}

/-! ## Reading after an update: in every table, canonical or not -/

theorem tget_tins (d : α) (i : Nat) (x : α) (t : Tab α) (j : Nat) :
    tget d (tins i x t) j = if j = i then x else tget d t j := by
  induction t with
  | nil => simp [tins, tget]
  | cons e t ih =>
    obtain ⟨k, v⟩ := e
    simp only [tins]
    split
    · next hk => subst hk; simp only [tget]; split <;> rfl
    · split
      · simp only [tget]
      · next h1 h2 =>
        simp only [tget, ih]
        by_cases hj : j = k
        · subst hj; simp [Ne.symm h1]
        · simp [hj]

theorem tget_tdel (d : α) (i : Nat) (t : Tab α) (j : Nat) : tget d (tdel i t) j = if j = i then d else tget d t j := by
  induction t with
  | nil => simp [tdel, tget]
  | cons e t ih =>
    obtain ⟨k, v⟩ := e
    simp only [tdel] at ih
    by_cases hk : k = i
    · subst hk
      simp only [tdel, List.filter_cons, bne_self_eq_false, Bool.false_eq_true, if_false, ih, tget]
      split <;> simp [*]
    · have : ((k, v).1 != i) = true := by simp [hk]
      simp only [tdel, List.filter_cons, this, if_true, tget, ih]
      by_cases hj : j = k
      · subst hj; simp [hk]
      · simp [hj]

theorem tget_tput [DecidableEq α] (d : α) (i : Nat) (x : α) (t : Tab α) (j : Nat) :
    tget d (tput d i x t) j = if j = i then x else tget d t j := by
  unfold tput
  split
  · next h => rw [tget_tdel, h]
  · exact tget_tins d i x t j

@[simp] theorem tget_tput_self [DecidableEq α] (d : α) (i : Nat) (x : α) (t : Tab α) : tget d (tput d i x t) i = x := by
  simp [tget_tput]

theorem tget_tput_ne [DecidableEq α] (d : α) {i j : Nat} (h : j ≠ i) (x : α) (t : Tab α) :
    tget d (tput d i x t) j = tget d t j := by
  simp [tget_tput, h]

/-! ## The canonical form -/

theorem twfFrom_le [DecidableEq α] {d : α} {lo lo' : Nat} {t : Tab α} (hl : lo ≤ lo') (h : twfFrom d lo' t = true) :
    twfFrom d lo t = true := by
  cases t with
  | nil => rfl
  | cons e t =>
    obtain ⟨k, v⟩ := e
    simp only [twfFrom, Bool.and_eq_true, decide_eq_true_eq] at h ⊢
    exact ⟨⟨by omega, h.1.2⟩, h.2⟩

theorem twfFrom_tins [DecidableEq α] {d : α} {x : α} (hx : x ≠ d) {i : Nat} {t : Tab α} :
    ∀ {lo : Nat}, lo ≤ i → twfFrom d lo t = true → twfFrom d lo (tins i x t) = true := by
  induction t with
  | nil => intro lo hl _; simp [tins, twfFrom, hx, hl]
  | cons e t ih =>
    obtain ⟨k, v⟩ := e
    intro lo hl h
    simp only [twfFrom, Bool.and_eq_true, decide_eq_true_eq] at h
    simp only [tins]
    split
    · next hk => subst hk; simp [twfFrom, hx, hl, h.2]
    · split
      · next h1 h2 =>
        have hv := h.1.2
        simp only [twfFrom, Bool.and_eq_true, decide_eq_true_eq]
        exact ⟨⟨hl, by simpa using hx⟩, ⟨by omega, hv⟩, h.2⟩
      · next h1 h2 =>
        have := ih (lo := k + 1) (by omega) h.2
        simp only [twfFrom, Bool.and_eq_true, decide_eq_true_eq]
        exact ⟨h.1, this⟩

theorem twfFrom_filter [DecidableEq α] {d : α} {p : Nat × α → Bool} {t : Tab α} :
    ∀ {lo : Nat}, twfFrom d lo t = true → twfFrom d lo (t.filter p) = true := by
  induction t with
  | nil => intro lo _; rfl
  | cons e t ih =>
    obtain ⟨k, v⟩ := e
    intro lo h
    simp only [twfFrom, Bool.and_eq_true, decide_eq_true_eq] at h
    by_cases hp : p (k, v) = true
    · simp only [List.filter_cons, hp, if_true, twfFrom, Bool.and_eq_true, decide_eq_true_eq]
      exact ⟨h.1, ih h.2⟩
    · simp only [List.filter_cons, hp]
      exact twfFrom_le (by omega) (ih h.2)

theorem twf_filter [DecidableEq α] {d : α} {p : Nat × α → Bool} {t : Tab α} (h : twf d t = true) :
    twf d (t.filter p) = true := twfFrom_filter h

theorem twf_tput [DecidableEq α] {d : α} {i : Nat} {x : α} {t : Tab α} (h : twf d t = true) : twf d (tput d i x t) = true := by
  unfold tput
  split
  · exact twf_filter h
  · next hx => exact twfFrom_tins hx (Nat.zero_le _) h

theorem twf_tclear [DecidableEq α] {d : α} {lo hi : Nat} {t : Tab α} (h : twf d t = true) : twf d (tclear lo hi t) = true :=
  twf_filter h

/-! ## Memory -/

theorem putBytes_wf (bs : List Byte) : ∀ (a : Nat) (m : List Host.Cell), Memory.wf m = true → Memory.wf (putBytes m a bs) = true := by
  induction bs with
  | nil => intro a m h; exact h
  | cons b bs ih => intro a m h; exact ih _ _ (twf_tput h)

/-- A byte after a write: the written one inside the span, the old one outside. -/
theorem tget_putBytes (bs : List Byte) : ∀ (a : Nat) (m : List Host.Cell) (j : Nat),
    tget (0 : Byte) (putBytes m a bs) j = if a ≤ j ∧ j < a + bs.length then bs.getD (j - a) 0 else tget 0 m j := by
  induction bs with
  | nil =>
    intro a m j
    have : ¬ (a ≤ j ∧ j < a + ([] : List Byte).length) := by simp
    rw [if_neg this]; rfl
  | cons b bs ih =>
    intro a m j
    simp only [putBytes, ih (a + 1) _ j, tget_tput]
    by_cases hj : j = a
    · subst hj
      have h2 : ¬ (j + 1 ≤ j ∧ j < j + 1 + bs.length) := by omega
      have h3 : j ≤ j ∧ j < j + (b :: bs).length := by simp
      rw [if_neg h2, if_pos rfl, if_pos h3]; simp
    · by_cases hi : a + 1 ≤ j ∧ j < a + 1 + bs.length
      · have h2 : a ≤ j ∧ j < a + (b :: bs).length := by simp; omega
        have h3 : j - a = (j - (a + 1)) + 1 := by omega
        simp only [hi, h2, and_self, if_true, h3, List.getD_cons_succ]
      · have h2 : ¬ (a ≤ j ∧ j < a + (b :: bs).length) := by simp; omega
        rw [if_neg hi, if_neg h2, if_neg hj]

/-- A write leaves every byte outside its span alone. -/
theorem readByte_rawWrite_outside (s : State) {a j : Nat} {bs : List Byte} (hj : j < a ∨ a + bs.length ≤ j) :
    (s.rawWrite a bs).readByte j = s.readByte j := by
  have : ¬ (a ≤ j ∧ j < a + bs.length) := by omega
  show tget (0 : Byte) (putBytes s.mem a bs) j = tget (0 : Byte) s.mem j
  rw [tget_putBytes bs a s.mem j, if_neg this]

theorem readByte_rawWrite_inside (s : State) {a i : Nat} {bs : List Byte} (hi : i < bs.length) :
    (s.rawWrite a bs).readByte (a + i) = bs.getD i 0 := by
  have : a ≤ a + i ∧ a + i < a + bs.length := by omega
  show tget (0 : Byte) (putBytes s.mem a bs) (a + i) = bs.getD i 0
  rw [tget_putBytes bs a s.mem, if_pos this, Nat.add_sub_cancel_left]

/-! ## Registers of a unit -/

theorem UnitState.gpGet_gpSet (x : UnitState) (r q : Nat) (v : Word64) :
    (x.gpSet r v).gpGet q = if q = 0 then 0 else if q = r then v else x.gpGet q := by
  unfold gpSet gpGet
  by_cases hq : q = 0
  · simp [hq]
  · by_cases hr : r = 0
    · subst hr; simp [hq]
    · simp only [hr, hq, if_false, tget_tput]

theorem UnitState.gpGet_zero (x : UnitState) : x.gpGet 0 = 0 := rfl

end Sys2Proof.Machine
end

