-- ==== Sys2Proof/Laws/State.lean ====
section
/-! SUPPORT. One lemma for each field of State and each named update: the fields that an update leaves alone. -/
namespace Sys2Proof.Machine

/-! ## setUnit -/

@[simp] theorem State.setUnit_pending (s : State) (u : UnitId) (x : UnitState) : (s.setUnit u x).pending = s.pending := rfl
@[simp] theorem State.setUnit_boot (s : State) (u : UnitId) (x : UnitState) : (s.setUnit u x).boot = s.boot := rfl
@[simp] theorem State.setUnit_beat (s : State) (u : UnitId) (x : UnitState) : (s.setUnit u x).beat = s.beat := rfl
@[simp] theorem State.setUnit_nv (s : State) (u : UnitId) (x : UnitState) : (s.setUnit u x).nv = s.nv := rfl
@[simp] theorem State.setUnit_flash (s : State) (u : UnitId) (x : UnitState) : (s.setUnit u x).flash = s.flash := rfl
@[simp] theorem State.setUnit_otp (s : State) (u : UnitId) (x : UnitState) : (s.setUnit u x).otp = s.otp := rfl
@[simp] theorem State.setUnit_cfg (s : State) (u : UnitId) (x : UnitState) : (s.setUnit u x).cfg = s.cfg := rfl
@[simp] theorem State.setUnit_counters (s : State) (u : UnitId) (x : UnitState) : (s.setUnit u x).counters = s.counters := rfl
@[simp] theorem State.setUnit_snap (s : State) (u : UnitId) (x : UnitState) : (s.setUnit u x).snap = s.snap := rfl
@[simp] theorem State.setUnit_struck (s : State) (u : UnitId) (x : UnitState) : (s.setUnit u x).struck = s.struck := rfl
@[simp] theorem State.setUnit_clusters (s : State) (u : UnitId) (x : UnitState) : (s.setUnit u x).clusters = s.clusters := rfl
@[simp] theorem State.setUnit_shuttles (s : State) (u : UnitId) (x : UnitState) : (s.setUnit u x).shuttles = s.shuttles := rfl
@[simp] theorem State.setUnit_store (s : State) (u : UnitId) (x : UnitState) : (s.setUnit u x).store = s.store := rfl
@[simp] theorem State.setUnit_images (s : State) (u : UnitId) (x : UnitState) : (s.setUnit u x).images = s.images := rfl
@[simp] theorem State.setUnit_mem (s : State) (u : UnitId) (x : UnitState) : (s.setUnit u x).mem = s.mem := rfl
@[simp] theorem State.setUnit_lineTags (s : State) (u : UnitId) (x : UnitState) : (s.setUnit u x).lineTags = s.lineTags := rfl
@[simp] theorem State.setUnit_poison (s : State) (u : UnitId) (x : UnitState) : (s.setUnit u x).poison = s.poison := rfl
@[simp] theorem State.setUnit_storePoison (s : State) (u : UnitId) (x : UnitState) : (s.setUnit u x).storePoison = s.storePoison := rfl
@[simp] theorem State.setUnit_upsets (s : State) (u : UnitId) (x : UnitState) : (s.setUnit u x).upsets = s.upsets := rfl
@[simp] theorem State.setUnit_memc (s : State) (u : UnitId) (x : UnitState) : (s.setUnit u x).memc = s.memc := rfl
@[simp] theorem State.setUnit_fab (s : State) (u : UnitId) (x : UnitState) : (s.setUnit u x).fab = s.fab := rfl
@[simp] theorem State.setUnit_col (s : State) (u : UnitId) (x : UnitState) : (s.setUnit u x).col = s.col := rfl
@[simp] theorem State.setUnit_hx (s : State) (u : UnitId) (x : UnitState) : (s.setUnit u x).hx = s.hx := rfl
@[simp] theorem State.setUnit_ckp (s : State) (u : UnitId) (x : UnitState) : (s.setUnit u x).ckp = s.ckp := rfl
@[simp] theorem State.setUnit_press (s : State) (u : UnitId) (x : UnitState) : (s.setUnit u x).press = s.press := rfl
@[simp] theorem State.setUnit_host (s : State) (u : UnitId) (x : UnitState) : (s.setUnit u x).host = s.host := rfl
@[simp] theorem State.setUnit_sec (s : State) (u : UnitId) (x : UnitState) : (s.setUnit u x).sec = s.sec := rfl
@[simp] theorem State.setUnit_pwr (s : State) (u : UnitId) (x : UnitState) : (s.setUnit u x).pwr = s.pwr := rfl
@[simp] theorem State.setUnit_sent (s : State) (u : UnitId) (x : UnitState) : (s.setUnit u x).sent = s.sent := rfl
@[simp] theorem State.setUnit_free (s : State) (u : UnitId) (x : UnitState) : (s.setUnit u x).free = s.free := rfl

/-! ## modUnit -/

@[simp] theorem State.modUnit_pending (s : State) (u : UnitId) (f : UnitState → UnitState) : (s.modUnit u f).pending = s.pending := rfl
@[simp] theorem State.modUnit_boot (s : State) (u : UnitId) (f : UnitState → UnitState) : (s.modUnit u f).boot = s.boot := rfl
@[simp] theorem State.modUnit_beat (s : State) (u : UnitId) (f : UnitState → UnitState) : (s.modUnit u f).beat = s.beat := rfl
@[simp] theorem State.modUnit_nv (s : State) (u : UnitId) (f : UnitState → UnitState) : (s.modUnit u f).nv = s.nv := rfl
@[simp] theorem State.modUnit_flash (s : State) (u : UnitId) (f : UnitState → UnitState) : (s.modUnit u f).flash = s.flash := rfl
@[simp] theorem State.modUnit_otp (s : State) (u : UnitId) (f : UnitState → UnitState) : (s.modUnit u f).otp = s.otp := rfl
@[simp] theorem State.modUnit_cfg (s : State) (u : UnitId) (f : UnitState → UnitState) : (s.modUnit u f).cfg = s.cfg := rfl
@[simp] theorem State.modUnit_counters (s : State) (u : UnitId) (f : UnitState → UnitState) : (s.modUnit u f).counters = s.counters := rfl
@[simp] theorem State.modUnit_snap (s : State) (u : UnitId) (f : UnitState → UnitState) : (s.modUnit u f).snap = s.snap := rfl
@[simp] theorem State.modUnit_struck (s : State) (u : UnitId) (f : UnitState → UnitState) : (s.modUnit u f).struck = s.struck := rfl
@[simp] theorem State.modUnit_clusters (s : State) (u : UnitId) (f : UnitState → UnitState) : (s.modUnit u f).clusters = s.clusters := rfl
@[simp] theorem State.modUnit_shuttles (s : State) (u : UnitId) (f : UnitState → UnitState) : (s.modUnit u f).shuttles = s.shuttles := rfl
@[simp] theorem State.modUnit_store (s : State) (u : UnitId) (f : UnitState → UnitState) : (s.modUnit u f).store = s.store := rfl
@[simp] theorem State.modUnit_images (s : State) (u : UnitId) (f : UnitState → UnitState) : (s.modUnit u f).images = s.images := rfl
@[simp] theorem State.modUnit_mem (s : State) (u : UnitId) (f : UnitState → UnitState) : (s.modUnit u f).mem = s.mem := rfl
@[simp] theorem State.modUnit_lineTags (s : State) (u : UnitId) (f : UnitState → UnitState) : (s.modUnit u f).lineTags = s.lineTags := rfl
@[simp] theorem State.modUnit_poison (s : State) (u : UnitId) (f : UnitState → UnitState) : (s.modUnit u f).poison = s.poison := rfl
@[simp] theorem State.modUnit_storePoison (s : State) (u : UnitId) (f : UnitState → UnitState) : (s.modUnit u f).storePoison = s.storePoison := rfl
@[simp] theorem State.modUnit_upsets (s : State) (u : UnitId) (f : UnitState → UnitState) : (s.modUnit u f).upsets = s.upsets := rfl
@[simp] theorem State.modUnit_memc (s : State) (u : UnitId) (f : UnitState → UnitState) : (s.modUnit u f).memc = s.memc := rfl
@[simp] theorem State.modUnit_fab (s : State) (u : UnitId) (f : UnitState → UnitState) : (s.modUnit u f).fab = s.fab := rfl
@[simp] theorem State.modUnit_col (s : State) (u : UnitId) (f : UnitState → UnitState) : (s.modUnit u f).col = s.col := rfl
@[simp] theorem State.modUnit_hx (s : State) (u : UnitId) (f : UnitState → UnitState) : (s.modUnit u f).hx = s.hx := rfl
@[simp] theorem State.modUnit_ckp (s : State) (u : UnitId) (f : UnitState → UnitState) : (s.modUnit u f).ckp = s.ckp := rfl
@[simp] theorem State.modUnit_press (s : State) (u : UnitId) (f : UnitState → UnitState) : (s.modUnit u f).press = s.press := rfl
@[simp] theorem State.modUnit_host (s : State) (u : UnitId) (f : UnitState → UnitState) : (s.modUnit u f).host = s.host := rfl
@[simp] theorem State.modUnit_sec (s : State) (u : UnitId) (f : UnitState → UnitState) : (s.modUnit u f).sec = s.sec := rfl
@[simp] theorem State.modUnit_pwr (s : State) (u : UnitId) (f : UnitState → UnitState) : (s.modUnit u f).pwr = s.pwr := rfl
@[simp] theorem State.modUnit_sent (s : State) (u : UnitId) (f : UnitState → UnitState) : (s.modUnit u f).sent = s.sent := rfl
@[simp] theorem State.modUnit_free (s : State) (u : UnitId) (f : UnitState → UnitState) : (s.modUnit u f).free = s.free := rfl

/-! ## setClu -/

@[simp] theorem State.setClu_pending (s : State) (c : ClusterId) (x : Cluster) : (s.setClu c x).pending = s.pending := rfl
@[simp] theorem State.setClu_boot (s : State) (c : ClusterId) (x : Cluster) : (s.setClu c x).boot = s.boot := rfl
@[simp] theorem State.setClu_beat (s : State) (c : ClusterId) (x : Cluster) : (s.setClu c x).beat = s.beat := rfl
@[simp] theorem State.setClu_nv (s : State) (c : ClusterId) (x : Cluster) : (s.setClu c x).nv = s.nv := rfl
@[simp] theorem State.setClu_flash (s : State) (c : ClusterId) (x : Cluster) : (s.setClu c x).flash = s.flash := rfl
@[simp] theorem State.setClu_otp (s : State) (c : ClusterId) (x : Cluster) : (s.setClu c x).otp = s.otp := rfl
@[simp] theorem State.setClu_cfg (s : State) (c : ClusterId) (x : Cluster) : (s.setClu c x).cfg = s.cfg := rfl
@[simp] theorem State.setClu_counters (s : State) (c : ClusterId) (x : Cluster) : (s.setClu c x).counters = s.counters := rfl
@[simp] theorem State.setClu_snap (s : State) (c : ClusterId) (x : Cluster) : (s.setClu c x).snap = s.snap := rfl
@[simp] theorem State.setClu_struck (s : State) (c : ClusterId) (x : Cluster) : (s.setClu c x).struck = s.struck := rfl
@[simp] theorem State.setClu_units (s : State) (c : ClusterId) (x : Cluster) : (s.setClu c x).units = s.units := rfl
@[simp] theorem State.setClu_shuttles (s : State) (c : ClusterId) (x : Cluster) : (s.setClu c x).shuttles = s.shuttles := rfl
@[simp] theorem State.setClu_store (s : State) (c : ClusterId) (x : Cluster) : (s.setClu c x).store = s.store := rfl
@[simp] theorem State.setClu_images (s : State) (c : ClusterId) (x : Cluster) : (s.setClu c x).images = s.images := rfl
@[simp] theorem State.setClu_mem (s : State) (c : ClusterId) (x : Cluster) : (s.setClu c x).mem = s.mem := rfl
@[simp] theorem State.setClu_lineTags (s : State) (c : ClusterId) (x : Cluster) : (s.setClu c x).lineTags = s.lineTags := rfl
@[simp] theorem State.setClu_poison (s : State) (c : ClusterId) (x : Cluster) : (s.setClu c x).poison = s.poison := rfl
@[simp] theorem State.setClu_storePoison (s : State) (c : ClusterId) (x : Cluster) : (s.setClu c x).storePoison = s.storePoison := rfl
@[simp] theorem State.setClu_upsets (s : State) (c : ClusterId) (x : Cluster) : (s.setClu c x).upsets = s.upsets := rfl
@[simp] theorem State.setClu_memc (s : State) (c : ClusterId) (x : Cluster) : (s.setClu c x).memc = s.memc := rfl
@[simp] theorem State.setClu_fab (s : State) (c : ClusterId) (x : Cluster) : (s.setClu c x).fab = s.fab := rfl
@[simp] theorem State.setClu_col (s : State) (c : ClusterId) (x : Cluster) : (s.setClu c x).col = s.col := rfl
@[simp] theorem State.setClu_hx (s : State) (c : ClusterId) (x : Cluster) : (s.setClu c x).hx = s.hx := rfl
@[simp] theorem State.setClu_ckp (s : State) (c : ClusterId) (x : Cluster) : (s.setClu c x).ckp = s.ckp := rfl
@[simp] theorem State.setClu_press (s : State) (c : ClusterId) (x : Cluster) : (s.setClu c x).press = s.press := rfl
@[simp] theorem State.setClu_host (s : State) (c : ClusterId) (x : Cluster) : (s.setClu c x).host = s.host := rfl
@[simp] theorem State.setClu_sec (s : State) (c : ClusterId) (x : Cluster) : (s.setClu c x).sec = s.sec := rfl
@[simp] theorem State.setClu_pwr (s : State) (c : ClusterId) (x : Cluster) : (s.setClu c x).pwr = s.pwr := rfl
@[simp] theorem State.setClu_sent (s : State) (c : ClusterId) (x : Cluster) : (s.setClu c x).sent = s.sent := rfl
@[simp] theorem State.setClu_free (s : State) (c : ClusterId) (x : Cluster) : (s.setClu c x).free = s.free := rfl

/-! ## modClu -/

@[simp] theorem State.modClu_pending (s : State) (c : ClusterId) (f : Cluster → Cluster) : (s.modClu c f).pending = s.pending := rfl
@[simp] theorem State.modClu_boot (s : State) (c : ClusterId) (f : Cluster → Cluster) : (s.modClu c f).boot = s.boot := rfl
@[simp] theorem State.modClu_beat (s : State) (c : ClusterId) (f : Cluster → Cluster) : (s.modClu c f).beat = s.beat := rfl
@[simp] theorem State.modClu_nv (s : State) (c : ClusterId) (f : Cluster → Cluster) : (s.modClu c f).nv = s.nv := rfl
@[simp] theorem State.modClu_flash (s : State) (c : ClusterId) (f : Cluster → Cluster) : (s.modClu c f).flash = s.flash := rfl
@[simp] theorem State.modClu_otp (s : State) (c : ClusterId) (f : Cluster → Cluster) : (s.modClu c f).otp = s.otp := rfl
@[simp] theorem State.modClu_cfg (s : State) (c : ClusterId) (f : Cluster → Cluster) : (s.modClu c f).cfg = s.cfg := rfl
@[simp] theorem State.modClu_counters (s : State) (c : ClusterId) (f : Cluster → Cluster) : (s.modClu c f).counters = s.counters := rfl
@[simp] theorem State.modClu_snap (s : State) (c : ClusterId) (f : Cluster → Cluster) : (s.modClu c f).snap = s.snap := rfl
@[simp] theorem State.modClu_struck (s : State) (c : ClusterId) (f : Cluster → Cluster) : (s.modClu c f).struck = s.struck := rfl
@[simp] theorem State.modClu_units (s : State) (c : ClusterId) (f : Cluster → Cluster) : (s.modClu c f).units = s.units := rfl
@[simp] theorem State.modClu_shuttles (s : State) (c : ClusterId) (f : Cluster → Cluster) : (s.modClu c f).shuttles = s.shuttles := rfl
@[simp] theorem State.modClu_store (s : State) (c : ClusterId) (f : Cluster → Cluster) : (s.modClu c f).store = s.store := rfl
@[simp] theorem State.modClu_images (s : State) (c : ClusterId) (f : Cluster → Cluster) : (s.modClu c f).images = s.images := rfl
@[simp] theorem State.modClu_mem (s : State) (c : ClusterId) (f : Cluster → Cluster) : (s.modClu c f).mem = s.mem := rfl
@[simp] theorem State.modClu_lineTags (s : State) (c : ClusterId) (f : Cluster → Cluster) : (s.modClu c f).lineTags = s.lineTags := rfl
@[simp] theorem State.modClu_poison (s : State) (c : ClusterId) (f : Cluster → Cluster) : (s.modClu c f).poison = s.poison := rfl
@[simp] theorem State.modClu_storePoison (s : State) (c : ClusterId) (f : Cluster → Cluster) : (s.modClu c f).storePoison = s.storePoison := rfl
@[simp] theorem State.modClu_upsets (s : State) (c : ClusterId) (f : Cluster → Cluster) : (s.modClu c f).upsets = s.upsets := rfl
@[simp] theorem State.modClu_memc (s : State) (c : ClusterId) (f : Cluster → Cluster) : (s.modClu c f).memc = s.memc := rfl
@[simp] theorem State.modClu_fab (s : State) (c : ClusterId) (f : Cluster → Cluster) : (s.modClu c f).fab = s.fab := rfl
@[simp] theorem State.modClu_col (s : State) (c : ClusterId) (f : Cluster → Cluster) : (s.modClu c f).col = s.col := rfl
@[simp] theorem State.modClu_hx (s : State) (c : ClusterId) (f : Cluster → Cluster) : (s.modClu c f).hx = s.hx := rfl
@[simp] theorem State.modClu_ckp (s : State) (c : ClusterId) (f : Cluster → Cluster) : (s.modClu c f).ckp = s.ckp := rfl
@[simp] theorem State.modClu_press (s : State) (c : ClusterId) (f : Cluster → Cluster) : (s.modClu c f).press = s.press := rfl
@[simp] theorem State.modClu_host (s : State) (c : ClusterId) (f : Cluster → Cluster) : (s.modClu c f).host = s.host := rfl
@[simp] theorem State.modClu_sec (s : State) (c : ClusterId) (f : Cluster → Cluster) : (s.modClu c f).sec = s.sec := rfl
@[simp] theorem State.modClu_pwr (s : State) (c : ClusterId) (f : Cluster → Cluster) : (s.modClu c f).pwr = s.pwr := rfl
@[simp] theorem State.modClu_sent (s : State) (c : ClusterId) (f : Cluster → Cluster) : (s.modClu c f).sent = s.sent := rfl
@[simp] theorem State.modClu_free (s : State) (c : ClusterId) (f : Cluster → Cluster) : (s.modClu c f).free = s.free := rfl

/-! ## setSh -/

@[simp] theorem State.setSh_pending (s : State) (h : ShuttleId) (x : Shuttle) : (s.setSh h x).pending = s.pending := rfl
@[simp] theorem State.setSh_boot (s : State) (h : ShuttleId) (x : Shuttle) : (s.setSh h x).boot = s.boot := rfl
@[simp] theorem State.setSh_beat (s : State) (h : ShuttleId) (x : Shuttle) : (s.setSh h x).beat = s.beat := rfl
@[simp] theorem State.setSh_nv (s : State) (h : ShuttleId) (x : Shuttle) : (s.setSh h x).nv = s.nv := rfl
@[simp] theorem State.setSh_flash (s : State) (h : ShuttleId) (x : Shuttle) : (s.setSh h x).flash = s.flash := rfl
@[simp] theorem State.setSh_otp (s : State) (h : ShuttleId) (x : Shuttle) : (s.setSh h x).otp = s.otp := rfl
@[simp] theorem State.setSh_cfg (s : State) (h : ShuttleId) (x : Shuttle) : (s.setSh h x).cfg = s.cfg := rfl
@[simp] theorem State.setSh_counters (s : State) (h : ShuttleId) (x : Shuttle) : (s.setSh h x).counters = s.counters := rfl
@[simp] theorem State.setSh_snap (s : State) (h : ShuttleId) (x : Shuttle) : (s.setSh h x).snap = s.snap := rfl
@[simp] theorem State.setSh_struck (s : State) (h : ShuttleId) (x : Shuttle) : (s.setSh h x).struck = s.struck := rfl
@[simp] theorem State.setSh_units (s : State) (h : ShuttleId) (x : Shuttle) : (s.setSh h x).units = s.units := rfl
@[simp] theorem State.setSh_clusters (s : State) (h : ShuttleId) (x : Shuttle) : (s.setSh h x).clusters = s.clusters := rfl
@[simp] theorem State.setSh_store (s : State) (h : ShuttleId) (x : Shuttle) : (s.setSh h x).store = s.store := rfl
@[simp] theorem State.setSh_images (s : State) (h : ShuttleId) (x : Shuttle) : (s.setSh h x).images = s.images := rfl
@[simp] theorem State.setSh_mem (s : State) (h : ShuttleId) (x : Shuttle) : (s.setSh h x).mem = s.mem := rfl
@[simp] theorem State.setSh_lineTags (s : State) (h : ShuttleId) (x : Shuttle) : (s.setSh h x).lineTags = s.lineTags := rfl
@[simp] theorem State.setSh_poison (s : State) (h : ShuttleId) (x : Shuttle) : (s.setSh h x).poison = s.poison := rfl
@[simp] theorem State.setSh_storePoison (s : State) (h : ShuttleId) (x : Shuttle) : (s.setSh h x).storePoison = s.storePoison := rfl
@[simp] theorem State.setSh_upsets (s : State) (h : ShuttleId) (x : Shuttle) : (s.setSh h x).upsets = s.upsets := rfl
@[simp] theorem State.setSh_memc (s : State) (h : ShuttleId) (x : Shuttle) : (s.setSh h x).memc = s.memc := rfl
@[simp] theorem State.setSh_fab (s : State) (h : ShuttleId) (x : Shuttle) : (s.setSh h x).fab = s.fab := rfl
@[simp] theorem State.setSh_col (s : State) (h : ShuttleId) (x : Shuttle) : (s.setSh h x).col = s.col := rfl
@[simp] theorem State.setSh_hx (s : State) (h : ShuttleId) (x : Shuttle) : (s.setSh h x).hx = s.hx := rfl
@[simp] theorem State.setSh_ckp (s : State) (h : ShuttleId) (x : Shuttle) : (s.setSh h x).ckp = s.ckp := rfl
@[simp] theorem State.setSh_press (s : State) (h : ShuttleId) (x : Shuttle) : (s.setSh h x).press = s.press := rfl
@[simp] theorem State.setSh_host (s : State) (h : ShuttleId) (x : Shuttle) : (s.setSh h x).host = s.host := rfl
@[simp] theorem State.setSh_sec (s : State) (h : ShuttleId) (x : Shuttle) : (s.setSh h x).sec = s.sec := rfl
@[simp] theorem State.setSh_pwr (s : State) (h : ShuttleId) (x : Shuttle) : (s.setSh h x).pwr = s.pwr := rfl
@[simp] theorem State.setSh_sent (s : State) (h : ShuttleId) (x : Shuttle) : (s.setSh h x).sent = s.sent := rfl
@[simp] theorem State.setSh_free (s : State) (h : ShuttleId) (x : Shuttle) : (s.setSh h x).free = s.free := rfl

/-! ## modSh -/

@[simp] theorem State.modSh_pending (s : State) (h : ShuttleId) (f : Shuttle → Shuttle) : (s.modSh h f).pending = s.pending := rfl
@[simp] theorem State.modSh_boot (s : State) (h : ShuttleId) (f : Shuttle → Shuttle) : (s.modSh h f).boot = s.boot := rfl
@[simp] theorem State.modSh_beat (s : State) (h : ShuttleId) (f : Shuttle → Shuttle) : (s.modSh h f).beat = s.beat := rfl
@[simp] theorem State.modSh_nv (s : State) (h : ShuttleId) (f : Shuttle → Shuttle) : (s.modSh h f).nv = s.nv := rfl
@[simp] theorem State.modSh_flash (s : State) (h : ShuttleId) (f : Shuttle → Shuttle) : (s.modSh h f).flash = s.flash := rfl
@[simp] theorem State.modSh_otp (s : State) (h : ShuttleId) (f : Shuttle → Shuttle) : (s.modSh h f).otp = s.otp := rfl
@[simp] theorem State.modSh_cfg (s : State) (h : ShuttleId) (f : Shuttle → Shuttle) : (s.modSh h f).cfg = s.cfg := rfl
@[simp] theorem State.modSh_counters (s : State) (h : ShuttleId) (f : Shuttle → Shuttle) : (s.modSh h f).counters = s.counters := rfl
@[simp] theorem State.modSh_snap (s : State) (h : ShuttleId) (f : Shuttle → Shuttle) : (s.modSh h f).snap = s.snap := rfl
@[simp] theorem State.modSh_struck (s : State) (h : ShuttleId) (f : Shuttle → Shuttle) : (s.modSh h f).struck = s.struck := rfl
@[simp] theorem State.modSh_units (s : State) (h : ShuttleId) (f : Shuttle → Shuttle) : (s.modSh h f).units = s.units := rfl
@[simp] theorem State.modSh_clusters (s : State) (h : ShuttleId) (f : Shuttle → Shuttle) : (s.modSh h f).clusters = s.clusters := rfl
@[simp] theorem State.modSh_store (s : State) (h : ShuttleId) (f : Shuttle → Shuttle) : (s.modSh h f).store = s.store := rfl
@[simp] theorem State.modSh_images (s : State) (h : ShuttleId) (f : Shuttle → Shuttle) : (s.modSh h f).images = s.images := rfl
@[simp] theorem State.modSh_mem (s : State) (h : ShuttleId) (f : Shuttle → Shuttle) : (s.modSh h f).mem = s.mem := rfl
@[simp] theorem State.modSh_lineTags (s : State) (h : ShuttleId) (f : Shuttle → Shuttle) : (s.modSh h f).lineTags = s.lineTags := rfl
@[simp] theorem State.modSh_poison (s : State) (h : ShuttleId) (f : Shuttle → Shuttle) : (s.modSh h f).poison = s.poison := rfl
@[simp] theorem State.modSh_storePoison (s : State) (h : ShuttleId) (f : Shuttle → Shuttle) : (s.modSh h f).storePoison = s.storePoison := rfl
@[simp] theorem State.modSh_upsets (s : State) (h : ShuttleId) (f : Shuttle → Shuttle) : (s.modSh h f).upsets = s.upsets := rfl
@[simp] theorem State.modSh_memc (s : State) (h : ShuttleId) (f : Shuttle → Shuttle) : (s.modSh h f).memc = s.memc := rfl
@[simp] theorem State.modSh_fab (s : State) (h : ShuttleId) (f : Shuttle → Shuttle) : (s.modSh h f).fab = s.fab := rfl
@[simp] theorem State.modSh_col (s : State) (h : ShuttleId) (f : Shuttle → Shuttle) : (s.modSh h f).col = s.col := rfl
@[simp] theorem State.modSh_hx (s : State) (h : ShuttleId) (f : Shuttle → Shuttle) : (s.modSh h f).hx = s.hx := rfl
@[simp] theorem State.modSh_ckp (s : State) (h : ShuttleId) (f : Shuttle → Shuttle) : (s.modSh h f).ckp = s.ckp := rfl
@[simp] theorem State.modSh_press (s : State) (h : ShuttleId) (f : Shuttle → Shuttle) : (s.modSh h f).press = s.press := rfl
@[simp] theorem State.modSh_host (s : State) (h : ShuttleId) (f : Shuttle → Shuttle) : (s.modSh h f).host = s.host := rfl
@[simp] theorem State.modSh_sec (s : State) (h : ShuttleId) (f : Shuttle → Shuttle) : (s.modSh h f).sec = s.sec := rfl
@[simp] theorem State.modSh_pwr (s : State) (h : ShuttleId) (f : Shuttle → Shuttle) : (s.modSh h f).pwr = s.pwr := rfl
@[simp] theorem State.modSh_sent (s : State) (h : ShuttleId) (f : Shuttle → Shuttle) : (s.modSh h f).sent = s.sent := rfl
@[simp] theorem State.modSh_free (s : State) (h : ShuttleId) (f : Shuttle → Shuttle) : (s.modSh h f).free = s.free := rfl

/-! ## setPort -/

@[simp] theorem State.setPort_pending (s : State) (p : Nat) (x : Port) : (s.setPort p x).pending = s.pending := rfl
@[simp] theorem State.setPort_boot (s : State) (p : Nat) (x : Port) : (s.setPort p x).boot = s.boot := rfl
@[simp] theorem State.setPort_beat (s : State) (p : Nat) (x : Port) : (s.setPort p x).beat = s.beat := rfl
@[simp] theorem State.setPort_nv (s : State) (p : Nat) (x : Port) : (s.setPort p x).nv = s.nv := rfl
@[simp] theorem State.setPort_flash (s : State) (p : Nat) (x : Port) : (s.setPort p x).flash = s.flash := rfl
@[simp] theorem State.setPort_otp (s : State) (p : Nat) (x : Port) : (s.setPort p x).otp = s.otp := rfl
@[simp] theorem State.setPort_cfg (s : State) (p : Nat) (x : Port) : (s.setPort p x).cfg = s.cfg := rfl
@[simp] theorem State.setPort_counters (s : State) (p : Nat) (x : Port) : (s.setPort p x).counters = s.counters := rfl
@[simp] theorem State.setPort_snap (s : State) (p : Nat) (x : Port) : (s.setPort p x).snap = s.snap := rfl
@[simp] theorem State.setPort_struck (s : State) (p : Nat) (x : Port) : (s.setPort p x).struck = s.struck := rfl
@[simp] theorem State.setPort_units (s : State) (p : Nat) (x : Port) : (s.setPort p x).units = s.units := rfl
@[simp] theorem State.setPort_clusters (s : State) (p : Nat) (x : Port) : (s.setPort p x).clusters = s.clusters := rfl
@[simp] theorem State.setPort_shuttles (s : State) (p : Nat) (x : Port) : (s.setPort p x).shuttles = s.shuttles := rfl
@[simp] theorem State.setPort_store (s : State) (p : Nat) (x : Port) : (s.setPort p x).store = s.store := rfl
@[simp] theorem State.setPort_images (s : State) (p : Nat) (x : Port) : (s.setPort p x).images = s.images := rfl
@[simp] theorem State.setPort_mem (s : State) (p : Nat) (x : Port) : (s.setPort p x).mem = s.mem := rfl
@[simp] theorem State.setPort_lineTags (s : State) (p : Nat) (x : Port) : (s.setPort p x).lineTags = s.lineTags := rfl
@[simp] theorem State.setPort_poison (s : State) (p : Nat) (x : Port) : (s.setPort p x).poison = s.poison := rfl
@[simp] theorem State.setPort_storePoison (s : State) (p : Nat) (x : Port) : (s.setPort p x).storePoison = s.storePoison := rfl
@[simp] theorem State.setPort_upsets (s : State) (p : Nat) (x : Port) : (s.setPort p x).upsets = s.upsets := rfl
@[simp] theorem State.setPort_memc (s : State) (p : Nat) (x : Port) : (s.setPort p x).memc = s.memc := rfl
@[simp] theorem State.setPort_col (s : State) (p : Nat) (x : Port) : (s.setPort p x).col = s.col := rfl
@[simp] theorem State.setPort_hx (s : State) (p : Nat) (x : Port) : (s.setPort p x).hx = s.hx := rfl
@[simp] theorem State.setPort_ckp (s : State) (p : Nat) (x : Port) : (s.setPort p x).ckp = s.ckp := rfl
@[simp] theorem State.setPort_press (s : State) (p : Nat) (x : Port) : (s.setPort p x).press = s.press := rfl
@[simp] theorem State.setPort_host (s : State) (p : Nat) (x : Port) : (s.setPort p x).host = s.host := rfl
@[simp] theorem State.setPort_sec (s : State) (p : Nat) (x : Port) : (s.setPort p x).sec = s.sec := rfl
@[simp] theorem State.setPort_pwr (s : State) (p : Nat) (x : Port) : (s.setPort p x).pwr = s.pwr := rfl
@[simp] theorem State.setPort_sent (s : State) (p : Nat) (x : Port) : (s.setPort p x).sent = s.sent := rfl
@[simp] theorem State.setPort_free (s : State) (p : Nat) (x : Port) : (s.setPort p x).free = s.free := rfl

/-! ## modPort -/

@[simp] theorem State.modPort_pending (s : State) (p : Nat) (f : Port → Port) : (s.modPort p f).pending = s.pending := rfl
@[simp] theorem State.modPort_boot (s : State) (p : Nat) (f : Port → Port) : (s.modPort p f).boot = s.boot := rfl
@[simp] theorem State.modPort_beat (s : State) (p : Nat) (f : Port → Port) : (s.modPort p f).beat = s.beat := rfl
@[simp] theorem State.modPort_nv (s : State) (p : Nat) (f : Port → Port) : (s.modPort p f).nv = s.nv := rfl
@[simp] theorem State.modPort_flash (s : State) (p : Nat) (f : Port → Port) : (s.modPort p f).flash = s.flash := rfl
@[simp] theorem State.modPort_otp (s : State) (p : Nat) (f : Port → Port) : (s.modPort p f).otp = s.otp := rfl
@[simp] theorem State.modPort_cfg (s : State) (p : Nat) (f : Port → Port) : (s.modPort p f).cfg = s.cfg := rfl
@[simp] theorem State.modPort_counters (s : State) (p : Nat) (f : Port → Port) : (s.modPort p f).counters = s.counters := rfl
@[simp] theorem State.modPort_snap (s : State) (p : Nat) (f : Port → Port) : (s.modPort p f).snap = s.snap := rfl
@[simp] theorem State.modPort_struck (s : State) (p : Nat) (f : Port → Port) : (s.modPort p f).struck = s.struck := rfl
@[simp] theorem State.modPort_units (s : State) (p : Nat) (f : Port → Port) : (s.modPort p f).units = s.units := rfl
@[simp] theorem State.modPort_clusters (s : State) (p : Nat) (f : Port → Port) : (s.modPort p f).clusters = s.clusters := rfl
@[simp] theorem State.modPort_shuttles (s : State) (p : Nat) (f : Port → Port) : (s.modPort p f).shuttles = s.shuttles := rfl
@[simp] theorem State.modPort_store (s : State) (p : Nat) (f : Port → Port) : (s.modPort p f).store = s.store := rfl
@[simp] theorem State.modPort_images (s : State) (p : Nat) (f : Port → Port) : (s.modPort p f).images = s.images := rfl
@[simp] theorem State.modPort_mem (s : State) (p : Nat) (f : Port → Port) : (s.modPort p f).mem = s.mem := rfl
@[simp] theorem State.modPort_lineTags (s : State) (p : Nat) (f : Port → Port) : (s.modPort p f).lineTags = s.lineTags := rfl
@[simp] theorem State.modPort_poison (s : State) (p : Nat) (f : Port → Port) : (s.modPort p f).poison = s.poison := rfl
@[simp] theorem State.modPort_storePoison (s : State) (p : Nat) (f : Port → Port) : (s.modPort p f).storePoison = s.storePoison := rfl
@[simp] theorem State.modPort_upsets (s : State) (p : Nat) (f : Port → Port) : (s.modPort p f).upsets = s.upsets := rfl
@[simp] theorem State.modPort_memc (s : State) (p : Nat) (f : Port → Port) : (s.modPort p f).memc = s.memc := rfl
@[simp] theorem State.modPort_col (s : State) (p : Nat) (f : Port → Port) : (s.modPort p f).col = s.col := rfl
@[simp] theorem State.modPort_hx (s : State) (p : Nat) (f : Port → Port) : (s.modPort p f).hx = s.hx := rfl
@[simp] theorem State.modPort_ckp (s : State) (p : Nat) (f : Port → Port) : (s.modPort p f).ckp = s.ckp := rfl
@[simp] theorem State.modPort_press (s : State) (p : Nat) (f : Port → Port) : (s.modPort p f).press = s.press := rfl
@[simp] theorem State.modPort_host (s : State) (p : Nat) (f : Port → Port) : (s.modPort p f).host = s.host := rfl
@[simp] theorem State.modPort_sec (s : State) (p : Nat) (f : Port → Port) : (s.modPort p f).sec = s.sec := rfl
@[simp] theorem State.modPort_pwr (s : State) (p : Nat) (f : Port → Port) : (s.modPort p f).pwr = s.pwr := rfl
@[simp] theorem State.modPort_sent (s : State) (p : Nat) (f : Port → Port) : (s.modPort p f).sent = s.sent := rfl
@[simp] theorem State.modPort_free (s : State) (p : Nat) (f : Port → Port) : (s.modPort p f).free = s.free := rfl

/-! ## setCfg -/

@[simp] theorem State.setCfg_pending (s : State) (o : Nat) (v : Word32) : (s.setCfg o v).pending = s.pending := rfl
@[simp] theorem State.setCfg_boot (s : State) (o : Nat) (v : Word32) : (s.setCfg o v).boot = s.boot := rfl
@[simp] theorem State.setCfg_beat (s : State) (o : Nat) (v : Word32) : (s.setCfg o v).beat = s.beat := rfl
@[simp] theorem State.setCfg_nv (s : State) (o : Nat) (v : Word32) : (s.setCfg o v).nv = s.nv := rfl
@[simp] theorem State.setCfg_flash (s : State) (o : Nat) (v : Word32) : (s.setCfg o v).flash = s.flash := rfl
@[simp] theorem State.setCfg_otp (s : State) (o : Nat) (v : Word32) : (s.setCfg o v).otp = s.otp := rfl
@[simp] theorem State.setCfg_counters (s : State) (o : Nat) (v : Word32) : (s.setCfg o v).counters = s.counters := rfl
@[simp] theorem State.setCfg_snap (s : State) (o : Nat) (v : Word32) : (s.setCfg o v).snap = s.snap := rfl
@[simp] theorem State.setCfg_units (s : State) (o : Nat) (v : Word32) : (s.setCfg o v).units = s.units := rfl
@[simp] theorem State.setCfg_clusters (s : State) (o : Nat) (v : Word32) : (s.setCfg o v).clusters = s.clusters := rfl
@[simp] theorem State.setCfg_shuttles (s : State) (o : Nat) (v : Word32) : (s.setCfg o v).shuttles = s.shuttles := rfl
@[simp] theorem State.setCfg_store (s : State) (o : Nat) (v : Word32) : (s.setCfg o v).store = s.store := rfl
@[simp] theorem State.setCfg_images (s : State) (o : Nat) (v : Word32) : (s.setCfg o v).images = s.images := rfl
@[simp] theorem State.setCfg_mem (s : State) (o : Nat) (v : Word32) : (s.setCfg o v).mem = s.mem := rfl
@[simp] theorem State.setCfg_lineTags (s : State) (o : Nat) (v : Word32) : (s.setCfg o v).lineTags = s.lineTags := rfl
@[simp] theorem State.setCfg_poison (s : State) (o : Nat) (v : Word32) : (s.setCfg o v).poison = s.poison := rfl
@[simp] theorem State.setCfg_storePoison (s : State) (o : Nat) (v : Word32) : (s.setCfg o v).storePoison = s.storePoison := rfl
@[simp] theorem State.setCfg_upsets (s : State) (o : Nat) (v : Word32) : (s.setCfg o v).upsets = s.upsets := rfl
@[simp] theorem State.setCfg_memc (s : State) (o : Nat) (v : Word32) : (s.setCfg o v).memc = s.memc := rfl
@[simp] theorem State.setCfg_fab (s : State) (o : Nat) (v : Word32) : (s.setCfg o v).fab = s.fab := rfl
@[simp] theorem State.setCfg_col (s : State) (o : Nat) (v : Word32) : (s.setCfg o v).col = s.col := rfl
@[simp] theorem State.setCfg_hx (s : State) (o : Nat) (v : Word32) : (s.setCfg o v).hx = s.hx := rfl
@[simp] theorem State.setCfg_ckp (s : State) (o : Nat) (v : Word32) : (s.setCfg o v).ckp = s.ckp := rfl
@[simp] theorem State.setCfg_press (s : State) (o : Nat) (v : Word32) : (s.setCfg o v).press = s.press := rfl
@[simp] theorem State.setCfg_host (s : State) (o : Nat) (v : Word32) : (s.setCfg o v).host = s.host := rfl
@[simp] theorem State.setCfg_sec (s : State) (o : Nat) (v : Word32) : (s.setCfg o v).sec = s.sec := rfl
@[simp] theorem State.setCfg_pwr (s : State) (o : Nat) (v : Word32) : (s.setCfg o v).pwr = s.pwr := rfl
@[simp] theorem State.setCfg_sent (s : State) (o : Nat) (v : Word32) : (s.setCfg o v).sent = s.sent := rfl
@[simp] theorem State.setCfg_free (s : State) (o : Nat) (v : Word32) : (s.setCfg o v).free = s.free := rfl

/-! ## setCounter -/

@[simp] theorem State.setCounter_pending (s : State) (o : Nat) (v : Word32) : (s.setCounter o v).pending = s.pending := rfl
@[simp] theorem State.setCounter_boot (s : State) (o : Nat) (v : Word32) : (s.setCounter o v).boot = s.boot := rfl
@[simp] theorem State.setCounter_beat (s : State) (o : Nat) (v : Word32) : (s.setCounter o v).beat = s.beat := rfl
@[simp] theorem State.setCounter_nv (s : State) (o : Nat) (v : Word32) : (s.setCounter o v).nv = s.nv := rfl
@[simp] theorem State.setCounter_flash (s : State) (o : Nat) (v : Word32) : (s.setCounter o v).flash = s.flash := rfl
@[simp] theorem State.setCounter_otp (s : State) (o : Nat) (v : Word32) : (s.setCounter o v).otp = s.otp := rfl
@[simp] theorem State.setCounter_cfg (s : State) (o : Nat) (v : Word32) : (s.setCounter o v).cfg = s.cfg := rfl
@[simp] theorem State.setCounter_snap (s : State) (o : Nat) (v : Word32) : (s.setCounter o v).snap = s.snap := rfl
@[simp] theorem State.setCounter_struck (s : State) (o : Nat) (v : Word32) : (s.setCounter o v).struck = s.struck := rfl
@[simp] theorem State.setCounter_units (s : State) (o : Nat) (v : Word32) : (s.setCounter o v).units = s.units := rfl
@[simp] theorem State.setCounter_clusters (s : State) (o : Nat) (v : Word32) : (s.setCounter o v).clusters = s.clusters := rfl
@[simp] theorem State.setCounter_shuttles (s : State) (o : Nat) (v : Word32) : (s.setCounter o v).shuttles = s.shuttles := rfl
@[simp] theorem State.setCounter_store (s : State) (o : Nat) (v : Word32) : (s.setCounter o v).store = s.store := rfl
@[simp] theorem State.setCounter_images (s : State) (o : Nat) (v : Word32) : (s.setCounter o v).images = s.images := rfl
@[simp] theorem State.setCounter_mem (s : State) (o : Nat) (v : Word32) : (s.setCounter o v).mem = s.mem := rfl
@[simp] theorem State.setCounter_lineTags (s : State) (o : Nat) (v : Word32) : (s.setCounter o v).lineTags = s.lineTags := rfl
@[simp] theorem State.setCounter_poison (s : State) (o : Nat) (v : Word32) : (s.setCounter o v).poison = s.poison := rfl
@[simp] theorem State.setCounter_storePoison (s : State) (o : Nat) (v : Word32) : (s.setCounter o v).storePoison = s.storePoison := rfl
@[simp] theorem State.setCounter_upsets (s : State) (o : Nat) (v : Word32) : (s.setCounter o v).upsets = s.upsets := rfl
@[simp] theorem State.setCounter_memc (s : State) (o : Nat) (v : Word32) : (s.setCounter o v).memc = s.memc := rfl
@[simp] theorem State.setCounter_fab (s : State) (o : Nat) (v : Word32) : (s.setCounter o v).fab = s.fab := rfl
@[simp] theorem State.setCounter_col (s : State) (o : Nat) (v : Word32) : (s.setCounter o v).col = s.col := rfl
@[simp] theorem State.setCounter_hx (s : State) (o : Nat) (v : Word32) : (s.setCounter o v).hx = s.hx := rfl
@[simp] theorem State.setCounter_ckp (s : State) (o : Nat) (v : Word32) : (s.setCounter o v).ckp = s.ckp := rfl
@[simp] theorem State.setCounter_press (s : State) (o : Nat) (v : Word32) : (s.setCounter o v).press = s.press := rfl
@[simp] theorem State.setCounter_host (s : State) (o : Nat) (v : Word32) : (s.setCounter o v).host = s.host := rfl
@[simp] theorem State.setCounter_sec (s : State) (o : Nat) (v : Word32) : (s.setCounter o v).sec = s.sec := rfl
@[simp] theorem State.setCounter_pwr (s : State) (o : Nat) (v : Word32) : (s.setCounter o v).pwr = s.pwr := rfl
@[simp] theorem State.setCounter_sent (s : State) (o : Nat) (v : Word32) : (s.setCounter o v).sent = s.sent := rfl
@[simp] theorem State.setCounter_free (s : State) (o : Nat) (v : Word32) : (s.setCounter o v).free = s.free := rfl

/-! ## bump -/

@[simp] theorem State.bump_pending (s : State) (o n : Nat) : (s.bump o n).pending = s.pending := rfl
@[simp] theorem State.bump_boot (s : State) (o n : Nat) : (s.bump o n).boot = s.boot := rfl
@[simp] theorem State.bump_beat (s : State) (o n : Nat) : (s.bump o n).beat = s.beat := rfl
@[simp] theorem State.bump_nv (s : State) (o n : Nat) : (s.bump o n).nv = s.nv := rfl
@[simp] theorem State.bump_flash (s : State) (o n : Nat) : (s.bump o n).flash = s.flash := rfl
@[simp] theorem State.bump_otp (s : State) (o n : Nat) : (s.bump o n).otp = s.otp := rfl
@[simp] theorem State.bump_cfg (s : State) (o n : Nat) : (s.bump o n).cfg = s.cfg := rfl
@[simp] theorem State.bump_snap (s : State) (o n : Nat) : (s.bump o n).snap = s.snap := rfl
@[simp] theorem State.bump_struck (s : State) (o n : Nat) : (s.bump o n).struck = s.struck := rfl
@[simp] theorem State.bump_units (s : State) (o n : Nat) : (s.bump o n).units = s.units := rfl
@[simp] theorem State.bump_clusters (s : State) (o n : Nat) : (s.bump o n).clusters = s.clusters := rfl
@[simp] theorem State.bump_shuttles (s : State) (o n : Nat) : (s.bump o n).shuttles = s.shuttles := rfl
@[simp] theorem State.bump_store (s : State) (o n : Nat) : (s.bump o n).store = s.store := rfl
@[simp] theorem State.bump_images (s : State) (o n : Nat) : (s.bump o n).images = s.images := rfl
@[simp] theorem State.bump_mem (s : State) (o n : Nat) : (s.bump o n).mem = s.mem := rfl
@[simp] theorem State.bump_lineTags (s : State) (o n : Nat) : (s.bump o n).lineTags = s.lineTags := rfl
@[simp] theorem State.bump_poison (s : State) (o n : Nat) : (s.bump o n).poison = s.poison := rfl
@[simp] theorem State.bump_storePoison (s : State) (o n : Nat) : (s.bump o n).storePoison = s.storePoison := rfl
@[simp] theorem State.bump_upsets (s : State) (o n : Nat) : (s.bump o n).upsets = s.upsets := rfl
@[simp] theorem State.bump_memc (s : State) (o n : Nat) : (s.bump o n).memc = s.memc := rfl
@[simp] theorem State.bump_fab (s : State) (o n : Nat) : (s.bump o n).fab = s.fab := rfl
@[simp] theorem State.bump_col (s : State) (o n : Nat) : (s.bump o n).col = s.col := rfl
@[simp] theorem State.bump_hx (s : State) (o n : Nat) : (s.bump o n).hx = s.hx := rfl
@[simp] theorem State.bump_ckp (s : State) (o n : Nat) : (s.bump o n).ckp = s.ckp := rfl
@[simp] theorem State.bump_press (s : State) (o n : Nat) : (s.bump o n).press = s.press := rfl
@[simp] theorem State.bump_host (s : State) (o n : Nat) : (s.bump o n).host = s.host := rfl
@[simp] theorem State.bump_sec (s : State) (o n : Nat) : (s.bump o n).sec = s.sec := rfl
@[simp] theorem State.bump_pwr (s : State) (o n : Nat) : (s.bump o n).pwr = s.pwr := rfl
@[simp] theorem State.bump_sent (s : State) (o n : Nat) : (s.bump o n).sent = s.sent := rfl
@[simp] theorem State.bump_free (s : State) (o n : Nat) : (s.bump o n).free = s.free := rfl

/-! ## drain -/

@[simp] theorem State.drain_pending (s : State) (o n : Nat) : (s.drain o n).pending = s.pending := rfl
@[simp] theorem State.drain_boot (s : State) (o n : Nat) : (s.drain o n).boot = s.boot := rfl
@[simp] theorem State.drain_beat (s : State) (o n : Nat) : (s.drain o n).beat = s.beat := rfl
@[simp] theorem State.drain_nv (s : State) (o n : Nat) : (s.drain o n).nv = s.nv := rfl
@[simp] theorem State.drain_flash (s : State) (o n : Nat) : (s.drain o n).flash = s.flash := rfl
@[simp] theorem State.drain_otp (s : State) (o n : Nat) : (s.drain o n).otp = s.otp := rfl
@[simp] theorem State.drain_cfg (s : State) (o n : Nat) : (s.drain o n).cfg = s.cfg := rfl
@[simp] theorem State.drain_snap (s : State) (o n : Nat) : (s.drain o n).snap = s.snap := rfl
@[simp] theorem State.drain_struck (s : State) (o n : Nat) : (s.drain o n).struck = s.struck := rfl
@[simp] theorem State.drain_units (s : State) (o n : Nat) : (s.drain o n).units = s.units := rfl
@[simp] theorem State.drain_clusters (s : State) (o n : Nat) : (s.drain o n).clusters = s.clusters := rfl
@[simp] theorem State.drain_shuttles (s : State) (o n : Nat) : (s.drain o n).shuttles = s.shuttles := rfl
@[simp] theorem State.drain_store (s : State) (o n : Nat) : (s.drain o n).store = s.store := rfl
@[simp] theorem State.drain_images (s : State) (o n : Nat) : (s.drain o n).images = s.images := rfl
@[simp] theorem State.drain_mem (s : State) (o n : Nat) : (s.drain o n).mem = s.mem := rfl
@[simp] theorem State.drain_lineTags (s : State) (o n : Nat) : (s.drain o n).lineTags = s.lineTags := rfl
@[simp] theorem State.drain_poison (s : State) (o n : Nat) : (s.drain o n).poison = s.poison := rfl
@[simp] theorem State.drain_storePoison (s : State) (o n : Nat) : (s.drain o n).storePoison = s.storePoison := rfl
@[simp] theorem State.drain_upsets (s : State) (o n : Nat) : (s.drain o n).upsets = s.upsets := rfl
@[simp] theorem State.drain_memc (s : State) (o n : Nat) : (s.drain o n).memc = s.memc := rfl
@[simp] theorem State.drain_fab (s : State) (o n : Nat) : (s.drain o n).fab = s.fab := rfl
@[simp] theorem State.drain_col (s : State) (o n : Nat) : (s.drain o n).col = s.col := rfl
@[simp] theorem State.drain_hx (s : State) (o n : Nat) : (s.drain o n).hx = s.hx := rfl
@[simp] theorem State.drain_ckp (s : State) (o n : Nat) : (s.drain o n).ckp = s.ckp := rfl
@[simp] theorem State.drain_press (s : State) (o n : Nat) : (s.drain o n).press = s.press := rfl
@[simp] theorem State.drain_host (s : State) (o n : Nat) : (s.drain o n).host = s.host := rfl
@[simp] theorem State.drain_sec (s : State) (o n : Nat) : (s.drain o n).sec = s.sec := rfl
@[simp] theorem State.drain_pwr (s : State) (o n : Nat) : (s.drain o n).pwr = s.pwr := rfl
@[simp] theorem State.drain_sent (s : State) (o n : Nat) : (s.drain o n).sent = s.sent := rfl
@[simp] theorem State.drain_free (s : State) (o n : Nat) : (s.drain o n).free = s.free := rfl

/-! ## emit -/

@[simp] theorem State.emit_pending (s : State) (x : Sent) : (s.emit x).pending = s.pending := rfl
@[simp] theorem State.emit_boot (s : State) (x : Sent) : (s.emit x).boot = s.boot := rfl
@[simp] theorem State.emit_beat (s : State) (x : Sent) : (s.emit x).beat = s.beat := rfl
@[simp] theorem State.emit_nv (s : State) (x : Sent) : (s.emit x).nv = s.nv := rfl
@[simp] theorem State.emit_flash (s : State) (x : Sent) : (s.emit x).flash = s.flash := rfl
@[simp] theorem State.emit_otp (s : State) (x : Sent) : (s.emit x).otp = s.otp := rfl
@[simp] theorem State.emit_cfg (s : State) (x : Sent) : (s.emit x).cfg = s.cfg := rfl
@[simp] theorem State.emit_counters (s : State) (x : Sent) : (s.emit x).counters = s.counters := rfl
@[simp] theorem State.emit_snap (s : State) (x : Sent) : (s.emit x).snap = s.snap := rfl
@[simp] theorem State.emit_struck (s : State) (x : Sent) : (s.emit x).struck = s.struck := rfl
@[simp] theorem State.emit_units (s : State) (x : Sent) : (s.emit x).units = s.units := rfl
@[simp] theorem State.emit_clusters (s : State) (x : Sent) : (s.emit x).clusters = s.clusters := rfl
@[simp] theorem State.emit_shuttles (s : State) (x : Sent) : (s.emit x).shuttles = s.shuttles := rfl
@[simp] theorem State.emit_store (s : State) (x : Sent) : (s.emit x).store = s.store := rfl
@[simp] theorem State.emit_images (s : State) (x : Sent) : (s.emit x).images = s.images := rfl
@[simp] theorem State.emit_mem (s : State) (x : Sent) : (s.emit x).mem = s.mem := rfl
@[simp] theorem State.emit_lineTags (s : State) (x : Sent) : (s.emit x).lineTags = s.lineTags := rfl
@[simp] theorem State.emit_poison (s : State) (x : Sent) : (s.emit x).poison = s.poison := rfl
@[simp] theorem State.emit_storePoison (s : State) (x : Sent) : (s.emit x).storePoison = s.storePoison := rfl
@[simp] theorem State.emit_upsets (s : State) (x : Sent) : (s.emit x).upsets = s.upsets := rfl
@[simp] theorem State.emit_memc (s : State) (x : Sent) : (s.emit x).memc = s.memc := rfl
@[simp] theorem State.emit_fab (s : State) (x : Sent) : (s.emit x).fab = s.fab := rfl
@[simp] theorem State.emit_col (s : State) (x : Sent) : (s.emit x).col = s.col := rfl
@[simp] theorem State.emit_hx (s : State) (x : Sent) : (s.emit x).hx = s.hx := rfl
@[simp] theorem State.emit_ckp (s : State) (x : Sent) : (s.emit x).ckp = s.ckp := rfl
@[simp] theorem State.emit_press (s : State) (x : Sent) : (s.emit x).press = s.press := rfl
@[simp] theorem State.emit_host (s : State) (x : Sent) : (s.emit x).host = s.host := rfl
@[simp] theorem State.emit_sec (s : State) (x : Sent) : (s.emit x).sec = s.sec := rfl
@[simp] theorem State.emit_pwr (s : State) (x : Sent) : (s.emit x).pwr = s.pwr := rfl
@[simp] theorem State.emit_free (s : State) (x : Sent) : (s.emit x).free = s.free := rfl

/-! ## rawWrite -/

@[simp] theorem State.rawWrite_pending (s : State) (a : Nat) (bs : List Byte) : (s.rawWrite a bs).pending = s.pending := rfl
@[simp] theorem State.rawWrite_boot (s : State) (a : Nat) (bs : List Byte) : (s.rawWrite a bs).boot = s.boot := rfl
@[simp] theorem State.rawWrite_beat (s : State) (a : Nat) (bs : List Byte) : (s.rawWrite a bs).beat = s.beat := rfl
@[simp] theorem State.rawWrite_nv (s : State) (a : Nat) (bs : List Byte) : (s.rawWrite a bs).nv = s.nv := rfl
@[simp] theorem State.rawWrite_flash (s : State) (a : Nat) (bs : List Byte) : (s.rawWrite a bs).flash = s.flash := rfl
@[simp] theorem State.rawWrite_otp (s : State) (a : Nat) (bs : List Byte) : (s.rawWrite a bs).otp = s.otp := rfl
@[simp] theorem State.rawWrite_cfg (s : State) (a : Nat) (bs : List Byte) : (s.rawWrite a bs).cfg = s.cfg := rfl
@[simp] theorem State.rawWrite_counters (s : State) (a : Nat) (bs : List Byte) : (s.rawWrite a bs).counters = s.counters := rfl
@[simp] theorem State.rawWrite_snap (s : State) (a : Nat) (bs : List Byte) : (s.rawWrite a bs).snap = s.snap := rfl
@[simp] theorem State.rawWrite_struck (s : State) (a : Nat) (bs : List Byte) : (s.rawWrite a bs).struck = s.struck := rfl
@[simp] theorem State.rawWrite_units (s : State) (a : Nat) (bs : List Byte) : (s.rawWrite a bs).units = s.units := rfl
@[simp] theorem State.rawWrite_clusters (s : State) (a : Nat) (bs : List Byte) : (s.rawWrite a bs).clusters = s.clusters := rfl
@[simp] theorem State.rawWrite_shuttles (s : State) (a : Nat) (bs : List Byte) : (s.rawWrite a bs).shuttles = s.shuttles := rfl
@[simp] theorem State.rawWrite_store (s : State) (a : Nat) (bs : List Byte) : (s.rawWrite a bs).store = s.store := rfl
@[simp] theorem State.rawWrite_images (s : State) (a : Nat) (bs : List Byte) : (s.rawWrite a bs).images = s.images := rfl
@[simp] theorem State.rawWrite_lineTags (s : State) (a : Nat) (bs : List Byte) : (s.rawWrite a bs).lineTags = s.lineTags := rfl
@[simp] theorem State.rawWrite_poison (s : State) (a : Nat) (bs : List Byte) : (s.rawWrite a bs).poison = s.poison := rfl
@[simp] theorem State.rawWrite_storePoison (s : State) (a : Nat) (bs : List Byte) : (s.rawWrite a bs).storePoison = s.storePoison := rfl
@[simp] theorem State.rawWrite_upsets (s : State) (a : Nat) (bs : List Byte) : (s.rawWrite a bs).upsets = s.upsets := rfl
@[simp] theorem State.rawWrite_memc (s : State) (a : Nat) (bs : List Byte) : (s.rawWrite a bs).memc = s.memc := rfl
@[simp] theorem State.rawWrite_fab (s : State) (a : Nat) (bs : List Byte) : (s.rawWrite a bs).fab = s.fab := rfl
@[simp] theorem State.rawWrite_col (s : State) (a : Nat) (bs : List Byte) : (s.rawWrite a bs).col = s.col := rfl
@[simp] theorem State.rawWrite_hx (s : State) (a : Nat) (bs : List Byte) : (s.rawWrite a bs).hx = s.hx := rfl
@[simp] theorem State.rawWrite_ckp (s : State) (a : Nat) (bs : List Byte) : (s.rawWrite a bs).ckp = s.ckp := rfl
@[simp] theorem State.rawWrite_press (s : State) (a : Nat) (bs : List Byte) : (s.rawWrite a bs).press = s.press := rfl
@[simp] theorem State.rawWrite_host (s : State) (a : Nat) (bs : List Byte) : (s.rawWrite a bs).host = s.host := rfl
@[simp] theorem State.rawWrite_sec (s : State) (a : Nat) (bs : List Byte) : (s.rawWrite a bs).sec = s.sec := rfl
@[simp] theorem State.rawWrite_pwr (s : State) (a : Nat) (bs : List Byte) : (s.rawWrite a bs).pwr = s.pwr := rfl
@[simp] theorem State.rawWrite_sent (s : State) (a : Nat) (bs : List Byte) : (s.rawWrite a bs).sent = s.sent := rfl
@[simp] theorem State.rawWrite_free (s : State) (a : Nat) (bs : List Byte) : (s.rawWrite a bs).free = s.free := rfl

/-! ## dropFlips -/

@[simp] theorem State.dropFlips_pending (s : State) (l : WordLoc) : (s.dropFlips l).pending = s.pending := rfl
@[simp] theorem State.dropFlips_boot (s : State) (l : WordLoc) : (s.dropFlips l).boot = s.boot := rfl
@[simp] theorem State.dropFlips_beat (s : State) (l : WordLoc) : (s.dropFlips l).beat = s.beat := rfl
@[simp] theorem State.dropFlips_nv (s : State) (l : WordLoc) : (s.dropFlips l).nv = s.nv := rfl
@[simp] theorem State.dropFlips_flash (s : State) (l : WordLoc) : (s.dropFlips l).flash = s.flash := rfl
@[simp] theorem State.dropFlips_otp (s : State) (l : WordLoc) : (s.dropFlips l).otp = s.otp := rfl
@[simp] theorem State.dropFlips_cfg (s : State) (l : WordLoc) : (s.dropFlips l).cfg = s.cfg := rfl
@[simp] theorem State.dropFlips_counters (s : State) (l : WordLoc) : (s.dropFlips l).counters = s.counters := rfl
@[simp] theorem State.dropFlips_snap (s : State) (l : WordLoc) : (s.dropFlips l).snap = s.snap := rfl
@[simp] theorem State.dropFlips_struck (s : State) (l : WordLoc) : (s.dropFlips l).struck = s.struck := rfl
@[simp] theorem State.dropFlips_units (s : State) (l : WordLoc) : (s.dropFlips l).units = s.units := rfl
@[simp] theorem State.dropFlips_clusters (s : State) (l : WordLoc) : (s.dropFlips l).clusters = s.clusters := rfl
@[simp] theorem State.dropFlips_shuttles (s : State) (l : WordLoc) : (s.dropFlips l).shuttles = s.shuttles := rfl
@[simp] theorem State.dropFlips_store (s : State) (l : WordLoc) : (s.dropFlips l).store = s.store := rfl
@[simp] theorem State.dropFlips_images (s : State) (l : WordLoc) : (s.dropFlips l).images = s.images := rfl
@[simp] theorem State.dropFlips_mem (s : State) (l : WordLoc) : (s.dropFlips l).mem = s.mem := rfl
@[simp] theorem State.dropFlips_lineTags (s : State) (l : WordLoc) : (s.dropFlips l).lineTags = s.lineTags := rfl
@[simp] theorem State.dropFlips_poison (s : State) (l : WordLoc) : (s.dropFlips l).poison = s.poison := rfl
@[simp] theorem State.dropFlips_storePoison (s : State) (l : WordLoc) : (s.dropFlips l).storePoison = s.storePoison := rfl
@[simp] theorem State.dropFlips_memc (s : State) (l : WordLoc) : (s.dropFlips l).memc = s.memc := rfl
@[simp] theorem State.dropFlips_fab (s : State) (l : WordLoc) : (s.dropFlips l).fab = s.fab := rfl
@[simp] theorem State.dropFlips_col (s : State) (l : WordLoc) : (s.dropFlips l).col = s.col := rfl
@[simp] theorem State.dropFlips_hx (s : State) (l : WordLoc) : (s.dropFlips l).hx = s.hx := rfl
@[simp] theorem State.dropFlips_ckp (s : State) (l : WordLoc) : (s.dropFlips l).ckp = s.ckp := rfl
@[simp] theorem State.dropFlips_press (s : State) (l : WordLoc) : (s.dropFlips l).press = s.press := rfl
@[simp] theorem State.dropFlips_host (s : State) (l : WordLoc) : (s.dropFlips l).host = s.host := rfl
@[simp] theorem State.dropFlips_sec (s : State) (l : WordLoc) : (s.dropFlips l).sec = s.sec := rfl
@[simp] theorem State.dropFlips_pwr (s : State) (l : WordLoc) : (s.dropFlips l).pwr = s.pwr := rfl
@[simp] theorem State.dropFlips_sent (s : State) (l : WordLoc) : (s.dropFlips l).sent = s.sent := rfl
@[simp] theorem State.dropFlips_free (s : State) (l : WordLoc) : (s.dropFlips l).free = s.free := rfl

/-! ## setTag -/

@[simp] theorem State.setTag_pending (s : State) (l : Nat) (t : Byte) : (s.setTag l t).pending = s.pending := rfl
@[simp] theorem State.setTag_boot (s : State) (l : Nat) (t : Byte) : (s.setTag l t).boot = s.boot := rfl
@[simp] theorem State.setTag_beat (s : State) (l : Nat) (t : Byte) : (s.setTag l t).beat = s.beat := rfl
@[simp] theorem State.setTag_nv (s : State) (l : Nat) (t : Byte) : (s.setTag l t).nv = s.nv := rfl
@[simp] theorem State.setTag_flash (s : State) (l : Nat) (t : Byte) : (s.setTag l t).flash = s.flash := rfl
@[simp] theorem State.setTag_otp (s : State) (l : Nat) (t : Byte) : (s.setTag l t).otp = s.otp := rfl
@[simp] theorem State.setTag_cfg (s : State) (l : Nat) (t : Byte) : (s.setTag l t).cfg = s.cfg := rfl
@[simp] theorem State.setTag_counters (s : State) (l : Nat) (t : Byte) : (s.setTag l t).counters = s.counters := rfl
@[simp] theorem State.setTag_snap (s : State) (l : Nat) (t : Byte) : (s.setTag l t).snap = s.snap := rfl
@[simp] theorem State.setTag_struck (s : State) (l : Nat) (t : Byte) : (s.setTag l t).struck = s.struck := rfl
@[simp] theorem State.setTag_units (s : State) (l : Nat) (t : Byte) : (s.setTag l t).units = s.units := rfl
@[simp] theorem State.setTag_clusters (s : State) (l : Nat) (t : Byte) : (s.setTag l t).clusters = s.clusters := rfl
@[simp] theorem State.setTag_shuttles (s : State) (l : Nat) (t : Byte) : (s.setTag l t).shuttles = s.shuttles := rfl
@[simp] theorem State.setTag_store (s : State) (l : Nat) (t : Byte) : (s.setTag l t).store = s.store := rfl
@[simp] theorem State.setTag_images (s : State) (l : Nat) (t : Byte) : (s.setTag l t).images = s.images := rfl
@[simp] theorem State.setTag_mem (s : State) (l : Nat) (t : Byte) : (s.setTag l t).mem = s.mem := rfl
@[simp] theorem State.setTag_poison (s : State) (l : Nat) (t : Byte) : (s.setTag l t).poison = s.poison := rfl
@[simp] theorem State.setTag_storePoison (s : State) (l : Nat) (t : Byte) : (s.setTag l t).storePoison = s.storePoison := rfl
@[simp] theorem State.setTag_upsets (s : State) (l : Nat) (t : Byte) : (s.setTag l t).upsets = s.upsets := rfl
@[simp] theorem State.setTag_memc (s : State) (l : Nat) (t : Byte) : (s.setTag l t).memc = s.memc := rfl
@[simp] theorem State.setTag_fab (s : State) (l : Nat) (t : Byte) : (s.setTag l t).fab = s.fab := rfl
@[simp] theorem State.setTag_col (s : State) (l : Nat) (t : Byte) : (s.setTag l t).col = s.col := rfl
@[simp] theorem State.setTag_hx (s : State) (l : Nat) (t : Byte) : (s.setTag l t).hx = s.hx := rfl
@[simp] theorem State.setTag_ckp (s : State) (l : Nat) (t : Byte) : (s.setTag l t).ckp = s.ckp := rfl
@[simp] theorem State.setTag_press (s : State) (l : Nat) (t : Byte) : (s.setTag l t).press = s.press := rfl
@[simp] theorem State.setTag_host (s : State) (l : Nat) (t : Byte) : (s.setTag l t).host = s.host := rfl
@[simp] theorem State.setTag_sec (s : State) (l : Nat) (t : Byte) : (s.setTag l t).sec = s.sec := rfl
@[simp] theorem State.setTag_pwr (s : State) (l : Nat) (t : Byte) : (s.setTag l t).pwr = s.pwr := rfl
@[simp] theorem State.setTag_sent (s : State) (l : Nat) (t : Byte) : (s.setTag l t).sent = s.sent := rfl
@[simp] theorem State.setTag_free (s : State) (l : Nat) (t : Byte) : (s.setTag l t).free = s.free := rfl

/-! ## setVersion -/

@[simp] theorem State.setVersion_pending (s : State) (l : Nat) (v : BitVec 7) : (s.setVersion l v).pending = s.pending := rfl
@[simp] theorem State.setVersion_boot (s : State) (l : Nat) (v : BitVec 7) : (s.setVersion l v).boot = s.boot := rfl
@[simp] theorem State.setVersion_beat (s : State) (l : Nat) (v : BitVec 7) : (s.setVersion l v).beat = s.beat := rfl
@[simp] theorem State.setVersion_nv (s : State) (l : Nat) (v : BitVec 7) : (s.setVersion l v).nv = s.nv := rfl
@[simp] theorem State.setVersion_flash (s : State) (l : Nat) (v : BitVec 7) : (s.setVersion l v).flash = s.flash := rfl
@[simp] theorem State.setVersion_otp (s : State) (l : Nat) (v : BitVec 7) : (s.setVersion l v).otp = s.otp := rfl
@[simp] theorem State.setVersion_cfg (s : State) (l : Nat) (v : BitVec 7) : (s.setVersion l v).cfg = s.cfg := rfl
@[simp] theorem State.setVersion_counters (s : State) (l : Nat) (v : BitVec 7) : (s.setVersion l v).counters = s.counters := rfl
@[simp] theorem State.setVersion_snap (s : State) (l : Nat) (v : BitVec 7) : (s.setVersion l v).snap = s.snap := rfl
@[simp] theorem State.setVersion_struck (s : State) (l : Nat) (v : BitVec 7) : (s.setVersion l v).struck = s.struck := rfl
@[simp] theorem State.setVersion_units (s : State) (l : Nat) (v : BitVec 7) : (s.setVersion l v).units = s.units := rfl
@[simp] theorem State.setVersion_clusters (s : State) (l : Nat) (v : BitVec 7) : (s.setVersion l v).clusters = s.clusters := rfl
@[simp] theorem State.setVersion_shuttles (s : State) (l : Nat) (v : BitVec 7) : (s.setVersion l v).shuttles = s.shuttles := rfl
@[simp] theorem State.setVersion_store (s : State) (l : Nat) (v : BitVec 7) : (s.setVersion l v).store = s.store := rfl
@[simp] theorem State.setVersion_images (s : State) (l : Nat) (v : BitVec 7) : (s.setVersion l v).images = s.images := rfl
@[simp] theorem State.setVersion_mem (s : State) (l : Nat) (v : BitVec 7) : (s.setVersion l v).mem = s.mem := rfl
@[simp] theorem State.setVersion_poison (s : State) (l : Nat) (v : BitVec 7) : (s.setVersion l v).poison = s.poison := rfl
@[simp] theorem State.setVersion_storePoison (s : State) (l : Nat) (v : BitVec 7) : (s.setVersion l v).storePoison = s.storePoison := rfl
@[simp] theorem State.setVersion_upsets (s : State) (l : Nat) (v : BitVec 7) : (s.setVersion l v).upsets = s.upsets := rfl
@[simp] theorem State.setVersion_memc (s : State) (l : Nat) (v : BitVec 7) : (s.setVersion l v).memc = s.memc := rfl
@[simp] theorem State.setVersion_fab (s : State) (l : Nat) (v : BitVec 7) : (s.setVersion l v).fab = s.fab := rfl
@[simp] theorem State.setVersion_col (s : State) (l : Nat) (v : BitVec 7) : (s.setVersion l v).col = s.col := rfl
@[simp] theorem State.setVersion_hx (s : State) (l : Nat) (v : BitVec 7) : (s.setVersion l v).hx = s.hx := rfl
@[simp] theorem State.setVersion_ckp (s : State) (l : Nat) (v : BitVec 7) : (s.setVersion l v).ckp = s.ckp := rfl
@[simp] theorem State.setVersion_press (s : State) (l : Nat) (v : BitVec 7) : (s.setVersion l v).press = s.press := rfl
@[simp] theorem State.setVersion_host (s : State) (l : Nat) (v : BitVec 7) : (s.setVersion l v).host = s.host := rfl
@[simp] theorem State.setVersion_sec (s : State) (l : Nat) (v : BitVec 7) : (s.setVersion l v).sec = s.sec := rfl
@[simp] theorem State.setVersion_pwr (s : State) (l : Nat) (v : BitVec 7) : (s.setVersion l v).pwr = s.pwr := rfl
@[simp] theorem State.setVersion_sent (s : State) (l : Nat) (v : BitVec 7) : (s.setVersion l v).sent = s.sent := rfl
@[simp] theorem State.setVersion_free (s : State) (l : Nat) (v : BitVec 7) : (s.setVersion l v).free = s.free := rfl

/-! ## poisonLine -/

@[simp] theorem State.poisonLine_pending (s : State) (l : Nat) : (s.poisonLine l).pending = s.pending := rfl
@[simp] theorem State.poisonLine_boot (s : State) (l : Nat) : (s.poisonLine l).boot = s.boot := rfl
@[simp] theorem State.poisonLine_beat (s : State) (l : Nat) : (s.poisonLine l).beat = s.beat := rfl
@[simp] theorem State.poisonLine_nv (s : State) (l : Nat) : (s.poisonLine l).nv = s.nv := rfl
@[simp] theorem State.poisonLine_flash (s : State) (l : Nat) : (s.poisonLine l).flash = s.flash := rfl
@[simp] theorem State.poisonLine_otp (s : State) (l : Nat) : (s.poisonLine l).otp = s.otp := rfl
@[simp] theorem State.poisonLine_cfg (s : State) (l : Nat) : (s.poisonLine l).cfg = s.cfg := rfl
@[simp] theorem State.poisonLine_counters (s : State) (l : Nat) : (s.poisonLine l).counters = s.counters := rfl
@[simp] theorem State.poisonLine_snap (s : State) (l : Nat) : (s.poisonLine l).snap = s.snap := rfl
@[simp] theorem State.poisonLine_struck (s : State) (l : Nat) : (s.poisonLine l).struck = s.struck := rfl
@[simp] theorem State.poisonLine_units (s : State) (l : Nat) : (s.poisonLine l).units = s.units := rfl
@[simp] theorem State.poisonLine_clusters (s : State) (l : Nat) : (s.poisonLine l).clusters = s.clusters := rfl
@[simp] theorem State.poisonLine_shuttles (s : State) (l : Nat) : (s.poisonLine l).shuttles = s.shuttles := rfl
@[simp] theorem State.poisonLine_store (s : State) (l : Nat) : (s.poisonLine l).store = s.store := rfl
@[simp] theorem State.poisonLine_images (s : State) (l : Nat) : (s.poisonLine l).images = s.images := rfl
@[simp] theorem State.poisonLine_mem (s : State) (l : Nat) : (s.poisonLine l).mem = s.mem := rfl
@[simp] theorem State.poisonLine_poison (s : State) (l : Nat) : (s.poisonLine l).poison = s.poison := rfl
@[simp] theorem State.poisonLine_storePoison (s : State) (l : Nat) : (s.poisonLine l).storePoison = s.storePoison := rfl
@[simp] theorem State.poisonLine_upsets (s : State) (l : Nat) : (s.poisonLine l).upsets = s.upsets := rfl
@[simp] theorem State.poisonLine_memc (s : State) (l : Nat) : (s.poisonLine l).memc = s.memc := rfl
@[simp] theorem State.poisonLine_fab (s : State) (l : Nat) : (s.poisonLine l).fab = s.fab := rfl
@[simp] theorem State.poisonLine_col (s : State) (l : Nat) : (s.poisonLine l).col = s.col := rfl
@[simp] theorem State.poisonLine_hx (s : State) (l : Nat) : (s.poisonLine l).hx = s.hx := rfl
@[simp] theorem State.poisonLine_ckp (s : State) (l : Nat) : (s.poisonLine l).ckp = s.ckp := rfl
@[simp] theorem State.poisonLine_press (s : State) (l : Nat) : (s.poisonLine l).press = s.press := rfl
@[simp] theorem State.poisonLine_host (s : State) (l : Nat) : (s.poisonLine l).host = s.host := rfl
@[simp] theorem State.poisonLine_sec (s : State) (l : Nat) : (s.poisonLine l).sec = s.sec := rfl
@[simp] theorem State.poisonLine_pwr (s : State) (l : Nat) : (s.poisonLine l).pwr = s.pwr := rfl
@[simp] theorem State.poisonLine_sent (s : State) (l : Nat) : (s.poisonLine l).sent = s.sent := rfl
@[simp] theorem State.poisonLine_free (s : State) (l : Nat) : (s.poisonLine l).free = s.free := rfl

/-! ## setWordPoison -/

@[simp] theorem State.setWordPoison_pending (s : State) (w : Nat) (b : Bool) : (s.setWordPoison w b).pending = s.pending := rfl
@[simp] theorem State.setWordPoison_boot (s : State) (w : Nat) (b : Bool) : (s.setWordPoison w b).boot = s.boot := rfl
@[simp] theorem State.setWordPoison_beat (s : State) (w : Nat) (b : Bool) : (s.setWordPoison w b).beat = s.beat := rfl
@[simp] theorem State.setWordPoison_nv (s : State) (w : Nat) (b : Bool) : (s.setWordPoison w b).nv = s.nv := rfl
@[simp] theorem State.setWordPoison_flash (s : State) (w : Nat) (b : Bool) : (s.setWordPoison w b).flash = s.flash := rfl
@[simp] theorem State.setWordPoison_otp (s : State) (w : Nat) (b : Bool) : (s.setWordPoison w b).otp = s.otp := rfl
@[simp] theorem State.setWordPoison_cfg (s : State) (w : Nat) (b : Bool) : (s.setWordPoison w b).cfg = s.cfg := rfl
@[simp] theorem State.setWordPoison_counters (s : State) (w : Nat) (b : Bool) : (s.setWordPoison w b).counters = s.counters := rfl
@[simp] theorem State.setWordPoison_snap (s : State) (w : Nat) (b : Bool) : (s.setWordPoison w b).snap = s.snap := rfl
@[simp] theorem State.setWordPoison_struck (s : State) (w : Nat) (b : Bool) : (s.setWordPoison w b).struck = s.struck := rfl
@[simp] theorem State.setWordPoison_units (s : State) (w : Nat) (b : Bool) : (s.setWordPoison w b).units = s.units := rfl
@[simp] theorem State.setWordPoison_clusters (s : State) (w : Nat) (b : Bool) : (s.setWordPoison w b).clusters = s.clusters := rfl
@[simp] theorem State.setWordPoison_shuttles (s : State) (w : Nat) (b : Bool) : (s.setWordPoison w b).shuttles = s.shuttles := rfl
@[simp] theorem State.setWordPoison_store (s : State) (w : Nat) (b : Bool) : (s.setWordPoison w b).store = s.store := rfl
@[simp] theorem State.setWordPoison_images (s : State) (w : Nat) (b : Bool) : (s.setWordPoison w b).images = s.images := rfl
@[simp] theorem State.setWordPoison_mem (s : State) (w : Nat) (b : Bool) : (s.setWordPoison w b).mem = s.mem := rfl
@[simp] theorem State.setWordPoison_lineTags (s : State) (w : Nat) (b : Bool) : (s.setWordPoison w b).lineTags = s.lineTags := rfl
@[simp] theorem State.setWordPoison_storePoison (s : State) (w : Nat) (b : Bool) : (s.setWordPoison w b).storePoison = s.storePoison := rfl
@[simp] theorem State.setWordPoison_upsets (s : State) (w : Nat) (b : Bool) : (s.setWordPoison w b).upsets = s.upsets := rfl
@[simp] theorem State.setWordPoison_memc (s : State) (w : Nat) (b : Bool) : (s.setWordPoison w b).memc = s.memc := rfl
@[simp] theorem State.setWordPoison_fab (s : State) (w : Nat) (b : Bool) : (s.setWordPoison w b).fab = s.fab := rfl
@[simp] theorem State.setWordPoison_col (s : State) (w : Nat) (b : Bool) : (s.setWordPoison w b).col = s.col := rfl
@[simp] theorem State.setWordPoison_hx (s : State) (w : Nat) (b : Bool) : (s.setWordPoison w b).hx = s.hx := rfl
@[simp] theorem State.setWordPoison_ckp (s : State) (w : Nat) (b : Bool) : (s.setWordPoison w b).ckp = s.ckp := rfl
@[simp] theorem State.setWordPoison_press (s : State) (w : Nat) (b : Bool) : (s.setWordPoison w b).press = s.press := rfl
@[simp] theorem State.setWordPoison_host (s : State) (w : Nat) (b : Bool) : (s.setWordPoison w b).host = s.host := rfl
@[simp] theorem State.setWordPoison_sec (s : State) (w : Nat) (b : Bool) : (s.setWordPoison w b).sec = s.sec := rfl
@[simp] theorem State.setWordPoison_pwr (s : State) (w : Nat) (b : Bool) : (s.setWordPoison w b).pwr = s.pwr := rfl
@[simp] theorem State.setWordPoison_sent (s : State) (w : Nat) (b : Bool) : (s.setWordPoison w b).sent = s.sent := rfl
@[simp] theorem State.setWordPoison_free (s : State) (w : Nat) (b : Bool) : (s.setWordPoison w b).free = s.free := rfl

/-! ## unitFlag -/

@[simp] theorem State.unitFlag_pending (s : State) (u : UnitId) (f : Flags) : (s.unitFlag u f).pending = s.pending := rfl
@[simp] theorem State.unitFlag_boot (s : State) (u : UnitId) (f : Flags) : (s.unitFlag u f).boot = s.boot := rfl
@[simp] theorem State.unitFlag_beat (s : State) (u : UnitId) (f : Flags) : (s.unitFlag u f).beat = s.beat := rfl
@[simp] theorem State.unitFlag_nv (s : State) (u : UnitId) (f : Flags) : (s.unitFlag u f).nv = s.nv := rfl
@[simp] theorem State.unitFlag_flash (s : State) (u : UnitId) (f : Flags) : (s.unitFlag u f).flash = s.flash := rfl
@[simp] theorem State.unitFlag_otp (s : State) (u : UnitId) (f : Flags) : (s.unitFlag u f).otp = s.otp := rfl
@[simp] theorem State.unitFlag_cfg (s : State) (u : UnitId) (f : Flags) : (s.unitFlag u f).cfg = s.cfg := rfl
@[simp] theorem State.unitFlag_counters (s : State) (u : UnitId) (f : Flags) : (s.unitFlag u f).counters = s.counters := rfl
@[simp] theorem State.unitFlag_snap (s : State) (u : UnitId) (f : Flags) : (s.unitFlag u f).snap = s.snap := rfl
@[simp] theorem State.unitFlag_struck (s : State) (u : UnitId) (f : Flags) : (s.unitFlag u f).struck = s.struck := rfl
@[simp] theorem State.unitFlag_clusters (s : State) (u : UnitId) (f : Flags) : (s.unitFlag u f).clusters = s.clusters := rfl
@[simp] theorem State.unitFlag_shuttles (s : State) (u : UnitId) (f : Flags) : (s.unitFlag u f).shuttles = s.shuttles := rfl
@[simp] theorem State.unitFlag_store (s : State) (u : UnitId) (f : Flags) : (s.unitFlag u f).store = s.store := rfl
@[simp] theorem State.unitFlag_images (s : State) (u : UnitId) (f : Flags) : (s.unitFlag u f).images = s.images := rfl
@[simp] theorem State.unitFlag_mem (s : State) (u : UnitId) (f : Flags) : (s.unitFlag u f).mem = s.mem := rfl
@[simp] theorem State.unitFlag_lineTags (s : State) (u : UnitId) (f : Flags) : (s.unitFlag u f).lineTags = s.lineTags := rfl
@[simp] theorem State.unitFlag_poison (s : State) (u : UnitId) (f : Flags) : (s.unitFlag u f).poison = s.poison := rfl
@[simp] theorem State.unitFlag_storePoison (s : State) (u : UnitId) (f : Flags) : (s.unitFlag u f).storePoison = s.storePoison := rfl
@[simp] theorem State.unitFlag_upsets (s : State) (u : UnitId) (f : Flags) : (s.unitFlag u f).upsets = s.upsets := rfl
@[simp] theorem State.unitFlag_memc (s : State) (u : UnitId) (f : Flags) : (s.unitFlag u f).memc = s.memc := rfl
@[simp] theorem State.unitFlag_fab (s : State) (u : UnitId) (f : Flags) : (s.unitFlag u f).fab = s.fab := rfl
@[simp] theorem State.unitFlag_col (s : State) (u : UnitId) (f : Flags) : (s.unitFlag u f).col = s.col := rfl
@[simp] theorem State.unitFlag_hx (s : State) (u : UnitId) (f : Flags) : (s.unitFlag u f).hx = s.hx := rfl
@[simp] theorem State.unitFlag_ckp (s : State) (u : UnitId) (f : Flags) : (s.unitFlag u f).ckp = s.ckp := rfl
@[simp] theorem State.unitFlag_press (s : State) (u : UnitId) (f : Flags) : (s.unitFlag u f).press = s.press := rfl
@[simp] theorem State.unitFlag_host (s : State) (u : UnitId) (f : Flags) : (s.unitFlag u f).host = s.host := rfl
@[simp] theorem State.unitFlag_sec (s : State) (u : UnitId) (f : Flags) : (s.unitFlag u f).sec = s.sec := rfl
@[simp] theorem State.unitFlag_pwr (s : State) (u : UnitId) (f : Flags) : (s.unitFlag u f).pwr = s.pwr := rfl
@[simp] theorem State.unitFlag_sent (s : State) (u : UnitId) (f : Flags) : (s.unitFlag u f).sent = s.sent := rfl
@[simp] theorem State.unitFlag_free (s : State) (u : UnitId) (f : Flags) : (s.unitFlag u f).free = s.free := rfl

/-! ## setColl -/

@[simp] theorem State.setColl_pending (s : State) (c : Coll) : (s.setColl c).pending = s.pending := rfl
@[simp] theorem State.setColl_boot (s : State) (c : Coll) : (s.setColl c).boot = s.boot := rfl
@[simp] theorem State.setColl_beat (s : State) (c : Coll) : (s.setColl c).beat = s.beat := rfl
@[simp] theorem State.setColl_nv (s : State) (c : Coll) : (s.setColl c).nv = s.nv := rfl
@[simp] theorem State.setColl_flash (s : State) (c : Coll) : (s.setColl c).flash = s.flash := rfl
@[simp] theorem State.setColl_otp (s : State) (c : Coll) : (s.setColl c).otp = s.otp := rfl
@[simp] theorem State.setColl_cfg (s : State) (c : Coll) : (s.setColl c).cfg = s.cfg := rfl
@[simp] theorem State.setColl_counters (s : State) (c : Coll) : (s.setColl c).counters = s.counters := rfl
@[simp] theorem State.setColl_snap (s : State) (c : Coll) : (s.setColl c).snap = s.snap := rfl
@[simp] theorem State.setColl_struck (s : State) (c : Coll) : (s.setColl c).struck = s.struck := rfl
@[simp] theorem State.setColl_units (s : State) (c : Coll) : (s.setColl c).units = s.units := rfl
@[simp] theorem State.setColl_clusters (s : State) (c : Coll) : (s.setColl c).clusters = s.clusters := rfl
@[simp] theorem State.setColl_shuttles (s : State) (c : Coll) : (s.setColl c).shuttles = s.shuttles := rfl
@[simp] theorem State.setColl_store (s : State) (c : Coll) : (s.setColl c).store = s.store := rfl
@[simp] theorem State.setColl_images (s : State) (c : Coll) : (s.setColl c).images = s.images := rfl
@[simp] theorem State.setColl_mem (s : State) (c : Coll) : (s.setColl c).mem = s.mem := rfl
@[simp] theorem State.setColl_lineTags (s : State) (c : Coll) : (s.setColl c).lineTags = s.lineTags := rfl
@[simp] theorem State.setColl_poison (s : State) (c : Coll) : (s.setColl c).poison = s.poison := rfl
@[simp] theorem State.setColl_storePoison (s : State) (c : Coll) : (s.setColl c).storePoison = s.storePoison := rfl
@[simp] theorem State.setColl_upsets (s : State) (c : Coll) : (s.setColl c).upsets = s.upsets := rfl
@[simp] theorem State.setColl_memc (s : State) (c : Coll) : (s.setColl c).memc = s.memc := rfl
@[simp] theorem State.setColl_fab (s : State) (c : Coll) : (s.setColl c).fab = s.fab := rfl
@[simp] theorem State.setColl_hx (s : State) (c : Coll) : (s.setColl c).hx = s.hx := rfl
@[simp] theorem State.setColl_ckp (s : State) (c : Coll) : (s.setColl c).ckp = s.ckp := rfl
@[simp] theorem State.setColl_press (s : State) (c : Coll) : (s.setColl c).press = s.press := rfl
@[simp] theorem State.setColl_host (s : State) (c : Coll) : (s.setColl c).host = s.host := rfl
@[simp] theorem State.setColl_sec (s : State) (c : Coll) : (s.setColl c).sec = s.sec := rfl
@[simp] theorem State.setColl_pwr (s : State) (c : Coll) : (s.setColl c).pwr = s.pwr := rfl
@[simp] theorem State.setColl_sent (s : State) (c : Coll) : (s.setColl c).sent = s.sent := rfl
@[simp] theorem State.setColl_free (s : State) (c : Coll) : (s.setColl c).free = s.free := rfl

/-! ## useFree -/

@[simp] theorem useFree_pending (s : State) : (useFree s).pending = s.pending := rfl
@[simp] theorem useFree_boot (s : State) : (useFree s).boot = s.boot := rfl
@[simp] theorem useFree_beat (s : State) : (useFree s).beat = s.beat := rfl
@[simp] theorem useFree_nv (s : State) : (useFree s).nv = s.nv := rfl
@[simp] theorem useFree_flash (s : State) : (useFree s).flash = s.flash := rfl
@[simp] theorem useFree_otp (s : State) : (useFree s).otp = s.otp := rfl
@[simp] theorem useFree_cfg (s : State) : (useFree s).cfg = s.cfg := rfl
@[simp] theorem useFree_counters (s : State) : (useFree s).counters = s.counters := rfl
@[simp] theorem useFree_snap (s : State) : (useFree s).snap = s.snap := rfl
@[simp] theorem useFree_struck (s : State) : (useFree s).struck = s.struck := rfl
@[simp] theorem useFree_units (s : State) : (useFree s).units = s.units := rfl
@[simp] theorem useFree_clusters (s : State) : (useFree s).clusters = s.clusters := rfl
@[simp] theorem useFree_shuttles (s : State) : (useFree s).shuttles = s.shuttles := rfl
@[simp] theorem useFree_store (s : State) : (useFree s).store = s.store := rfl
@[simp] theorem useFree_images (s : State) : (useFree s).images = s.images := rfl
@[simp] theorem useFree_mem (s : State) : (useFree s).mem = s.mem := rfl
@[simp] theorem useFree_lineTags (s : State) : (useFree s).lineTags = s.lineTags := rfl
@[simp] theorem useFree_poison (s : State) : (useFree s).poison = s.poison := rfl
@[simp] theorem useFree_storePoison (s : State) : (useFree s).storePoison = s.storePoison := rfl
@[simp] theorem useFree_upsets (s : State) : (useFree s).upsets = s.upsets := rfl
@[simp] theorem useFree_memc (s : State) : (useFree s).memc = s.memc := rfl
@[simp] theorem useFree_fab (s : State) : (useFree s).fab = s.fab := rfl
@[simp] theorem useFree_col (s : State) : (useFree s).col = s.col := rfl
@[simp] theorem useFree_hx (s : State) : (useFree s).hx = s.hx := rfl
@[simp] theorem useFree_ckp (s : State) : (useFree s).ckp = s.ckp := rfl
@[simp] theorem useFree_press (s : State) : (useFree s).press = s.press := rfl
@[simp] theorem useFree_host (s : State) : (useFree s).host = s.host := rfl
@[simp] theorem useFree_sec (s : State) : (useFree s).sec = s.sec := rfl
@[simp] theorem useFree_pwr (s : State) : (useFree s).pwr = s.pwr := rfl
@[simp] theorem useFree_sent (s : State) : (useFree s).sent = s.sent := rfl

/-! ## What an update changes -/

@[simp] theorem State.emit_sent (s : State) (x : Sent) : (s.emit x).sent = x :: s.sent := rfl
@[simp] theorem State.setPort_routes (s : State) (p : Nat) (x : Port) : (s.setPort p x).fab.routes = s.fab.routes := rfl
@[simp] theorem State.setColl_aborted (s : State) (c : Coll) : (s.setColl c).col.aborted = s.col.aborted := rfl

theorem UnitId.key_inj {u v : UnitId} (h : u.key = v.key) : u = v := by
  obtain ⟨⟨d, hd⟩, ⟨k, hk⟩⟩ := u
  obtain ⟨⟨e, he⟩, ⟨l, hl⟩⟩ := v
  simp only [UnitId.key] at h
  have h1 : d = e := by omega
  have h2 : k = l := by omega
  subst h1 h2
  rfl

/-- A unit state reads back, and other units are left alone. -/
theorem State.unit_setUnit (s : State) (u v : UnitId) (x : UnitState) :
    (s.setUnit u x).unit v = if v = u then x else s.unit v := by
  rw [State.setUnit, State.unit, tget_tput]
  by_cases h : v = u
  · subst h; simp
  · have : v.key ≠ u.key := fun e => h (UnitId.key_inj e)
    simp [h, this, State.unit]

@[simp] theorem State.unit_setUnit_self (s : State) (u : UnitId) (x : UnitState) : (s.setUnit u x).unit u = x := by
  simp [State.unit_setUnit]

theorem State.unit_setUnit_ne (s : State) {u v : UnitId} (hv : v ≠ u) (x : UnitState) : (s.setUnit u x).unit v = s.unit v := by
  simp [State.unit_setUnit, hv]

@[simp] theorem State.unit_modUnit_self (s : State) (u : UnitId) (f : UnitState → UnitState) :
    (s.modUnit u f).unit u = f (s.unit u) := State.unit_setUnit_self _ _ _

theorem State.unit_modUnit_ne (s : State) {u v : UnitId} (hv : v ≠ u) (f : UnitState → UnitState) :
    (s.modUnit u f).unit v = s.unit v := State.unit_setUnit_ne _ hv _

theorem ClusterId.key_inj {u v : ClusterId} (h : u.key = v.key) : u = v := by
  obtain ⟨⟨d, hd⟩, ⟨k, hk⟩⟩ := u
  obtain ⟨⟨e, he⟩, ⟨l, hl⟩⟩ := v
  simp only [ClusterId.key] at h
  have h1 : d = e := by omega
  have h2 : k = l := by omega
  subst h1 h2
  rfl

@[simp] theorem State.clu_setClu_self (s : State) (c : ClusterId) (x : Cluster) : (s.setClu c x).clu c = x :=
  tget_tput_self _ _ _ _

@[simp] theorem State.sh_setSh_self (s : State) (h : ShuttleId) (x : Shuttle) : (s.setSh h x).sh h = x :=
  tget_tput_self _ _ _ _

@[simp] theorem State.port_setPort_self (s : State) (p : Nat) (x : Port) : (s.setPort p x).port p = x :=
  tget_tput_self _ _ _ _

theorem State.port_setPort_ne (s : State) {p q : Nat} (h : q ≠ p) (x : Port) : (s.setPort p x).port q = s.port q :=
  tget_tput_ne _ h _ _

theorem State.counter_setCounter (s : State) (o p : Nat) (v : Word32) :
    (s.setCounter o v).counter p = if p = o then v else s.counter p := by
  rw [State.setCounter, State.counter, tget_tput]
  rfl

/-- A unit reads from the table alone. -/
theorem State.unit_of_units {s t : State} (h : t.units = s.units) (u : UnitId) : t.unit u = s.unit u := by
  simp [State.unit, h]

end Sys2Proof.Machine
end

