-- ==== Sys2Proof/Laws/Issue.lean ====
section
/-! SUPPORT. The fetch of an instruction (R207) and the row that issues it: what they can do to a unit. -/
namespace Sys2Proof.Machine

@[simp] theorem settleWord_units (s : State) (l : WordLoc) : (settleWord s l).s.units = s.units := by
  unfold settleWord; simp only; split <;> (try split) <;> simp

/-- u's state is x but for the beats of its uncorrectable errors; every other unit is as in s. -/
def UeOnly (u : UnitId) (s t : State) : Prop :=
  (∃ l, t.unit u = { s.unit u with ueTimes := l }) ∧ ∀ v, v ≠ u → t.unit v = s.unit v

theorem UeOnly.units {u : UnitId} {s t t' : State} (h : UeOnly u s t) (e : t'.units = t.units) : UeOnly u s t' := by
  obtain ⟨⟨l, h1⟩, h2⟩ := h
  exact ⟨⟨l, by rw [State.unit_of_units e, h1]⟩, fun v hv => by rw [State.unit_of_units e, h2 v hv]⟩

@[simp] theorem xorHalf_units (u : UnitId) (i h : Nat) (x : Word64) (s : State) : (xorHalf u i h x s).units = s.units := by
  unfold xorHalf; split <;> rfl

@[simp] theorem countCe_units (u : UnitId) (b : Bool) (s : State) : (countCe u b s).units = s.units := by
  unfold countCe; split <;> rfl

theorem UeOnly.countUe {u : UnitId} {s t : State} (h : UeOnly u s t) (b : Bool) : UeOnly u s (countUe u b t) := by
  obtain ⟨⟨l, h1⟩, h2⟩ := h
  unfold Sys2Proof.Machine.countUe
  split
  · refine ⟨⟨t.unitBeat u :: l, ?_⟩, fun v hv => ?_⟩
    · exact (State.unit_setUnit_self _ _ _).trans (by
        show { t.unit u with ueTimes := t.unitBeat u :: (t.unit u).ueTimes } = _
        rw [h1])
    · exact (State.unit_setUnit_ne _ hv _).trans (h2 v hv)
  · exact ⟨⟨l, h1⟩, h2⟩

theorem touchInstr_ueOnly (u : UnitId) (i : Nat) (s : State) :
    UeOnly u s (touchInstr u i s).1 := by
  have h0 : UeOnly u s s := ⟨⟨(s.unit u).ueTimes, rfl⟩, fun _ _ => rfl⟩
  have key : ∀ h t, UeOnly u s t → UeOnly u s (touchHalf u i h t) := by
    intro h t ht
    unfold touchHalf
    simp only
    split
    · exact ht
    · have h1 : UeOnly u s (settleWord t (.store u.key i h)).s := ht.units (by simp)
      generalize settleWord t (.store u.key i h) = r at *
      have h2 := h1.units (xorHalf_units u i h (r.change.extractLsb' 0 64) r.s)
      have h3 := h2.units (countCe_units u r.ce _)
      split
      · refine UeOnly.countUe ?_ _
        exact h3.units rfl
      · exact h3
  exact key _ _ (key _ _ h0)
/-! ## Issue -/

theorem canIssue_running {s : State} {u : UnitId} (h : canIssue s u = true) : (s.unit u).status = .running := by
  simp only [canIssue, Bool.and_eq_true, beq_iff_eq] at h
  exact h.1.2

theorem canIssue_ready {s : State} {u : UnitId} (h : canIssue s u = true) : s.isReady = true := by
  simp only [canIssue, Bool.and_eq_true] at h
  exact h.1.1

/-- The row of an issued instruction is that instruction's meaning in the state after the fetch. -/
theorem issueRow_issues {cls op : Nat} {u : UnitId} {s : State} (h : Issues cls op u s) (body : InstrWord → State → Done) :
    issueRow cls op u body s = finish u (body (fetchedWord s u) (acting s u)) := by
  have h1 := h.sound; have h2 := h.legal; have h3 := h.cls_eq; have h4 := h.op_eq; have h5 := h.whole
  simp only [skipped, fetchedWord, fetched] at h2 h3 h4 h5
  generalize hq : touchInstr u (s.unit u).pc.toNat s = q at *
  obtain ⟨a, b⟩ := q
  simp only at h1 h2 h3 h4 h5
  simp only [issueRow, h.can, hq, acting, fetched, fetchedWord, h1, h2, h3, h4]
  simp only [Bool.not_true, Bool.false_eq_true, if_false, bne_self_eq_false, Bool.or_self]
  simp only [h5, Bool.false_eq_true, if_false]

/-- A skipped instruction retires and is counted (R184). -/
theorem issueRow_skipped {cls op : Nat} {u : UnitId} {s : State} (h : Fetches cls op u s) (hs : skipped cls op u s = true)
    (body : InstrWord → State → Done) : issueRow cls op u body s = skip u cls (fetchedWord s u) (fetched s u) := by
  have h1 := h.sound; have h2 := h.legal; have h3 := h.cls_eq; have h4 := h.op_eq
  simp only [skipped, fetchedWord, fetched] at h2 h3 h4 hs
  generalize hq : touchInstr u (s.unit u).pc.toNat s = q at *
  obtain ⟨a, b⟩ := q
  simp only at h1 h2 h3 h4 hs
  simp only [issueRow, h.can, hq, fetched, fetchedWord, h1, h2, h3, h4]
  simp only [Bool.not_true, Bool.false_eq_true, if_false, bne_self_eq_false, Bool.or_self]
  simp only [hs, if_true]

/-- The fetch leaves u's state as it is but for the beats of its uncorrectable errors and, once, its launch beat. -/
theorem fetched_unit (s : State) (u : UnitId) :
    ∃ l b f, (fetched s u).unit u = { s.unit u with ueTimes := l, launchBeat := b, unissued := f } := by
  obtain ⟨⟨l, hl⟩, _⟩ := touchInstr_ueOnly u (s.unit u).pc.toNat s
  unfold fetched noteIssue
  split
  · exact ⟨l, _, false, by rw [State.unit_modUnit_self, hl]⟩
  · exact ⟨l, (s.unit u).launchBeat, (s.unit u).unissued, by rw [hl]⟩

/-- The fetch leaves the unit running. -/
theorem fetched_running {s : State} {u : UnitId} (h : canIssue s u = true) : ((fetched s u).unit u).status = .running := by
  obtain ⟨l, b, f, e⟩ := fetched_unit s u
  rw [e]; exact canIssue_running h

theorem acting_unit (s : State) (u : UnitId) : (acting s u).unit u = { (fetched s u).unit u with wait := .none } :=
  State.unit_modUnit_self _ _ _

/-- Setting a unit's state ends any earlier change of it. -/
theorem onlyUnit_setUnit (s : State) (u : UnitId) (x : UnitState) : onlyUnit u x s (s.setUnit u x) :=
  ⟨rfl, State.unit_setUnit_self _ _ _, fun _ hv => State.unit_setUnit_ne _ hv _⟩

theorem onlyUnit_trans {s t r : State} {u : UnitId} {x y : UnitState} (h : onlyUnit u x s t) (k : onlyUnit u y t r) :
    onlyUnit u y s r := by
  refine ⟨?_, k.2.1, fun v hv => (k.2.2 v hv).trans (h.2.2 v hv)⟩
  rw [k.1, h.1]

theorem acting_only (s : State) (u : UnitId) :
    onlyUnit u { (fetched s u).unit u with wait := .none } (fetched s u) (acting s u) := onlyUnit_setUnit _ _ _

/-- Below index 4,095 the counter moves on (R137). -/
theorem advance_only {s : State} {u : UnitId} (hp : (s.unit u).pc ≠ 4095) :
    onlyUnit u { s.unit u with pc := (s.unit u).pc + 1, wait := .none } s (advance u s) := by
  have : advance u s = s.setUnit u { s.unit u with pc := (s.unit u).pc + 1, wait := .none } := by
    unfold advance; simp only [hp, if_false]
  rw [this]
  exact onlyUnit_setUnit _ _ _

end Sys2Proof.Machine
end

