-- ==== Sys2Proof/Laws/Memory.lean ====
section
/-! SUPPORT. The operations over memory keep its one canonical form; what an event and the owner checks leave alone. -/
namespace Sys2Proof.Machine

theorem reset_mem_wf : Memory.wf State.reset.mem = true := rfl

/-! ## What changes no byte -/

@[simp] theorem emitEvent_mem (e : Event) (n : Fin 2) (s : State) : (emitEvent e n s).mem = s.mem := by
  unfold emitEvent; split
  · split <;> rfl
  · rfl

@[simp] theorem sendEvent_mem (code : BitVec 16) (sev : BitVec 8) (p : Word32) (q : BitVec 48) (c : BitVec 16) (x : BitVec 96)
    (s : State) : (sendEvent code sev p q c x s).mem = s.mem := by
  unfold sendEvent; split
  · rfl
  · simp only; split <;> simp [State.newInterval]

@[simp] theorem refuse_mem (u : UnitId) (acc : Bool) (i : Nat) (m : Master) (s : State) : (refuse u acc i m s).mem = s.mem := by
  unfold refuse; simp only; split <;> rfl

/-- Owner codes and open stacks decide on an access; memory is not touched. -/
@[simp] theorem openSpan_mem (r : Region) (a n : Nat) (m : Master) (s : State) : (openSpan r a n m s).1.mem = s.mem := by
  unfold openSpan; split <;> first | rfl | (split <;> simp)

@[simp] theorem settleWord_mem (s : State) (l : WordLoc) : (settleWord s l).s.mem = s.mem := by
  have m : ∀ t : State, (t.dropFlips l).mem = t.mem := fun _ => rfl
  have f : ∀ t : State, (useFree t).mem = t.mem := fun _ => rfl
  unfold settleWord
  extract_lets g n
  clear_value n
  generalize decodeFlips n (freeWord s).toNat = d
  cases d <;> simp only [m, f]
  · exact f s
  · split <;> simp only [f]

@[simp] theorem countCe_mem (u : UnitId) (b : Bool) (s : State) : (countCe u b s).mem = s.mem := by unfold countCe; split <;> rfl
@[simp] theorem countUe_mem (u : UnitId) (b : Bool) (s : State) : (countUe u b s).mem = s.mem := by unfold countUe; split <;> rfl

theorem foldl_mem {α : Type} {f : State → α → State} (hf : ∀ s a, (f s a).mem = s.mem) :
    ∀ (l : List α) (s : State), (l.foldl f s).mem = s.mem
  | [], _ => rfl
  | a :: l, s => by rw [List.foldl_cons, foldl_mem hf l, hf]

/-- Poison marks are kept beside memory. -/
@[simp] theorem poisonSpan_mem (r : Region) (a n : Nat) (s : State) : (poisonSpan r a n s).mem = s.mem := by
  unfold poisonSpan; split
  · exact foldl_mem (f := fun s l => s.poisonLine l) (fun _ _ => rfl) _ _
  · rfl
  · exact foldl_mem (f := fun s w => s.setWordPoison (w / 8) true) (fun _ _ => rfl) _ _

/-! ## What keeps the canonical form -/

theorem rawWrite_wf {s : State} (h : Memory.wf s.mem = true) (a : Nat) (bs : List Byte) : Memory.wf (s.rawWrite a bs).mem = true :=
  putBytes_wf bs a s.mem h

theorem foldl_wf {α : Type} {f : State → α → State} (hf : ∀ s a, Memory.wf s.mem = true → Memory.wf (f s a).mem = true) :
    ∀ (l : List α) (s : State), Memory.wf s.mem = true → Memory.wf (l.foldl f s).mem = true
  | [], _, h => h
  | a :: l, _, h => foldl_wf hf l _ (hf _ a h)

theorem xorWord_wf {s : State} (h : Memory.wf s.mem = true) (a : Nat) (x : Word64) : Memory.wf (xorWord s a x).mem = true := by
  unfold xorWord; split
  · exact h
  · exact rawWrite_wf h _ _

theorem settleLineWords_wf (line : Nat) : ∀ (n : Nat) (s : State) (ce ue : Bool), Memory.wf s.mem = true →
    Memory.wf (settleLineWords line n s ce ue).1.mem = true
  | 0, _, _, _, h => h
  | n + 1, s, ce, ue, h => by
    have k := xorWord_wf (s := (settleWord s (.dram (line / 8 + (7 - n)))).s) (by rw [settleWord_mem]; exact h)
      (line + 8 * (7 - n)) ((settleWord s (.dram (line / 8 + (7 - n)))).change.extractLsb' 0 64)
    rw [settleLineWords]
    generalize settleWord s (.dram (line / 8 + (7 - n))) = r at k
    apply settleLineWords_wf
    split <;> exact k

theorem touchLine_wf {s : State} (h : Memory.wf s.mem = true) (line : Nat) : Memory.wf (touchLine line s).mem = true := by
  have k := settleLineWords_wf line 8 s false false h
  unfold touchLine
  split
  · exact h
  · generalize settleLineWords line 8 s false false = t at k
    obtain ⟨t, ce, ue⟩ := t
    cases ce <;> cases ue <;> simpa using k

theorem touchWord_wf {s : State} (h : Memory.wf s.mem = true) (u : UnitId) (w : Nat) : Memory.wf (touchWord u w s).mem = true := by
  have k := xorWord_wf (s := (settleWord s (.sram w)).s) (by rw [settleWord_mem]; exact h) (8 * w)
    ((settleWord s (.sram w)).change.extractLsb' 0 64)
  unfold touchWord
  split
  · exact h
  · simp only
    split <;> split <;> simpa using k

theorem touch_wf {s : State} (h : Memory.wf s.mem = true) (r : Region) (a n : Nat) : Memory.wf (touch r a n s).mem = true := by
  unfold touch
  split
  · exact h
  · split
    · exact foldl_wf (fun _ l h => touchLine_wf h l) _ _ h
    · exact foldl_wf (fun _ w h => touchWord_wf h _ (w / 8)) _ _ h
    · exact foldl_wf (fun _ w h => touchWord_wf h _ (w / 8)) _ _ h
    · exact foldl_wf (fun _ w h => touchWord_wf h _ (w / 8)) _ _ h
    · exact foldl_wf (fun _ w h => touchWord_wf h _ (w / 8)) _ _ h
    · exact h

theorem prepLine_wf (a n : Nat) (ver : BitVec 7) {s : State} (h : Memory.wf s.mem = true) (l : Nat) :
    Memory.wf (prepLine a n ver s l).mem = true := by
  unfold prepLine
  split
  · simp only
    split
    · exact h
    · have k := foldl_mem (f := fun s i => s.dropFlips (.dram (l / 8 + i))) (fun _ _ => rfl) (List.range 8) s
      simp only [State.setTag_mem, k]; exact h
  · exact touchLine_wf h l

theorem prepWord_wf (u : UnitId) (a n : Nat) {s : State} (h : Memory.wf s.mem = true) (w : Nat) :
    Memory.wf (prepWord u a n s w).mem = true := by
  unfold prepWord
  split
  · split <;> exact h
  · exact touchWord_wf h u _

theorem aliasWord_wf (u : UnitId) (set : Bool) {s : State} (h : Memory.wf s.mem = true) (w : Nat) (v : Word64) :
    Memory.wf (aliasWord u set s w v).mem = true := by
  unfold aliasWord
  simp only
  split
  · exact touchWord_wf h u _
  · exact rawWrite_wf (touchWord_wf h u _) _ _

theorem aliasWords_wf (u : UnitId) (set : Bool) : ∀ (n w : Nat) (bs : List Byte) (s : State), Memory.wf s.mem = true →
    Memory.wf (aliasWords u set w n bs s).mem = true
  | 0, _, _, _, h => h
  | n + 1, w, _, _, h => aliasWords_wf u set n (w + 8) _ _ (aliasWord_wf u set h w _)

/-- Every write of the module goes through this one. -/
theorem writeSpan_wf {s : State} (h : Memory.wf s.mem = true) (r : Region) (a : Nat) (bs : List Byte) (ver : BitVec 7) :
    Memory.wf (writeSpan r a bs ver s).mem = true := by
  unfold writeSpan
  split
  · exact rawWrite_wf (foldl_wf (fun _ l h => prepLine_wf a _ ver h l) _ _ h) _ _
  · exact rawWrite_wf (foldl_wf (fun _ w h => prepWord_wf _ a _ h w) _ _ h) _ _
  · exact rawWrite_wf (foldl_wf (fun _ w h => prepWord_wf _ a _ h w) _ _ h) _ _
  · exact aliasWords_wf _ true _ _ _ _ h
  · exact aliasWords_wf _ false _ _ _ _ h
  · exact h

theorem writeMem_wf {s : State} (h : Memory.wf s.mem = true) (a : Nat) (bs : List Byte) (ver : BitVec 7) :
    Memory.wf (writeMem a bs ver s).mem = true := by
  unfold writeMem
  split
  · exact h
  · split
    · exact writeSpan_wf h _ _ _ _
    · exact h

/-- Clearing a range of addresses, or all but one (start-up, retirement, evacuation). -/
theorem filter_mem_wf {m : List Host.Cell} (h : Memory.wf m = true) (p : Host.Cell → Bool) : Memory.wf (m.filter p) = true :=
  twf_filter h

theorem tclear_mem_wf {m : List Host.Cell} (h : Memory.wf m = true) (lo hi : Nat) : Memory.wf (tclear lo hi m) = true :=
  twf_tclear h

end Sys2Proof.Machine
end

