-- ==== Sys2Proof/WellFormed.lean ====
section
/-! DEFINITION. Well-formed commands: what a command of the table must satisfy to be one that its sender can form.
Values that the module itself checks (Table 11.3) are no part of this. -/
namespace Sys2Proof

/-- Counts and lengths of a host command as its own fields imply them (Table 11.4): entries that the wire format carries in
a count of fixed width, arguments of LAUNCH, entries of SET_ROUTE, peer addresses. -/
def HostOp.wf : HostOp → Bool
  | .launch p => p.args.length == 8
  | .loadProgram p => decide (p.words.length < 65536)
  | .setRouteWrite p => p.entries.length == 64 && decide (p.redirects.length < 256)
  | .hxPeers ps => ps.all fun e => e.addrA.length == 4 && e.addrB.length == 4
  | .refill _ _ _ sets => decide (sets.length < 256)
  | _ => true

def Packet.wf (p : Packet) : Bool := decide (p.payload.length ≤ 4096)

/-- A command that a host, a neighbour or a pin can present. DESIGN CHOICE, log entry 87. -/
def Instr.wf : Instr → Bool
  | .launch _ p => (HostOp.launch p).wf
  | .loadProgram _ p => (HostOp.loadProgram p).wf
  | .setRouteWrite _ p => (HostOp.setRouteWrite p).wf
  | .hxConfigPeers _ ps => (HostOp.hxPeers ps).wf
  | .refill _ _ _ _ sets => (HostOp.refill 0 0 false sets).wf
  | .packetRoute _ p => p.pkt.wf
  | .remoteWriteReceive p => p.wf
  | .collRsData p => p.wf
  | .collAgData p => p.wf
  | .collBcData p => p.wf
  | .collA2aData p => p.wf
  | .topCmdUdpWrite h _ => h.udpLen < 65536
  | .echoRequest _ v6 dst _ => v6 || dst.extractLsb' 32 96 == 0xFFFF
  | _ => true

end Sys2Proof
end

