-- ==== Sys2Proof/Tests/Slice0.lean ====
section
/-! SUPPORT. Tests on small states: refusals of the well-formedness checks, witnesses that the hypotheses of the statements
can be met together, and a few results computed by hand from the spec. -/
namespace Sys2Proof.Tests

set_option Elab.async false

open Sys2Proof Sys2Proof.Machine Sys2Proof.Claim

/-! ## Small states -/

/-- A module in READY with every Ethernet port up. -/
def up : State :=
  let b : Boot := { Boot.reset with phase := .done, state := .ready, switchClosed := true, rails := 0x7FFF }
  { State.reset with boot := b, host := { State.reset.host with eth := (List.range 8).map fun p => (p, some 0) } }

/-- The master beat and every copy of it are n (R29). -/
def atBeat (n : Beat) (s : State) : State :=
  { s with beat := n, boot := { s.boot with regionBeats := List.replicate 8 n, fabBeats := List.replicate 14 n } }

def u0 : UnitId := ⟨0, 0⟩
def u1 : UnitId := ⟨0, 1⟩

/-- Unit U0 of die D0 runs; its state is x, the word at its counter is w. -/
def running (x : UnitState) (w : InstrWord) : State :=
  let y : UnitState := { x with status := .running, program := true }
  { up with units := [(0, y)], store := [(x.pc.toNat, w)] }

/-- A unit with GP1 = a, GP2 = b and lanes 0 and 1 of vector registers 1 and 2. -/
def regs (a b : Word64) (v1 v2 : List Word32) : UnitState :=
  { UnitState.reset with
    gp := [(1, a), (2, b)],
    vreg := (v1.zipIdx.map fun p => (128 + p.2, p.1)) ++ (v2.zipIdx.map fun p => (256 + p.2, p.1)) }

/-- The fields of an instruction word (Table 4.2): class, operation, EFX, then the rest by a number. -/
def word (cls op : Nat) (rest : Nat) : InstrWord := BitVec.ofNat 128 (cls * 2 ^ 124 + op * 2 ^ 116 + rest)

/-- A scalar word: GD, GA, GB, IMM. -/
def sw (op d a b imm : Nat) : InstrWord := word 0 op (d * 2 ^ 110 + a * 2 ^ 105 + b * 2 ^ 100 + imm)

/-- A vector word: type, VD, VA, VB, VC, low bits. -/
def vw (op t d a b c rest : Nat) : InstrWord :=
  word 2 op (t * 2 ^ 112 + d * 2 ^ 107 + a * 2 ^ 102 + b * 2 ^ 97 + c * 2 ^ 92 + rest)

def theUnit (o : Machine.Out) (u : UnitId) : UnitState :=
  match o with
  | .next t => t.unit u
  | _ => UnitState.reset

def theState (o : Machine.Out) : State :=
  match o with
  | .next t => t
  | _ => State.reset

/-! ## Bool forms of the hypotheses that many statements share -/

def issuesB (cls op : Nat) (u : UnitId) (s : State) : Bool :=
  canIssue s u && !(touchInstr u (s.unit u).pc.toNat s).2 && !illegal (fetchedWord s u) &&
    opClass (fetchedWord s u) == cls && opCode (fetchedWord s u) == op && !skipped cls op u s

theorem issues_of {cls op : Nat} {u : UnitId} {s : State} (h : issuesB cls op u s = true) : Issues cls op u s := by
  simp only [issuesB, Bool.and_eq_true, Bool.not_eq_true', beq_iff_eq] at h
  obtain ⟨⟨⟨⟨⟨a, b⟩, c⟩, d⟩, e⟩, f⟩ := h
  exact ⟨⟨a, b, c, d, e⟩, f⟩

def passesB (h : Hdr) (op : HostOp) (s : State) : Bool :=
  takesUdp s h.net s.cmdUdp && decide (40 ≤ h.udpLen) && decide (1 ≤ h.rev.toNat ∧ h.rev.toNat ≤ 3) &&
    decide (h.len.toNat ≤ 8192 ∧ 32 + h.len.toNat = h.udpLen - 8) && s.host.cache.isEmpty && (waitingCmds s).isEmpty &&
    !badNode (revHdr h) s && (stateCheck (cmdCode op) s == none) && !badLen (revHdr h) op && (badField op == none) &&
    !badFormat op && !badCount op && (beatCheck (revHdr h) (cmdCode op) s == none) && decide ((revHdr h).chain = 0)

theorem passes_of {h : Hdr} {op : HostOp} {s : State} (e : passesB h op s = true) : Passes h op s := by
  simp only [passesB, Bool.and_eq_true, Bool.not_eq_true', beq_iff_eq, decide_eq_true_eq, List.isEmpty_iff] at e
  obtain ⟨⟨⟨⟨⟨⟨⟨⟨⟨⟨⟨⟨⟨a, b⟩, c⟩, d⟩, c1⟩, c2⟩, f⟩, g⟩, i⟩, j⟩, k⟩, l⟩, m⟩, n⟩ := e
  exact ⟨a, b, c, d, by simp [c1], by simp [c2], by simp [c2], f, g, i, j, k, l, m, n⟩

/-- A datagram in an untagged frame for port 0, to its link-local address and this UDP port. -/
def toPort0 (udp : BitVec 16) : NetIn := ⟨⟨0, 0, 0, false⟩, 0xFE80000000000000020000FFFE000000, udp⟩

/-- A request of revision 3 outside a chain, with the length that its payload implies. -/
def hdr (op : HostOp) : Hdr :=
  { net := toPort0 47110, srcAddr := 1, srcUdp := 7, rev := 3, tag := 5, seq := 1, len := BitVec.ofNat 16 (cmdLen op),
    udpLen := 40 + cmdLen op, hostid := 9, chain := 0, lbv := false, nchk := false, cfirst := false, clast := false, node := 0,
    lbeat := 0 }

/-! ## Well-formedness: an ill-formed term for each check -/

def launchReq : LaunchReq := ⟨1, 0, false, false, List.replicate 8 0⟩
def pkt : Packet := ⟨1, 0, 2, false, false, false, 0, 0, 0, 1, 0, 0, 0, 0, 0, []⟩
def collReq : CollReq := ⟨3, false, false, 0, 1, 0, 0, 0, 0, 0, 0, 0, 0, 64, none, 0, 0, 0, none⟩
def peer (n : Nat) : PeerEntry := ⟨1, true, 1, List.replicate n 0, List.replicate 4 0, 0⟩
def big : Packet := { pkt with payload := List.replicate 4097 0 }

theorem test_wf_launch : (Instr.launch (hdr .ping) { launchReq with args := [0] }).wf = false ∧
    (Instr.launch (hdr .ping) launchReq).wf = true := by decide
theorem test_wf_loadProgram : (HostOp.loadProgram ⟨1, 0, List.replicate 65536 0⟩).wf = false := by
  show decide ((List.replicate 65536 (0 : InstrWord)).length < 65536) = false
  rw [List.length_replicate]; decide
theorem test_wf_route : (Instr.setRouteWrite (hdr .ping) ⟨0, [0], []⟩).wf = false ∧
    (Instr.setRouteWrite (hdr .ping) ⟨0, List.replicate 64 0, List.replicate 256 (0, 0)⟩).wf = false := by decide +kernel
theorem test_wf_peers : (Instr.hxConfigPeers (hdr .ping) [peer 3]).wf = false ∧
    (Instr.hxConfigPeers (hdr .ping) [peer 4]).wf = true := by decide +kernel
theorem test_wf_refill : (Instr.refill (hdr .ping) 0 0 false (List.replicate 256 0)).wf = false := by decide +kernel
theorem test_wf_payload : big.wf = false := by
  show decide ((List.replicate 4097 (0 : Byte)).length ≤ 4096) = false
  rw [List.length_replicate]; decide
theorem test_wf_packets : (Instr.packetRoute 0 ⟨0, big⟩).wf = false ∧ (Instr.remoteWriteReceive big).wf = false ∧
    (Instr.collRsData big).wf = false ∧ (Instr.collAgData big).wf = false ∧ (Instr.collBcData big).wf = false ∧
    (Instr.collA2aData big).wf = false :=
  ⟨test_wf_payload, test_wf_payload, test_wf_payload, test_wf_payload, test_wf_payload, test_wf_payload⟩
theorem test_wf_cmdUdp : (Instr.topCmdUdpWrite { hdr .ping with udpLen := 65536 } 0).wf = false := by decide +kernel
theorem test_wf_echo : (Instr.echoRequest ⟨0, 0, 0, false⟩ false 1 []).wf = false := by decide +kernel

/-! ## Unit programs -/

/-- U0 runs the word w at index 0, with GP1 = a and GP2 = b. -/
def prog (a b : Word64) (w : InstrWord) : State := running (regs a b [] []) w

theorem witness_scalarArithmetic : ∀ op ∈ List.range' 2 13, issuesB 0 op u0 (prog 5 7 (sw op 3 1 2 9)) = true ∧
    notLast ((fetched (prog 5 7 (sw op 3 1 2 9)) u0).unit u0) := by unfold notLast; decide +kernel

theorem witness_scalarControl : (∀ op ∈ [0x01, 0x20, 0x21, 0x22, 0x23, 0x24, 0x28, 0x29, 0x2A, 0x3F],
    issuesB 0 op u0 (prog 5 7 (sw op 3 1 2 2)) = true) ∧
    issuesB 0 0x25 u0 (running { regs 5 7 [] [] with calls := [9] } (sw 0x25 3 1 2 2)) = true := by decide +kernel

/-- DBNZ on GP1 = 1 falls through; on 2 it jumps; on GP0 it falls through. -/
theorem test_dbnz : (theUnit (execDbnz u0 (prog 1 7 (sw 0x23 0 1 0 9))) u0).pc = 1 ∧
    (theUnit (execDbnz u0 (prog 2 7 (sw 0x23 0 1 0 9))) u0).pc = 9 ∧
    (theUnit (execDbnz u0 (prog 2 7 (sw 0x23 0 0 0 9))) u0).pc = 1 := by decide +kernel

/-- Table 4.4 on small operands: results of GD by hand. -/
theorem test_scalarAlu :
    (theUnit (execLi u0 (prog 5 7 (sw 0x02 3 1 2 9))) u0).gpGet 3 = 9 ∧
    (theUnit (execAdd u0 (prog 0xFFFFFFFFFFFFFFFF 2 (sw 0x03 3 1 2 0))) u0).gpGet 3 = 1 ∧
    (theUnit (execAddi u0 (prog 5 7 (sw 0x04 3 1 2 0xFFFFFFFFFFFFFFFF))) u0).gpGet 3 = 4 ∧
    (theUnit (execSub u0 (prog 5 7 (sw 0x05 3 1 2 0))) u0).gpGet 3 = 0xFFFFFFFFFFFFFFFE ∧
    (theUnit (execMul u0 (prog 0x8000000000000001 3 (sw 0x06 3 1 2 0))) u0).gpGet 3 = 0x8000000000000003 ∧
    (theUnit (execAnd u0 (prog 12 10 (sw 0x07 3 1 2 0))) u0).gpGet 3 = 8 ∧
    (theUnit (execOr u0 (prog 12 10 (sw 0x08 3 1 2 0))) u0).gpGet 3 = 14 ∧
    (theUnit (execXor u0 (prog 12 10 (sw 0x09 3 1 2 0))) u0).gpGet 3 = 6 ∧
    (theUnit (execShl u0 (prog 1 65 (sw 0x0A 3 1 2 0))) u0).gpGet 3 = 2 ∧
    (theUnit (execShr u0 (prog 0x8000000000000000 63 (sw 0x0B 3 1 2 0))) u0).gpGet 3 = 1 ∧
    (theUnit (execSra u0 (prog 0x8000000000000000 63 (sw 0x0C 3 1 2 0))) u0).gpGet 3 = 0xFFFFFFFFFFFFFFFF ∧
    (theUnit (execSlt u0 (prog 0xFFFFFFFFFFFFFFFF 0 (sw 0x0D 3 1 2 0))) u0).gpGet 3 = 1 ∧
    (theUnit (execSltu u0 (prog 0xFFFFFFFFFFFFFFFF 0 (sw 0x0E 3 1 2 0))) u0).gpGet 3 = 0 := by decide +kernel

/-- A write of GP0 is discarded. -/
theorem test_gp0 : (theUnit (execLi u0 (prog 5 7 (sw 0x02 0 0 0 9))) u0).gpGet 0 = 0 := by decide +kernel

/-- GETS 2 gives die × 256 + logical unit (Table 4.5). -/
theorem test_gets : (theUnit (execGets u0 (prog 5 7 (sw 0x28 3 0 0 2))) u0).gpGet 3 = 0 := by decide +kernel

/-- CALL pushes the next index; RET takes it back. -/
theorem test_call_ret : (theUnit (execCall u0 (prog 5 7 (sw 0x24 0 0 0 9))) u0).calls = [1] ∧
    (theUnit (execRet u0 (running { regs 5 7 [] [] with calls := [33] } (sw 0x25 0 0 0 0))) u0).pc = 33 := by decide +kernel

/-! ### Loads and stores -/

def okB (j : Judged) : Bool :=
  match j with
  | .ok => true
  | _ => false
def cleanB (s : State) : Bool := s.upsets.isEmpty && s.poison.isEmpty
def vecAccs (s : State) : List (Nat × Nat × Nat) :=
  (List.range 128).map fun i => (laneAddr ((fetched s u0).unit u0) (fetchedWord s u0) i, 4, 4)

theorem witness_loadsAndStores :
    (∀ p ∈ [(0x10, 8, 8), (0x11, 8, 8), (0x2B, 16, 16)],
      let s := prog 16 7 (sw p.1 3 1 2 16)
      issuesB 0 p.1 u0 s = true ∧ cleanB s = true ∧ okB (judgeAll (acting s u0) u0 .scalar [(32, p.2.1, p.2.2)]) = true) ∧
    ∀ op ∈ [0x01, 0x02], let s := running { regs 0 0 [] [] with gp := [(1, 64)] } (vw op 0 3 1 2 0 (1 * 2 ^ 87 + 2 ^ 32))
      issuesB 2 op u0 s = true ∧ cleanB s = true ∧ okB (judgeAll (acting s u0) u0 .vec (vecAccs s)) = true := by decide +kernel

/-- SST writes GB little-endian (R7); SLD reads it back. -/
theorem test_sst : (theState (execSst u0 (prog 16 0x0102 (sw 0x11 0 1 2 16)))).rawRead (unitAddr u0 32) 3 = [2, 1, 0] := by
  decide +kernel
theorem test_sld : (theUnit (execSld u0 ((prog 16 0 (sw 0x10 3 1 0 16)).rawWrite (unitAddr u0 32) [2, 1])) u0).gpGet 3 = 0x102 := by
  decide +kernel

/-! ### Vector engine -/

/-- U0 runs a vector word with lanes 0 and 1 of VR1 and VR2 given. -/
def vprog (v1 v2 : List Word32) (w : InstrWord) : State := running (regs 3 4 v1 v2) w
def lane0 (o : Machine.Out) : Word32 := (theUnit o u0).lane 3 0

theorem witness_vectorRows : (∀ op ∈ [0x10, 0x11, 0x12, 0x13, 0x14, 0x15, 0x16, 0x17], ∀ t ∈ [0, 1, 2],
    issuesB 2 op u0 (vprog [1] [2] (vw op t 3 1 2 0 0)) = true) ∧
    (∀ op ∈ [0x20, 0x21, 0x22, 0x23, 0x24], ∀ t ∈ [0, 2], issuesB 2 op u0 (vprog [1] [2] (vw op t 3 1 2 0 0)) = true) ∧
    (∀ op ∈ [0x03, 0x28, 0x29, 0x30, 0x31, 0x32, 0x38], issuesB 2 op u0 (vprog [1] [2] (vw op 0 3 1 2 0 0)) = true) ∧
    issuesB 2 0x38 u0 (vprog [1] [2] (vw 0x38 1 3 1 2 0 0)) = true ∧
    (∀ op ∈ List.range' 1 10, issuesB 4 op u0 (vprog [1] [2] (word 4 op (3 * 2 ^ 107 + 2 ^ 102))) = true) ∧
    notLast ((fetched (vprog [1] [2] (vw 0x10 0 3 1 2 0 0)) u0).unit u0) := by unfold notLast; decide +kernel

/-- 1 + 2 = 3, 1 − 2 = −1, 1 × 2 = 2, max, min, |−1|, −1 in F32. -/
theorem test_vectorF32 :
    lane0 (execVadd u0 (vprog [0x3F800000] [0x40000000] (vw 0x10 0 3 1 2 0 0))) = 0x40400000 ∧
    lane0 (execVsub u0 (vprog [0x3F800000] [0x40000000] (vw 0x11 0 3 1 2 0 0))) = 0xBF800000 ∧
    lane0 (execVmul u0 (vprog [0x3F800000] [0x40000000] (vw 0x12 0 3 1 2 0 0))) = 0x40000000 ∧
    lane0 (execVfma u0 (vprog [0x3F800000] [0x40000000] (vw 0x13 0 3 1 2 1 0))) = 0x40400000 ∧
    lane0 (execVmax u0 (vprog [0x3F800000] [0x40000000] (vw 0x14 0 3 1 2 0 0))) = 0x40000000 ∧
    lane0 (execVmin u0 (vprog [0x3F800000] [0x40000000] (vw 0x15 0 3 1 2 0 0))) = 0x3F800000 ∧
    lane0 (execVabs u0 (vprog [0xBF800000] [] (vw 0x16 0 3 1 2 0 0))) = 0x3F800000 ∧
    lane0 (execVneg u0 (vprog [0x3F800000] [] (vw 0x17 0 3 1 2 0 0))) = 0xBF800000 := by decide +kernel

/-- I32 lanes wrap and set INT_OVF (R58); shifts take B modulo 32. -/
theorem test_vectorI32 :
    lane0 (execVadd u0 (vprog [0x7FFFFFFF] [1] (vw 0x10 2 3 1 2 0 0))) = 0x80000000 ∧
    (theUnit (execVadd u0 (vprog [0x7FFFFFFF] [1] (vw 0x10 2 3 1 2 0 0))) u0).intOvf = true ∧
    lane0 (execVand u0 (vprog [12] [10] (vw 0x20 2 3 1 2 0 0))) = 8 ∧
    lane0 (execVor u0 (vprog [12] [10] (vw 0x21 2 3 1 2 0 0))) = 14 ∧
    lane0 (execVxor u0 (vprog [12] [10] (vw 0x22 2 3 1 2 0 0))) = 6 ∧
    lane0 (execVshl u0 (vprog [1] [33] (vw 0x23 2 3 1 2 0 0))) = 2 ∧
    lane0 (execVshr u0 (vprog [0x80000000] [31] (vw 0x24 2 3 1 2 0 0))) = 1 := by decide +kernel

/-- A reduction of lanes 1 and 2 (the other lanes zero) is 3 in lane 0 (R149). -/
theorem test_vrsum : lane0 (execVrsum u0 (vprog [0x3F800000, 0x40000000] [] (vw 0x30 0 3 1 0 0 0))) = 0x40400000 := by
  decide +kernel

/-- Exact cases of Table 4.13: 2⁰ = 1, √4 = 2, 1/2 = 0.5. -/
theorem test_special : lane0 (execExp2 u0 (vprog [0] [] (word 4 1 (3 * 2 ^ 107 + 2 ^ 102)))) = 0x3F800000 ∧
    lane0 (execSqrt u0 (vprog [0x40800000] [] (word 4 5 (3 * 2 ^ 107 + 2 ^ 102)))) = 0x40000000 := by decide +kernel

/-! ### Conversions and rows -/

/-- CVT of GA = GP4's 1 element, F32 to F16: source GP1, destination GP2. -/
def cvtWord : InstrWord := word 3 1 (0 * 2 ^ 111 + 2 * 2 ^ 107 + 1 * 2 ^ 97 + 2 * 2 ^ 92 + 4 * 2 ^ 87 + 8 * 2 ^ 82)
def cvtProg : State :=
  (running { UnitState.reset with gp := [(1, 64), (2, 128), (4, 1)] } cvtWord).rawWrite (unitAddr u0 64) [0, 0, 0x80, 0x3F]

theorem witness_conversions :
    (let s := cvtProg
     let a := cvtAddr ((fetched s u0).unit u0) (fetchedWord s u0)
     issuesB 3 1 u0 s = true ∧ cleanB s = true ∧ rndOk (cvDfmt (fetchedWord s u0)) (cvRnd (fetchedWord s u0)) = true ∧
       okB (judgeAll (acting s u0) u0 .vec (cvtReads a 0 2 1 ++ cvtWrites a 2 1)) = true) ∧
    (∀ f ∈ [(0, 9), (9, 0)], issuesB 3 2 u0 (vprog [1] [2] (word 3 2 (f.1 * 2 ^ 111 + f.2 * 2 ^ 107 + 2 ^ 97 + 3 * 2 ^ 92))) = true) := by
  decide +kernel

/-- 1.0 in F32 becomes 0x3C00 in F16; as I32 1. -/
theorem test_cvt : (theState (execCvt u0 cvtProg)).rawRead (unitAddr u0 128) 2 = [0x00, 0x3C] := by decide +kernel
theorem test_vcvt : lane0 (execVcvt u0 (vprog [0x3F800000] [] (word 3 2 (0 * 2 ^ 111 + 9 * 2 ^ 107 + 2 ^ 97 + 3 * 2 ^ 92)))) = 1 ∧
    lane0 (execVcvt u0 (vprog [1] [] (word 3 2 (9 * 2 ^ 111 + 0 * 2 ^ 107 + 2 ^ 97 + 3 * 2 ^ 92)))) = 0x3F800000 := by decide +kernel

/-- A row instruction of one row of 4 F32 elements: GX = GP1, GDY = GP2, GOUT = GP3, parameters absent at GP4 to GP7, shape
GP8, scalars GP9. -/
def rowWord (op : Nat) : InstrWord :=
  word 5 op (2 ^ 102 + 2 * 2 ^ 97 + 3 * 2 ^ 92 + 4 * 2 ^ 87 + 8 * 2 ^ 82 + 10 * 2 ^ 77)
def rowProg (op : Nat) : State :=
  running { UnitState.reset with
    gp := [(1, 256), (2, 512), (3, 1024), (4, 0xFFFFFFFFFFFFFFFF), (5, 0xFFFFFFFFFFFFFFFF), (6, 2048), (7, 2304),
           (8, 0x400001), (9, 4), (10, 0x3F800000)] } (rowWord op)

theorem witness_rows : ∀ op ∈ [1, 2, 3, 0x11, 0x12, 0x13],
    let s := rowProg op
    let p := rowParam ((fetched s u0).unit u0) (fetchedWord s u0)
    issuesB 5 op u0 s = true ∧ cleanB s = true ∧ p.xfmt = 0 ∧ p.yfmt = 0 ∧ p.rows = 1 ∧ p.len = 4 ∧ p.pitch = 64 ∧
      okB (judgeAll (acting s u0) u0 .vec (rowReads op p 0 ++ rowWrites p 0)) = true ∧ rowOverlap op p = false ∧
      (rowBackward op && p.dgacc) = false := by decide +kernel

/-! ### Matrix class, ACOMBINE -/

/-- MX on group M0, I8 by I8 into I32 slot 4, SET, K = 16, operands at 0 and 1,024 with pitch 32. -/
def mxWord : InstrWord := word 1 1 (11 * 2 ^ 106 + 11 * 2 ^ 102 + 9 * 2 ^ 98 + 4 * 2 ^ 85 + 2 ^ 84 + 2 ^ 37 + 32 * 2 ^ 21)
def mxOp : MxOp := ⟨0, mxWord, 0, 0⟩

theorem witness_matrixIssue :
    (let s := prog 0 0 mxWord
     issuesB 1 1 u0 s = true ∧ mxCheck ((fetched s u0).unit u0) (fetchedWord s u0) = 0) ∧
    (let s := running { UnitState.reset with mxQueue := [mxOp] } mxWord
     issuesB 1 1 u0 s = true ∧ mxCheck ((fetched s u0).unit u0) (fetchedWord s u0) = 0 ∧
       (((fetched s u0).unit u0).mxQueue.any fun q => sharesArray (mxGroup q.word) (mxGroup mxWord)) = true) ∧
    (let s := running { UnitState.reset with wait := .mx mxOp } mxWord
     s.isReady = true ∧ (s.unit u0).status = .running ∧ (s.unit u0).wait = .mx mxOp ∧ (s.unit u0).mxQueue = []) := by
  decide +kernel

def mxState (runs : List MxRun) : State := running { UnitState.reset with mxQueue := [mxOp], mxRun := runs } mxWord
theorem witness_matrixRun :
    (let s := mxState []
     s.isReady = true ∧ cleanB s = true ∧ ((s.unit u0).mxQueue.find? fun q => mxGroup q.word == 0) = some mxOp ∧
       mxCanon mxWord = false ∧ (s.unit u0).mxRun = []) ∧
    mxFed (mxState []) u0 mxOp (mxFill mxWord) ∧ mxFed (mxState []) u0 mxOp (mxSteps mxWord) ∧
    (let r := mxLoaded (mxState []) u0 mxOp 1
     let s := mxState [r]
     ((s.unit u0).mxRun.find? fun q => mxGroup q.op.word == 0) = some { mxLoaded s u0 mxOp 1 with prev := none } ∧
       pairOk (mxFmtS mxWord) (mxFmtA mxWord) (mxFmtC mxWord) = true ∧
       mxDst mxWord % tileSlots (mxGroup mxWord) (mxFmtC mxWord) = 0 ∧
       (fmtBlock (mxFmtS mxWord) || fmtBlock (mxFmtA mxWord)) = false ∧ 1 < mxFill mxWord + mxRowCount mxWord) ∧
    ((((mxState [{ mxLoaded (mxState []) u0 mxOp 1 with step := 999 }]).unit u0).mxRun.find? fun q => mxGroup q.op.word == 0).map
      fun q => decide (mxSteps q.op.word ≤ q.step)) = some true := by
  unfold mxFed; decide +kernel

/-- An instruction queued behind one whose last chunk runs loads its first cell rows (R575). -/
theorem witness_chain :
    let o : MxOp := { mxOp with pc := 1 }
    let q := { mxLoaded (mxState []) u0 o 0 with prev := none }
    let r := { mxLoaded (mxState []) u0 mxOp 1 with step := mxFill mxWord + mxLastChunk mxWord }
    let s := running { UnitState.reset with mxQueue := [o], mxRun := [r], mxPre := [q] } mxWord
    mxChains r.op.word o.word = true ∧ r.step < mxFill r.op.word + mxRowCount r.op.word ∧ 0 < mxFill o.word ∧
      ((chainLoad u0 r s).unit u0).mxPre.map (·.step) = [1] := by decide +kernel

/-- ACOMBINE of a first and last part under SET: F32 tile at slot 4, partial at slot 5. -/
def acWord : InstrWord := word 2 0x40 (4 * 2 ^ 110 + 5 * 2 ^ 105 + 2 ^ 90 + 2 ^ 89 + 2 ^ 88)
def acProg : State := (prog 0 0 acWord).rawWrite (unitAddr u0 (0x200000 + 16384 * 5)) [0, 0, 0x80, 0x3F]
theorem witness_acombine : issuesB 2 0x40 u0 acProg = true ∧ cleanB acProg = true ∧
    acCheck ((fetched acProg u0).unit u0) (fetchedWord acProg u0) = 0 ∧ ((fetched acProg u0).unit u0).mxQueue = [] ∧
    ((fetched acProg u0).unit u0).mxRun = [] ∧ bitOf acWord 87 = false := by decide +kernel

/-! ### Shuttle issue, waits, synchronisation -/

theorem witness_shissue : issuesB 6 1 u0 (prog 64 0 (word 6 1 (2 ^ 107))) = true ∧
    issuesB 6 1 u0 (running { UnitState.reset with shOut := 32 } (word 6 1 0)) = true ∧
    (let s := running { UnitState.reset with wait := .shissue, shOut := 31 } (word 6 1 0)
     s.isReady = true ∧ (s.unit u0).status = .running ∧ (s.unit u0).wait = .shissue ∧ (s.unit u0).shOut < 32) := by
  decide +kernel

/-- BWAIT for beats 4 (passed), 5 (present) and 6 (to come) at beat 5. -/
def bwaitState (b : Nat) : State := atBeat 5 (prog (BitVec.ofNat 64 b) 0 (word 7 1 (2 ^ 109)))
theorem witness_bwait : ∀ b ∈ [4, 5, 6], issuesB 7 1 u0 (bwaitState b) = true := by decide +kernel
theorem witness_bwait_order : 0 < ((5 : Beat) - 4).toInt ∧ ((5 : Beat) - 6).toInt < 0 := by decide +kernel
theorem witness_bwaitComplete : let s := atBeat 5 (running { UnitState.reset with wait := .bwait 5 } 0)
    s.isReady = true ∧ (s.unit u0).status = .running ∧ (s.unit u0).wait = .bwait 5 ∧ ((5 : Beat) - s.beat).toInt ≤ 0 := by
  decide +kernel

/-- BARRIER 0 of U0 alone, of U0 and U1 as the first, and as the last. -/
def bar (mask : Nat) : InstrWord := word 7 2 (mask * 2 ^ 105)
def barEpisode : State :=
  let s := prog 0 0 (bar 3)
  { s with
    units := s.units ++ [(1, { UnitState.reset with status := .running, wait := .barrier 0 0 })],
    clusters := [(0, { Cluster.reset with barriers := [(0, some ⟨3, 3, 2⟩)] })] }
theorem witness_barriers : issuesB 7 2 u0 (prog 0 0 (bar 1)) = true ∧ issuesB 7 2 u0 (prog 0 0 (bar 3)) = true ∧
    (prog 0 0 (bar 3)).episode u0.cluster 0 = none ∧
    issuesB 7 2 u0 barEpisode = true ∧ barEpisode.episode u0.cluster 0 = some ⟨3, 3, 2⟩ ∧
    (3 : BitVec 8) &&& ~~~((2 : BitVec 8) ||| 1) = 0 ∧ atBarrier barEpisode u1 0 = true := by decide +kernel
theorem witness_barTimeout : let s := atBeat 5000000 barEpisode
    s.isReady = true ∧ (s.unit u1).status = .running ∧ (s.unit u1).wait = .barrier 0 0 ∧
    (s.cfgReg (cluOff u1.cluster 0)).toNat ≤ beatsSince s.beat 0 ∧
    (3 : BitVec 8) &&& ~~~(2 : BitVec 8) &&& ~~~((1 : BitVec 8) <<< u1.slot.val) ≠ 0 := by decide +kernel
theorem test_barrier : (theState (execBarrier u0 barEpisode)).episode u0.cluster 0 = none ∧
    (theUnit (execBarrier u0 barEpisode) u1).pc = 1 := by decide +kernel

/-- Semaphore 2 holds n with the marks given. -/
def semState (n : BitVec 16) (e o : Bool) (w : InstrWord) (wt : Wait) : State :=
  running { regs 6 0 [] [] with sems := [(2, ⟨n, e, o⟩)], wait := wt } w
def semWord : InstrWord := word 7 3 (2 * 2 ^ 111 + 3 * 2 ^ 95)
theorem witness_semaphores :
    (∀ p ∈ [((3 : Nat), false, false), (2, false, false), (3, true, false), (3, false, true)],
      issuesB 7 3 u0 (semState (BitVec.ofNat 16 p.1) p.2.1 p.2.2 semWord .none) = true) ∧
    (let s := semState 3 false false semWord (.semwait 2 3)
     s.isReady = true ∧ (s.unit u0).status = .running ∧ (s.unit u0).wait = .semwait 2 3 ∧ ((s.unit u0).sem 2).count = 3) ∧
    issuesB 7 6 u0 (prog 6 0 (word 7 6 (2 * 2 ^ 111 + 2 ^ 106))) = true ∧
    issuesB 7 4 u0 (prog 6 0 (word 7 4 (2 * 2 ^ 111 + 2 ^ 108 + 9 * 2 ^ 92))) = true ∧
    (let s := { prog 0 0 0 with clusters := [(0, { Cluster.reset with sigs := [⟨0, 1, 2, 9⟩] })] }
     s.isReady = true ∧ (s.clu u0.cluster).sigs = [] ++ (⟨0, 1, 2, 9⟩ : Sig) :: []) := by decide +kernel
theorem test_semwait : (theUnit (execSemwait u0 (semState 3 false false semWord .none)) u0).sem 2 = ⟨0, false, false⟩ ∧
    (theUnit (execSemwait u0 (semState 3 true false semWord .none)) u0).faultCause = 0x33 ∧
    (theUnit (execSemset u0 (prog 6 0 (word 7 6 (2 * 2 ^ 111 + 2 ^ 106)))) u0).sem 2 = ⟨6, false, false⟩ := by decide +kernel

theorem witness_fences : ∀ m ∈ [0, 1, 4, 8, 15], issuesB 7 5 u0 (prog 0 0 (word 7 5 (m * 2 ^ 111))) = true ∧
    issuesB 7 5 u0 (running { UnitState.reset with shOut := 1 } (word 7 5 (m * 2 ^ 111))) = true := by decide +kernel
theorem witness_fenceComplete : let s := running { UnitState.reset with wait := .fence 5 } 0
    s.isReady = true ∧ (s.unit u0).status = .running ∧ (s.unit u0).wait = .fence 5 ∧ fenceDone s u0 5 = true := by
  decide +kernel

/-! ### Faults, program end, replay -/

theorem witness_unitFaults :
    (let s := prog 0 0 0
     canIssue s u0 = true ∧ (touchInstr u0 0 s).2 = false ∧ illegal (fetchedWord s u0) = true) ∧
    (let s := running { UnitState.reset with pc := 4095 } (sw 0x02 3 1 2 9)
     issuesB 0 2 u0 s = true ∧ ((fetched s u0).unit u0).pc = 4095) ∧
    issuesB 0 0x24 u0 (running { UnitState.reset with calls := List.replicate 8 0 } (sw 0x24 0 0 0 1)) = true ∧
    issuesB 0 0x25 u0 (prog 0 0 (sw 0x25 0 0 0 0)) = true ∧
    (let s := { prog 16 0 (sw 0x10 3 1 0 16) with poison := [(unitAddr u0 32 / 8, true)] }
     issuesB 0 0x10 u0 s = true ∧ s.upsets = [] ∧ s.wordPoison (unitAddr u0 32 / 8) = true ∧
       okB (judgeAll (acting s u0) u0 .scalar [(32, 8, 8)]) = true) ∧
    (let s := { prog 0 0 (sw 1 0 0 0 0) with storePoison := [(0, true)] }
     canIssue s u0 = true ∧ (touchInstr u0 0 s).2 = true) := by decide +kernel
theorem test_faults : (theUnit (execNop u0 (prog 0 0 0)) u0).faultCause = 0x01 ∧
    (theUnit (execRet u0 (prog 0 0 (sw 0x25 0 0 0 0))) u0).faultCause = 0x03 ∧
    (theUnit (execIfetchEcc u0 { prog 0 0 (sw 1 0 0 0 0) with storePoison := [(0, true)] }) u0).faultCause = 0x05 := by
  decide +kernel

theorem witness_programEnd : ∀ ev ∈ [true, false], let s := running { UnitState.reset with wait := .ended ev } 0
    s.isReady = true ∧ (s.unit u0).status = .running ∧ (s.unit u0).wait = .ended ev ∧ (s.unit u0).mxQueue = [] ∧
    (s.unit u0).mxRun = [] ∧ (s.unit u0).shOut = 0 := by decide +kernel
theorem test_programEnd : (theUnit (execProgramEnd u0 (running { UnitState.reset with wait := .ended true } 0)) u0).status = .idle ∧
    ((theState (execProgramEnd u0 (running { UnitState.reset with wait := .ended true } 0))).host.events.head?.map Event.code) =
      some 0x0010 := by decide +kernel

/-- A replay of a word with EFX set. -/
def replayed (w : InstrWord) : State := running { UnitState.reset with replay := true } (w ||| (1 <<< 115))
theorem witness_replay : ∀ p ∈ [(1, 1, mxWord), (2, 2, vw 2 0 3 1 2 0 0), (2, 0x40, acWord), (3, 1, cvtWord), (5, 1, rowWord 1),
      (5, 0x13, rowWord 0x13), (0, 0x11, sw 0x11 0 1 2 0), (6, 1, word 6 1 0)],
    let s := replayed p.2.2
    canIssue s u0 = true ∧ (touchInstr u0 0 s).2 = false ∧ illegal (fetchedWord s u0) = false ∧
      opClass (fetchedWord s u0) = p.1 ∧ opCode (fetchedWord s u0) = p.2.1 ∧ ((fetched s u0).unit u0).replay = true ∧
      (fetchedWord s u0).getLsbD 115 = true := by decide +kernel
/-! ## Host commands: each passes the common checks on the module `up` -/

def seg : FwSegment := ⟨0, 29921, []⟩
def route : RouteReq := ⟨0, List.replicate 64 0xF, []⟩
def heddle : HeddleReq := ⟨1, 0, 1, 16, 4, 0, 1⟩
def general : HxGeneral := ⟨1, 1, 0, 0x4000000, 0x4000000, 0x4000000⟩

/-- One command of each opcode of Table 11.4 with fields, counts and lengths in order. -/
def ops : List HostOp :=
  [.ping, .regRead [0], .regWrite [(0x40, 1)], .snapshot, .memRead 0 8, .memWrite 0 false 0 [1], .evtRead 1 0, .jnlRead 0,
   .loadProgram ⟨1, 0, [0]⟩, .launch launchReq, .halt 1, .unitRetire 1 159, .setRouteWrite route, .setRouteSwitch 0,
   .setHeddleInstall heddle, .setHeddleRemove 1, .cmapRead, .collective .rs collReq, .collective .ag collReq,
   .collective .ar collReq, .collective .bc collReq, .collective .a2a { collReq with counts := some [1, 1] }] ++
  [.stepResolve 1 1, .stepResolve 1 4, .digest 1, .checkpoint 1 1, .restore 1, .refill 1 1 false [], .evacuate 1,
   .pressAcquire 8 0 86400, .pressRelease 0, .hxGeneral general, .hxShards 0 [0], .hxPeers [peer 4], .hxMember 0, .hxCommit,
   .hxOuter 1 0, .hxApply 1 1 none, .hxFetch 63, .hxResume 6, .hxRekey, .ripRead 0 204, .attest 0, .fwStage seg,
   .fwCommit 2 false 0]

theorem witness_hostCommands : ops.all (fun op => passesB (hdr op) op up) = true := by decide +kernel

/-- FW_RECOVER is for the recovery state; F and R marks of Table 11.4 in the other two. -/
def inState (m : ModState) : State := { up with boot := { up.boot with state := m } }
theorem witness_recover : passesB (hdr (.fwRecover seg)) (.fwRecover seg) (inState .recovery) = true ∧
    stateCheck (cmdCode (.memWrite 0 false 0 [1])) (inState .fault) = some .faultState ∧
    stateCheck (cmdCode .hxRekey) (inState .recovery) = some .recoveryState := by decide +kernel

/-- Requests that fail one check of Table 11.3 each, at the limits. -/
theorem witness_commandChecks :
    badNode { hdr .ping with nchk := true, node := 5 } up = true ∧ badLen { hdr .ping with len := 4 } .ping = true ∧
    badField (.hxFetch 64) = some 0 ∧ badCount (.memRead 0 8177) = true ∧ badCount (.memRead 0 8176) = false ∧
    beatCheck { hdr .ping with lbv := true, lbeat := 15 } (cmdCode .ping) up = some .beatPassed ∧
    beatCheck { hdr .ping with lbv := true, lbeat := 0x100000000 } (cmdCode .ping) up = some .beatRange ∧
    beatCheck { hdr .ping with lbv := true, lbeat := 16 } (cmdCode .ping) up = some .beatUnsupported ∧
    beatCheck { hdr .ping with lbv := true, lbeat := 0xFFFFFFFF } (cmdCode (.launch launchReq)) up = none := by decide +kernel
theorem witness_badFormat : badFormat (.collective .rs { collReq with sfmt := 0xF }) = true := by decide +kernel
theorem witness_undecoded : knownOpcode 0x7FFF = false ∧ knownOpcode (cmdCode .ping).toNat = true := by decide +kernel

def keptResp : Resp := respOf (hdr .ping) (cmdCode .ping) 47110 .ok 0 [] 0
def kept : State :=
  { up with host := { up.host with cache := [⟨sourceOf (hdr .ping), 5, 1, keptResp⟩] } }
def waits (h : Hdr) (op : HostOp) : State := { up with host := { up.host with outstanding := [⟨h, op, false⟩] } }
theorem witness_commandArrival :
    (kept.host.cache.any fun e => e.src == sourceOf (revHdr (hdr .ping)) && e.tag == 5 && e.seq == 1) = true ∧
    ((waitingCmds (waits (hdr .snapshot) .snapshot)).any fun w => w.1 == sourceOf (revHdr (hdr .ping)) && w.2.1 == 5) = true ∧
    takesUdp State.reset (toPort0 47110) 47110 = false ∧ takesUdp up (toPort0 47110) 47110 = true := by decide +kernel

/-- A chain of the source of `hdr` with the number 3, its last command 0, PING 1 held since beat 0. -/
def chHdr (first last : Bool) : Hdr := { hdr .ping with chain := 3, cfirst := first, clast := last }
def chained (held : List (Hdr × HostOp × Beat)) : State :=
  { up with host := { up.host with chains := [⟨sourceOf (chHdr false false), 3, 0, false, held⟩] } }
theorem witness_chains :
    midChecks (revHdr (chHdr true false)) .ping up = none ∧ findChain up (sourceOf (chHdr true false)) 3 = none ∧
    (findChain (chained []) (sourceOf (revHdr (chHdr false false))) (revHdr (chHdr false false)).chain).isSome = true ∧
    (chHdr false false).seq = (0 : Word32) + 1 ∧
    (chained [(chHdr false false, .ping, 0)]).ethUp (chHdr false false).port.val = true ∧
    (chHdr false false).seq = (revHdr (chHdr false false)).seq ∧ clockRuns (chained []) = true ∧
    beatsOfMs 1 ≤ beatsSince (3907 : Beat) 0 ∧ beatsSince (3905 : Beat) 0 < beatsOfMs 1 := by decide +kernel

/-- A chain that CFIRST opens anew takes its outstanding command and its unfinished staging out (R490, R546). -/
theorem test_cutChain : let h := chHdr false false
    let s := { chained [] with host := { (chained []).host with outstanding := [⟨{ h with tag := 99 }, .ping, false⟩] }, sec := { up.sec with staging := some ⟨1, 3, sourceOf h, 40000, [], false, false, 1⟩ } }
    let t := theState (execPing (chHdr true false) s)
    (t.host.outstanding.map (·.cut)) = [true] ∧ (t.sec.staging.map (·.cut)) = some true ∧ t.host.chains.length = 1 := by decide +kernel

/-! ### Results by hand -/

/-- A datagram given as the bytes of `h` and a payload. -/
def asBytes (h : Hdr) (code : BitVec 16) (pay : List Byte) (s : State) : Machine.Out :=
  execUndecodedRequest h.net h.srcAddr h.srcUdp h.udpLen (requestBytes h code pay) s
def status (o : Machine.Out) : Nat :=
  match o with
  | .next t => match t.sent.head? with
    | some (.resp r) => r.status.toNat
    | _ => 1000
  | _ => 1001
def payload (o : Machine.Out) : List Byte :=
  match o with
  | .next t => match t.sent.head? with
    | some (.resp r) => r.payload
    | _ => []
  | _ => []

/-- REG_READ of TOP_ID and PWR_CAP, most significant byte first (R6, Tables 12.2, 12.12). -/
theorem test_regRead : payload (execRegRead (hdr (.regRead [0, 0x070000])) [0, 0x070000] up) =
    [0x24, 0x60, 0xB0, 0x00, 0, 0, 0x06, 0x72] := by decide +kernel
/-- The same commands as bytes: PING, and STEP_RESOLVE with action 6, refused at byte 6 (Tables 11.2, 11.4). HX_CONFIG with two GENERAL
entries, SET_ROUTE of the write form in 4 bytes, COLLECTIVE with unit 160. -/
theorem test_asBytes :
    status (asBytes (hdr .ping) 0x01 [] up) = 0 ∧
    (let o := asBytes (hdr (.stepResolve 1 6)) 0x31 [0, 0, 0, 0, 0, 1, 6, 0] up
     status o = Status.fieldInvalid.code.toNat ∧ (match o with
      | .next t => t.sent.head?.map fun | .resp r => r.detail.toNat | _ => 99
      | _ => none) = some 6) ∧
    readPayload 0x50 88 ([1, 0, 0, 0, 0, 2, 0, 0] ++ List.replicate 80 0) = .badCount ∧
    readPayload 0x20 4 [1, 0, 0, 0] = .badLen ∧ readPayload 0x20 4 [2, 1, 0, 0] = .op (.setRouteSwitch 1) ∧
    readPayload 0x30 64 (1 :: List.replicate 51 0 ++ [0x80, 160] ++ List.replicate 10 0) = .badField 53 ∧
    readPayload 0x03 8 [0, 7, 0, 0, 0, 0, 3, 0x84] = .op (.regWrite [(0x070000, 900)]) := by decide +kernel
/-- Two low words wait for their high words each on its own (R514); a mask changes what an OWN descriptor has asked for (R200, R511). -/
theorem test_latches : let es := [(0x030010, 0x100), (0x030018, 0x200), (0x030014, 1), (0x03001C, 2)]
    let t := theState (execRegWrite (hdr (.regWrite es)) es up)
    (t.cfgReg64 0x030010, t.cfgReg64 0x030018) = (0x100000100, 0x200000200) := by decide +kernel
theorem witness_ownPending : let x := up.setUnit ⟨0, 3⟩ { up.unit ⟨0, 3⟩ with ownReq := [(0, 1, 9)] }
    let h := hdr (.regWrite [(0x403040, 0x10000)])
    passesB h (.regWrite [(0x403040, 0x10000)]) x = true ∧
    ((theState (execUnitOwnWrite h ⟨0, 3⟩ 0 0x10000 x)).unit ⟨0, 3⟩).owner 0 = 8 := by decide +kernel
/-- A write of PWR_CAP to 900 W holds; 899 W is refused. -/
theorem test_regWrite : (theState (execRegWrite (hdr (.regWrite [(0x070000, 900)])) [(0x070000, 900)] up)).cfgReg 0x070000 = 900 ∧
    status (execPwrCapWrite (hdr (.regWrite [(0x070000, 899)])) 899 up) = Status.fieldInvalid.code.toNat := by decide +kernel
/-- MEM_WRITE then MEM_READ of DRAM byte 0; an address past the used part of the window. -/
theorem test_memory : (theState (execMemWrite (hdr (.memWrite 0 false 0 [7])) 0 false 0 [7] up)).readByte 0 = 7 ∧
    status (execMemRead (hdr (.memRead 0x2666665800 8)) 0x2666665800 8 up) = Status.addrRange.code.toNat := by decide +kernel
theorem test_launch : ((theState (execLaunch (hdr (.launch launchReq)) launchReq up)).unit u0).status = .armed := by decide +kernel
theorem test_loadProgram : (theState (execLoadProgram (hdr (.loadProgram ⟨1, 4095, [9]⟩)) ⟨1, 4095, [9]⟩ up)).instr u0 4095 = 9 := by
  decide +kernel

/-! ## Beats, launches, retirement -/

theorem witness_fault : clockRuns up = true ∧ up.beat.toNat % 4096 = 0 ∧ (up.boot.regionBeats.all fun b => b == up.beat) = true ∧
    ((up.boot.regionBeats.set 3 1).any fun b => b != up.beat) = true ∧ clockRuns State.reset = false ∧ (inState .fault).isFault = true := by
  decide +kernel
theorem witness_memChannel : let s : State := { up with
      memc := { up.memc with ueTimes := [(5, List.replicate 64 0)] } }
    s.isReady = true ∧ (s.cfgReg 0x010008).toNat % 65536 ≤
      ((tget [] s.memc.ueTimes 5).filter fun b => decide (beatsSince s.beat b ≤ 3906250)).length := by decide +kernel
theorem test_fault : (theState (execPllLockLoss true up)).boot.cause = 2 ∧ (theState (execPllLockLoss true up)).trayAlert = true := by
  decide +kernel

def arm (b : Option Beat) (late : Bool) : Arming := ⟨b, true, 0, late, 7, false, false, [1, 2, 3, 4, 5, 6, 7, 8]⟩
def armed (b : Option Beat) (late : Bool) : State :=
  atBeat 20 { up with units := [(0, { UnitState.reset with status := .armed, arming := some (arm b late) })] }
theorem witness_launch :
    passesB (hdr (.launch launchReq)) (.launch launchReq) up = true ∧ up.ckp.unverified = false ∧
    ((armed (some 16) false).unit u0).arming.isSome = true ∧
    (let s := { armed (some 16) false with host := { up.host with outstanding := [⟨hdr (.launch launchReq), .launch launchReq, false⟩] } }
     s.isReady = true ∧ arms ⟨hdr (.launch launchReq), .launch launchReq, false⟩ = true ∧ s.ethUp (hdr (.launch launchReq)).port.val = true) ∧
    (let s := armed (some 16) false
     s.isReady = true ∧ ((16 : Beat) - s.unitBeat u0).toInt ≤ 0 ∧ canStart s u0 = true) ∧
    (let s := armed (some 16) true
     s.isReady = true ∧ canStart s u0 = true ∧ (arm (some 16) true).late = true) := by decide +kernel
theorem test_launchAtBeat : ((theState (execLaunchAtBeat (armed (some 16) false))).unit u0).pc = 7 ∧
    ((theState (execLaunchAtBeat (armed (some 16) false))).unit u0).gpGet 8 = 8 ∧
    ((theState (execLaunchAtBeat (armed (some 21) false))).unit u0).status = .armed := by decide +kernel

def coll (ph : CPhase) (cl : BitVec 2) (late : Bool) : Coll :=
  ⟨.ag, { collReq with close := cl }, [64], 0, 1, some 16, 0, ph, 0, 0, [], [], [], [], none, 0, none, 0, 0, false, late, false, 0⟩
def withColl (c : Coll) : State := atBeat 20 { up with col := { up.col with opens := [c] } }
theorem witness_lateColl :
    (let s := withColl (coll .armed 2 false)
     s.isReady = true ∧ s.units = [] ∧ s.snap.armed = [] ∧ s.col.opens = [coll .armed 2 false] ∧
       ((16 : Beat) - s.collBeat).toInt ≤ 0) ∧
    (let s := withColl (coll .queued 2 true)
     s.isReady = true ∧ s.coll 1 = some (coll .queued 2 true) ∧ startGate (coll .queued 2 true) s = .open_ ∧
       turnOf s (coll .queued 2 true) = true) := by decide +kernel

/-- HALT of two units at one barrier ends both, and faults the third that waits there (R186, R497). -/
theorem test_haltEpisode : let w : UnitState := { UnitState.reset with status := .running, wait := .barrier 0 0 }
    let s : State := { up with units := [(0, w), (1, w), (2, w)], clusters := [(0, { Cluster.reset with barriers := [(0, some ⟨15, 7, 2⟩)] })] }
    let t := theState (execHalt (hdr (.halt 3)) 3 s)
    (t.unit u0).wait = .ended false ∧ (t.unit ⟨0, 1⟩).wait = .ended false ∧ (t.unit ⟨0, 2⟩).status = .faulted ∧
      t.episode u0.cluster 0 = none := by decide +kernel

theorem witness_retirement :
    (let s : State := { up with units := [(0, { UnitState.reset with retireAsked := true })] }
     s.isReady = true ∧ (s.unit u0).retireAsked = true ∧ spareUsable s u0.cluster = true) ∧
    (let s : State := { up with units := [(0, { UnitState.reset with retireAsked := true })],
                                clusters := [(0, { Cluster.reset with spareUsed := true })] }
     spareUsable s u0.cluster = false) ∧
    (let s : State := { up with clusters := [(0, { Cluster.reset with replacing := some 0 })] }
     s.isReady = true ∧ (s.clu ⟨0, 0⟩).replacing = some 0) ∧
    (let s : State := { up with units := [(0, { UnitState.reset with ueTimes := List.replicate 8 0, ifetchTwice := true })] }
     ueLimit s u0 = true) ∧
    (up.clu ⟨0, 0⟩).spareUsed = false := by decide +kernel

/-! ## Registers -/

theorem witness_registers : seedBusy up = false ∧ seedBusy (armed (some 16) false) = true ∧ fabricBusy up = false ∧
    up.sliceTag = 0 ∧ isCounter 0x200 = true ∧ outerOpen up = false ∧ slicePosBad up 0 = false ∧
    (∀ op ∈ [HostOp.regWrite [(0x18, 0), (0x1C, 1)], .regWrite [(0x2C, 0)], .regWrite [(0x020084, 0)], .regWrite [(0x040000, 0x1000)]],
      passesB (hdr op) op up = true) := by decide +kernel
theorem witness_unitRegisters :
    (let s : State := { up with units := [(0, { UnitState.reset with status := .faulted, faultValid := true })] }
     (s.unit u0).status = .faulted ∧ (s.unit u0).mxQueue = [] ∧ (s.unit u0).shOut = 0) := by decide +kernel
theorem test_faultClear :
    (theUnit (execUnitFaultClear (hdr (.regWrite [(0x400004, 0x80000000)])) u0
      { up with units := [(0, { UnitState.reset with status := .faulted, faultValid := true })] }) u0).status = .idle := by
  decide +kernel

/-! ## The fabric -/

def port1 (x : Port) : State := { up with fab := { up.fab with ports := [(1, x)] }, cfg := [(0x0200C0, 0x01000000)] }
def upPort : Port := { Port.reset with state := .up, lanes := 15, cameUp := true }
def heldFrame : HeldFrame := ⟨5, 0, false, ⟨pkt, none, false, 10, none, false⟩, 0, true, 0⟩
def trained : TrainResult := ⟨true, 15, true, 0x4000, 0, 1800⟩

theorem witness_ports :
    (port1 upPort).isReady = true ∧ ((port1 upPort).port 1).state = .up ∧
    (15 : BitVec 4) &&& ~~~((1 : BitVec 4) <<< 3) ≠ 0 ∧ (8 : BitVec 4) &&& ~~~((1 : BitVec 4) <<< 3) = 0 ∧
    ((port1 { upPort with state := .restriping, restripeTo := 7 }).port 1).state = .restriping ∧
    40 ≤ ((atBeat 40 (port1 upPort)).portBeat 1 - upPort.lastRx).toNat ∧
    downCause (atBeat 40 (port1 upPort)) 1 6 = true ∧ laneSymbols (port1 upPort) 1 3 = 0 ∧
    laneSymbols (port1 { upPort with corrected := [(0, 3, 100000000)] }) 1 3 = 100000000 ∧
    ((port1 upPort).cfgReg 0x020080).toNat < 100000000 := by decide +kernel
theorem witness_training :
    portsTrain up = true ∧ (up.port 1).state = .down ∧ (up.cfgReg (0x020040 + 4)).getLsbD 0 = true ∧
    trainCause up 1 trained = none ∧ trainCause up 1 { trained with delayNs := 1801 } = some 4 ∧
    trainCause up 1 { trained with signal := false } = some 1 ∧ trainCause up 1 { trained with lanes := 0 } = some 2 ∧
    trainCause up 1 { trained with peerStrap := 0x3FFFFC } = some 3 := by decide +kernel

def frame (n : BitVec 12) : Frame := ⟨n, 5, 0, 0, 0, 0, 0, false, 0, false, [34, 300], true, true, [], false, none⟩
theorem witness_frames :
    (let s := port1 { upPort with held := [heldFrame] }
     s.isReady = true ∧ (s.port 1).held ≠ [] ∧ (s.port 1).waiting = [] ∧ (frame 0).fseq = (s.port 1).expected ∧
       (frame 1).fseq ≠ (s.port 1).expected) ∧
    16 ≤ ((16 : Beat) - upPort.lastAck).toNat := by decide +kernel
/-- The frame expected is accepted; ASEQ 5 covers FSEQ 5. -/
theorem test_frames : ((theState (execFrameReceive 1 (frame 0) (port1 upPort))).port 1).expected = 1 ∧
    ((theState (execFrameReceive 1 { frame 0 with ftype := 1, ak := 1 } (port1 { upPort with held := [heldFrame] }))).port 1).held = [] := by
  decide +kernel

/-- Bank 0 valid, every entry DROP but that of coordinate 1 of axis W, which is port 0; slice tag 1 over 16 modules of each axis. -/
def routed : State :=
  { up with
    fab := { up.fab with ports := [(0, upPort), (2, upPort)], valid0 := true, routes := [(1, 0xF0)] },
    cfg := [(0x020040, 3), (0x020048, 3), (0x020084, 0xFFFF), (0x0200C0, 0x01000000), (0x0200C4, 0xFFFF)] }
def wpkt : Packet := { pkt with typ := 1, addr := 0, payload := [1, 2], vers := 3 }
theorem witness_packets : routed.isReady = true ∧ (routed.port 0).state = .up ∧ routed.sliceTag = 1 ∧
    routed.bankValid false = true ∧ routed.bankValid true = false ∧ isFor routed wpkt = true ∧
    isFor routed { wpkt with dst := 0x00100 } = false ∧ siteOf (redirected routed false 0x10000) ≠ siteOf routed.strapNode ∧
    regionOf 0 2 = some (.dram 0) ∧ rangeOk (.dram 0) 0 2 = true ∧ (openSpan (.dram 0) 0 2 .fabric routed).2 = true ∧
    slotBusy routed (.dram 0) 0 2 = false ∧ reaches routed wpkt = true ∧ Machine.claimed 0 wpkt = true ∧ routed.fab.heddles = [] ∧
    wpkt.ver = 1 ∧ wpkt.slice = routed.sliceTag ∧ mayReach routed 0 = true ∧ mayReach up 0 = false := by decide +kernel
/-- A packet for coordinate 1 of axis W is sent by port 0; from the module itself, by injection (R323). -/
theorem witness_forward : let d := { wpkt with dst := 0x01000 }
    isFor routed d = false ∧ siteOf (redirected routed false d.dst) = siteOf routed.strapNode ∧ coord (redirected routed false d.dst) 0 = 1 ∧
    coord routed.strapNode 0 = 0 ∧ hopFor routed false false 0 1 = .port 0 false ∧ (routed.port 0).waiting = [] ∧ (routed.port 0).held = [] ∧
    (routed.port 0).credits = [] ∧ (∀ k ∈ [1, 2, 3], 0 < wrrWeight routed k) ∧
    ((theState (execPacketRoute 2 ⟨0, d⟩ routed)).port 0).held.length = framesOf d := by decide +kernel
theorem test_remoteWrite : (theState (execRemoteWriteReceive wpkt routed)).rawRead 0 2 = [1, 2] ∧
    (theState (execRemoteWriteReceive wpkt routed)).version 0 = 3 := by decide +kernel
/-- A buffer that two packets share stays in use until both have left; CCNT ends at 2,047 (R306). -/
theorem test_sharedFrame :
    (let x := takeFrame upPort (frame 0)
     x.rxBuf = [⟨0, false, [0, 1]⟩] ∧ tget 0 x.rxLeft 0 = 100 ∧ rxWhole x 0 0 = true ∧ rxWhole x 0 1 = false ∧
     (takeFrame x { frame 1 with begins := [], fpo := 31 }).rxBuf = [⟨0, false, [0, 1]⟩, ⟨0, false, [1]⟩]) ∧
    ccnts 4095 = [2047, 2047, 1] := by decide +kernel
/-- A packet routed by its header goes with the port it came in on while frames of it are to come, and is counted (R309). -/
theorem test_partialPacket :
    let big := { wpkt with payload := List.replicate 300 0 }
    let s := theState (execPacketRoute 0 ⟨0, big⟩ (theState (execPacketRoute 0 ⟨0, wpkt⟩ routed)))
    let t := portDown 0 6 s
    s.fab.inbox.length = 2 ∧ t.fab.inbox.map (·.pkt) = [wpkt] ∧ t.counter 0x020118 = 1 ∧ drainCount t false = 1 := by decide +kernel
/-- Port 10 delivers CONTROL before the other classes (R320); the packet served before the one taken has landed. -/
theorem test_localOrder :
    let ctl := { wpkt with cls := 0, tag := 9 }
    let s := theState (execPacketRoute 0 ⟨0, ctl⟩ (theState (execPacketRoute 0 ⟨8, { wpkt with cls := 2 }⟩ routed)))
    let t := takeLocal { wpkt with cls := 2 } s
    t.fab.inbox = [] ∧ t.fab.landed.map (·.pkt) = [ctl] ∧ drainCount t false = 0 ∧ (takeLocal ctl t).fab.landed = [] := by decide +kernel
/-- From a storage port the checkpoint engine alone takes packets (R351), its messages among them (R332, R461). -/
theorem test_storePacket :
    let s : State := { routed with fab := { routed.fab with ports := [(8, upPort)] } }
    let reply := { wpkt with typ := 5, addr := 0x0000700000000000, tag := 5 }
    let t := theState (execPacketRoute 8 ⟨12, reply⟩ (theState (execPacketRoute 8 ⟨8, wpkt⟩ s)))
    t.fab.inbox.map (·.pkt) = [reply] ∧ drainCount t false = 1 ∧ drainCount (takeStore 0 7 5 t) false = 0 := by decide +kernel
theorem test_localPacket : ((theState (execPacketRoute 0 ⟨0, wpkt⟩ routed)).fab.inbox.map (·.pkt)) = [wpkt] := by decide +kernel

theorem witness_heddles :
    (let s := port1 upPort
     heddleField heddle = false ∧ 16 ≤ (heddle.start - s.beat).toInt ∧ s.fab.heddles.length < 64) ∧
    (let s : State := atBeat 16 { up with fab := { up.fab with heddles := [⟨1, 0, 1, 16, 4, 0, 1, 0, false⟩] } }
     s.isReady = true ∧ (findHeddle s 1).isSome = true ∧ ((16 : Beat) - s.beat).toInt ≤ 0) ∧
    (let s : State := atBeat 20 { up with fab := { up.fab with heddles := [⟨1, 0, 1, 16, 4, 0, 1, 1, true⟩] } }
     ((16 : Beat) + 4 - s.beat).toInt ≤ 0 ∧ (findHeddle s 1).isSome = true) ∧
    (up.fab.cmapNow.beats < (up.cfgReg 0x020094).toNat % 2 ^ 24) := by decide +kernel
theorem witness_cmap : let s : State := { up with fab := { up.fab with cmapNow := { Cmap.reset with beats := 3906 } } }
    (s.cfgReg 0x020094).toNat % 2 ^ 24 ≤ s.fab.cmapNow.beats := by decide +kernel

/-! ## Shuttles -/

def sh0 : ShuttleId := ⟨⟨0, 0⟩, 0⟩
def aRun : Run := ⟨⟨0, 64, 2, 1, false⟩, 64, 0, false, [], [], [], 0, false, 0, none⟩
/-- SH0 of cluster D0.C0 runs a chain at 64, where the words ws stand; its issuer is U0. -/
def shuttling (r : Run) (ws : List Word64) : State :=
  let s : State := { up with
    shuttles := [(0, { Shuttle.reset with run := some r })],
    units := [(0, { UnitState.reset with status := .running, shOut := 1 })] }
  s.rawWrite (unitAddr u0 64) (ws.flatMap fun w => leBytes 8 w.toNat)
def fetchedDesc (s : State) : Desc := descOf fun i => if i < 8 then s.word64 (unitAddr u0 (64 + 8 * i)) else 0

theorem witness_chainsOfShuttles :
    (let s : State := { up with shuttles := [(0, { Shuttle.reset with queue := [⟨0, 64, 2, 1, false⟩] })] }
     s.isReady = true ∧ (s.sh sh0).run = none ∧ (s.sh sh0).queue = [⟨0, 64, 2, 1, false⟩]) ∧
    (let s := shuttling { aRun with finished := true } []
     s.isReady = true ∧ ((s.sh sh0).run.map fun r => r.finished) = some true) ∧
    ((shuttling { aRun with count := 65536 } []).sh sh0).run.isSome = true := by decide +kernel
theorem test_chainComplete : ((theState (execChainComplete sh0 (shuttling { aRun with finished := true } []))).unit u1).sem 2 =
    ⟨1, false, false⟩ := by decide +kernel
/-- COPY of 8 I8 elements from DRAM 0x1000 to 0x2000 in one LINEAR row, END set; FILL of 2 words at 0x2000; OWN of bank 3 of U1
with code 8. -/
def copyWords (remote : Nat) : List Word64 :=
  [1 + 2 ^ 4 + 11 * 2 ^ 7 + 11 * 2 ^ 11, 0x1000, 0x2000, 8 + 2 ^ 24, 0, BitVec.ofNat 64 (remote * 2 ^ 20 + 0x00100), 0, 0]
def fillWords : List Word64 := [3 + 2 ^ 4, 0xABCD, 0x2000, 2 + 2 ^ 24, 0, 0, 0, 0]
def ownWords : List Word64 := [2 + 2 ^ 4 + 1 * 2 ^ 5 + 8 * 2 ^ 8 + 2 ^ 35, 0, 0, 0, 0, 0, 0, 0]
def copying (remote : Nat) : State := (shuttling aRun (copyWords remote)).rawWrite 0x1000 [1, 2, 3, 4, 5, 6, 7, 8]

theorem witness_copy :
    (let s := copying 0
     let d := fetchedDesc s
     let c : Ctx := ⟨sh0, false, d⟩
     s.isReady = true ∧ d.typ = 1 ∧ d.ext = false ∧ aRun.addr.toNat % 64 = 0 ∧ c.copyCause = none ∧ nextOk d = true ∧
       c.isEmpty = false ∧ c.copyAddrOk = true ∧ d.remote = false ∧ d.vchk = 0 ∧ d.layout = 0 ∧ d.rows = 1 ∧ d.wmode = 0 ∧
       d.umask = 0 ∧ fmtBlock d.sfmt = false ∧ d.conv = false ∧ c.srcSpans = [(0x1000, 8)] ∧ c.dstSpans = [(0x2000, 8)] ∧
       regionOf 0x1000 8 = some (.dram 0) ∧ regionOf 0x2000 8 = some (.dram 0)) ∧
    (let d := fetchedDesc (copying 1)
     d.remote = true ∧ mayReach (copying 1) d.node = false) := by decide +kernel
theorem test_copy : (theState (execCopyDescriptor sh0 (copying 0))).rawRead 0x2000 9 = [1, 2, 3, 4, 5, 6, 7, 8, 0] ∧
    (((theState (execCopyDescriptor sh0 (copying 0))).sh sh0).run.map fun r => r.finished) = some true := by decide +kernel

theorem witness_fillAndOwn :
    (let d := fetchedDesc (shuttling aRun fillWords)
     let c : Ctx := ⟨sh0, false, d⟩
     d.typ = 3 ∧ c.fillCause = none ∧ nextOk d = true ∧ c.fillAddrOk = true ∧ d.remote = false ∧ d.len = 2 ∧ d.rows = 1) ∧
    (let d := fetchedDesc (shuttling aRun ownWords)
     d.typ = 2 ∧ nextOk d = true ∧ fld d.word0 11 8 = 8 ∧ d.word0.getLsbD 35 = true) := by decide +kernel
theorem test_fill : (theState (execFillDescriptor sh0 (shuttling aRun fillWords))).rawRead 0x2008 2 = [0xCD, 0xAB] := by decide +kernel
/-- An owner change is presented by OWN and takes effect by its own row (R198, R199). -/
theorem test_own :
    ((theState (execOwnDescriptor sh0 (shuttling aRun ownWords))).unit u1).ownReq = [(3, 0, 8)] ∧
    ((theState (execOwnerChangeEffect u1 3 (theState (execOwnDescriptor sh0 (shuttling aRun ownWords))))).unit u1).owner 3 = 8 := by
  decide +kernel

/-- A chain that waits for the answer to one remote WRITE of TAG 9, sent at beat 0. -/
def waitsAnswer (n : Nat) : State := shuttling { aRun with unanswered := [⟨9, { wpkt with dst := 0x00100 }, n, 0⟩], endsChain := true } []
def ack (typ : BitVec 4) : Packet := { pkt with typ := typ, src := 0x00100, tag := 9 }
theorem witness_remoteAnswers : (waitsAnswer 0).isReady = true ∧ isFor (waitsAnswer 0) (ack 2) = true ∧
    ((waitsAnswer 0).cfgReg 0x02008C).toNat ≤ ((atBeat 3906 (waitsAnswer 0)).shuttleBeat sh0 - 0).toNat ∧
    (0 : Nat) < ((waitsAnswer 0).cfgReg 0x020090).toNat ∧ ((waitsAnswer 3).cfgReg 0x020090).toNat ≤ 3 ∧
    mayReach (waitsAnswer 0) 0x00100 = false := by decide +kernel
theorem test_wack : ((((theState (execWackReceive (ack 2) (waitsAnswer 0))).sh sh0).run).map fun r => r.finished) = some true ∧
    (((theState (execWnakReceive (ack 3) (waitsAnswer 0))).sh sh0).run).isNone = true := by decide +kernel

/-! ## Patrols -/

def patrolling : State := { up with cfg := [(0x010004, 0xC0000000)] }
def flip (bits : Nat) : Upset := ⟨.dram 0, BitVec.ofNat 87 bits⟩
theorem witness_patrols : patrolling.isReady = true ∧ patrolling.upsets = [] ∧ (patrolling.cfgReg 0x010004).getLsbD 31 = true ∧
    (patrolling.cfgReg 0x010004).getLsbD 30 = true ∧ patrolling.linePoison 0 = false ∧
    State.reset.isReady = false := by decide +kernel
/-- One flipped bit is corrected and counted; three poison the line (R218, R220, R221). -/
theorem test_patrol : (theState (execDramPatrolVisit 0 [flip 4] patrolling)).counter 0x010400 = 1 ∧
    (theState (execDramPatrolVisit 0 [flip 4] patrolling)).linePoison 0 = false ∧
    (theState (execDramPatrolVisit 0 [flip 7] patrolling)).linePoison 0 = true := by decide +kernel
theorem test_sramPatrol : tget 0 (theState (execSramPatrol u0 [] patrolling)).memc.sramVisit 0 = 1 := by decide +kernel
/-! ## Check bits and bytes on the wire -/

/-- Of message bit 0 the check bits are those of x^14 mod g(x), 0x377, with their parity bit; an all-zero message has none (R217). -/
theorem test_checkBits : checkBits 65 1 = 0x4377 ∧ checkBits 64 1 = 0x4377 ∧ checkBits 72 0 = 0 ∧
    polyMul 1 0x4377 65 ^^^ ((checkBits 65 1).toNat % 2 ^ 14) = 1 <<< 14 ∧ (popcount 1 65 + popcount 0x4377 15) % 2 = 0 := by decide +kernel
/-- Address 0x40_0001_2345: die region 1, line 0x40_0001_2340 (R209, R211, R212). -/
theorem test_channelBytes : channelOf 0x4000012345 = 27 ∧ Machine.lineAt 0x4000012345 = (3904, 4112) ∧
    (up.rawWrite 0x4000012345 [7]).channelByte 27 3909 = some 7 ∧ up.channelByte 27 (320 * 26843545) = none := by decide +kernel
theorem witness_checkCode : up.flipsAt (.sram 5) = 0 ∧ (0x4000012340 : Nat) % 64 = 0 ∧ 0x4000012340 < 8 * dramWindow ∧
    0x4000012340 % dramWindow / 6144 < 26843545 ∧ (∀ i < 8, up.flipsAt (.dram (0x4000012340 / 8 + i)) = 0) := by decide +kernel
/-- The check value of the IEEE 802.3 CRC-32. -/
theorem test_crc32 : crc32 [0x31, 0x32, 0x33, 0x34, 0x35, 0x36, 0x37, 0x38, 0x39] = 0xCBF43926 := by decide +kernel
/-- A PING of revision 3 (Table 11.2), and it read back. -/
theorem test_header : let h := { hdr .ping with chain := 2, cfirst := true }
    requestBytes h 0x0001 [] = [0x31, 0, 0, 1, 0, 0, 0, 5, 0, 0, 0, 1, 0, 0, 0, 9, 0, 2, 0x20, 0, 0, 0, 0, 0, 0, 0, 0, 0, 0, 0, 0, 0] ∧
    parseHdr h.net 1 7 40 (requestBytes h 0x0001 []) = revHdr h ∧ 1 ≤ h.rev.toNat ∧ h.rev.toNat ≤ 3 := by decide +kernel
/-- A WRITE of 2 bytes from module 0 (Table 7.9); an idle frame with ACK of FSEQ 5 (Table 7.3). -/
theorem test_wire : (packetBytes wpkt).length = 34 ∧ (packetBytes wpkt).take 12 = [0x11, 0x80, 0, 0, 0, 0, 0, 0, 0, 1, 0, 2] ∧
    (txHdr { upPort with expected := 6 } 1).word = 5 * 2 ^ 40 + 2 ^ 38 + 2 ^ 36 + 31 * 2 ^ 31 := by decide +kernel

/-! ## Training state -/

def putLine (a : Nat) (ws : List Word64) (s : State) : State := s.rawWrite a (ws.flatMap fun w => leBytes 8 w.toNat)
def lineAt (s : State) (a : Nat) : List Word64 := (List.range 8).map fun i => s.word64 (a + 8 * i)
/-- The line at a can be read as `reads` asks. -/
def readable (s : State) (a : Nat) : Bool :=
  (regionOf a 64 == some (.dram 0)) && a % 64 == 0 && s.upsets.isEmpty && !s.linePoison a

/-- A step record at 0x10000 with OUTCOME out of step 7, a commit list of one shard whose header at 0x12000 is prepared for step 8
with 4 values, a bobbin-set record at 0x13000 of two free slots, and one open collective. -/
def job (out : Nat) (c : Coll) : State :=
  let s := { withColl c with cfg := [(0x030008, 0x10000)] }
  let s := putLine 0x10000 [BitVec.ofNat 64 (7 + out * 2 ^ 48), 0x13F800000, 0, 0x11000, 1, 0, 0, 0] s
  let s := putLine 0x11000 [0x12000] s
  let s := putLine 0x12000 [BitVec.ofNat 64 (7 * 2 ^ 16), BitVec.ofNat 64 (1 + 8 * 2 ^ 16), 0x20000, 0x21000, 0, 0, 0, 4] s
  putLine 0x13000 [0x30000, BitVec.ofNat 64 (64 + 2 * 2 ^ 40), 0, 0, 0, 0, 0, 0x14000] s

def closing (cl : BitVec 2) (ph : CPhase) (v : Bool) (slot : Option Nat) : Coll :=
  let c := coll ph cl false
  { c with req := { c.req with step := 8, bset := 0x13000 }, flag := some ⟨4, 0, v, v, []⟩, slot := slot }

theorem witness_training_record : ∀ out ∈ [0, 1, 2, 3, 4, 5],
    let s := job out (closing 2 .flagged false (some 0))
    s.stepAddr = 0x10000 ∧ readable s 0x10000 = true ∧ readable s 0x12000 = true ∧ readable s 0x13000 = true ∧
      fld (lineW (lineAt s 0x10000) 4) 15 0 = 1 ∧ regionOf (lineW (lineAt s 0x10000) 3).toNat 8 = some (.dram 0) ∧
      s.word64 0x11000 = 0x12000 ∧ prepared (lineAt s 0x12000) 8 = true ∧ hdrStep (lineAt s 0x12000) ≠ 8 ∧
      recOutcome (lineAt s 0x10000) = out ∧ recStep (lineAt s 0x10000) = 7 := by decide +kernel
/-- The claim of slot 0 of the one bobbin-set record has been left FILLING; nothing was claimed. -/
def fillingJob (out : Nat) : State :=
  let s := putLine 0x13000 [0x30000, BitVec.ofNat 64 (64 + 2 * 2 ^ 40), 1, 0, 0, 0, 0, 0x14000] (job out (coll .queued 0 false))
  { s with col := { up.col with bsets := [0x13000] } }
theorem witness_leftFilling : let s := fillingJob 3
    s.isReady = true ∧ s.col.opens = [] ∧ s.col.bsets = [0x13000] ∧ readable s 0x13000 = true ∧ bsetSlots (lineAt s 0x13000) = 2 ∧
      slotState (lineAt s 0x13000) 0 = 1 ∧ slotState (lineAt s 0x13000) 1 ≠ 1 ∧ up.col.bsets = [] ∧
      recOutcome (lineAt s 0x10000) = 3 ∧ prepared (lineAt s 0x12000) 7 = false := by decide +kernel
/-- The commit that is run again makes the slot LIVE (R267, R271). -/
theorem test_commitResume : let s := putLine 0x12000 [BitVec.ofNat 64 (6 * 2 ^ 16), BitVec.ofNat 64 (1 + 7 * 2 ^ 16), 0x20000, 0x21000, 0, 0, 0, 4] (fillingJob 3)
    let t := theState (execCommitResume s)
    fld (t.word64 0x13010) 1 0 = 2 ∧ fld (t.word64 0x10000) 50 48 = 4 ∧ prepared (lineAt s 0x12000) 7 = true := by decide +kernel
theorem witness_decisions : ∀ v ∈ [true, false],
    let c := closing 1 .flagged v none
    let s := job 0 c
    s.isReady = true ∧ s.col.opens = [c] ∧ c.phase = .flagged ∧ (c.flag.map fun f => f.value) = some v ∧
      s.hx.waitingFetch = [] ∧ s.hx.applying = none ∧ (s.cfgReg 0x030004).getLsbD 30 = false ∧
      fld (s.cfgReg 0x050004) 15 0 = 0 ∧ s.ckp.digesting = none := by decide +kernel
theorem witness_flagPhase : let c := { closing 1 .running false none with flag := none, op := .rs }
    let s := job 0 c
    s.isReady = true ∧ s.coll 1 = some c ∧ dataDone c = true ∧ heldFlags c = [] ∧
      ((List.range 4).all fun a => decide (s.sliceExtent a ≤ 1)) = true ∧ 1 < routed.sliceExtent 0 := by decide +kernel

/-- The gradient decision writes OUTCOME 1, or 2 with SKIPS one higher (R266). -/
theorem test_gradDecision :
    fld ((theState (execGradFlagDone 1 (job 0 (closing 1 .flagged false none)))).word64 0x10000) 50 48 = 1 ∧
    fld ((theState (execGradFlagDone 1 (job 0 (closing 1 .flagged true none)))).word64 0x10000) 50 48 = 2 ∧
    (theState (execGradFlagDone 1 (job 0 (closing 1 .flagged true none)))).word64 0x10010 = 0x100000001 := by decide +kernel
/-- A commit inverts CUR, writes STEP 8 and clears PVALID; the slot is LIVE; OUTCOME is COMMITTED (R255, R267). -/
theorem test_commit : let t := theState (execUpdateFlagDone 1 (job 1 (closing 2 .flagged false (some 0))))
    t.word64 0x12000 = BitVec.ofNat 64 (1 + 2 ^ 8 + 8 * 2 ^ 16) ∧ fld (t.word64 0x12008) 0 0 = 0 ∧
    t.word64 0x13010 = BitVec.ofNat 64 (2 + 8 * 2 ^ 16) ∧ fld (t.word64 0x10000) 50 48 = 4 := by decide +kernel
theorem test_skipUpdate : let t := theState (execUpdateFlagDone 1 (job 1 (closing 2 .flagged true (some 0))))
    fld (t.word64 0x12008) 0 0 = 0 ∧ fld (t.word64 0x12000) 0 0 = 0 ∧ fld (t.word64 0x10000) 50 48 = 5 := by decide +kernel

/-- A set of the same step has failed: collectives accepted before that end too, later ones wait (R295, R375; log entry 93). -/
theorem test_failedSet :
    let at' := fun (upto : Nat) =>
      let s := job 1 (closing 2 .flagged false none)
      theState (execUpdateFlagDone 1 { s with col := { s.col with failedSets := [⟨0x13800, 8, upto⟩] } })
    ((at' 1).col.opens.length, (at' 1).col.failedSets.length, fld ((at' 1).word64 0x10000) 50 48) = (0, 2, 1) ∧
    ((at' 0).col.opens.length, (at' 0).col.failedSets.length) = (1, 1) := by decide +kernel

theorem witness_bobbin :
    (let c := closing 2 .claiming false none
     let s := job 1 c
     s.isReady = true ∧ s.coll 1 = some c ∧ c.phase = .claiming ∧ c.retryAt = c.claimSince ∧
       fld (lineW (lineAt s 0x13000) 7) 54 48 = 0 ∧ chooseSlot (lineAt s 0x13000) = some 0) ∧
    (let c := { closing 2 .claiming false none with retryAt := 16 }
     c.retryAt ≠ c.claimSince ∧ (c.retryAt - (20 : Beat)).toInt ≤ 0) ∧
    (let s := putLine 0x14000 [8] (putLine 0x13000 [0x30000, BitVec.ofNat 64 (64 + 2 * 2 ^ 40), 0, 0, 0, 0, 0,
        BitVec.ofNat 64 (0x14000 + 2 ^ 48)] (job 1 (closing 2 .claiming false none)))
     readable s 0x14000 = true ∧ readable s 0x13000 = true ∧ chooseSlot (lineAt s 0x13000) = some 0 ∧
       fld (lineW (lineAt s 0x13000) 7) 54 48 = 1 ∧ fld (lineW (lineAt s 0x13000) 7) 47 0 = 0x14000 ∧
       (lineW (lineAt s 0x14000) 0).getLsbD 3 = true ∧ fld (lineW (lineAt s 0x14000) 0) 2 0 = 0 ∧
       ((theState (execBobbinClaim 1 s)).coll 1).map (fun c => (c.phase, c.retryAt)) = some (.claiming, s.collBeat + 16)) ∧
    chooseSlot [0x30000, BitVec.ofNat 64 (64 + 2 ^ 40), 1, 0, 0, 0, 0, 0x14000] = none ∧
    ((job 1 (closing 2 .claiming false none)).cfgReg 0x030020).toNat ≤ ((390625 : Beat) - 0).toNat := by decide +kernel

def digesting : State :=
  let s := job 4 (closing 2 .flagged false none)
  { s with ckp := { s.ckp with digesting := some 7, ownDigests := [(6, [1])] } }
theorem witness_digests : digesting.isReady = true ∧ digesting.ckp.digesting = some 7 ∧ 0 < hdrCount (lineAt digesting 0x12000) ∧
    regionOf (hdrMaster (lineAt digesting 0x12000) (hdrCur (lineAt digesting 0x12000))) (4 * 4) = some (.dram 0) ∧
    digesting.anyPoison (.dram 0) 0x20000 16 = false ∧ digesting.ckp.rxDigests = [] ∧
    digesting.ckp.ownDigests = [] ++ (6, [1]) :: [] := by decide +kernel
/-- A list verifies a restored step when it comes from CKP_DIGEST_PEER; without a peer the checkpoint's seal does (R458). -/
theorem test_verified :
    (let s := { digesting with cfg := (0x050008, 0x00100) :: digesting.cfg, ckp := { digesting.ckp with unverified := true, restoredStep := 6 } }
     (theState (execDigestListReceive ⟨6, 0x00100⟩ [1] s)).ckp.unverified = false ∧
       (theState (execDigestListReceive ⟨6, 0x00200⟩ [1] s)).ckp.unverified = true) ∧
    (let s := { up with ckp := { up.ckp with unverified := true, restoredRecs := some (2, [5, 6]) } }
     (keepSeal 2 [5, 6] s).ckp.unverified = false ∧ (keepSeal 2 [5, 7] s).ckp.unverified = true ∧
       (keepSeal 3 [5, 6] s).ckp.unverified = true) := by decide +kernel

/-! ## Collectives -/

/-- A slice of two modules on axis Z; this module is position 0 of it. -/
def site2 (c : Coll) : State :=
  { withColl c with
    fab := { up.fab with ports := [(6, upPort), (7, upPort)], valid0 := true },
    cfg := [(0x020058, 3), (0x02005C, 3), (0x020084, 2), (0x0200C0, 0x01000000), (0x0200C4, 1)] }
def two (op : CollOp) (ph : CPhase) : Coll :=
  ⟨op, { collReq with src := 0x1000, dst := 0x2000, total := 128 }, [64, 64], 0, 2, none, 0, ph, 1, 1, [], [], [], [], none, 0x2000,
   none, 0, 0, false, false, false, 0⟩
theorem witness_slice : (site2 (two .rs .queued)).sliceExtent 3 = 2 ∧ (site2 (two .rs .queued)).sliceTag = 1 ∧
    linePos (site2 (two .rs .queued)) 3 = 0 := by decide +kernel
theorem witness_collective : (∀ e ∈ [(CollOp.rs, collReq), (.ag, collReq), (.ar, collReq), (.bc, collReq),
      (.a2a, { collReq with counts := some [64, 64, 64, 64] })],
    let q := { e.2 with src := 0x1000, dst := 0x2000, total := 128, opid := 2 }
    let s := site2 (two .rs .queued)
    passesB (hdr (.collective e.1 q)) (.collective e.1 q) s = true ∧ collField e.1 q 2 s = false ∧ s.coll 2 = none ∧
      stepOrderRefusal e.1 q s = none ∧ hxHolds q s = false) ∧
    (up.sliceTag = 0 ∧ 16 ≤ (List.replicate 16 (two .rs .queued)).length) := by decide +kernel
theorem witness_closingOrder :
    stepOrderRefusal .rs { collReq with close := 1, step := 8 } (job 4 (two .rs .queued)) = none ∧
    stepOrderRefusal .ag { collReq with close := 2, step := 7 } (job 1 (two .rs .queued)) = none := by decide +kernel
theorem witness_starts : ∀ op ∈ [CollOp.rs, .ag, .bc], let c := two op .queued
    let s := site2 c
    s.isReady = true ∧ s.coll 1 = some c ∧ turnOf s c = true ∧ c.held = [] ∧ c.sent = [] ∧ regionOf 0x1000 512 = some (.dram 0) ∧
      s.anyPoison (.dram 0) 0x1000 512 = false := by decide +kernel

/-- A data packet of operation op to position 0 of 64 F32 elements (32 for a ring's half), all bytes 0. -/
def dpkt (op n : Nat) : Packet :=
  { collPacket ⟨1, op, false, false, false, op == 4, 0, 0, 0, 0⟩ 2 0 0 0 (List.replicate n 0) with src := 1, tag := 77 }
theorem witness_data : ∀ e ∈ [(CollOp.rs, 1, 0, 256), (.bc, 3, 1, 256), (.a2a, 4, 0, 256)],
    let c := { two e.1 .running with req := { (two e.1 .running).req with root := BitVec.ofNat 4 e.2.2.1 }, counts := [64, 64, 64, 64] }
    let s := site2 c
    let p := dpkt e.2.1 e.2.2.2
    s.isReady = true ∧ isFor s p = true ∧ (collHdr p).op = e.2.1 ∧ s.coll (collHdr p).opid = some c ∧ c.seen p = false ∧
      wellSized c (collHdr p) p = true ∧ s.upsets = [] := by decide +kernel
theorem test_broadcast : let c := { two .bc .running with req := { (two .bc .running).req with root := 1 }, counts := [2, 2] }
    (theState (execCollBcData { dpkt 3 8 with payload := List.replicate 8 9 } (site2 c))).readByte 0x2007 = 9 := by decide +kernel
theorem witness_flags : let c := { two .ag .flag with flag := some ⟨3, 1, false, false, []⟩ }
    let s := site2 c
    let p := { collPacket ⟨1, 5, false, false, true, false, 3, 0, 0, 0⟩ 3 0 0 0 [] with src := 1 }
    s.isReady = true ∧ isFor s p = true ∧ (collHdr p).op = 5 ∧ s.coll 1 = some c ∧ c.seen p = false ∧ (collHdr p).chunk = 3 ∧
      (collHdr p).step = 0 ∧ s.sliceExtent 3 = 2 := by decide +kernel
theorem witness_rind : let c := closing 2 .running false none
    let s := { job 1 c with
      cfg := [(0x030004, 0x40000000), (0x030008, 0x10000), (0x030010, 0x40000), (0x030018, 0x10000), (0x0200C0, 0x01000000)] }
    let p := { dpkt 6 256 with src := 1 }
    (s.cfgReg 0x030004).getLsbD 30 = true ∧ isFor s p = true ∧ (collHdr p).op = 6 ∧ s.coll 1 = some c ∧ c.seen p = false ∧
      readable s 0x40000 = true ∧ s.col.rind = none ∧ 256 ≤ (rindSize s - 64) / 2 := by decide +kernel
def sentOne (n : Nat) : Coll := { two .ag .running with sent := [⟨77, dpkt 2 128, [1], n, 0⟩] }
theorem witness_collectiveEnds :
    (let s := site2 (sentOne 0)
     s.isReady = true ∧ s.col.opens = [sentOne 0] ∧ isFor s { ack 2 with src := 1, tag := 77 } = true ∧ s.fab.redirects = [] ∧
       (sentOne 0).byHx = false ∧ (s.cfgReg 0x02008C).toNat ≤ ((3906 : Beat) - 0).toNat ∧ (s.cfgReg 0x020090).toNat = 3) ∧
    dataDone { two .ag .running with left := 0, leftAg := 0 } = true := by decide +kernel
theorem test_collectiveComplete :
    (theState (execCollectiveComplete 1 (site2 { two .ag .running with left := 0, leftAg := 0 }))).col.opens = [] ∧
    ((theState (execCollectiveComplete 1 (site2 { two .ag .running with left := 0, leftAg := 0 }))).host.events.head?.map Event.code) =
      some 0x0040 := by decide +kernel

/-! ## The HX engine -/

/-- The training record of `job` with no open collective, one outer record at 0x40000 of 4 elements with ASTEP a and BSTEP b, S = 1,
and a table of two members; the other one's NODE is 5. -/
def outer (out a b : Nat) : State :=
  let s := { job out (closing 2 .flagged false none) with col := up.col }
  let s := putLine 0x40000 [BitVec.ofNat 64 (a * 2 ^ 16), BitVec.ofNat 64 (b * 2 ^ 16), 0, 4, 0, 4, 0x12000, 0] s
  let s := putLine 0x40040 [0x50000, 0x51000, 0x52000, 0x53000, 0x54000, 0x55000, 0, 0x56000] s
  let e := fun (i : BitVec 6) (n : Node) => (⟨i, true, n, List.replicate 4 0, List.replicate 4 0, 0⟩ : PeerEntry)
  { s with
    cfg := [(0x030008, 0x10000), (0x040000, BitVec.ofNat 32 (2 ^ 26 + 4 * 2 ^ 12)), (0x040008, 3)]
    hx := { s.hx with configured := true, shards := [0x40000], peers := [e 0 0, e 1 5], inner := 3,
                      general := { s.hx.general with rbufSize := 0x4000000 } } }
def recAt (s : State) : OuterRec := ⟨0x40000, lineAt s 0x40000, lineAt s 0x40040⟩

def apartB : List (Nat × Nat) → Bool
  | [] => true
  | x :: t => t.all (fun y => decide (x.1 + x.2 ≤ y.1 ∨ y.1 + y.2 ≤ x.1)) && apartB t
theorem apart_of : ∀ {l : List (Nat × Nat)}, apartB l = true → l.Pairwise fun x y => x.1 + x.2 ≤ y.1 ∨ y.1 + y.2 ≤ x.1
  | [], _ => .nil
  | x :: t, h => by
    simp only [apartB, Bool.and_eq_true, List.all_eq_true, decide_eq_true_eq] at h
    exact .cons h.1 (apart_of h.2)

theorem reads_of {s : State} {a : Nat} (h : readable s a = true) : reads s a (lineAt s a) := by
  simp only [readable, Bool.and_eq_true, beq_iff_eq, Bool.not_eq_true', List.isEmpty_iff] at h
  exact ⟨⟨0, h.1.1.1⟩, h.1.1.2, h.1.2, h.2, rfl⟩
theorem sound_of {s : State} (h : (s.upsets.isEmpty && s.poison.isEmpty && s.lineTags.isEmpty) = true) : sound s := by
  simp only [Bool.and_eq_true, List.isEmpty_iff] at h
  exact ⟨h.1.1, h.1.2, fun l => by simp [State.linePoison, State.tag, h.2, tget]⟩
theorem still_of {s : State} (h : s.hx.sessions = []) : still s := fun k => by
  simp [State.session, h, tget, Session.maySend, Session.reset]

def oneOuterB (s : State) (r : OuterRec) (h : List Word64) : Bool :=
  decide (s.hx.shards = [0x40000]) && s.hx.configured && s.isReady && readable s 0x40000 && readable s 0x40040 && readable s r.hdr &&
    (s.upsets.isEmpty && s.poison.isEmpty && s.lineTags.isEmpty) &&
    decide (0 < r.scount ∧ r.slo + r.scount ≤ r.count ∧ hdrCount h = r.count ∧ hdrNmom h ≤ 2) && apartB (areas s r h) &&
    (areas s r h).all (fun x => regionOf x.1 x.2 == some (.dram 0)) && s.hx.peers.any (fun e => e.node == s.strapNode) &&
    decide ((s.hx.peers.map (·.index)).Nodup ∧ (s.hx.peers.map (·.node)).Nodup)
theorem oneOuter_of {s : State} (h : oneOuterB s (recAt s) (lineAt s (recAt s).hdr) = true) :
    OneOuter s (recAt s) (lineAt s (recAt s).hdr) := by
  simp only [oneOuterB, Bool.and_eq_true, decide_eq_true_eq] at h
  obtain ⟨⟨⟨⟨⟨⟨⟨⟨⟨⟨⟨a, b⟩, c⟩, d⟩, e⟩, f⟩, g⟩, i⟩, j⟩, k⟩, l⟩, m⟩ := h
  refine ⟨a, b, c, reads_of d, reads_of e, reads_of f, sound_of ?_, i, apart_of j, ?_, ?_, m⟩
  · simp only [Bool.and_eq_true]
    exact g
  · intro x hx
    exact ⟨0, by simpa using List.all_eq_true.1 k x hx⟩
  · simpa using l

theorem witness_outer (out a b : Nat) (h : (out, a, b) ∈ [(4, 2, 2), (4, 2, 3), (4, 2, 4)]) :
    OneOuter (outer out a b) (recAt (outer out a b)) (lineAt (outer out a b) (recAt (outer out a b)).hdr) := by
  simp only [List.mem_cons, Prod.mk.injEq, List.not_mem_nil, or_false] at h
  obtain ⟨rfl, rfl, rfl⟩ | ⟨rfl, rfl, rfl⟩ | ⟨rfl, rfl, rfl⟩ := h <;> exact oneOuter_of (by decide +kernel)

/-- Orders are met, each by its state, with the passages of the commands. -/
theorem witness_hxCommands :
    (let s := outer 4 2 2
     let r := recAt s
     passesB (hdr (.hxOuter 3 0)) (.hxOuter 3 0) s = true ∧ s.hx.inner.toNat = fld (s.cfgReg 0x040008) 15 0 ∧ r.bstep + 1 = 3 ∧
       3 ≤ r.astep + 1 + s.stale ∧ finalOutcome (recOutcome (lineAt s 0x10000)) = true ∧ s.hx.pauses = 0 ∧ onAxis s = false ∧
       s.hx.steps = [] ∧ s.hx.sessions = [] ∧ readable s s.stepAddr = true ∧ s.stepAddr = 0x10000 ∧ r.bstep + 1 ≠ 9) ∧
    (let s := outer 4 2 4
     let r := recAt s
     passesB (hdr (.hxApply 3 8 none)) (.hxApply 3 8 none) s = true ∧ r.astep + 1 = 3 ∧ 3 + s.stale ≤ r.bstep ∧
       recStep (lineAt s 0x10000) = 8 - 1) ∧
    passesB (hdr (.hxResume 6)) (.hxResume 6) up = true ∧ passesB (hdr (.hxFetch 1)) (.hxFetch 1) (outer 4 2 2) = true ∧
    passesB (hdr .hxRekey) .hxRekey up = true ∧ passesB (hdr (.hxMember 1)) (.hxMember 1) up = true := by decide +kernel
def aStep (s : State) : OuterStep := { newStep 3 0 s with boundary := true }
def withStep (s : State) (x : OuterStep) : State := { s with hx := { s.hx with steps := [x] } }
theorem witness_apply : let s := withStep (outer 4 2 4) { aStep up with isReady := true }
    oneOuterB s (recAt s) (lineAt s (recAt s).hdr) = true ∧ (s.hx.steps.any fun x => x.o == 3 && x.isReady) = true ∧
    ({ s with hx := { s.hx with applying := some (3, 8, some (u0, 2), false) } } : State).isReady = true := by decide +kernel
theorem witness_merge : let x := { aStep (outer 4 2 3) with members := [0, 1] }
    let s := { withStep (outer 4 2 3) x with hx := { (withStep (outer 4 2 3) x).hx with landed := [(3, 0), (3, 1)] } }
    oneOuterB s (recAt s) (lineAt s (recAt s).hdr) = true ∧ x.isReady = false ∧ x.merged = false ∧ x.halted = false ∧
      x.mergeNext = 0 ∧ (recAt s).astep + 1 = x.o.toNat ∧ onAxis s = false ∧ s.hx.sessions = [] ∧ selfIndex s = 0 ∧
      newStep 3 0 (outer 4 2 3) = { newStep 3 0 (outer 4 2 3) with boundary := false, next := 0 } := by decide +kernel

theorem witness_hxConfig :
    let e := fun (i : BitVec 6) (n : Node) => (⟨i, true, n, List.replicate 4 0, List.replicate 4 0, 0⟩ : PeerEntry)
    let g : HxGeneral := { HxGeneral.none with job := 3, nshard := 1, sbuf := 0x4000000, sbufSize := 0x4000000, rbuf := 0x8000000, rbufSize := 0x4000000 }
    let s := { up with cfg := [(0x040000, 0x4000000)], hx := { up.hx with pend := ⟨some g, [(0, 0x40000)], [e 0 0, e 1 5]⟩ } }
    passesB (hdr .hxCommit) .hxCommit s = true ∧ regionOf 0x4000000 0x4000000 = some (.dram 0) ∧ deepBuffer s = false ∧
      svcNormal s = true ∧ outerOpen s = false ∧ s.hx.pend.shards = (List.range 1).map (fun i => (i, (s.hx.pend.shards.getD i (0, 0)).2)) ∧
      passesB (hdr (.hxGeneral g)) (.hxGeneral g) up = true ∧ passesB (hdr (.hxShards 0 [0x40000])) (.hxShards 0 [0x40000]) up = true ∧
      passesB (hdr (.hxPeers [e 1 5])) (.hxPeers [e 1 5]) up = true ∧ outerOpen (outer 4 2 3) = true := by decide +kernel
theorem witness_boundary : let x := { newStep 3 0 up with next := 1 }
    let s := withStep (outer 4 2 3) x
    s.isReady = true ∧ x.boundary = false ∧ x.waitColl = false ∧ x.halted = false ∧ s.hx.shards.length ≤ x.next ∧ s.stale = 1 := by
  decide +kernel
theorem witness_objects : let x := { aStep up with members := [0, 1], merged := true, digests := [7] }
    let s := withStep (outer 4 2 3) x
    live s 1 = true ∧ (objectBytes s).2 = .inl 512 ∧ selfIndex s = 0 ∧ maskOf x.members = 3 ∧ s.hx.landed = [] ∧
      landedBytes { s with hx := { s.hx with landing := [(3, 1, 512)] } } 3 1 = 512 := by decide +kernel
theorem witness_soundRecord : let s := withStep (outer 4 2 3) (aStep up)
    s.hx.shards.map (fun a => outerRec a.toNat s) = [(s, some (recAt s))] := rfl
/-- The last DIGEST that agrees makes the result ready (R394). -/
theorem test_digestAgrees : let s := withStep (outer 4 2 3) { aStep up with members := [0, 1], merged := true, digests := [7] }
    ((theState (execHxDigest 1 3 3 [7] s)).hx.steps.map (·.isReady)) = [true] ∧
    ((theState (execHxDigest 1 3 3 [8] s)).hx.pauses) = 8 := by decide +kernel
theorem witness_drops : let x := { newStep 3 0 up with members := [0, 1] }
    let s := withStep (outer 4 2 3) x
    let s := atBeat (10 ^ 12) { s with cfg := [(0x030008, 0x10000), (0x040000, BitVec.ofNat 32 (2 ^ 30 + 2 ^ 26 + 4 * 2 ^ 12))],
                                       hx := { s.hx with pauses := 2, lateSince := some 0 } }
    live s 1 = true ∧ svcNormal s = false ∧ x.merged = false ∧ x.merging = false ∧ s.hx.pauses.getLsbD 1 = true ∧
      s.hx.landed.contains (x.o, 1) = false ∧ beatsOfMs (s.cfgReg 0x04002C).toNat ≤ beatsSince s.hxBeat 0 := by decide +kernel
/-- The outer record is poisoned (R402). -/
theorem witness_badRecord : let s := (withStep (outer 4 2 3) (aStep up)).setTag 0x40000 1
    badRecord s = some 0 ∧ badRecord (withStep (outer 4 2 3) (aStep up)) = none := by decide +kernel

/-! ## HX packets and keys -/

def theKeys : Keys := ⟨4, 0, 0, 0, 0⟩
def sess (x : Session) : State := let s := outer 4 2 3
  { s with hx := { s.hx with sessions := [(1, x)] } }
def going : Session := { Session.reset with keys := some theKeys, netA := { HxNet.reset with path := true } }
/-- A header of the peer, entry 1, under key epoch 4 with counter 1, for outer step 3 and entry 1; the packet with its tag. -/
def hhead (typ len : Nat) (kind : BitVec 8) (seq : BitVec 48) : HxHead := ⟨typ, false, 0, 0, 5, 0, seq, 4, 1, 0, len, 3, kind, 1, 0⟩
def hpkt (typ : Nat) (plain : List Byte) (kind : BitVec 8) (seq : BitVec 48) : HxPkt :=
  ⟨toPort0 47112, 47112, false, 0, 5, 0, seq, 4, 1, 0, 3, kind, 1, 0, plain, (hhead typ plain.length kind seq).tag 0 plain⟩

theorem hpkt_net (typ : Nat) (plain : List Byte) (kind : BitVec 8) (seq : BitVec 48) : (hpkt typ plain kind seq).net = 0 := by
  apply Fin.ext
  show (toPort0 47112).port.val / 4 = 0
  decide
theorem hpkt_head (typ : Nat) (plain : List Byte) (kind : BitVec 8) (seq : BitVec 48) :
    pktHead (hpkt typ plain kind seq) typ plain.length = hhead typ plain.length kind seq := by
  unfold pktHead
  rw [hpkt_net]
  rfl

theorem witness_admits (typ : Nat) (plain : List Byte) (kind : BitVec 8) (seq : BitVec 48) :
    Admits typ plain (hpkt typ plain kind seq) 1 (sess going) := by
  have a : (sess going).isReady = true ∧ (sess going).hx.configured = true ∧ 0 = (sess going).hx.general.job ∧
      0 = (sess going).strapNode ∧ (sess going).cfgReg 0x040014 = 47112 ∧
      takesUdp (sess going) (toPort0 47112) 47112 = true := by decide +kernel
  obtain ⟨a1, a2, a3, a4, a5, a6⟩ := a
  have b : (sess going).hx.peers.find? (fun e => e.node == 5) = some ((sess going).hx.peers.getD 1 ⟨0, false, 0, [], [], 0⟩) ∧
      ((sess going).hx.peers.getD 1 ⟨0, false, 0, [], [], 0⟩).index.toNat = 1 := by decide +kernel
  have c : isPeer (sess going) 1 = true ∧ (sess going).session 1 = going ∧ twf .reset (sess going).hx.sessions = true := by
    decide +kernel
  obtain ⟨c, d, e⟩ := c
  have k : going.keysOf 4 = some theKeys := by decide +kernel
  refine ⟨⟨a1, a2, a3, a4, ?_⟩, ⟨_, b⟩, c, ?_, ?_, ?_, ?_, e⟩
  · simp [hxUdp, a5, hpkt]; exact a6
  · rw [d]; decide
  · rw [d]; exact ⟨theKeys, rfl, rfl, rfl, rfl⟩
  · rw [d, hpkt_net]; constructor <;> rfl
  · have k' : ((sess going).session 1).keysOf (hpkt typ plain kind seq).kepoch = some theKeys := by rw [d]; exact k
    have r : rxKey (sess going) 1 theKeys = 0 := by unfold rxKey; split <;> rfl
    rw [authentic, k']
    rw [Option.any_some, hpkt_head, r]
    exact beq_self_eq_true _
theorem witness_hxData : let s := sess going
    ((going.net 0).unacked < 31) ∧ going.cum = 0 ∧ going.heldRx = [] ∧ 4 < freePackets s ∧ going.maySend s = true ∧
      hxPort s 0 (going.net 0).count = some 0 ∧
      oneOuterB s (recAt s) (lineAt s (recAt s).hdr) = true ∧ s.hx.landed = [] ∧ (recAt s).astep < (stepNear (recAt s).bstep 3).toNat ∧
      (stepNear (recAt s).bstep 2).toNat ≤ (recAt s).astep ∧ 0 + 3 ≤ imageBytes (recAt s).scount ∧ fetchesFrom 1 s = false ∧
      fetchesFrom 1 { s with hx := { s.hx with fetching := some 1 } } = true ∧ (s.hx.peers.any fun e => e.index == 1) = true := by
  decide +kernel
/-- A DIGEST acts when its last packet is below CUM, and is then taken (R412). -/
theorem test_objectWaits :
    let q : RxObject := ⟨2, 3, 0, digestBytes 3 3 [7]⟩
    let at' := fun (l : List RxObject) => let s := withStep (sess { going with objects := l }) { aStep up with members := [0, 1], merged := true, digests := [7] }
      { s with hx := { s.hx with shards := [0x40000] } }
    let after := fun (l : List RxObject) => let t := theState (execHxDigest 1 3 3 [7] (at' l))
      (t.hx.steps.map (·.isReady), (t.session 1).objects.length)
    after [q] = ([true], 0) ∧ after [{ q with bytes := q.bytes.take 20 }] = ([false], 1) ∧ after [] = ([true], 0) := by decide +kernel
/-- Once the DATA that was missing is there, it and what was held behind it are delivered (R411). -/
theorem test_hxData : let d := fun (n : BitVec 48) => (⟨toPort0 47112, 47112, false, 0, 5, 0, n, 4, 1, 0, 3, 6, 1, 0, [1, 2, 3], 0⟩ : HxPkt)
    ((deliverHeld 1 3 (sess { going with heldRx := [d 1, d 0] })).session 1).cum = 2 ∧
    ((deliverHeld 1 3 (sess { going with heldRx := [d 1] })).session 1).cum = 0 := by decide +kernel
def heldPkt (seq : BitVec 48) (sent : Beat) : HxHeld := ⟨seq, 6, 3, 0, 0, [], 0, sent, 0, 4, [1, 2], 0, 0, none⟩
theorem witness_acks : let buf := (List.range 65).map fun i => heldPkt (BitVec.ofNat 48 i) 0
    let s := sess { going with sendBuf := buf }
    let a : HxAck := ⟨0, 9, 0, 0, [(1, 64)]⟩
    buf.length = 65 ∧ ackCovers a 0 = false ∧ (buf.drop 1).all (fun g => ackCovers a g.seq && sentAfter g (heldPkt 0 0)) = true ∧
      (hxPort s 0 0).isSome = true ∧ going.epoch = 4 ∧ going.netA.sampled = false ∧ rtoNow s going.netA = 1000000000 := by decide +kernel
/-- 10⁹ beats after beat 0, in a session that heard nothing since. -/
def late (s : State) : State := atBeat (10 ^ 9) s
theorem witness_timers : let s := late (sess { going with sendBuf := [heldPkt 0 0] })
    live s 1 = true ∧ beatsOfUs 50 ≤ beatsSince s.hxBeat 0 ∧ rtoNow s going.netA ≤ 256 * beatsSince s.hxBeat 0 ∧ going.maySend s = true ∧
      hxPort s 0 (going.net 0).count = some 0 ∧
      beatsOfMs 10 ≤ beatsSince s.hxBeat 0 ∧ beatsOfMs (s.cfgReg 0x040024).toNat ≤ beatsSince s.hxBeat 0 ∧
      beatsOfMs (s.cfgReg 0x040028).toNat ≤ beatsSince s.hxBeat 0 ∧ svcNormal s = true := by decide +kernel
/-- The resend is the packet as first sent with RESENT set; RTO doubles (R417, R430, Table 9.10). -/
theorem test_rto : let t := theState (execHxRtoExpire 1 0 (atBeat 3906250 (sess { going with sendBuf := [heldPkt 0 0] })))
    (t.session 1).netA.backed = some 2000000000 ∧ (t.sent.head?.map Sent.bytes) = some [1, 0x82] := by decide +kernel

def msg (e : Word32) (bs : List Byte) : KeyxMsg := ⟨0, 1, e, BitVec.ofNat 32 bs.length, bs⟩
def asNode (n : BitVec 22) (x : Session) : State := let s := sess x
  { s with boot := { s.boot with strap := n * 4 },
           hx := { s.hx with peers := s.hx.peers.map fun e => if e.index = 0 then { e with node := n.extractLsb' 0 20 } else e } }
def setup (init : Bool) (m n : Nat) : KeySetup := ⟨5, init, m, [], n, 0, [], [], [], some theKeys⟩
theorem witness_keySetups :
    live (asNode 9 going) 1 = true ∧ initiates (asNode 9 going) 1 = false ∧ going.nextEpoch = 5 ∧ initiates (asNode 0 going) 1 = true ∧
    (setup true 1 0).initiator = true ∧ (setup false 2 0).lastMsg ≠ 3 ∧
    beatsOfMs 250 ≤ beatsSince (late (asNode 0 { going with setup := some (setup true 1 8) })).hxBeat 0 := by decide +kernel
theorem gather_whole (k : Nat) (bs : List Byte) {s : State} (h : (s.session 1).frags = []) :
    ∃ u, gather 1 k (msg 5 bs) s = (u, some bs) :=
  ⟨s.modSession 1 fun x => { x with frags := [] }, by simp [gather, msg, h]⟩
/-- A message of one fragment is whole; its sender's key at an epoch after 0 is the one kept; an OFFER of 1,600 bytes has its size. -/
theorem witness_gather (k : Nat) (bs : List Byte) (n : BitVec 22) :
    (∃ u, gather 1 k (msg 5 bs) (asNode n going) = (u, some bs)) ∧ senderKey (asNode n going) 1 5 bs ((asNode n going).session 1).peerKey ∧
      (List.replicate 1600 (0 : Byte)).length = 1600 :=
  ⟨gather_whole k bs rfl, .inl ⟨by decide, rfl⟩, List.length_replicate ..⟩
/-- Two fragments of a message in either order. -/
theorem test_gather : let m := fun (k : Byte) (bs : List Byte) => (⟨k, 2, 5, 3, bs⟩ : KeyxMsg)
    (gather 1 3 (m 1 [3]) (gather 1 3 (m 0 [1, 2]) (sess going)).1).2 = some [1, 2, 3] ∧
    (gather 1 3 (m 0 [1, 2]) (gather 1 3 (m 1 [3]) (sess going)).1).2 = some [1, 2, 3] ∧
    (gather 1 3 (m 0 [1, 2]) (sess going)).2 = none := by decide +kernel
/-- A CONFIRM of the wrong length ends the setup and counts (R423). -/
theorem test_confirm : let t := theState (execKeyxConfirm 1 (msg 5 [7]) (asNode 9 { going with setup := some (setup false 2 0) }))
    (t.session 1).setup = none ∧ t.counter 0x040048 = 1 := by decide +kernel
theorem witness_keyEpochs : let s := atBeat (3 * 10 ^ 9) (asNode 0 { going with stall := some 0, oldKeys := some theKeys, firstNew := some 0 })
    live s 1 = true ∧ beatsOfMs 600000 ≤ beatsSince s.hxBeat theKeys.since ∧ beatsOfMs 540000 ≤ beatsSince s.hxBeat 0 ∧
      beatsOfMs 60000 ≤ beatsSince s.hxBeat 0 ∧ max (4 * max going.netA.srtt going.netB.srtt) 8000000000 ≤ 256 * beatsSince s.hxBeat 0 := by
  decide +kernel
theorem witness_members : let s := outer 4 2 3
    let d := { s with cfg := [(0x030008, 0x10000), (0x040000, BitVec.ofNat 32 (2 ^ 30 + 2 ^ 26 + 4 * 2 ^ 12))] }
    oneOuterB d (recAt d) (lineAt d (recAt d).hdr) = true ∧ isPeer d 1 = true ∧ svcNormal d = false ∧ svcNormal s = true ∧
      ((selfEntry d).map (·.member)) = some true ∧ 1024 ≤ pmaxBytes d ∧ (recAt d).bstep < 4 ∧ s.hx.applying = none ∧
      s.hx.landed = [] ∧ (recAt s).astep < 3 ∧ 3 ≤ (recAt s).bstep := by decide +kernel
def joiner (src : Option (BitVec 6)) (got : List Nat) : State := let s := outer 4 2 3
  { s with hx := { s.hx with joining := some ⟨5, [], 0, src, 0, got, got⟩ } }
theorem witness_joiner :
    live (joiner none []) 1 = true ∧ (joiner none []).hx.sessions = [] ∧ hxPeers (joiner none []) = [1] ∧
    joinTargets (joiner none []) = [1] ∧ (let s := joiner (some 1) []
      oneOuterB s (recAt s) (lineAt s (recAt s).hdr) = true ∧ 4 * (recAt s).count = 16 ∧ imageBytes (recAt s).scount = 512) ∧
    (joiner (some 1) [0]).hx.steps = [] ∧ (joiner (some 1) [0]).hx.shards.length = 1 := by decide +kernel
/-- Once the one member has accepted, it is asked for its state; a refusal asks for the step after its BSTEP (R435). -/
theorem test_joinReply :
    (((theState (execJoinReply 1 true 3 (joiner none []))).hx.joining).map (·.source)) = some (some 1) ∧
    (((theState (execJoinReply 1 false 6 (joiner none []))).hx.joining).map (·.j)) = some 7 := by decide +kernel

/-! ## Failure paths -/

theorem witness_invariants : (State.reset.memOk ∧ State.reset.bounded) ∧ (up.memOk ∧ up.bounded) ∧ up.boot.state ≠ .boot ∧
    State.reset.boot.state = .boot ∧ clockRuns up = true ∧ clockRuns State.reset = false :=
  ⟨⟨rfl, by decide, by decide, by decide⟩, ⟨rfl, by decide, by decide, by decide⟩, by decide⟩

/-- `job` with no open collective. -/
def quiet (out : Nat) : State := { job out (closing 2 .flagged false none) with col := up.col }
theorem oneShard_of {s : State} {l h : List Word64} {a : Nat} (hs : readable s s.stepAddr = true) (hl : l = lineAt s s.stepAddr)
    (ha : readable s a = true) (hh : h = lineAt s a)
    (e : (decide (fld (lineW l 4) 15 0 = 1) && regionOf (lineW l 3).toNat 8 == some (.dram 0) &&
      decide ((lineW l 3).toNat % 8 = 0 ∧ (lineW l 3).toNat / 64 * 64 ≠ s.stepAddr) &&
      !s.linePoison ((lineW l 3).toNat / 64 * 64) && decide ((s.word64 (lineW l 3).toNat).toNat = a) && decide (a ≠ s.stepAddr)) = true) :
    OneShard s l h a := by
  subst hl hh
  simp only [Bool.and_eq_true, decide_eq_true_eq, beq_iff_eq, Bool.not_eq_true'] at e
  obtain ⟨⟨⟨⟨⟨e1, e2⟩, e3⟩, e4⟩, e5⟩, e6⟩ := e
  exact ⟨reads_of hs, e1, ⟨0, e2⟩, ⟨e3.1, e3.2, e4⟩, e5, e6, reads_of ha⟩
theorem witness_oneShard (out : Nat) (h : out ∈ [0, 1, 2, 3, 4, 5]) :
    OneShard (quiet out) (lineAt (quiet out) (quiet out).stepAddr) (lineAt (quiet out) 0x12000) 0x12000 := by
  simp only [List.mem_cons, List.not_mem_nil, or_false] at h
  obtain rfl | rfl | rfl | rfl | rfl | rfl := h <;>
    exact oneShard_of (by decide +kernel) rfl (by decide +kernel) rfl (by decide +kernel)
theorem witness_stepResolve :
    [((8 : BitVec 48), (1 : BitVec 8)), (8, 2), (7, 3), (7, 4)].all (fun e =>
      passesB (hdr (.stepResolve e.1 e.2)) (.stepResolve e.1 e.2) (quiet 1)) = true ∧
    (quiet 1).col.opens = [] ∧ (quiet 1).hx.waitingFetch = [] ∧ (quiet 1).hx.applying = none ∧ recStep (lineAt (quiet 4) 0x10000) = 8 - 1 ∧
    prepared (lineAt (quiet 1) 0x12000) 8 = true ∧ prepared (lineAt (quiet 1) 0x12000) 7 = false := by decide +kernel
theorem test_stepResolve :
    fld ((theState (execStepResolveGradClear (hdr (.stepResolve 8 1)) 8 (quiet 4))).word64 0x10000) 50 48 = 1 ∧
    fld ((theState (execStepResolveSkipUpdate (hdr (.stepResolve 7 4)) 7 (quiet 1))).word64 0x10000) 50 48 = 5 := by decide +kernel
theorem witness_digestCommand : passesB (hdr (.digest 7)) (.digest 7) (quiet 4) = true ∧ recStep (lineAt (quiet 4) 0x10000) = 7 ∧
    recOutcome (lineAt (quiet 4) 0x10000) = 4 ∧ (quiet 4).ckp.ownDigests = [] := by decide +kernel

/-- The master line 0x20000 of `quiet 4` is poisoned; the module has a buddy, and keeps the rind of another at 0x40000. -/
def poisoned (cfg : Nat) : State := { (quiet 4).setTag 0x20000 1 with
  cfg := [(0x030004, BitVec.ofNat 32 cfg), (0x030008, 0x10000), (0x030010, 0x40000), (0x030018, 0x10000), (0x0200C0, 0x01000000)] }
def rindOf (v : Nat) : State := putLine 0x40000 [BitVec.ofNat 64 (v * 2 + 6 * 2 ^ 16), 0, 512, 0, 0, 0, 0, 0] (poisoned 0x40000000)
def rpkt (rop seg soff : Nat) (rid : BitVec 16) (bs : List Byte) : Packet :=
  { recovPacket ⟨rid, rop, true, seg, 0, soff⟩ 0 bs with src := 0x00100, tag := 9 }
theorem witness_lineReload :
    (let s := poisoned 0x80000000
     s.isReady = true ∧ s.linePoison 0x20000 = true ∧ s.ckp.reloads = [] ∧ (s.cfgReg 0x030004).getLsbD 31 = true ∧
       rindPlace 0x20000 [(0x12000, lineAt s 0x12000)] 0 = some (1, 7) ∧ (poisoned 0).linePoison 0x30000 = false ∧
       readable s 0x10000 = true ∧ readable s 0x12000 = true) ∧
    (let s := rindOf 1
     let p := rpkt 8 6 1 0 []
     s.isReady = true ∧ p.typ = 5 ∧ (recovHdr p).rop = 8 ∧ isFor s p = true ∧ readable s (rindBase s) = true ∧ fromStore s p = false ∧
       fld (lineW (lineAt s (rindBase s)) 0) 1 1 = 1 ∧ fld (lineW (lineAt s (rindBase s)) 0) 47 16 = (recovHdr p).seg ∧
       regionOf (rindBase s + 64 + 256) 256 = some (.dram 0) ∧ s.anyPoison (.dram 0) (rindBase s + 64 + 256) 256 = false) ∧
    (let s := { poisoned 0x80000000 with ckp := { up.ckp with reloads := [⟨0x20000, 7, 1⟩] } }
     let p := rpkt 9 7 1 0 (List.replicate 256 3)
     s.isReady = true ∧ isFor s p = true ∧ (recovHdr p).rop = 9 ∧ (recovHdr p).soff = 1 ∧ (recovHdr p).seg = 7 ∧
       regionOf 0x20000 256 = some (.dram 0)) := by decide +kernel
def awaits (rop n : Nat) : RecovSend := ⟨9, { recovPacket ⟨0, rop, false, 7, 0, 1⟩ 0x00100 [] with tag := 9 }, none, n, 0⟩
theorem witness_recovAnswers :
    (let s := atBeat 3906 { poisoned 0 with ckp := { up.ckp with unanswered := [awaits 8 0], reloads := [⟨0x20000, 7, 1⟩] } }
     let w := { pkt with typ := 2, src := 0x00100, tag := 9 }
     s.isReady = true ∧ isFor s w = true ∧ s.ckp.senders = [] ∧ (recovHdr (awaits 8 0).pkt).rop = 8 ∧
       (s.cfgReg 0x02008C).toNat ≤ beatsSince s.ckpBeat 0 ∧ (s.cfgReg 0x020090).toNat = 3 ∧ (recovHdr (awaits 8 0).pkt).soff = 1 ∧
       (recovHdr (awaits 8 0).pkt).seg = 7 ∧ isFor s (rpkt 10 7 1 0 []) = true ∧ (recovHdr (rpkt 10 7 1 4 [])).rid = 4) := by decide +kernel

def receiving (bs : List Byte) (asks : Nat) : SegReceiver := ⟨1, 4, 0x00100, none, 0, bs, [], asks, [], false⟩
def refilling (r : SegReceiver) : State := { poisoned 0 with ckp := { up.ckp with receivers := [r] } }
theorem witness_refills :
    passesB (hdr (.refill 0x00100 4 true [])) (.refill 0x00100 4 true []) up = true ∧
    (let s := refilling (receiving [5] 3)
     let p := rpkt 1 0 1 4 [6]
     s.isReady = true ∧ isFor s p = true ∧ (recovHdr p).rop = 1 ∧ (recovHdr p).seg = 0 ∧ (recovHdr p).soff = [5].length ∧
       fromStore s p = false ∧ (recovHdr (rpkt 3 0 0 4 [])).rop = 3) := by decide +kernel
theorem test_segData : ((theState (execSegData (rpkt 1 0 1 4 [6]) (refilling (receiving [5] 0)))).ckp.receivers.map (·.bytes)) = [[5, 6]] := by
  decide +kernel
theorem witness_segmentBusy : let s := refilling { receiving [] 0 with rid := 9 }
    let p := rpkt 2 0 0 4 []
    s.isReady = true ∧ isFor s p = true ∧ (recovHdr p).rop = 2 ∧ fromStore s p = false ∧ (recovHdr p).rid = 4 ∧ s.ckp.senders = [] ∧
      (s.ckp.receivers.map fun x => (x.kind, x.rid)) = [(1, 9)] := by decide +kernel
theorem witness_segmentReads : let s := rindOf 1
    let p := rpkt 2 0 0 4 []
    s.isReady = true ∧ isFor s p = true ∧ (recovHdr p).rop = 2 ∧ s.ckp.senders = [] ∧ s.ckp.receivers = [] ∧ fromStore s p = false ∧
      readable s (rindBase s) = true ∧ fld (lineW (lineAt s (rindBase s)) 2) 47 0 = 512 ∧
      regionOf (rindBase s + 64) 512 = some (.dram 0) ∧ s.anyPoison (.dram 0) (rindBase s + 64) 512 = false := by decide +kernel

/-- The image of the shard of `job`: its header with STEP 6 in a block of 256 bytes, then 4 values. -/
def shardImage : List Byte :=
  (([0, 0x60000, 0x20000, 0x21000, 0, 0, 0, 4] : List Word64).flatMap fun w => leBytes 8 w.toNat) ++ List.replicate 192 0 ++ List.replicate 256 7
def refilled : State := { quiet 4 with ckp := { up.ckp with
  receivers := [⟨1, 4, 0x00100, none, 1, [], shardImage, 0, [], true⟩], rxDigests := [(6, 0x00100, [0])] } }
theorem witness_refillEnds :
    refilled.isReady = true ∧ (lineW (headerOf shardImage) 1).extractLsb' 16 48 = 6 ∧ hdrCount (headerOf shardImage) = 4 ∧
    hdrMaster (headerOf shardImage) 0 = 0x20000 ∧ ((shardImage.drop 256).take 16).length = 16 ∧ hdrNmom (headerOf shardImage) = 0 ∧
    refilled.hx.configured = false ∧ regionOf 0x20000 16 = some (.dram 0) ∧ (lineW (lineAt refilled 0x10000) 3).toNat = 0x11000 ∧
    refilled.linePoison 0x20000 = false := by decide +kernel
theorem witness_evacuation : passesB (hdr (.evacuate 0x00100)) (.evacuate 0x00100) up = true ∧
    (let s := { up with ckp := { up.ckp with evacTo := some 0x00100 } }
     s.isReady = true ∧ s.sliceTag = 0) ∧
    (up.upsets.isEmpty && up.poison.isEmpty && up.lineTags.isEmpty) = true := by decide +kernel
theorem test_evacuated : let s := { up.rawWrite 0x500 [1, 2, 3] with ckp := { up.ckp with evacTo := some 0x00100 } }
    (theState (execEvacuated s)).readByte 0x501 = 0 ∧ (theState (execEvacuated s)).ckp.evacTo = none := by decide +kernel

def stored (out : Nat) : State := { quiet out with
  fab := { up.fab with ports := [(8, upPort)] }, ckp := { up.ckp with store0 := some 1, hasCost := true } }
theorem witness_checkpoints :
    passesB (hdr (.checkpoint 7 2)) (.checkpoint 7 2) (stored 4) = true ∧ storeUp (stored 4) 0 = true ∧ anyStore (stored 4) = true ∧
    ckpBusy (stored 4) = false ∧ recStep (lineAt (stored 4) 0x10000) = 7 ∧ finalOutcome (recOutcome (lineAt (stored 4) 0x10000)) = true ∧
    (stored 4).hx.configured = false ∧ 0 < hdrCount (lineAt (stored 4) 0x12000) ∧ hdrNmom (lineAt (stored 4) 0x12000) = 0 ∧
    regionOf (hdrMaster (lineAt (stored 4) 0x12000) 0) (4 * 4) = some (.dram 0) ∧ (stored 4).col.bsets ++ (stored 4).hx.shards = [] ∧
    passesB (hdr (.restore 2)) (.restore 2) (stored 4) = true ∧ (stored 4).units = [] ∧ ((stored 4).port 8).state = .up ∧
    beatsOfMs (stored 4).ckp.interval.toNat ≤ beatsSince (atBeat (10 ^ 11) (stored 4)).ckpBeat (stored 4).ckp.lastDone ∧
    storeUp up 0 = false ∧ storeUp up 1 = false := by decide +kernel
theorem test_sealed : let s := atBeat 3906250 { stored 4 with ckp := { (stored 4).ckp with run := some ⟨7, 2, 0, some 10⟩ } }
    (theState (execSealed ⟨2, 5, 0⟩ s)).ckp.lastId = 2 ∧ (theState (execSealed ⟨2, 5, 0⟩ s)).ckp.cost = 1000 ∧
    (theState (execSealed ⟨3, 5, 0⟩ s)).ckp.lastId = 0 := by decide +kernel

/-! ## Press, ripening, firmware, start-up, power -/

def leased (a : BitVec 8) : State := { up with press := ⟨[⟨1, a, 2, 0, 60⟩], 2, false, []⟩ }
theorem witness_leases : passesB (hdr (.pressAcquire 1 0 60)) (.pressAcquire 1 0 60) (leased 2) = true ∧
    pressOk ⟨1, 2, 2, 0, 60⟩ 1 0 = false ∧ pressOk ⟨1, 2, 2, 0, 60⟩ 7 0 = true ∧
    passesB (hdr (.pressRelease 1)) (.pressRelease 1) (leased 2) = true ∧
    3906250 * 60 ≤ beatsSince (atBeat 234375000 (leased 2)).beat 0 := by decide +kernel
theorem test_press : status (execPressAcquire (hdr (.pressAcquire 1 0 60)) 1 0 60 (leased 2)) = Status.busyPress.code.toNat ∧
    (theState (execPressAcquire (hdr (.pressAcquire 7 0 60)) 7 0 60 (leased 2))).press.leases.length = 2 := by decide +kernel
theorem witness_laneRetrain : let s := { leased 3 with fab := { up.fab with ports := [(1, { upPort with lanes := 7 })] } }
    s.isReady = true ∧ (s.port 1).state = .up ∧ (s.press.leases.any fun l => l.activity == 3 && l.ports.getLsbD 1) = true ∧
      (s.port 1).lanes.getLsbD 3 = false := by decide +kernel
/-- With the lease an agreed lane retrain goes too (R471). -/
theorem test_leaseGone : let s := { leased 3 with fab := { up.fab with ports := [(1, { upPort with lanes := 7, retrain := some 3 })] } }
    ((theState (execPressRelease (hdr (.pressRelease 1)) 1 s)).port 1).retrain = none ∧ (s.port 1).retrain = some 3 := by decide +kernel
theorem witness_ripening : up.isReady = true ∧ up.press.ripened = false ∧
    (let s := { up with nv := { up.nv with onBeats := 337500000000 } }; s.isReady = true ∧ s.nv.ripDay < s.onTime / 337500000000) ∧ (0 : Nat) < ripCount 1 ∧
    passesB (hdr (.ripRead 0 2)) (.ripRead 0 2) up = true := by decide +kernel
/-- The chain shifts D1's register out first, each least significant bit first (R568). -/
theorem test_tap : let t := theState (execScanInstruction .d1 .idcode up)
    tapOut t = some ((List.range 32).map (0x224619E7 : Word32).getLsbD ++ [false, false]) ∧ tapOut State.reset = none ∧
    (tapIrOut t).map (fun l => l.drop 1) = some [0xFF, 0xFF] := by decide +kernel
/-- RAIL_OV of VDD_D0 leaves VDD_D1 up; that of 3V3_HK takes every rail (Table 14.5). -/
theorem test_railFault : let t := theState (execRailFault .vddD0 true up)
    t.boot.rails = 0x7FF7 ∧ t.boot.phase = .done ∧ (theState (execRailFault .hk true up)).boot.rails = 0 := by decide +kernel
/-- Over the cap the level rises though the controller asks for none; a hot die raises L itself (R557, R559). -/
theorem test_throttle : let s := { up with pwr := { up.pwr with level := 20 } }
    (theState (execThrottleUpdate 60000 30000 0 90 .d0 s)).pwr.level = 21 ∧
    (theState (execThrottleUpdate 60000 20000 20 105 .d0 s)).pwr.level = 21 ∧
    (theState (execThrottleUpdate 60000 20000 20 105 .d0 s)).pwr.thermal = true := by decide +kernel
/-- A second excursion tells again after a measurement within limits, and a low one after a high one (R550, R561, R570). -/
theorem test_excursions :
    (theState (execThrottleUpdate 60000 100 0 30 .d0 (theState (execPwrInput 55000 up)))).pwr.band = 0 ∧
    (theState (execCoolantFault 400 450 (theState (execCoolantWarm 430 450 up)))).pwr.warm = false ∧
    tget 0 (theState (execLaserLow 3 2200 up)).pwr.laserBand 3 = 0 ∧ tget 0 (theState (execLaserHigh 3 2200 up)).pwr.laserBand 3 = 2 := by
  decide +kernel
theorem test_ripDrift : ripDrift 1 0x42C80000 0x42B40000 = 0x41200000 ∧ ripDrift 5 0x40A00000 0x40400000 = 0x40000000 ∧
    ripDrift 8 0x40000000 0x40400000 = 0x42480000 ∧ ripDrift 3 0x44000000 0x440A0000 = 0x42200000 := by decide +kernel
def quoted (pos : Nat) : State := { up with sec := { up.sec with quotes := [⟨9, [], true, pos⟩] } }
theorem witness_quotes : passesB (hdr (.attest 9)) (.attest 9) (quoted 0) = true ∧
    passesB (hdr (.attest 9)) (.attest 9) (quoted 40920) = true ∧ 40920 + 8184 ≥ 47184 := by decide +kernel

def fseg (off total n : Nat) : FwSegment := ⟨BitVec.ofNat 32 off, BitVec.ofNat 32 total, List.replicate n 1⟩
def fwHdr (first last : Bool) (op : HostOp) : Hdr := { hdr op with chain := 3, cfirst := first, clast := last }
def fwUp : State := let s := leased 5
  { s with sec := { s.sec with running := 1 } }
def stagedTo (bs : List Byte) (w : Bool) : Staging := ⟨1, 3, sourceOf (revHdr (fwHdr true false (.fwStage (fseg 0 40000 4)))), 40000, bs, w, false, 1⟩
theorem witness_fwStaging :
    (let p := fseg 0 40000 4
     let h := fwHdr true false (.fwStage p)
     midChecks (revHdr h) (.fwStage p) fwUp = none ∧ fwUp.host.cache = [] ∧ waitingCmds fwUp = [] ∧
       findChain fwUp (sourceOf (revHdr h)) (revHdr h).chain = none ∧ fwLease fwUp = some 1 ∧ runningImage fwUp = some 0 ∧
       fwUp.sec.staging = none ∧ fwUp.host.chains.length < 64 ∧ takesUdp fwUp h.net fwUp.cmdUdp = true) ∧
    (let p := fseg 4 40000 4
     let h := fwHdr false false (.fwStage p)
     let g := stagedTo [1, 1, 1, 1] false
     midChecks (revHdr h) (.fwStage p) fwUp = none ∧ continues (revHdr h) (sourceOf (revHdr h)) p g = true ∧
       continues (revHdr h) (sourceOf (revHdr h)) (fseg 5 40000 3) g = false) ∧
    passesB (hdr (.fwStage (fseg 0 40000 4))) (.fwStage (fseg 0 40000 4)) fwUp = true ∧
    passesB (hdr (.fwCommit 1 true 1)) (.fwCommit 1 true 1) { fwUp with sec := { fwUp.sec with verA := 1 } } = true ∧
    passesB (hdr (.fwRecover (fseg 0 40000 4))) (.fwRecover (fseg 0 40000 4)) up = true := by decide +kernel
def recovering (n : Nat) : State := { up with
  boot := { up.boot with state := .recovery }
  sec := { up.sec with staging := some (⟨0, 3, sourceOf (revHdr (fwHdr false true (.fwRecover (fseg 0 30000 4)))), 30000, List.replicate n 1, false, false, 0⟩) } }
theorem witness_fwRecover :
    (let p := fseg 0 30000 4
     let h := fwHdr true false (.fwRecover p)
     let s := { recovering 0 with sec := up.sec }
     midChecks (revHdr h) (.fwRecover p) s = none ∧ findChain s (sourceOf (revHdr h)) (revHdr h).chain = none ∧
       s.sec.staging = none ∧ takesUdp s h.net s.cmdUdp = true) ∧
    fwUp.isReady = true ∧ runningImage fwUp = some 0 ∧ fwUp.sec.secondDone = false := by decide +kernel
/-- The last segment of a recovery whose earlier 25,000 bytes have come. -/
theorem witness_fwRecoverEnd : let p := fseg 25000 30000 5000
    let h := fwHdr false true (.fwRecover p)
    let s := recovering 25000
    midChecks (revHdr h) (.fwRecover p) s = none ∧ s.boot.state = .recovery ∧
      (s.sec.staging.map fun g => (continues (revHdr h) (sourceOf (revHdr h)) p g, g.target, g.bytes.length + p.bytes.length)) =
        some (true, 0, p.total.toNat) := by decide +kernel
/-- FW_COMMIT numbers its record above both; a record without MAGIC counts as 0 (R531, R547). -/
theorem test_fwCommit : let s := { fwUp with sec := { fwUp.sec with verA := 1 }, flash := { fwUp.flash with recA := [], recB := [] } }
    part ((theState (execFwCommit (hdr (.fwCommit 1 false 1)) 1 false 1 s)).record 0) 0 12 =
      [0x44, 0x52, 0x43, 0x4D, 0, 0, 0, 1, 0, 0, 0, 1] := by decide +kernel

theorem witness_ethernet :
    (let s := { up with host := { up.host with eth := [] } }
     s.boot.phase = .done ∧ s.ethUp 0 = false ∧ s.host.ethTried = []) ∧ takesDatagrams up 0 = true ∧
    takesFrame up (toPort0 0).toEthIn false = true ∧ holds6 up 0 (toPort0 0).dst = true := by decide +kernel
/-- The fastest mode that both ends offer; a fragment and a frame with two tags are discarded (R477 to R479). -/
theorem test_ethernet : let s := { up with host := { up.host with eth := [] } }
    tget none (theState (execEthPortNegotiate 0 0xC s)).host.eth 0 = some 2 ∧ fastestMode 0 = none ∧
    takesUdp up { toPort0 9 with fragment := true } 9 = false ∧ takesUdp up { toPort0 9 with tags := 2 } 9 = false ∧
    takesUdp up (toPort0 9) 8 = false := by decide +kernel
def booting (p : Phase) : State := { State.reset with boot := { Boot.reset with phase := p, switchClosed := true } }
theorem witness_startUp : (State.reset.boot.phase = .input ∧ State.reset.boot.switchClosed = false) ∧
    (∀ p ∈ [Phase.rails, .clock, .clear, .verify, .train, .zero, .eth], (booting p).isFault = false ∧ (booting p).boot.phase = p ∧
      (booting p).boot.state = .boot) ∧ (booting .rails).boot.resetN = true ∧ (booting .eth).boot.trainFault = false := by decide +kernel
theorem test_startUp : (theState (execInputSwitchClose 54000 State.reset)).boot.phase = .rails ∧
    (theState (execReady 60000 100 (booting .eth))).boot.state = .ready ∧
    (theState (execBootVerify ⟨true⟩ ⟨false⟩ ⟨false, false⟩ { booting .verify with flash := ⟨[], [], [], [], [], []⟩ })).boot.state = .recovery ∧
    ((theState (execResetRelease 1 (booting .clock))).port 3).cause = 9 ∧
    ((theState (execDramZeroDone (booting .zero))).port 3).state = .training := by decide +kernel
theorem witness_power : up.boot.switchClosed = true ∧ afterRails up = true ∧ afterRails (booting .rails) = false ∧ up.boot.state ≠ .boot ∧
    up.isReady = true := by decide +kernel
/-- An over-temperature of die F removes every rail but the first (Table 14.5). -/
theorem test_protection : (theState (execDieHot .f up)).boot.rails = 1 ∧ (theState (execDieHot .f up)).boot.cause = 0x14 ∧
    (theState (execPwrInput 55000 up)).pwr.band = 1 := by decide +kernel
theorem witness_parity : let s := { up with struck := [(0x28, 1)] }
    s.isReady = true ∧ s.badParity = [0x28] ∧ s.col.opens = [] ∧ parityBlock 0x28 = 0 := by decide +kernel
/-- Two flipped bits keep the parity; under a PARITY lease they are found (R468). -/
theorem test_parityPress : let t := theState (execParitySweep [(0x28, 3)] (leased 8))
    t.press.found = [0x28] ∧ t.counter 0x20C = 0 ∧ (theState (execParitySweep [(0x28, 3)] up)).press.found = [] := by decide +kernel
/-- The sweep of a SCRUB lease visits 21 granules in its first beat, the first of them at 0 (R468). -/
theorem test_scrub : let s := atBeat 0 { leased 1 with upsets := [⟨.dram 0, 1⟩, ⟨.dram 0x100000, 1⟩] }
    let t := theState (execBeatBoundary s)
    clockRuns s = true ∧ t.upsets.map (·.loc) = [.dram 0x100000] ∧ t.counter 0x010400 = 1 := by decide +kernel
/-- With even n the distribution of Student's t is sin θ (1 + cos² θ / 2 + 3 cos⁴ θ / 8 + …) with tan θ = t / √n: the quantiles stand on
either side of the probability 0.9, that is 0.8 of this sum (R474). -/
def below80 (n t : Nat) : Bool :=
  let d := n * 10 ^ 18 + t * t
  let one := 10 ^ 40
  let sum := (List.range (n / 2 - 1)).foldl (fun (x : Nat × Nat) k =>
    let y := x.2 * (2 * k + 1) * (n * 10 ^ 18) / ((2 * k + 2) * d)
    (x.1 + y, y)) (one, one)
  decide (100 * (t * t) * (sum.1 * sum.1) < 64 * d * (one * one))
theorem test_studentT : ((List.range 39).map fun k => 12 + 2 * k).all (fun n => below80 n (studentT n - 1) && !below80 n (studentT n + 1)) = true ∧
    ((studentTs.zip studentTs.tail).all fun p => decide (p.2 < p.1)) = true ∧ studentTs.length = 77 := by decide +kernel
/-- Two entries of one bank that have flipped are two mismatches; the sweep runs in the fault state too. -/
theorem test_parityEntries : (theState (execParitySweep [(0x0200A0, 0x10001), (0x0200A0, 0x10002)] up)).counter 0x20C = 2 ∧
    (theState (execParitySweep [(0x28, 1)] (enterFault 1 up))).counter 0x20C = 1 := by decide +kernel
theorem test_parity : let s := { up with struck := [(0x28, 1)] }
    (theState (execParitySweep [] s)).counter 0x20C = 1 ∧
    (theState (execParitySweep [] s)).cfgReg 0x304 = 0x80000028 := by decide +kernel
end Sys2Proof.Tests
end

