-- ==== Sys2Proof/Proofs/FaultState.lean ====
section
/-! PROOFS. The failure of a memory channel (R216) is judged by the beat copy of the channel's region (R19, log entry 88),
not by the master counter: where the two differ, what a reader of the master takes for a full window of 1 s need not be one. -/
namespace Sys2Proof.Machine
open Sys2Proof.Claim

/-- By its own region's beat the channel has not reached MEM_UE_LIMIT: nothing happens. -/
theorem exec_memChannelFail_of_not_channelFails (ch : Fin 192) (s : State) (h : channelFails s ch.val = false) :
    exec (.memChannelFail ch) s = .next s := by
  have hrow : exec (.memChannelFail ch) s = execMemChannelFail ch s := rfl
  simp [hrow, execMemChannelFail, h]

/-- A READY module at beat 3,906,250, 1 s after channel 0 reported 64 uncorrectable lines, the reset value of MEM_UE_LIMIT. The
copy of region 0, to which the channel belongs, is one beat ahead, and BEAT_SKEW_CHECK has not looked at it yet. -/
def skewedChannel : State :=
  { State.reset with
    beat := 3906250
    boot := { State.reset.boot with phase := .done, state := .ready, regionBeats := 3906251 :: List.replicate 7 3906250 }
    memc := { State.reset.memc with ueTimes := [(0, List.replicate 64 0)] } }

theorem skewedChannel_isReady : skewedChannel.isReady = true := rfl

theorem skewedChannel_limit : (skewedChannel.cfgReg 0x010008).toNat = 64 := rfl

theorem skewedChannel_ueTimes : tget [] skewedChannel.memc.ueTimes 0 = List.replicate 64 0 := rfl

/-- By the master counter the 64 lines lie within 1 s. -/
theorem skewedChannel_within_of_master : beatsSince skewedChannel.beat 0#48 ≤ 3906250 := by decide

/-- By the copy of region 0 the lines are older than 1 s. -/
theorem skewedChannel_not_within_of_copy : ¬ beatsSince (skewedChannel.channelBeat 0) 0#48 ≤ 3906250 := by decide

/-- The window as the statement counts it, from the master counter, is full. -/
theorem skewedChannel_full_of_master : (skewedChannel.cfgReg 0x010008).toNat % 65536 ≤
    ((tget [] skewedChannel.memc.ueTimes 0).filter fun b => decide (beatsSince skewedChannel.beat b ≤ 3906250)).length := by
  simp [-List.reduceReplicate, skewedChannel_limit, skewedChannel_ueTimes, skewedChannel_within_of_master]

/-- The window as the channel counts it is empty. -/
theorem skewedChannel_not_channelFails : channelFails skewedChannel 0 = false := by
  simp [-List.reduceReplicate, channelFails, fld, skewedChannel_limit, skewedChannel_ueTimes, skewedChannel_not_within_of_copy]

/-- Refutes O8: its clause on MEM_UE_LIMIT counts the last second from the master counter, while a channel takes the beat from
the copy of its region (log entry 88). In `skewedChannel` the copy is one beat ahead, the lines are too old by it, and the
module stays READY. -/
theorem not_faultState : ¬ Obligations.FaultState := by
  unfold Obligations.FaultState
  rintro ⟨-, -, hchannel, -⟩
  obtain ⟨t, hexec, hstate, -⟩ := hchannel 0 skewedChannel skewedChannel_isReady skewedChannel_full_of_master
  have hstays := exec_memChannelFail_of_not_channelFails 0 skewedChannel skewedChannel_not_channelFails
  have ht : skewedChannel = t := by simpa [hstays] using hexec
  rw [← ht] at hstate
  exact absurd hstate (by decide)

end Sys2Proof.Machine
end

