-- ==== Sys2Proof/Proofs/ControlLines.lean ====
section
/-! PROOFS. What control lines of DRAM, the list of open collectives and events do: one rule per operation of the model. -/
namespace Sys2Proof.Machine
open Sys2Proof.Claim

/-! ## Little-endian numbers (R7) -/

@[simp] theorem leBytes_length : ∀ n v, (leBytes n v).length = n
  | 0, _ => rfl
  | n + 1, v => by simp [leBytes, leBytes_length n]

theorem leNat_leBytes : ∀ {n v : Nat}, v < 256 ^ n → leNat (leBytes n v) = v
  | 0, v, h => by simp only [Nat.pow_zero] at h; simp only [leBytes, leNat]; omega
  | n + 1, v, h => by
    have hq : v / 256 < 256 ^ n := by rw [Nat.pow_succ] at h; omega
    simp only [leBytes, leNat, leNat_leBytes hq, BitVec.toNat_ofNat]
    omega

theorem leBytes_leNat : ∀ bs : List Byte, leBytes bs.length (leNat bs) = bs
  | [] => rfl
  | b :: bs => by
    have hb := b.isLt
    have hq : (b.toNat + 256 * leNat bs) / 256 = leNat bs := by omega
    have hr : BitVec.ofNat 8 (b.toNat + 256 * leNat bs) = b := BitVec.eq_of_toNat_eq (by simp only [BitVec.toNat_ofNat]; omega)
    simp only [List.length_cons, leBytes, leNat, hq, hr, leBytes_leNat bs]

theorem leNat_lt : ∀ bs : List Byte, leNat bs < 256 ^ bs.length
  | [] => by simp [leNat]
  | b :: bs => by
    have hb := b.isLt
    have ih := leNat_lt bs
    simp only [leNat, List.length_cons, Nat.pow_succ]
    omega

@[simp] theorem State.rawRead_length (s : State) (a n : Nat) : (s.rawRead a n).length = n := by simp [State.rawRead]

/-- The eight bytes of a word are those that were read to form it. -/
theorem leBytes_word64 (s : State) (a : Nat) : leBytes 8 (s.word64 a).toNat = s.rawRead a 8 := by
  have hlt := leNat_lt (s.rawRead a 8)
  rw [State.rawRead_length] at hlt
  have hnat : (s.word64 a).toNat = leNat (s.rawRead a 8) := by
    simp only [State.word64, BitVec.toNat_ofNat]; omega
  simpa [hnat] using leBytes_leNat (s.rawRead a 8)

theorem word64_of_rawRead {s : State} {a : Nat} {w : Word64} (h : s.rawRead a 8 = leBytes 8 w.toNat) : s.word64 a = w := by
  have hw : w.toNat < 256 ^ 8 := w.isLt
  rw [State.word64, h, leNat_leBytes hw, BitVec.ofNat_toNat, BitVec.setWidth_eq]

theorem rawRead_congr {s t : State} {a n : Nat} (h : ∀ j, j < n → t.readByte (a + j) = s.readByte (a + j)) :
    t.rawRead a n = s.rawRead a n :=
  List.map_congr_left fun j hj => h j (List.mem_range.mp hj)

theorem word64_congr {s t : State} {a : Nat} (h : ∀ j, j < 8 → t.readByte (a + j) = s.readByte (a + j)) :
    t.word64 a = s.word64 a := by
  rw [State.word64, State.word64, rawRead_congr h]

/-! ## The bytes of a line -/

/-- The bytes that a write of a control line puts into memory. -/
def lineBytes (l : List Word64) : List Byte := l.flatMap fun w => leBytes 8 w.toNat

theorem lineBytes_cons (w : Word64) (l : List Word64) : lineBytes (w :: l) = leBytes 8 w.toNat ++ lineBytes l := rfl

theorem lineBytes_length (l : List Word64) : (lineBytes l).length = 8 * l.length := by
  induction l with
  | nil => rfl
  | cons w l ih => rw [lineBytes_cons, List.length_append, leBytes_length, ih, List.length_cons]; omega

theorem getD_of_lt_length {l : List Byte} {i : Nat} (h : i < l.length) : l.getD i 0 = l[i] := by
  rw [List.getD_eq_getElem?_getD, List.getElem?_eq_getElem h, Option.getD_some]

/-- Byte j of word i. -/
theorem lineBytes_getD : ∀ (l : List Word64) (i j : Nat), i < l.length → j < 8 →
    (lineBytes l).getD (8 * i + j) 0 = (leBytes 8 (lineW l i).toNat).getD j 0
  | [], i, _, hi, _ => absurd hi (Nat.not_lt_zero i)
  | w :: l, 0, j, _, hj => by
    have hfirst : j < (leBytes 8 w.toNat).length := by rwa [leBytes_length]
    rw [lineBytes_cons, Nat.mul_zero, Nat.zero_add, List.getD_eq_getElem?_getD, List.getElem?_append_left hfirst,
      ← List.getD_eq_getElem?_getD]
    rfl
  | w :: l, i + 1, j, hi, hj => by
    have hskip : 8 * (i + 1) + j - (leBytes 8 w.toNat).length = 8 * i + j := by rw [leBytes_length]; omega
    have hlater : (leBytes 8 w.toNat).length ≤ 8 * (i + 1) + j := by rw [leBytes_length]; omega
    rw [lineBytes_cons, List.getD_eq_getElem?_getD, List.getElem?_append_right hlater, hskip, ← List.getD_eq_getElem?_getD,
      lineBytes_getD l i j (Nat.lt_of_succ_lt_succ hi) hj]
    rfl

/-! ## A line of DRAM without upsets: its read and its write -/

/-- The address of a whole line of DRAM, in a module where no upset is stored. -/
structure DramLine (s : State) (a : Nat) : Prop where
  region : ∃ g, regionOf a 64 = some (.dram g)
  aligned : a % 64 = 0
  upsets : s.upsets = []

theorem dramLine_of_reads {s : State} {a : Nat} {l : List Word64} (h : reads s a l) : DramLine s a :=
  ⟨h.1, h.2.1, h.2.2.1⟩

theorem reads_length {s : State} {a : Nat} {l : List Word64} (h : reads s a l) : l.length = 8 := by
  obtain ⟨-, -, -, -, rfl⟩ := h
  rfl

theorem lineW_of_reads {s : State} {a i : Nat} {l : List Word64} (h : reads s a l) (hi : i < 8) :
    lineW l i = s.word64 (a + 8 * i) := by
  obtain ⟨-, -, -, -, rfl⟩ := h
  simp [lineW, hi]

theorem blocks_line {a : Nat} (h : a % 64 = 0) : blocks 64 a 64 = [a] := by
  have hone : (a + 64 - 1) / 64 - a / 64 + 1 = 1 := by omega
  have ha : a / 64 * 64 = a := by omega
  rw [blocks, if_neg (by omega), hone]
  simp [ha]

theorem touch_of_no_upsets {s : State} (h : s.upsets = []) (r : Region) (a n : Nat) : touch r a n s = s := by
  simp [touch, h]

theorem ctlLine_of_reads {s : State} {a : Nat} {l : List Word64} (h : reads s a l) : ctlLine a s = (s, some l) := by
  obtain ⟨⟨g, hg⟩, ha, hu, hp, rfl⟩ := h
  have hpoison : s.anyPoison (.dram g) a 64 = false := by simp [State.anyPoison, blocks_line ha, hp]
  simp [ctlLine, hg, touch_of_no_upsets hu, hpoison]

/-- A whole-line write sets the line's tag, its version above a clear POISON bit, and puts its bytes (R254, R576). -/
theorem ctlWrite_eq {s : State} {a : Nat} (h : DramLine s a) {l : List Word64} (hl : l.length = 8) (st : BitVec 48) :
    ctlWrite a l st s = (s.setTag a (st.extractLsb' 0 7 ++ (0 : BitVec 1))).rawWrite a (lineBytes l) := by
  obtain ⟨⟨g, hg⟩, ha, hu⟩ := h
  have hlen : (lineBytes l).length = 64 := by rw [lineBytes_length, hl]
  have hne : (lineBytes l).isEmpty = false := List.isEmpty_eq_false_iff.mpr (List.ne_nil_of_length_pos (by omega))
  show writeMem a (lineBytes l) (st.extractLsb' 0 7) s = _
  simp [writeMem, hne, hlen, hg, writeSpan, blocks_line ha, prepLine, hu]

section Write
variable {s : State} {a : Nat} (h : DramLine s a) {l : List Word64} (hl : l.length = 8) (st : BitVec 48)
include h hl

theorem ctlWrite_readByte_outside {j : Nat} (hj : j < a ∨ a + 64 ≤ j) : (ctlWrite a l st s).readByte j = s.readByte j := by
  have hlen : (lineBytes l).length = 64 := by rw [lineBytes_length, hl]
  rw [ctlWrite_eq h hl]
  exact readByte_rawWrite_outside _ (by rwa [hlen])

theorem ctlWrite_readByte_inside {i j : Nat} (hi : i < 8) (hj : j < 8) :
    (ctlWrite a l st s).readByte (a + 8 * i + j) = (leBytes 8 (lineW l i).toNat).getD j 0 := by
  have hlen : 8 * i + j < (lineBytes l).length := by rw [lineBytes_length, hl]; omega
  rw [ctlWrite_eq h hl, Nat.add_assoc, readByte_rawWrite_inside _ hlen, lineBytes_getD l i j (by omega) hj]

theorem ctlWrite_word64 {i : Nat} (hi : i < 8) : (ctlWrite a l st s).word64 (a + 8 * i) = lineW l i := by
  apply word64_of_rawRead
  apply List.ext_getElem (by simp)
  intro j hj hj'
  have hj8 : j < 8 := by simpa using hj
  rw [← getD_of_lt_length hj', ← ctlWrite_readByte_inside h hl st hi hj8]
  simp [State.rawRead]

theorem ctlWrite_tag_self : (ctlWrite a l st s).tag a = st.extractLsb' 0 7 ++ (0 : BitVec 1) := by
  rw [ctlWrite_eq h hl]; exact tget_tput_self _ _ _ _

theorem ctlWrite_tag_ne {b : Nat} (hb : b ≠ a) : (ctlWrite a l st s).tag b = s.tag b := by
  rw [ctlWrite_eq h hl]; exact tget_tput_ne _ hb _ _

theorem ctlWrite_onlyLines : onlyLines [a] s (ctlWrite a l st s) := by
  refine ⟨?_, fun j hj => ctlWrite_readByte_outside h hl st (hj a (List.mem_singleton_self a)),
    fun b hb => ctlWrite_tag_ne h hl st (by simpa using hb)⟩
  rw [ctlWrite_eq h hl]; rfl

theorem ctlWrite_lineOf : lineOf a st (ctlWrite a l st s) := by
  constructor
  · rw [State.version, ctlWrite_tag_self h hl]
    exact BitVec.extractLsb'_append_eq_left
  · rw [State.linePoison, ctlWrite_tag_self h hl]
    exact BitVec.getLsbD_append.trans (by simp)

/-- Another line reads as before. -/
theorem ctlWrite_reads_ne {b : Nat} {m : List Word64} (hb : b ≠ a) (hm : reads s b m) : reads (ctlWrite a l st s) b m := by
  obtain ⟨hg, hal, hu, hp, rfl⟩ := hm
  have hapart : b + 64 ≤ a ∨ a + 64 ≤ b := by have := h.aligned; omega
  refine ⟨hg, hal, ?_, ?_, ?_⟩
  · rw [ctlWrite_eq h hl]; exact hu
  · rw [State.linePoison, ctlWrite_tag_ne h hl st hb]; exact hp
  · refine List.map_congr_left fun i hi => (word64_congr fun j hj => ctlWrite_readByte_outside h hl st ?_).symm
    have := List.mem_range.mp hi
    omega

theorem ctlWrite_dramLine : DramLine (ctlWrite a l st s) a := by
  refine ⟨h.region, h.aligned, ?_⟩
  rw [ctlWrite_eq h hl]; exact h.upsets

end Write

/-- A line that is written over and then written back holds the bytes that it held. -/
theorem ctlWrite_back_readByte {s : State} {a : Nat} {b l : List Word64} (hb : reads s a b) (hl : l.length = 8)
    (st st' : BitVec 48) (j : Nat) : (ctlWrite a b st' (ctlWrite a l st s)).readByte j = s.readByte j := by
  have h := dramLine_of_reads hb
  have h' := ctlWrite_dramLine h hl st
  by_cases hj : j < a ∨ a + 64 ≤ j
  · rw [ctlWrite_readByte_outside h' (reads_length hb) st' hj, ctlWrite_readByte_outside h hl st hj]
  · have hi : (j - a) / 8 < 8 := by omega
    have hr : (j - a) % 8 < 8 := by omega
    have hsplit : j = a + 8 * ((j - a) / 8) + (j - a) % 8 := by omega
    rw [hsplit, ctlWrite_readByte_inside h' (reads_length hb) st' hi hr, lineW_of_reads hb hi, leBytes_word64,
      getD_of_lt_length (by rwa [State.rawRead_length])]
    simp [State.rawRead]

/-! ## Frames over lines -/

theorem onlyLines_trans {as : List Nat} {s t u : State} (h : onlyLines as s t) (k : onlyLines as t u) : onlyLines as s u := by
  obtain ⟨ht, hbyte, htag⟩ := h
  obtain ⟨hu, kbyte, ktag⟩ := k
  refine ⟨?_, fun j hj => (kbyte j hj).trans (hbyte j hj), fun l hl => (ktag l hl).trans (htag l hl)⟩
  rw [hu, ht]

theorem onlyLines_col {as : List Nat} {s t : State} (h : onlyLines as s t) : t.col = s.col := by
  obtain ⟨ht, -, -⟩ := h
  rw [ht]

theorem onlyLines_collBeat {as : List Nat} {s t : State} (h : onlyLines as s t) : t.collBeat = s.collBeat := by
  obtain ⟨ht, -, -⟩ := h
  rw [ht]; rfl

/-- The state of the collectives is set beside what the lines hold. -/
theorem onlyLines_with_col {as : List Nat} {s t : State} (h : onlyLines as s t) (c : ColState) :
    onlyLines as { s with col := c } { t with col := c } := by
  obtain ⟨ht, hbyte, htag⟩ := h
  exact ⟨congrArg (fun x : State => { x with col := c }) ht, hbyte, htag⟩

/-! ## The list of open collectives -/

theorem coll_opid {s : State} {opid : BitVec 16} {c : Coll} (h : s.coll opid = some c) : c.req.opid = opid := by
  simpa using List.find?_some h

/-- The collective of an OPID after a change of it that keeps the OPID. -/
theorem coll_modColl {s : State} {opid : BitVec 16} {c : Coll} (h : s.coll opid = some c) {f : Coll → Coll}
    (hf : ∀ x : Coll, x.req.opid = opid → (f x).req.opid = opid) : (s.modColl opid f).coll opid = some (f c) := by
  unfold State.coll at h
  show (s.col.opens.map fun x => if x.req.opid == opid then f x else x).find? (fun x => x.req.opid == opid) = some (f c)
  generalize s.col.opens = l at h ⊢
  induction l with
  | nil => simp at h
  | cons x xs ih =>
    by_cases hx : x.req.opid = opid
    · have hxc : x = c := by simpa [hx] using h
      subst hxc
      simp [hx, hf x hx]
    · have hrest : xs.find? (fun x => x.req.opid == opid) = some c := by simpa [hx] using h
      simpa [hx] using ih hrest

theorem setColl_eq_modColl (s : State) (c : Coll) : s.setColl c = s.modColl c.req.opid fun _ => c := rfl

theorem coll_setColl {s : State} {opid : BitVec 16} {c c' : Coll} (h : s.coll opid = some c)
    (hc : c'.req.opid = c.req.opid) : (s.setColl c').coll opid = some c' := by
  obtain rfl : c'.req.opid = opid := hc.trans (coll_opid h)
  exact setColl_eq_modColl s c' ▸ coll_modColl h fun _ _ => rfl

/-! ## Events (R503 to R505) -/

theorem emitEvent_sent (e : Event) (n : Fin 2) (s : State) : ∃ l, emitEvent e n s = { s with sent := l } := by
  unfold emitEvent
  split
  · split
    · exact ⟨_, rfl⟩
    · exact ⟨s.sent, rfl⟩
  · exact ⟨s.sent, rfl⟩

theorem emitEvent_both_sent (e : Event) (s : State) : ∃ l, emitEvent e 1 (emitEvent e 0 s) = { s with sent := l } := by
  obtain ⟨l₀, h₀⟩ := emitEvent_sent e 0 s
  obtain ⟨l₁, h₁⟩ := emitEvent_sent e 1 (emitEvent e 0 s)
  exact ⟨l₁, by rw [h₁, h₀]⟩

theorem sendEvent_onlyEvents (code : BitVec 16) (sev : BitVec 8) (p : Word32) (q : BitVec 48) (c : BitVec 16) (x : BitVec 96)
    (s : State) : onlyEvents s (sendEvent code sev p q c x s) := by
  unfold sendEvent
  split
  · rfl
  · extract_lets +onlyGivenNames e t
    obtain ⟨l, hl⟩ : ∃ l, t = { s with sent := l } := emitEvent_both_sent e s
    clear_value t
    subst hl
    split <;> rfl

theorem onlyEvents_col {s t : State} (h : onlyEvents s t) : t.col = s.col := by
  rw [onlyEvents] at h
  rw [h]

/-- Once the module is up, the newest event is the one just sent. -/
theorem sendEvent_head (code : BitVec 16) (sev : BitVec 8) (p : Word32) (q : BitVec 48) (c : BitVec 16) (x : BitVec 96)
    {s : State} (h : s.boot.state ≠ .boot) : (sendEvent code sev p q c x s).host.events.head? =
      some ⟨(s.cfgReg 0x24).extractLsb' 0 4, code, sev, s.beat, p, q, c, x, s.host.esqA, s.host.esqB⟩ := by
  rw [sendEvent, if_neg h]
  rfl

end Sys2Proof.Machine
end

