-- ==== Sys2Proof/Proofs/BobbinClaims.lean ====
section
/-! PROOFS. The claim of a bobbin slot: how a slot is chosen, what the hold lines say, and what one claim does (R281, R282). -/
namespace Sys2Proof.Machine
open Sys2Proof.Claim

/-! ## The state field of a slot -/

theorem fld_setFld_state (w : Word64) {v : Nat} (hv : v < 4) : fld (setFld w 1 0 v) 1 0 = v := by
  have hw := w.isLt
  simp only [setFld, fld, BitVec.toNat_ofNat]
  omega

theorem extractLsb'_setFld_state (w : Word64) {v : Nat} (hv : v < 4) :
    (setFld w 1 0 v).extractLsb' 2 62 = w.extractLsb' 2 62 := by
  have hw := w.isLt
  apply BitVec.eq_of_toNat_eq
  simp only [setFld, fld, BitVec.extractLsb'_toNat, BitVec.toNat_ofNat, Nat.shiftRight_eq_div_pow]
  omega

theorem setSlot_length_of_reads {s : State} {a : Nat} {b : List Word64} (hb : reads s a b) (k st : Nat) :
    (setSlot b k st).length = 8 := List.length_set.trans (reads_length hb)

theorem lineW_setSlot_self {b : List Word64} {k : Nat} (hk : 2 + k < b.length) (st : Nat) :
    lineW (setSlot b k st) (2 + k) = setFld (lineW b (2 + k)) 1 0 st := by
  simp [lineW, setSlot, hk]

theorem lineW_setSlot_ne {b : List Word64} {i k : Nat} (hi : i ≠ 2 + k) (st : Nat) :
    lineW (setSlot b k st) i = lineW b i := by
  simp [lineW, setSlot, List.getElem?_set_ne hi.symm]

/-! ## Slots of extreme STEP -/

theorem pickSlot_eq_none {b : List Word64} {lt : Nat → Nat → Bool} {l : List Nat} : pickSlot b lt l = none ↔ l = [] := by
  cases l with
  | nil => simp [pickSlot]
  | cons k t =>
    simp only [pickSlot, reduceCtorEq, iff_false]
    split
    · simp
    · split <;> simp

theorem pickSlot_mem {b : List Word64} {lt : Nat → Nat → Bool} : ∀ {l : List Nat} {k : Nat}, pickSlot b lt l = some k → k ∈ l
  | [], _, h => by simp [pickSlot] at h
  | x :: t, k, h => by
    simp only [pickSlot] at h
    split at h
    · obtain rfl : x = k := by simpa using h
      exact List.mem_cons_self
    · next j hj =>
      split at h
      · obtain rfl : j = k := by simpa using h
        exact List.mem_cons_of_mem x (pickSlot_mem hj)
      · obtain rfl : x = k := by simpa using h
        exact List.mem_cons_self

/-- No listed slot has a STEP above that of the slot picked for the highest. -/
theorem pickSlot_highest {b : List Word64} : ∀ {l : List Nat} {k : Nat}, pickSlot b (fun x y => decide (y < x)) l = some k →
    ∀ j ∈ l, (slotStep b j).toNat ≤ (slotStep b k).toNat
  | [], _, h => by simp [pickSlot] at h
  | x :: t, k, h => by
    simp only [pickSlot] at h
    split at h
    · next hnone =>
      obtain rfl : x = k := by simpa using h
      simp [pickSlot_eq_none.mp hnone]
    · next top htop =>
      have ih := pickSlot_highest htop
      simp only [decide_eq_true_eq] at h
      simp only [List.mem_cons, forall_eq_or_imp]
      split at h
      · next hlt =>
        obtain rfl : top = k := by simpa using h
        exact ⟨Nat.le_of_lt hlt, ih⟩
      · next hge =>
        obtain rfl : x = k := by simpa using h
        exact ⟨Nat.le_refl _, fun j hj => Nat.le_trans (ih j hj) (Nat.le_of_not_lt hge)⟩

/-! ## The chosen slot -/

/-- The slots of a set that are LIVE. -/
def liveSlots (b : List Word64) : List Nat := (List.range (bsetSlots b)).filter fun k => slotState b k == 2

theorem mem_liveSlots {b : List Word64} {k : Nat} : k ∈ liveSlots b ↔ k < bsetSlots b ∧ slotState b k = 2 := by
  simp [liveSlots]

theorem liveSlots_nodup (b : List Word64) : (liveSlots b).Nodup := List.nodup_range.filter _

/-- With a FREE slot, a FREE slot is chosen. -/
theorem chooseSlot_of_free {b : List Word64} {j : Nat} (hj : j < bsetSlots b) (h0 : slotState b j = 0) :
    ∃ k, chooseSlot b = some k ∧ k < bsetSlots b ∧ slotState b k = 0 := by
  cases hfind : (List.range (bsetSlots b)).find? fun k => slotState b k == 0 with
  | none => simpa [h0] using List.find?_eq_none.mp hfind j (List.mem_range.mpr hj)
  | some k =>
    refine ⟨k, ?_, List.mem_range.mp (List.mem_of_find?_eq_some hfind), by simpa using List.find?_some hfind⟩
    simp [chooseSlot, hfind]

/-- Without a FREE slot, the choice falls on a LIVE slot other than the one of highest STEP. -/
theorem chooseSlot_of_no_free {b : List Word64} (h : ∀ j, j < bsetSlots b → slotState b j ≠ 0) :
    chooseSlot b = (pickSlot b (fun x y => decide (y < x)) (liveSlots b)).bind fun top =>
      pickSlot b (fun x y => decide (x < y)) ((liveSlots b).filter (· != top)) := by
  have hfind : ((List.range (bsetSlots b)).find? fun k => slotState b k == 0) = none := by
    simpa [List.find?_eq_none] using h
  unfold liveSlots
  simp only [chooseSlot, hfind]
  cases pickSlot b (fun x y => decide (y < x)) _ <;> rfl

theorem filter_ne_eq_nil_iff {l : List Nat} (hl : l.Nodup) {x : Nat} (hx : x ∈ l) : l.filter (· != x) = [] ↔ l.length ≤ 1 := by
  have hpos := List.length_pos_of_mem hx
  rw [← hl.erase_eq_filter x, ← List.length_eq_zero_iff, List.length_erase_of_mem hx]
  omega

theorem chooseSlot_eq_none_iff (b : List Word64) : chooseSlot b = none ↔
    (∀ k, k < bsetSlots b → slotState b k ≠ 0) ∧ (liveSlots b).length ≤ 1 := by
  by_cases hfree : ∀ k, k < bsetSlots b → slotState b k ≠ 0
  · rw [chooseSlot_of_no_free hfree]
    cases htop : pickSlot b (fun x y => decide (y < x)) (liveSlots b) with
    | none => simpa [pickSlot_eq_none.mp htop] using hfree
    | some top => simpa [pickSlot_eq_none, filter_ne_eq_nil_iff (liveSlots_nodup b) (pickSlot_mem htop)] using fun _ => hfree
  · obtain ⟨j, hj, h0⟩ : ∃ j, j < bsetSlots b ∧ slotState b j = 0 := by simpa using hfree
    obtain ⟨k, hk, -⟩ := chooseSlot_of_free hj h0
    simp [hk, hfree]

/-- The chosen slot is FREE, or no slot is and it is LIVE beside another LIVE slot of no lower STEP (R281, R282). -/
theorem chooseSlot_spec {b : List Word64} {k : Nat} (h : chooseSlot b = some k) :
    k < bsetSlots b ∧ (slotState b k = 0 ∨ slotState b k = 2 ∧ (∀ j, j < bsetSlots b → slotState b j ≠ 0) ∧
      ∃ j, j < bsetSlots b ∧ j ≠ k ∧ slotState b j = 2 ∧ (slotStep b k).toNat ≤ (slotStep b j).toNat) := by
  by_cases hfree : ∀ j, j < bsetSlots b → slotState b j ≠ 0
  · rw [chooseSlot_of_no_free hfree] at h
    cases htop : pickSlot b (fun x y => decide (y < x)) (liveSlots b) with
    | none => simp [htop] at h
    | some top =>
      rw [htop, Option.bind_some] at h
      obtain ⟨hlive, hne⟩ : k ∈ liveSlots b ∧ k ≠ top := by simpa using pickSlot_mem h
      obtain ⟨hk, hk2⟩ := mem_liveSlots.mp hlive
      obtain ⟨ht, ht2⟩ := mem_liveSlots.mp (pickSlot_mem htop)
      exact ⟨hk, .inr ⟨hk2, hfree, top, ht, hne.symm, ht2, pickSlot_highest htop k hlive⟩⟩
  · obtain ⟨j, hj, h0⟩ : ∃ j, j < bsetSlots b ∧ slotState b j = 0 := by simpa using hfree
    obtain ⟨k', hk', hlt, hzero⟩ := chooseSlot_of_free hj h0
    obtain rfl : k' = k := by simpa [hk'] using h
    exact ⟨hlt, .inl hzero⟩

theorem chooseSlot_lt_five {b : List Word64} {k : Nat} (h : chooseSlot b = some k) : k < 5 :=
  Nat.lt_of_lt_of_le (chooseSlot_spec h).1 (Nat.min_le_left _ _)

/-! ## Hold lines (R278) -/

/-- The hold line h is HELD and names slot k. -/
def holdsSlot (k : Nat) (h : List Word64) : Prop := (lineW h 0).getLsbD 3 = true ∧ fld (lineW h 0) 2 0 = k

theorem fld_bit_three (w : Word64) : fld w 3 3 = 1 ↔ w.getLsbD 3 = true := by
  simp [fld, BitVec.getLsbD, Nat.testBit_eq_decide_div_mod_eq]

/-- Sound hold lines are read without a change, and one that names the slot makes the count positive. -/
theorem holdCount_of_reads {s : State} {k : Nat} : ∀ {n a : Nat} {line : Nat → List Word64},
    (∀ i, i < n → reads s (a + 64 * i) (line i)) →
    ∃ m, holdCount a k n s = (s, some m) ∧ ((∃ i, i < n ∧ holdsSlot k (line i)) → m ≠ 0)
  | 0, _, _, _ => ⟨0, rfl, fun ⟨i, hi, _⟩ => absurd hi (Nat.not_lt_zero i)⟩
  | n + 1, a, line, h => by
    have htail : ∀ i, i < n → reads s (a + 64 + 64 * i) (line (i + 1)) := fun i hi => by
      have hi' := h (i + 1) (by omega)
      rwa [show a + 64 * (i + 1) = a + 64 + 64 * i by omega] at hi'
    obtain ⟨m, hm, hpos⟩ := holdCount_of_reads (k := k) htail
    have hhead : ctlLine a s = (s, some (line 0)) := ctlLine_of_reads (h 0 (by omega))
    refine ⟨_, by simp only [holdCount, hhead, hm]; rfl, ?_⟩
    rintro ⟨i, hi, hheld⟩
    cases i with
    | zero =>
      have hone : fld (lineW (line 0) 0) 3 3 = 1 ∧ fld (lineW (line 0) 0) 2 0 = k := ⟨(fld_bit_three _).mpr hheld.1, hheld.2⟩
      rw [if_pos hone]; omega
    | succ i =>
      have := hpos ⟨i, by omega, hheld⟩
      omega

/-! ## One claim -/

/-- The claim is made again 16 beats after now. -/
def claimAgain (s : State) (c : Coll) : Coll := { c with retryAt := s.collBeat + 16 }

theorem claimSlot_of_no_choice {s : State} {c : Coll} {b : List Word64} (hb : reads s c.req.bset.toNat b)
    (hk : chooseSlot b = none) : claimSlot c s = s.modColl c.req.opid (claimAgain s) := by
  simp only [claimSlot, ctlLine_of_reads hb, hk]
  rfl

section Chosen
variable {s : State} {c : Coll} {b : List Word64} {k : Nat} (hb : reads s c.req.bset.toNat b) (hk : chooseSlot b = some k)
include hb hk

/-- A chosen slot that no hold line names: it is FILLING, and the data part begins at its address. -/
theorem claimSlot_of_no_holds (hn : fld (lineW b 7) 54 48 = 0) : claimSlot c s =
    beginColl { c with slot := some k } ((lineW b 0).toNat + k * bsetStride b)
      ((ctlWrite c.req.bset.toNat (setSlot b k 1) c.req.step s).setColl { c with slot := some k }) := by
  simp only [claimSlot, ctlLine_of_reads hb, hk, hn, holdCount]
  rfl

/-- A chosen slot that a hold line names: the set is written back, and the claim is made again after 16 beats. -/
theorem claimSlot_of_held {line : Nat → List Word64}
    (hline : ∀ i, i < fld (lineW b 7) 54 48 →
      reads s (fld (lineW b 7) 47 0 + 64 * i) (line i) ∧ fld (lineW b 7) 47 0 + 64 * i ≠ c.req.bset.toNat)
    (hheld : ∃ i, i < fld (lineW b 7) 54 48 ∧ holdsSlot k (line i)) : claimSlot c s =
    (ctlWrite c.req.bset.toNat b c.req.step (ctlWrite c.req.bset.toNat (setSlot b k 1) c.req.step s)).modColl c.req.opid
      (claimAgain s) := by
  have h := dramLine_of_reads hb
  have hl := setSlot_length_of_reads hb k 1
  have h' := ctlWrite_dramLine h hl c.req.step
  obtain ⟨m, hm, hpos⟩ := holdCount_of_reads (k := k) fun i hi => ctlWrite_reads_ne h hl c.req.step (hline i hi).2 (hline i hi).1
  have hbeat := (onlyLines_collBeat (ctlWrite_onlyLines h' (reads_length hb) c.req.step)).trans
    (onlyLines_collBeat (ctlWrite_onlyLines h hl c.req.step))
  simp only [claimSlot, ctlLine_of_reads hb, hk, hm, if_pos (hpos hheld), hbeat]
  rfl

end Chosen

/-! ## When a claim is made -/

/-- Command e makes a claim now: the first one, or a repeated one whose beat has come. -/
def claimsNow (e : Instr) (opid : BitVec 16) (c : Coll) (s : State) : Prop :=
  (e = .bobbinClaim opid ∧ c.retryAt = c.claimSince) ∨
    (e = .bobbinClaimRetry opid ∧ c.retryAt ≠ c.claimSince ∧ (c.retryAt - s.collBeat).toInt ≤ 0)

theorem later_eq_false {a b : Beat} (h : (a - b).toInt ≤ 0) : later a b = false := by
  simpa [later] using h

section Claiming
variable {s : State} {opid : BitVec 16} {c : Coll} (hready : s.isReady = true) (hc : s.coll opid = some c)
  (hphase : c.phase = .claiming)
include hready hc hphase

theorem claiming_eq : claiming opid s = some c := by simp [claiming, hc, hready, hphase]

theorem exec_of_claimsNow {e : Instr} (he : claimsNow e opid c s) : exec e s = .next (claimSlot c s) := by
  rcases he with ⟨rfl, hfirst⟩ | ⟨rfl, hagain, hdue⟩
  · show execBobbinClaim opid s = _
    simp [execBobbinClaim, claiming_eq hready hc hphase, hfirst]
  · show execBobbinClaimRetry opid s = _
    simp [execBobbinClaimRetry, claiming_eq hready hc hphase, hagain, later_eq_false hdue]

/-- COL_BOBBIN_WAIT beats after the claim began the stall is reported, unless it has been (R282). -/
theorem exec_bobbinStall_due (hwait : (s.cfgReg 0x030020).toNat ≤ (s.collBeat - c.claimSince).toNat)
    (hsent : c.stallSent = false) : exec (.bobbinStall opid) s = .next
      (sendEvent 0x0044 1 0 c.req.step 0 (xAddr c.req.bset.toNat) (s.setColl { c with stallSent := true })) := by
  show execBobbinStall opid s = _
  have hdue : (s.cfgReg 0x030020).toNat ≤ beatsSince s.collBeat c.claimSince := hwait
  simp [execBobbinStall, claiming_eq hready hc hphase, hsent, hdue]

theorem exec_bobbinStall_idle (h : (s.collBeat - c.claimSince).toNat < (s.cfgReg 0x030020).toNat ∨ c.stallSent = true) :
    exec (.bobbinStall opid) s = .next s := by
  show execBobbinStall opid s = _
  rcases h with hearly | hsent
  · have hnot : ¬ (s.cfgReg 0x030020).toNat ≤ beatsSince s.collBeat c.claimSince := Nat.not_le_of_lt hearly
    simp [execBobbinStall, claiming_eq hready hc hphase, hnot]
  · simp [execBobbinStall, claiming_eq hready hc hphase, hsent]

end Claiming

/-! ## The clauses of the statement -/

/-- The set and the collective once slot k is FILLING (R281). -/
theorem claimed_slot_filling {s : State} {opid : BitVec 16} {c : Coll} {b : List Word64} {k : Nat} (hc : s.coll opid = some c)
    (hb : reads s c.req.bset.toNat b) (hk : chooseSlot b = some k) :
    let x := (ctlWrite c.req.bset.toNat (setSlot b k 1) c.req.step s).setColl { c with slot := some k }
    x.col = { s.col with opens := x.col.opens } ∧ x.coll opid = some { c with slot := some k } ∧
      fld (x.word64 (c.req.bset.toNat + 8 * (2 + k))) 1 0 = 1 ∧
      (x.word64 (c.req.bset.toNat + 8 * (2 + k))).extractLsb' 2 62 = (lineW b (2 + k)).extractLsb' 2 62 ∧
      (∀ i, i < 8 → i ≠ 2 + k → x.word64 (c.req.bset.toNat + 8 * i) = s.word64 (c.req.bset.toNat + 8 * i)) ∧
      onlyLines [c.req.bset.toNat] { s with col := x.col } x ∧ lineOf c.req.bset.toNat c.req.step x := by
  intro x
  have h := dramLine_of_reads hb
  have hl := setSlot_length_of_reads hb k 1
  have hk5 := chooseSlot_lt_five hk
  have hlines := ctlWrite_onlyLines h hl c.req.step
  have hcol := onlyLines_col hlines
  have hword : ∀ i, i < 8 → x.word64 (c.req.bset.toNat + 8 * i) = lineW (setSlot b k 1) i :=
    fun i hi => ctlWrite_word64 h hl c.req.step hi
  have hslot : x.word64 (c.req.bset.toNat + 8 * (2 + k)) = setFld (lineW b (2 + k)) 1 0 1 := by
    rw [hword (2 + k) (by omega), lineW_setSlot_self (by rw [reads_length hb]; omega)]
  refine ⟨?_, ?_, ?_, ?_, fun i hi hne => ?_, onlyLines_with_col hlines x.col, ctlWrite_lineOf h hl c.req.step⟩
  · show { (ctlWrite c.req.bset.toNat (setSlot b k 1) c.req.step s).col with opens := x.col.opens } = _
    rw [hcol]
  · refine coll_setColl (c := c) ?_ rfl
    rw [State.coll, hcol]; exact hc
  · rw [hslot]; exact fld_setFld_state _ (by omega)
  · rw [hslot]; exact extractLsb'_setFld_state _ (by omega)
  · rw [hword i hi, lineW_setSlot_ne hne, lineW_of_reads hb hi]

/-- The set and the collective once a held slot has been given back (R282). -/
theorem claim_given_back {s : State} {opid : BitVec 16} {c : Coll} {b : List Word64} (hc : s.coll opid = some c)
    (hb : reads s c.req.bset.toNat b) {l : List Word64} (hl : l.length = 8) :
    let x := (ctlWrite c.req.bset.toNat b c.req.step (ctlWrite c.req.bset.toNat l c.req.step s)).modColl c.req.opid (claimAgain s)
    x.col = { s.col with opens := x.col.opens } ∧ x.coll opid = some { c with retryAt := s.collBeat + 16 } ∧
      (∀ j, x.readByte j = s.readByte j) ∧ onlyLines [c.req.bset.toNat] { s with col := x.col } x := by
  intro x
  have h := dramLine_of_reads hb
  have hlines := onlyLines_trans (ctlWrite_onlyLines h hl c.req.step)
    (ctlWrite_onlyLines (ctlWrite_dramLine h hl c.req.step) (reads_length hb) c.req.step)
  have hcol := onlyLines_col hlines
  have hopid := coll_opid hc
  refine ⟨?_, ?_, ctlWrite_back_readByte hb hl c.req.step c.req.step, onlyLines_with_col hlines x.col⟩
  · show { (ctlWrite c.req.bset.toNat b c.req.step (ctlWrite c.req.bset.toNat l c.req.step s)).col with
      opens := x.col.opens } = _
    rw [hcol]
  · subst hopid
    refine coll_modColl (f := claimAgain s) ?_ fun _ hx => hx
    rw [State.coll, hcol]; exact hc

/-- The event of a stall, and the collective that has reported it (R282). -/
theorem stall_reported {s : State} {opid : BitVec 16} {c : Coll} (hready : s.isReady = true) (hc : s.coll opid = some c) :
    let t := sendEvent 0x0044 1 0 c.req.step 0 (xAddr c.req.bset.toNat) (s.setColl { c with stallSent := true })
    t.coll opid = some { c with stallSent := true } ∧ onlyEvents (s.setColl { c with stallSent := true }) t ∧
      newest 0x0044 1 0 c.req.step 0 t ∧ t.host.events.head?.map (·.x) = some (xAddr c.req.bset.toNat) := by
  intro t
  have hup : (s.setColl { c with stallSent := true }).boot.state ≠ .boot := by
    have hstate : s.boot.state = .ready := by simpa [State.isReady] using hready
    simp [hstate]
  have honly : onlyEvents (s.setColl { c with stallSent := true }) t := sendEvent_onlyEvents ..
  have hhead := sendEvent_head 0x0044 1 0 c.req.step 0 (xAddr c.req.bset.toNat) hup
  refine ⟨?_, honly, ⟨_, hhead, rfl, rfl, rfl, rfl, rfl⟩, by rw [hhead]; rfl⟩
  rw [State.coll, onlyEvents_col honly]
  exact coll_setColl hc rfl

/-- Settles O40. A claim reads the set's line, and the slot that `chooseSlot_spec` describes is written FILLING before the
hold lines are counted; where one names it the line is written back, byte for byte. -/
theorem bobbinClaims : Obligations.BobbinClaims := by
  unfold Obligations.BobbinClaims
  refine ⟨rfl, ?_, ?_, chooseSlot_eq_none_iff, ?_, ?_⟩
  · intro opid c b e s hready hc hphase hb hn he
    rw [exec_of_claimsNow hready hc hphase he]
    refine ⟨fun k hk => ⟨_, congrArg _ (claimSlot_of_no_holds hb hk hn), claimed_slot_filling hc hb hk⟩, fun hnone => ?_⟩
    rw [claimSlot_of_no_choice hb hnone, coll_opid hc]
    rfl
  · intro opid c b line k e s hready hc hphase hb hk he n at' hline hheld
    rw [exec_of_claimsNow hready hc hphase he]
    exact ⟨_, congrArg _ (claimSlot_of_held hb hk hline hheld), claim_given_back hc hb (setSlot_length_of_reads hb k 1)⟩
  · intro b k hk
    obtain ⟨hlt, hfree | ⟨hlive, hnofree, hother⟩⟩ := chooseSlot_spec hk
    · exact ⟨hlt, .inl hfree, fun h2 => by omega⟩
    · exact ⟨hlt, .inr hlive, fun _ => ⟨hnofree, hother⟩⟩
  · intro opid c s hready hc hphase
    exact ⟨fun hwait hsent => ⟨_, exec_bobbinStall_due hready hc hphase hwait hsent, stall_reported hready hc⟩,
      exec_bobbinStall_idle hready hc hphase⟩

end Sys2Proof.Machine
end
